-- ==== Sys2Proof/Word.lean ====
section
/-!
DEFINITION. The word types of the Stoiq (00 R2: little-endian, bytes of 8 bits).
-/
namespace Sys2Proof

/-- A byte of memory. -/
abbrev Byte := BitVec 8

/-- A 32-bit word: a vector element, an instruction word (03 R45). -/
abbrev Word32 := BitVec 32

/-- A 64-bit word: a scalar register, a virtual address. -/
abbrev Word64 := BitVec 64

/-- The 1,024 elements of 32 bits of a vector register, element e in bits 32e to 32e+31 (02 R26). -/
abbrev VecBits := BitVec 32768

/-- The 1,024 bits of a predicate register, bit e for element e (02 R26). -/
abbrev PredBits := BitVec 1024

/-- The number of a deferral-table entry, which a poisoned element carries (24 R389). -/
abbrev Tag := BitVec 4

/-- The coordinates of a core in the mesh of the device (01 R12): x 0 to 31, y 0 to 15. -/
structure CoreId where
  x : BitVec 5
  y : BitVec 4
deriving DecidableEq, Repr

/-- A resident group is named by its core and its resident slot (02 R40, gid and cid). -/
structure GKey where
  x : BitVec 5
  y : BitVec 4
  rs : BitVec 3
deriving DecidableEq, Repr

/-- The core of a group. -/
def GKey.core (g : GKey) : CoreId := ⟨g.x, g.y⟩

/-- An engine command is named by its group, timeline and number (10 R205, 26 R410), or by the
queue whose copy context runs it (20 R342). -/
inductive CKey where
  | group (g : GKey) (tl : BitVec 4) (num : Word64)
  | queue (part : BitVec 4) (q : BitVec 4)
deriving DecidableEq, Repr

/-- For whom a walk is made (24 R382, R383): an instruction of a group, an engine command, or the migration of a page. -/
inductive WalkFor where
  | group (g : GKey)
  | cmd (c : CKey)
  | migration (index : Nat)
deriving DecidableEq, Repr

/-- A device queue of a partition (20 R332). -/
structure QKey where
  part : BitVec 4
  q : BitVec 4
deriving DecidableEq, Repr

end Sys2Proof
end

