-- ==== Sys2Proof/Machine/Bits.lean ====
section
/-!
DEFINITION. Bit fields, byte order (little-endian, 00 R2), sign extension and packing of elements.
-/
namespace Sys2Proof.Machine

/-- The low `n` bytes of a number, the least significant first. -/
def leBytes : Nat → Nat → List Byte
  | 0, _ => []
  | n + 1, w => BitVec.ofNat 8 w :: leBytes n (w / 256)

/-- The number that bytes hold, the least significant first. -/
def ofLeBytes : List Byte → Nat
  | [] => 0
  | b :: bs => b.toNat + 256 * ofLeBytes bs

/-- A number read from `n` bytes at index `i` of a record. -/
def recNat (bs : List Byte) (i n : Nat) : Nat := ofLeBytes ((bs.drop i).take n)

/-- The signed number whose two's complement in `n` bits is `w`. -/
def toSigned (n w : Nat) : Int := if w % 2 ^ n < 2 ^ (n - 1) then w % 2 ^ n else (w % 2 ^ n : Int) - 2 ^ n

/-- A signed number modulo 2^n. -/
def wrap (n : Nat) (i : Int) : Nat := (i % (2 ^ n : Int)).toNat

/-- Sign extension of 32 bits to 64 bits. -/
def sext32 (w : Word32) : Word64 := w.signExtend 64

/-- Value `i` of a packed sequence of `w`-bit values. -/
def unpackNat (w v i : Nat) : Nat := v / 2 ^ (w * i) % 2 ^ w

/-- Element e of a vector register. -/
def elem (v : VecBits) (e : Nat) : Word32 := v.extractLsb' (32 * e) 32

/-- Bits `hi` down to `lo` of a number. -/
def bitsNat (w hi lo : Nat) : Nat := w / 2 ^ lo % 2 ^ (hi + 1 - lo)

/-- Bit `i` of a number, as 0 or 1. -/
def bitNat (w i : Nat) : Nat := w / 2 ^ i % 2

/-- floor(log2 n), for n above zero. -/
def log2 (n : Nat) : Nat := Nat.log2 n

end Sys2Proof.Machine
end

