-- ==== Sys2Proof/Machine/Float.lean ====
section
/-!
DEFINITION. Number formats and the one rounding of every floating-point result (15): decoding of the standard and slot
formats into exact values, exact arithmetic, and `roundTo`.
-/
namespace Sys2Proof.Machine

/-! ### Flags (15 R259) -/

/-- The six sticky flags of one element, as RDFL shows them. -/
abbrev Fl := BitVec 6
/-- Invalid. -/
def flNV : Fl := 0x01
/-- Division by zero. -/
def flDZ : Fl := 0x02
/-- Overflow. -/
def flOF : Fl := 0x04
/-- Underflow. -/
def flUF : Fl := 0x08
/-- Inexact. -/
def flNX : Fl := 0x10
/-- Saturation. -/
def flSAT : Fl := 0x20

/-! ### Formats -/

/-- The special policy of a format (15 R255): all finite, one NaN code, IEEE-like, saturating with one NaN code. -/
inductive Spc where
  | finite | nan | ieee | sat
deriving DecidableEq, Repr

/-- A format: exponent width, mantissa width, bias, sign bit, integer mode, special policy, and whether it is one of
the standard formats, whose NaNs may signal (15 R244, R252). -/
structure Fmt where
  eb : Nat
  mb : Nat
  bias : Int
  sgn : Bool := true
  int : Bool := false
  spc : Spc := .ieee
  std : Bool := false
deriving DecidableEq, Repr

/-- FP64. -/
def f64 : Fmt := { eb := 11, mb := 52, bias := 1023, std := true }
/-- FP32. -/
def f32 : Fmt := { eb := 8, mb := 23, bias := 127, std := true }
/-- H16. -/
def h16 : Fmt := { eb := 5, mb := 10, bias := 15, std := true }
/-- B16. -/
def b16 : Fmt := { eb := 8, mb := 7, bias := 127, std := true }

/-- The format of a floating-point T code (03 R57). -/
def fmtOf (t : BitVec 3) : Fmt := if t = 0 then f32 else if t = 1 then f64 else if t = 2 then b16 else h16

/-- The width of a format (15 R254). -/
def Fmt.width (F : Fmt) : Nat := F.sgn.toNat + F.eb + F.mb

/-- The exponent of the least quantum: every value of the format is a multiple of 2 to this power (15 R254). -/
def Fmt.qmin (F : Fmt) : Int := if F.eb = 0 then -F.bias else 1 - F.bias - F.mb

/-- The exponent of the smallest normal magnitude (15 R254, R256). -/
def Fmt.emin (F : Fmt) : Int := if F.eb = 0 then -F.bias else 1 - F.bias

/-- The largest finite magnitude of one sign, as a multiple of 2^q (15 R255, R256): the reserved codes are left out. -/
def Fmt.maxFin (F : Fmt) (neg : Bool) : Nat × Int :=
  if F.eb = 0 then
    (if F.int && F.sgn && neg && F.spc != .sat then 2 ^ F.mb else 2 ^ F.mb - 1, -F.bias)
  else
    let top := 2 ^ F.eb - 1
    match F.spc with
    | .finite => (2 * 2 ^ F.mb - 1, top - F.bias - F.mb)
    | .ieee => if F.eb = 1 then (2 ^ F.mb - 1, F.qmin) else (2 * 2 ^ F.mb - 1, top - 1 - F.bias - F.mb)
    | _ =>
      if F.mb = 0 then (if F.eb = 1 then 0 else 1, top - 1 - F.bias) else (2 * 2 ^ F.mb - 2, top - F.bias - F.mb)

/-- The format has a NaN code (15 R255). -/
def Fmt.hasNan (F : Fmt) : Bool :=
  match F.spc with
  | .finite => false
  | .nan => true
  | .ieee => F.mb != 0
  | .sat => F.eb != 0 || F.sgn

/-- The canonical NaN code (15 R245, R255). -/
def Fmt.nanCode (F : Fmt) : Nat :=
  if F.eb = 0 then 2 ^ F.mb
  else if F.spc = .ieee then (2 ^ F.eb - 1) * 2 ^ F.mb + 2 ^ (F.mb - 1)
  else 2 ^ (F.eb + F.mb) - 1

/-- The code of an infinity (15 R244). -/
def Fmt.infCode (F : Fmt) (neg : Bool) : Nat :=
  (if neg then 2 ^ (F.eb + F.mb) else 0) + (2 ^ F.eb - 1) * 2 ^ F.mb

/-! ### Values -/

/-- An operand read from its code: a NaN, which may signal, an infinity, or the finite value (-1)^neg * m * 2^e. -/
inductive Fp where
  | nan (sig : Bool)
  | inf (neg : Bool)
  | fin (neg : Bool) (m : Nat) (e : Int)
deriving DecidableEq, Repr

/-- The value of a code (15 R244, R254, R255). -/
def decodeFp (F : Fmt) (c : Nat) : Fp :=
  let neg := F.sgn && bitNat c (F.eb + F.mb) = 1
  let m := c % 2 ^ F.mb
  if F.eb = 0 then
    if F.spc = .sat && neg && m = 0 then .nan false
    else if F.int then .fin neg (if neg then 2 ^ F.mb - m else m) (-F.bias)
    else .fin neg m (-F.bias)
  else
    let e := c / 2 ^ F.mb % 2 ^ F.eb
    let top := 2 ^ F.eb - 1
    let one := e = top && m = 2 ^ F.mb - 1
    if F.spc = .ieee && e = top then
      if m = 0 then .inf neg else .nan (F.std && bitNat m (F.mb - 1) = 0)
    else if (F.spc = .nan || F.spc = .sat) && one then .nan false
    else if e = 0 then .fin neg m (1 - F.bias - F.mb)
    else .fin neg (2 ^ F.mb + m) (e - F.bias - F.mb)

/-- The code of the representable value (-1)^neg * k * 2^q. -/
def encodeFp (F : Fmt) (neg : Bool) (k : Nat) (q : Int) : Nat :=
  let sign := if neg && F.sgn then 2 ^ (F.eb + F.mb) else 0
  let scale (x : Int) : Nat := if 0 ≤ q - x then k * 2 ^ (q - x).toNat else k / 2 ^ (x - q).toNat
  if F.eb = 0 then
    let m := scale F.qmin
    if F.int then (if neg then 2 ^ (F.mb + 1) - m else m) % 2 ^ (F.sgn.toNat + F.mb)
    else if m = 0 && F.spc = .sat then 0
    else sign + m
  else if k = 0 then sign
  else
    let ex : Int := log2 k + q
    if ex < F.emin then sign + scale F.qmin
    else sign + (ex + F.bias).toNat * 2 ^ F.mb + (scale (ex - F.mb) - 2 ^ F.mb)

/-- An exact real result: NaN, an infinity, or a finite value of magnitude (m + d) * 2^e, where d is zero, or, when
`sticky` holds, some number strictly between 0 and 1 whose further digits no rounding of the result can ask for. -/
inductive Exact where
  | nan
  | inf (neg : Bool)
  | num (neg : Bool) (m : Nat) (e : Int) (sticky : Bool)
deriving DecidableEq, Repr

/-- The exact value of an operand. -/
def Fp.exact : Fp → Exact
  | .nan _ => .nan
  | .inf n => .inf n
  | .fin n m e => .num n m e false

/-- The operand is a NaN. -/
def Fp.isNan : Fp → Bool
  | .nan _ => true
  | _ => false

/-- A signalling NaN operand sets NV (15 R245). -/
def Fp.sigFl : Fp → Fl
  | .nan true => flNV
  | _ => 0

/-! ### Rounding -/

/-- The rounding modes (15 R247). -/
inductive Rm where
  | rne | rtz | rdn | rup | rna | sr
deriving DecidableEq, Repr

/-- The mode of a code 001 to 110; other codes stand in no register and no word (02 R39, 03 R58). -/
def rmOf (c : BitVec 3) : Rm :=
  if c = 2 then .rtz else if c = 3 then .rdn else if c = 4 then .rup else if c = 5 then .rna
  else if c = 6 then .sr else .rne

/-- Whether the neighbour of larger magnitude is picked for a value (a + (rem + d) / 2^sh) between a and a + 1, under
R247 and R250. -/
def pickUp (mode : Rm) (rnd : Nat) (neg : Bool) (a rem sh : Nat) (sticky : Bool) : Bool :=
  let half := 2 ^ (sh - 1)
  let above := rem > half || (rem = half && sticky)
  let tie := rem = half && !sticky
  match mode with
  | .rne => above || (tie && a % 2 = 1)
  | .rtz => false
  | .rdn => neg
  | .rup => !neg
  | .rna => above || tie
  | .sr => rnd < rem * 2 ^ 32 / 2 ^ sh

/-- A finite magnitude rounded to a multiple of 2^q: the multiple, whether it is inexact, whether the larger neighbour
was picked. -/
def roundAt (mode : Rm) (rnd : Nat) (neg : Bool) (m : Nat) (e : Int) (sticky : Bool) (q : Int) : Nat × Bool × Bool :=
  if q ≤ e then (m * 2 ^ (e - q).toNat, sticky, false)
  else
    let sh := (q - e).toNat
    let a := m / 2 ^ sh
    let rem := m % 2 ^ sh
    if rem = 0 && !sticky then (a, false, false)
    else
      let up := pickUp mode rnd neg a rem sh sticky
      (if up then a + 1 else a, true, up)

/-- k * 2^q exceeds l * 2^r. -/
def gtScaled (k : Nat) (q : Int) (l : Nat) (r : Int) : Bool :=
  if r ≤ q then k * 2 ^ (q - r).toNat > l else k > l * 2 ^ (r - q).toNat

/-- The NaN that a rule delivers into a format: the canonical NaN, or +0 with NV where the format has none (15 R255). -/
def nanInto (F : Fmt) : Nat × Fl := if F.hasNan then (F.nanCode, 0) else (0, flNV)

/-- The largest finite value of one sign; +0 with NV for a negative value in a format without sign (15 R256). -/
def maxInto (F : Fmt) (neg : Bool) (fl : Fl) : Nat × Fl :=
  if neg && !F.sgn then (0, flNV) else
  let (k, q) := F.maxFin neg
  (encodeFp F neg k q, fl)

/-- An overflow whose mode picks an infinity (15 R248, R256). -/
def overflowInto (F : Fmt) (neg : Bool) : Nat × Fl :=
  match F.spc with
  | .ieee => if neg && !F.sgn then (0, flNV) else (F.infCode neg, flOF ||| flNX)
  | .nan => if neg && !F.sgn then (0, flNV) else (F.nanCode, flOF ||| flNX)
  | _ => maxInto F neg (flOF ||| flNX ||| flSAT)

/-- An infinite operand rounded into a format (15 R247, R256). -/
def infInto (F : Fmt) (neg : Bool) : Nat × Fl :=
  if neg && !F.sgn then (0, flNV)
  else match F.spc with
  | .ieee => (F.infCode neg, 0)
  | .nan => (F.nanCode, flNV)
  | _ => maxInto F neg flSAT

/-- A finite nonzero magnitude rounded into a format (15 R247, R248, R256). -/
def roundFin (F : Fmt) (mode : Rm) (rnd : Nat) (neg : Bool) (m : Nat) (e : Int) (sticky : Bool) : Nat × Fl :=
  let qu : Int := if F.eb = 0 then F.qmin else log2 m + e - F.mb
  let q : Int := if F.qmin ≤ qu then qu else F.qmin
  let (k, nx, up) := roundAt mode rnd neg m e sticky q
  let mx := F.maxFin neg
  if gtScaled k q mx.1 mx.2 then
    match mode with
    | .rtz => maxInto F neg (flOF ||| flNX)
    | .rdn => if neg then overflowInto F neg else maxInto F neg (flOF ||| flNX)
    | .rup => if neg then maxInto F neg (flOF ||| flNX) else overflowInto F neg
    | _ => overflowInto F neg
  else
    -- the rounding with an unbounded exponent range; under SR it goes to the delivered side
    let mode' : Rm := if mode = .sr then (if up = neg then .rdn else .rup) else mode
    let ku := (roundAt mode' rnd neg m e sticky qu).1
    let tiny := nx && (k = 0 || gtScaled 1 F.emin ku qu)
    if neg && !F.sgn && k != 0 then (0, flNV)
    else (encodeFp F neg k q, (if nx then flNX else 0) ||| (if tiny then flUF else 0))

/-- round_to (15 R247, R256): the one rounding of an exact result. -/
def roundTo (F : Fmt) (mode : Rm) (rnd : Nat) (x : Exact) : Nat × Fl :=
  match x with
  | .nan => nanInto F
  | .inf neg => infInto F neg
  | .num neg m e sticky => if m = 0 && !sticky then (encodeFp F neg 0 0, 0) else roundFin F mode rnd neg m e sticky

/-- Rotation left on 64 bits. -/
def rotl64 (x : Word64) (n : Nat) : Word64 := x.rotateLeft n

/-- One of the six rounds of srf (15 R251). -/
def srfRound (s : Word64 × Word64 × Word64 × Word64) : Word64 × Word64 × Word64 × Word64 :=
  let (a, b, c, d) := s
  let a := a + b
  let d := rotl64 (d ^^^ a) 23
  let c := c + d
  let b := rotl64 (b ^^^ c) 41
  let a := a + b
  let d := rotl64 (d ^^^ a) 11
  let c := c + d
  let b := rotl64 (b ^^^ c) 59
  (a, b, c, d)

/-- srf (15 R251), the draw of stochastic rounding. -/
def srf (seed : Word64) (gmi : Word32) (dic : Word64) (lane pos : Nat) : Nat :=
  let s0 : Word64 × Word64 × Word64 × Word64 :=
    (seed, dic ^^^ 0x9E3779B97F4A7C15, BitVec.ofNat 64 (gmi.toNat * 2 ^ 32 + lane * 2 ^ 8 + pos), 0xC2B2AE3D27D4EB4F)
  let (a, b, c, d) := srfRound (srfRound (srfRound (srfRound (srfRound (srfRound s0)))))
  ((a ^^^ b ^^^ c ^^^ d).setWidth 32 : Word32).toNat

/-! ### Exact arithmetic (17 R281, R282) -/

/-- The signed integer of a magnitude. -/
def signedM (neg : Bool) (m : Nat) : Int := if neg then -(m : Int) else m

/-- The exact sum of two finite values; the sign of a zero sum is `z` (17 R282). -/
def addFin (n1 : Bool) (m1 : Nat) (e1 : Int) (n2 : Bool) (m2 : Nat) (e2 : Int) (z : Bool) : Exact :=
  let e := if e1 ≤ e2 then e1 else e2
  let s := signedM n1 (m1 * 2 ^ (e1 - e).toNat) + signedM n2 (m2 * 2 ^ (e2 - e).toNat)
  if s = 0 then .num (if m1 = 0 && m2 = 0 && n1 && n2 then true else if m1 = 0 && m2 = 0 && n1 = n2 then false else z)
      0 0 false
  else .num (s < 0) s.natAbs e false

/-- The exact sum of two exact values with the flag of an invalid sum (17 R282). -/
def addX (x y : Exact) (rdn : Bool) : Exact × Fl :=
  match x, y with
  | .nan, _ => (.nan, 0)
  | _, .nan => (.nan, 0)
  | .inf a, .inf b => if a = b then (.inf a, 0) else (.nan, flNV)
  | .inf a, _ => (.inf a, 0)
  | _, .inf b => (.inf b, 0)
  | .num n1 m1 e1 _, .num n2 m2 e2 _ => (addFin n1 m1 e1 n2 m2 e2 rdn, 0)

/-- The exact product (17 R282). -/
def mulX (x y : Exact) : Exact × Fl :=
  match x, y with
  | .nan, _ => (.nan, 0)
  | _, .nan => (.nan, 0)
  | .inf a, .inf b => (.inf (a != b), 0)
  | .inf a, .num n m _ _ => if m = 0 then (.nan, flNV) else (.inf (a != n), 0)
  | .num n m _ _, .inf b => if m = 0 then (.nan, flNV) else (.inf (n != b), 0)
  | .num n1 m1 e1 _, .num n2 m2 e2 _ => (.num (n1 != n2) (m1 * m2) (e1 + e2) false, 0)

/-- The negation of an exact value. -/
def negX : Exact → Exact
  | .nan => .nan
  | .inf n => .inf !n
  | .num n m e s => .num (!n) m e s

/-- The quotient of two nonzero magnitudes to 200 bits or more, with what remains as `sticky`. -/
def divMag (neg : Bool) (m1 : Nat) (e1 : Int) (m2 : Nat) (e2 : Int) : Exact :=
  let k := log2 m2 + 200
  let n := m1 * 2 ^ k
  .num neg (n / m2) (e1 - e2 - k) (n % m2 != 0)

/-- The exact quotient (17 R282). -/
def divX (x y : Exact) : Exact × Fl :=
  match x, y with
  | .nan, _ => (.nan, 0)
  | _, .nan => (.nan, 0)
  | .inf _, .inf _ => (.nan, flNV)
  | .inf a, .num n _ _ _ => (.inf (a != n), 0)
  | .num n _ _ _, .inf b => (.num (n != b) 0 0 false, 0)
  | .num n1 m1 e1 _, .num n2 m2 e2 _ =>
    if m2 = 0 then (if m1 = 0 then (.nan, flNV) else (.inf (n1 != n2), flDZ))
    else if m1 = 0 then (.num (n1 != n2) 0 0 false, 0)
    else (divMag (n1 != n2) m1 e1 m2 e2, 0)

/-- The integer square root, one bit of the result a round. -/
def isqrtGo (n : Nat) : Nat → Nat → Nat
  | 0, r => r
  | k + 1, r =>
    let r' := r + 2 ^ k
    if r' * r' ≤ n then isqrtGo n k r' else isqrtGo n k r

/-- floor(sqrt n). -/
def isqrt (n : Nat) : Nat := isqrtGo n (log2 n / 2 + 1) 0

/-- The square root of a nonzero magnitude to 200 bits or more. -/
def sqrtMag (m : Nat) (e : Int) : Exact :=
  -- an even exponent, and 400 bits of room
  let k : Nat := 400 + (if e % 2 = 0 then 0 else 1)
  let n := m * 2 ^ k
  let r := isqrt n
  .num false r ((e - k) / 2) (r * r != n)

/-- The exact square root (17 R282). -/
def sqrtX (x : Exact) : Exact × Fl :=
  match x with
  | .nan => (.nan, 0)
  | .inf n => if n then (.nan, flNV) else (.inf false, 0)
  | .num n m e _ =>
    if m = 0 then (.num n 0 0 false, 0)
    else if n then (.nan, flNV)
    else (sqrtMag m e, 0)

/-- The order of two exact values that are not NaN; -0 equals +0. -/
def cmpX (x y : Exact) : Ordering :=
  match x, y with
  | .inf a, .inf b => if a = b then .eq else if a then .lt else .gt
  | .inf a, _ => if a then .lt else .gt
  | _, .inf b => if b then .gt else .lt
  | .num n1 m1 e1 _, .num n2 m2 e2 _ =>
    let e := if e1 ≤ e2 then e1 else e2
    compare (signedM n1 (m1 * 2 ^ (e1 - e).toNat)) (signedM n2 (m2 * 2 ^ (e2 - e).toNat))
  | _, _ => .eq

/-- x lies below y, with -0 below +0 (17 R284); neither is a NaN. -/
def ltSigned (x y : Exact) : Bool :=
  match cmpX x y with
  | .lt => true
  | .gt => false
  | .eq =>
    match x, y with
    | .num a 0 _ _, .num b 0 _ _ => a && !b
    | _, _ => false

/-- The integral neighbours of a magnitude: its floor, and whether a fraction remains. -/
def floorMag (m : Nat) (e : Int) : Nat × Bool :=
  if 0 ≤ e then (m * 2 ^ e.toNat, false) else (m / 2 ^ (-e).toNat, m % 2 ^ (-e).toNat != 0)

/-- A finite value rounded to an integral magnitude under a mode (17 R290, R297). -/
def roundInt (mode : Rm) (rnd : Nat) (neg : Bool) (m : Nat) (e : Int) : Nat × Bool :=
  let r := roundAt mode rnd neg m e false 0
  (r.1, r.2.1)

/-! ### 2^a and log2 a (17 R289)

Both are bounded from below and above by fixed-point arithmetic with `prec` fractional bits and widened until the two
bounds agree in the bits that are delivered. Every value that is not one of the exact cases is irrational. -/

/-- The fractional bits of the fixed-point arithmetic. -/
def fxBits : Nat := 512

/-- Bits 1 to n of log2 of y / 2^fxBits, for y in [2^fxBits, 2^(fxBits+1)), by repeated squaring, each square truncated. -/
def log2Bits : Nat → Nat → Nat → Nat
  | 0, _, acc => acc
  | n + 1, y, acc =>
    let y2 := y * y / 2 ^ fxBits
    if y2 ≥ 2 ^ (fxBits + 1) then log2Bits n (y2 / 2) (2 * acc + 1) else log2Bits n y2 (2 * acc)

/-- log2 of a positive finite value that is no power of two: 200 fractional bits of its floor, and `sticky`. -/
def log2X (m : Nat) (e : Int) : Exact :=
  let k := log2 m
  let y := if k ≤ fxBits then m * 2 ^ (fxBits - k) else m / 2 ^ (k - fxBits)
  let whole : Int := (k : Int) + e
  let frac := log2Bits 200 y 0
  let v : Int := whole * 2 ^ 200 + frac
  if 0 ≤ v then .num false v.natAbs (-200) true
  else .num true (-v - 1).natAbs (-200) true

/-- The square root of a number with `fxBits` fractional bits, truncated. -/
def rootOf (y : Nat) : Nat := isqrt (y * 2 ^ fxBits)

/-- The roots 2^(2^-1), 2^(2^-2), ... after a given one. -/
def rootsFrom : Nat → Nat → List Nat
  | 0, _ => []
  | n + 1, y => let r := rootOf y; r :: rootsFrom n r

/-- The first 256 roots of two. -/
def exp2Roots : List Nat := rootsFrom 256 (2 * 2 ^ fxBits)

/-- The product of the roots that the fractional bits of a select, the most significant bit first. -/
def exp2Bits (x : Nat) : Nat → List Nat → Nat → Nat
  | n + 1, r :: rs, acc => exp2Bits x n rs (if bitNat x n = 1 then acc * r / 2 ^ fxBits else acc)
  | _, _, acc => acc

/-- 2^a for a finite value that is no integer: to 200 bits or more, and `sticky`. The value is the integer part and at
most 256 fractional bits; a tiny fraction gives a value next to a power of two. -/
def exp2X (neg : Bool) (m : Nat) (e : Int) : Exact :=
  let fl : Int := if neg then -((floorMag m e).1 : Int) - 1 else (floorMag m e).1
  -- the fraction a - fl in units of 2^-256, truncated
  let sh := (-e).toNat
  let fr := m % 2 ^ sh
  let fr' := if neg then 2 ^ sh - fr else fr
  let f256 := if sh ≤ 256 then fr' * 2 ^ (256 - sh) else fr' / 2 ^ (sh - 256)
  let y := exp2Bits f256 256 exp2Roots (2 ^ fxBits)
  -- beyond 2^20000 and below 2^-20000 every format overflows or underflows alike
  let ex : Int := if fl > 20000 then 20000 else if fl < -20000 then -20000 else fl
  .num false (y / 2 ^ (fxBits - 220)) (ex - 220) true

end Sys2Proof.Machine
end

