-- ==== Sys2Proof/Machine/Flags.lean ====
section
/-!
DEFINITION. The sticky flags of a group: six bits for each of 1,024 elements (15 R259), held as one set of elements for
each flag.
-/
namespace Sys2Proof.Machine

/-- The elements at which flag k of a list of flag sets is raised. -/
def flagSet (k : Nat) : List Fl → Nat
  | [] => 0
  | x :: r => (x.getLsbD k).toNat + 2 * flagSet k r

/-- ORs the flags that a result raises at each element into the sticky flags; nothing under Q or fcr.QD (15 R260). -/
def raiseFlags (fs : Vector PredBits 6) (quiet : Bool) (l : List Fl) : Vector PredBits 6 :=
  if quiet || l.all (· == 0) then fs
  else
    let o (k : Nat) : PredBits := fs[k]?.getD 0 ||| BitVec.ofNat 1024 (flagSet k l)
    #v[o 0, o 1, o 2, o 3, o 4, o 5]

/-- The six flags of an element in the layout of RDFL (15 R259). -/
def flagsAt (fs : Vector PredBits 6) (e : Nat) : Fl :=
  let b (k : Nat) : Bool := (fs[k]?.getD 0).getLsbD e
  BitVec.ofNat 6 ((b 0).toNat + 2 * (b 1).toNat + 4 * (b 2).toNat + 8 * (b 3).toNat + 16 * (b 4).toNat +
    32 * (b 5).toNat)

/-- Clears the flags of a mask at the elements of a set (17 R292). -/
def clearFlags (fs : Vector PredBits 6) (m : Fl) (act : PredBits) : Vector PredBits 6 :=
  let o (k : Nat) : PredBits := if m.getLsbD k then fs[k]?.getD 0 &&& ~~~act else fs[k]?.getD 0
  #v[o 0, o 1, o 2, o 3, o 4, o 5]

end Sys2Proof.Machine
end

