-- ==== Sys2Proof/Machine/Store.lean ====
section
/-!
DEFINITION. Finite maps and finite sets of numbers as lists in one canonical form: keys strictly rising. Equal maps
are equal lists.
-/
namespace Sys2Proof.Machine

/-- A finite map from numbers, keys strictly rising. -/
abbrev Store (α : Type) := List (Nat × α)

/-- The value at a key. -/
def Store.get? {α : Type} : Store α → Nat → Option α
  | [], _ => none
  | (k, a) :: r, i => if i = k then some a else Store.get? r i

/-- The map with a key set to a value. -/
def Store.put {α : Type} : Store α → Nat → α → Store α
  | [], i, a => [(i, a)]
  | (k, b) :: r, i, a =>
    if i < k then (i, a) :: (k, b) :: r
    else if i = k then (i, a) :: r
    else (k, b) :: Store.put r i a

/-- The map without a key. -/
def Store.del {α : Type} : Store α → Nat → Store α
  | [], _ => []
  | (k, b) :: r, i => if i = k then r else (k, b) :: Store.del r i

/-- The value at a key, or a default. -/
def Store.getD {α : Type} (m : Store α) (i : Nat) (d : α) : α := (Store.get? m i).getD d

/-- Every key of a map lies above a bound and the keys rise strictly. -/
def Store.above {α : Type} : Option Nat → Store α → Bool
  | _, [] => true
  | none, (k, _) :: r => Store.above (some k) r
  | some b, (k, _) :: r => decide (b < k) && Store.above (some k) r

/-- The canonical form: keys strictly rising. -/
def Store.wf {α : Type} (m : Store α) : Bool := Store.above none m

/-- A finite set of numbers, strictly rising. -/
abbrev NSet := Store Unit

/-- Membership. -/
def NSet.has (m : NSet) (i : Nat) : Bool := (Store.get? m i).isSome
/-- The set with a number. -/
def NSet.add (m : NSet) (i : Nat) : NSet := Store.put m i ()
/-- The set without a number. -/
def NSet.rem (m : NSet) (i : Nat) : NSet := Store.del m i
/-- The set with a number in or out. -/
def NSet.set (m : NSet) (i : Nat) (b : Bool) : NSet := if b then NSet.add m i else NSet.rem m i

/-- Entry `i` of a fixed file, or a default beyond its end. -/
def vget {α : Type} {n : Nat} (v : Vector α n) (i : Nat) (d : α) : α := v[i]?.getD d

end Sys2Proof.Machine
end

