-- ==== Sys2Proof/Syntax.lean ====
section
/-!
DEFINITION. The instructions and steps of the Stoiq as data: one constructor of `Instr` for each row of
spec/opcode_table.json. An instruction constructor carries the fields of its word (03 R50), its selectors already
read into names (03 R52); an event constructor carries the names of the agents and locations it concerns.
-/
namespace Sys2Proof

/-- An operand selector (03 R52), one for each of the 256 codes: `bad` keeps a code that names nothing
(0xE4 to 0xEF and 0xF5 to 0xFF). -/
inductive Sel where
  | v (r : BitVec 7)
  | w (r : BitVec 5)
  | s (r : BitVec 6)
  | b (r : BitVec 2)
  | imm
  | zero
  | one
  | lane
  | member
  | bad (code : BitVec 8)
deriving DecidableEq, Repr

/-- The immediate of a word: none in the 64-bit form, I32 in the 96-bit form, I64 in the 128-bit form (03 R50). -/
inductive Imm where
  | none
  | i32 (w : Word32)
  | i64 (w : Word64)
deriving DecidableEq, Repr

/-- The fields of an instruction word other than LEN and OP (03 R50). -/
structure Fields where
  fn : BitVec 4 := 0
  d : Sel := .v 0
  a : Sel := .v 0
  b : Sel := .v 0
  c : Sel := .v 0
  p : BitVec 4 := 0
  pn : Bool := false
  n : Bool := false
  q : Bool := false
  t : BitVec 3 := 0
  m : BitVec 3 := 0
  x : BitVec 5 := 0
  imm : Imm := .none
deriving DecidableEq, Repr

/-! ### What comes from outside a group's program -/

/-- An atomic that the host or a peer device asks for (29 R440, 11 R221): operator and type as 10 R189 codes them, and for
a compare-and-swap the value compared with. -/
structure AtomAsk where
  fn : BitVec 4
  t : BitVec 3
  operand : Word64
  compare : Option Word64 := none
deriving DecidableEq, Repr

/-- A request of the host or of a peer device: a read of some bytes, a write, an atomic, a contribution of a peer to a line homed
here (08 R152), the signal of a peer's SIG (22 R371) with the logical time that it carries, or the image of an accumulator that a
peer's GMRG.MEM merges into one homed here (16 R276). -/
inductive Ask where
  | read (len : Nat)
  | write (data : List Byte)
  | atom (a : AtomAsk)
  | contribute (fn : BitVec 4) (t : BitVec 3) (w : Word64)
  | signal (cid : Word64) (gen : Word32) (bar : BitVec 4) (lt : Word64)
  | merge (image : List Byte)
deriving DecidableEq, Repr

/-- What a participant outside this device gives to a collective (12 R229): its index, whether its descriptor agrees,
its members, its member stride, the bytes from its SRC on, and which 32-byte sectors of them are poisoned. -/
structure PeerPart where
  self : Nat
  agree : Bool
  nmem : Nat
  mstride : Nat
  data : List Byte
  bad : List Nat := []
deriving DecidableEq, Repr

/-- Where an uncorrectable error lies (28 R431): a memory sector; a sector of a scratchpad; a register of a group, by unit
and number as MACHINE_CHECK reports them, with the element; the directory, partial or version state of a line; a
barrier; a trace buffer. -/
inductive ErrPlace where
  | sector (pa : Nat)
  | pad (inst pos sector : Nat)
  | pool (g : GKey) (unit : BitVec 4) (reg : Byte) (element : Nat)
  | lineState (pa : Nat)
  | barrier (inst : Nat) (bar : BitVec 4)
  | trace (core : CoreId)
deriving DecidableEq, Repr

/-- How a bring-up turns out (29 R442, R446): whether the firmware verifies, HBM and the CXL ports train, which links come
up, the capacity of each expander in frames, the device number and the configured devices of the domain, the digest of
the firmware. -/
structure BringUp where
  signature : Bool
  hbm : Bool
  ports : Bool
  links : BitVec 36
  frames : Vector Nat 4
  devnum : BitVec 9
  domain : List (BitVec 9)
  fwdig : BitVec 512
deriving DecidableEq, Repr

/-- The instructions (rows 1 to 198 of the opcode table) and the hardware and host steps (rows 199 to 291). -/
inductive Instr where
  /-- NOP, R95. -/
  | nop (f : Fields)
  /-- BR, R96. -/
  | br (f : Fields)
  /-- BRC, R97. -/
  | brc (f : Fields)
  /-- JMP, R98. -/
  | jmp (f : Fields)
  /-- CALL, R98. -/
  | call (f : Fields)
  /-- RET, R98. -/
  | ret (f : Fields)
  /-- LOOP, R99. -/
  | loop (f : Fields)
  /-- CLK, R100. -/
  | clk (f : Fields)
  /-- BRM, R359. -/
  | brm (f : Fields)
  /-- EXIT, R361. -/
  | exit (f : Fields)
  /-- YIELD, R362. -/
  | yield (f : Fields)
  /-- SLEEP, R363. -/
  | sleep (f : Fields)
  /-- SADD, R101. -/
  | sadd (f : Fields)
  /-- SSUB, R101. -/
  | ssub (f : Fields)
  /-- SMUL, R101. -/
  | smul (f : Fields)
  /-- SMULH, R101. -/
  | smulh (f : Fields)
  /-- SDIV, R102. -/
  | sdiv (f : Fields)
  /-- SREM, R102. -/
  | srem (f : Fields)
  /-- SMADD, R101. -/
  | smadd (f : Fields)
  /-- SLOG, R101. -/
  | slog (f : Fields)
  /-- SSHF, R101. -/
  | sshf (f : Fields)
  /-- SBIT, R101. -/
  | sbit (f : Fields)
  /-- SMNX, R101. -/
  | smnx (f : Fields)
  /-- SSET, R101. -/
  | sset (f : Fields)
  /-- SSEL, R101. -/
  | ssel (f : Fields)
  /-- SMOV, R101. -/
  | smov (f : Fields)
  /-- SBFX, R103. -/
  | sbfx (f : Fields)
  /-- SBFI, R103. -/
  | sbfi (f : Fields)
  /-- SLEA, R104. -/
  | slea (f : Fields)
  /-- PLOG, R105. -/
  | plog (f : Fields)
  /-- PCNT, R106. -/
  | pcnt (f : Fields)
  /-- PFIRST, R107. -/
  | pfirst (f : Fields)
  /-- PMEM, R358. -/
  | pmem (f : Fields)
  /-- MMSK_SET, R360. -/
  | mmskSet (f : Fields)
  /-- MMSK_AND, R360. -/
  | mmskAnd (f : Fields)
  /-- MMSK_OR, R360. -/
  | mmskOr (f : Fields)
  /-- MMSK_PUSH, R360. -/
  | mmskPush (f : Fields)
  /-- MMSK_POP, R360. -/
  | mmskPop (f : Fields)
  /-- VADD, R108. -/
  | vadd (f : Fields)
  /-- VSUB, R108. -/
  | vsub (f : Fields)
  /-- VMUL, R108. -/
  | vmul (f : Fields)
  /-- VMAD, R108. -/
  | vmad (f : Fields)
  /-- VMNX, R108. -/
  | vmnx (f : Fields)
  /-- VABS, R108. -/
  | vabs (f : Fields)
  /-- VLOG, R108. -/
  | vlog (f : Fields)
  /-- VSHF, R108. -/
  | vshf (f : Fields)
  /-- VBIT, R108. -/
  | vbit (f : Fields)
  /-- VCMP, R109. -/
  | vcmp (f : Fields)
  /-- VSEL, R109. -/
  | vsel (f : Fields)
  /-- VMOV, R108. -/
  | vmov (f : Fields)
  /-- VCVTI, R110. -/
  | vcvti (f : Fields)
  /-- VPERM, R112. -/
  | vperm (f : Fields)
  /-- VSLIDE, R113. -/
  | vslide (f : Fields)
  /-- VBLUT, R114. -/
  | vblut (f : Fields)
  /-- VREDI, R115. -/
  | vredi (f : Fields)
  /-- VEXT, R117. -/
  | vext (f : Fields)
  /-- VINS, R117. -/
  | vins (f : Fields)
  /-- VSCAN, R116. -/
  | vscan (f : Fields)
  /-- VCOMP_COMPRESS, R118. -/
  | vcompCompress (f : Fields)
  /-- VCOMP_EXPAND, R118. -/
  | vcompExpand (f : Fields)
  /-- VFADD, R281. -/
  | vfadd (f : Fields)
  /-- VFSUB, R281. -/
  | vfsub (f : Fields)
  /-- VFMUL, R281. -/
  | vfmul (f : Fields)
  /-- VFMA, R281. -/
  | vfma (f : Fields)
  /-- VFDIV, R281. -/
  | vfdiv (f : Fields)
  /-- VFSQRT, R281. -/
  | vfsqrt (f : Fields)
  /-- VFMNX, R284. -/
  | vfmnx (f : Fields)
  /-- VFSGN, R285. -/
  | vfsgn (f : Fields)
  /-- VFCMP, R286. -/
  | vfcmp (f : Fields)
  /-- VFCLS, R287. -/
  | vfcls (f : Fields)
  /-- VFSCL, R288. -/
  | vfscl (f : Fields)
  /-- VFEXP, R289. -/
  | vfexp (f : Fields)
  /-- VFLOG, R289. -/
  | vflog (f : Fields)
  /-- VFRND, R290. -/
  | vfrnd (f : Fields)
  /-- VFXP, R291. -/
  | vfxp (f : Fields)
  /-- RDFL, R292. -/
  | rdfl (f : Fields)
  /-- CLFL, R292. -/
  | clfl (f : Fields)
  /-- SFADD, R293. -/
  | sfadd (f : Fields)
  /-- SFMUL, R293. -/
  | sfmul (f : Fields)
  /-- SFFMA, R293. -/
  | sffma (f : Fields)
  /-- SFDIV, R293. -/
  | sfdiv (f : Fields)
  /-- SFSQRT, R293. -/
  | sfsqrt (f : Fields)
  /-- SFCMP, R293. -/
  | sfcmp (f : Fields)
  /-- SFCVT, R294. -/
  | sfcvt (f : Fields)
  /-- VCVT_FPFP, R296. -/
  | vcvtFpfp (f : Fields)
  /-- VCVT_FPINT, R297. -/
  | vcvtFpint (f : Fields)
  /-- VCVT_INTFP, R297. -/
  | vcvtIntfp (f : Fields)
  /-- VCVT_FPSLOT, R298. -/
  | vcvtFpslot (f : Fields)
  /-- VCVT_SLOTFP, R298. -/
  | vcvtSlotfp (f : Fields)
  /-- VRQ, R299. -/
  | vrq (f : Fields)
  /-- VBSC, R300. -/
  | vbsc (f : Fields)
  /-- GCLR, R271. -/
  | gclr (f : Fields)
  /-- GADD, R271. -/
  | gadd (f : Fields)
  /-- GDOT, R271. -/
  | gdot (f : Fields)
  /-- GRND, R272. -/
  | grnd (f : Fields)
  /-- GST, R275. -/
  | gst (f : Fields)
  /-- GLD, R275. -/
  | gld (f : Fields)
  /-- GMRG, R276. -/
  | gmrg (f : Fields)
  /-- GMRG_MEM, R276. -/
  | gmrgMem (f : Fields)
  /-- GSTAT, R273. -/
  | gstat (f : Fields)
  /-- MZERO, R318. -/
  | mzero (f : Fields)
  /-- MMA, R312. -/
  | mma (f : Fields)
  /-- MLDT, R319. -/
  | mldt (f : Fields)
  /-- MSTT, R319. -/
  | mstt (f : Fields)
  /-- MDRN_OWN, R319. -/
  | mdrnOwn (f : Fields)
  /-- MDRN_PEER, R320. -/
  | mdrnPeer (f : Fields)
  /-- MRP, R321. -/
  | mrp (f : Fields)
  /-- MPRI, R322. -/
  | mpri (f : Fields)
  /-- LAYX, R325. -/
  | layx (f : Fields)
  /-- SLD, R186. -/
  | sld (f : Fields)
  /-- SST, R186. -/
  | sst (f : Fields)
  /-- VLD, R187. -/
  | vld (f : Fields)
  /-- VST, R187. -/
  | vst (f : Fields)
  /-- WLD, R188. -/
  | wld (f : Fields)
  /-- SATOM, R190. -/
  | satom (f : Fields)
  /-- SCAS, R190. -/
  | scas (f : Fields)
  /-- VATOM, R190. -/
  | vatom (f : Fields)
  /-- PLK, R192. -/
  | plk (f : Fields)
  /-- LDF_KEEP, R194. -/
  | ldfKeep (f : Fields)
  /-- LDF_TAKE, R194. -/
  | ldfTake (f : Fields)
  /-- STE, R194. -/
  | ste (f : Fields)
  /-- FESET_EMPTY, R194. -/
  | fesetEmpty (f : Fields)
  /-- FESET_FULL, R194. -/
  | fesetFull (f : Fields)
  /-- FENCE_ACQ, R164. -/
  | fenceAcq (f : Fields)
  /-- FENCE_REL, R164. -/
  | fenceRel (f : Fields)
  /-- FENCE_FULL, R164. -/
  | fenceFull (f : Fields)
  /-- FENCE_PROMOTE, R144. -/
  | fencePromote (f : Fields)
  /-- TLWAIT_WAIT, R197. -/
  | tlwaitWait (f : Fields)
  /-- TLWAIT_TEST, R197. -/
  | tlwaitTest (f : Fields)
  /-- TLRD_DONE, R198. -/
  | tlrdDone (f : Fields)
  /-- TLRD_ISSUED, R198. -/
  | tlrdIssued (f : Fields)
  /-- TLRD_ERR, R198. -/
  | tlrdErr (f : Fields)
  /-- TLRD_CLRERR, R198. -/
  | tlrdClrerr (f : Fields)
  /-- TLINC, R199. -/
  | tlinc (f : Fields)
  /-- CMO_CLEAN, R201. -/
  | cmoClean (f : Fields)
  /-- CMO_INVAL, R201. -/
  | cmoInval (f : Fields)
  /-- CMO_FLUSH, R201. -/
  | cmoFlush (f : Fields)
  /-- CMO_PIN, R201. -/
  | cmoPin (f : Fields)
  /-- CMO_UNPIN, R201. -/
  | cmoUnpin (f : Fields)
  /-- PREF, R202. -/
  | pref (f : Fields)
  /-- LIFE_MARK, R203. -/
  | lifeMark (f : Fields)
  /-- LIFE_STEP, R203. -/
  | lifeStep (f : Fields)
  /-- SVC, R204. -/
  | svc (f : Fields)
  /-- CHKW_WAIT, R200. -/
  | chkwWait (f : Fields)
  /-- CHKW_TEST, R200. -/
  | chkwTest (f : Fields)
  /-- CPY_COPY, R207. -/
  | cpyCopy (f : Fields)
  /-- CPY_FILL, R207. -/
  | cpyFill (f : Fields)
  /-- CPYT, R208. -/
  | cpyt (f : Fields)
  /-- ROW_COPY, R213. -/
  | rowCopy (f : Fields)
  /-- ROW_FILL0, R213. -/
  | rowFill0 (f : Fields)
  /-- ROW_FILL1, R213. -/
  | rowFill1 (f : Fields)
  /-- ROW_AND, R213. -/
  | rowAnd (f : Fields)
  /-- ROW_OR, R213. -/
  | rowOr (f : Fields)
  /-- ROW_XOR, R213. -/
  | rowXor (f : Fields)
  /-- ROW_NOT, R213. -/
  | rowNot (f : Fields)
  /-- IRED, R225. -/
  | ired (f : Fields)
  /-- COLL_ALLRED, R238. -/
  | collAllred (f : Fields)
  /-- COLL_REDUCE, R238. -/
  | collReduce (f : Fields)
  /-- COLL_BCAST, R238. -/
  | collBcast (f : Fields)
  /-- COLL_ALLGATH, R238. -/
  | collAllgath (f : Fields)
  /-- COLL_XSUM, R238. -/
  | collXsum (f : Fields)
  /-- COLL_SPREAD, R240. -/
  | collSpread (f : Fields)
  /-- COLL_QUANT, R240. -/
  | collQuant (f : Fields)
  /-- COLL_RANKH, R240. -/
  | collRankh (f : Fields)
  /-- CPREC, R241. -/
  | cprec (f : Fields)
  /-- CWAITP, R241. -/
  | cwaitp (f : Fields)
  /-- CCAN, R241. -/
  | ccan (f : Fields)
  /-- BAR_ARRIVE, R366. -/
  | barArrive (f : Fields)
  /-- BAR_ARRIVE_WAIT, R366. -/
  | barArriveWait (f : Fields)
  /-- BAR_WAIT, R366. -/
  | barWait (f : Fields)
  /-- BAR_WAIT_LOCAL, R366. -/
  | barWaitLocal (f : Fields)
  /-- BARQ_STATUS, R369. -/
  | barqStatus (f : Fields)
  /-- BARQ_CID, R369. -/
  | barqCid (f : Fields)
  /-- BARQ_GEN, R369. -/
  | barqGen (f : Fields)
  /-- SIG, R371. -/
  | sig (f : Fields)
  /-- LNCH, R372. -/
  | lnch (f : Fields)
  /-- JOIN, R373. -/
  | join (f : Fields)
  /-- MRG_REGROUP, R348. -/
  | mrgRegroup (f : Fields)
  /-- MRG_RETURN, R349. -/
  | mrgReturn (f : Fields)
  /-- ORDC, R375. -/
  | ordc (f : Fields)
  /-- TRAP, R409. -/
  | trap (f : Fields)
  /-- GCTL_RESUME, R411. -/
  | gctlResume (f : Fields)
  /-- GCTL_KILL, R411. -/
  | gctlKill (f : Fields)
  /-- GCTL_STEP, R411. -/
  | gctlStep (f : Fields)
  /-- MFS, R416. -/
  | mfs (f : Fields)
  /-- MTS, R416. -/
  | mts (f : Fields)
  /-- SEGLD, R417. -/
  | segld (f : Fields)
  /-- TLBI_RANGE, R418. -/
  | tlbiRange (f : Fields)
  /-- TLBI_ASID, R418. -/
  | tlbiAsid (f : Fields)
  /-- TLBI_ALL, R418. -/
  | tlbiAll (f : Fields)
  /-- TLBSYNC, R419. -/
  | tlbsync (f : Fields)
  /-- ADHV, R420. -/
  | adhv (f : Fields)
  /-- FRZ_THAW, R412. -/
  | frzThaw (f : Fields)
  /-- FRZ_KILL, R412. -/
  | frzKill (f : Fields)
  /-- CTXS, R422. -/
  | ctxs (f : Fields)
  /-- TRM_PREDICATE, R423. -/
  | trmPredicate (f : Fields)
  /-- TRM_SCALAR, R423. -/
  | trmScalar (f : Fields)
  /-- PWAIT, R415. -/
  | pwait (f : Fields)
  /-- ISSUE_ARBITRATION, R343. -/
  | issueArbitration (core : CoreId) (second : Bool)
  /-- LT_TICK, R145. -/
  | ltTick (g : GKey)
  /-- TRAP_RECORD_WRITE, R414. -/
  | trapRecordWrite (part : BitVec 4)
  /-- SWITCH_POINT_EVENT, R63. -/
  | switchPointEvent (g : GKey)
  /-- FULL_EMPTY_WAKE, R175. -/
  | fullEmptyWake (g : GKey)
  /-- TIMELINE_WAIT_WAKE, R197. -/
  | timelineWaitWake (g : GKey)
  /-- CHUNK_WAIT_WAKE, R200. -/
  | chunkWaitWake (g : GKey)
  /-- PLANE_WAIT_WAKE, R241. -/
  | planeWaitWake (g : GKey)
  /-- BARRIER_WAIT_WAKE, R366. -/
  | barrierWaitWake (g : GKey)
  /-- JOIN_WAKE, R373. -/
  | joinWake (g : GKey)
  /-- LNCH_ROOM_WAKE, R372. -/
  | lnchRoomWake (g : GKey)
  /-- ORDC_WAKE, R375. -/
  | ordcWake (g : GKey)
  /-- PWAIT_WAKE, R415. -/
  | pwaitWake (g : GKey)
  /-- SLEEP_WAKE, R363. -/
  | sleepWake (g : GKey)
  /-- SLEEP_EXPIRY, R363. -/
  | sleepExpiry (g : GKey)
  /-- WAIT_TIMEOUT, R193. -/
  | waitTimeout (g : GKey)
  /-- WATCHDOG, R436. -/
  | watchdog (g : GKey)
  /-- FENCE_COMPLETE, R195. -/
  | fenceComplete (g : GKey)
  /-- MRG_RENDEZVOUS, R353. -/
  | mrgRendezvous (inst : Nat)
  /-- SIGNAL_ARRIVAL, R371. -/
  | signalArrival (c : CKey)
  /-- SIGNAL_QUEUED, R371. -/
  | signalQueued (c : CKey)
  /-- SIGNAL_STALE_DROP, R371. -/
  | signalStaleDrop (c : CKey)
  /-- ENGINE_UNIT, R173. -/
  | engineUnit (c : CKey) (unit : Nat)
  /-- ROW_BLOCK_WRITE, R218. -/
  | rowBlockWrite (c : CKey) (block : Nat)
  /-- IRED_RUN, R225. -/
  | iredRun (c : CKey) (run : Nat)
  /-- COLL_MATCH, R229. -/
  | collMatch (c : CKey) (peers : List PeerPart)
  /-- COLL_PLANE_ARRIVAL, R234. -/
  | collPlaneArrival (c : CKey) (tile : Nat)
  /-- CANCEL_PROPAGATION, R235. -/
  | cancelPropagation (c : CKey) (tile : Nat) (who : Nat)
  /-- ENGINE_COMMAND_FINISH, R172. -/
  | engineCommandFinish (c : CKey)
  /-- ENGINE_FAULT, R206. -/
  | engineFault (c : CKey) (unit : Nat)
  /-- FOLLOW_ON_SUBMIT, R323. -/
  | followOnSubmit (c : CKey)
  /-- MATRIX_ENTRY, R302. -/
  | matrixEntry (g : GKey)
  /-- MATRIX_STEP, R312. -/
  | matrixStep (g : GKey)
  /-- MATRIX_QUEUE_AGING, R314. -/
  | matrixQueueAging (g : GKey)
  /-- DIRECTORY_LOAD_MISS, R139. -/
  | directoryLoadMiss (pa : Nat) (core : CoreId)
  /-- DIRECTORY_WRITE_OWNERSHIP, R139. -/
  | directoryWriteOwnership (pa : Nat) (core : CoreId) (mask : BitVec 128)
  /-- DIRECTORY_PLK, R139. -/
  | directoryPlk (pa : Nat) (core : CoreId) (fn : BitVec 4) (t : BitVec 3)
  /-- DIRECTORY_SCOPED_ATOMIC, R142. -/
  | directoryScopedAtomic (pa : Nat) (g : GKey) (cohort : Bool)
  /-- EVICTION_NOTICE, R137. -/
  | evictionNotice (pa : Nat) (core : CoreId) (l2 : Bool)
  /-- LEASE_RENEWAL_RETURN, R149. -/
  | leaseRenewalReturn (g : GKey)
  /-- HOME_ATOMIC, R221. -/
  | homeAtomic (dev : BitVec 9) (part : BitVec 4) (pa : Nat) (a : AtomAsk)
  /-- DRAM_SCHEDULER_PICK, R130. -/
  | dramSchedulerPick (queue : Nat)
  /-- TIER_PROMOTION, R134. -/
  | tierPromotion (part : BitVec 4) (asid : BitVec 16) (va : Nat)
  /-- PAGE_MIGRATION, R135. -/
  | pageMigration (index : Nat)
  /-- PAGE_WALK, R381. -/
  | pageWalk (target : BitVec 4) (core : Option CoreId) (part : BitVec 4) (who : WalkFor) (va : Nat)
  /-- TLBI_TARGET, R385. -/
  | tlbiTarget (index : Nat) (target : BitVec 4)
  /-- TLBI_ACK, R386. -/
  | tlbiAck (index : Nat) (target : BitVec 4)
  /-- SHOOTDOWN_TARGET_LOST, R388. -/
  | shootdownTargetLost (target : BitVec 4)
  /-- ORDERED_COMMIT, R345. -/
  | orderedCommit (launch : Nat)
  /-- PACKET_LAUNCH, R330. -/
  | packetLaunch (q : QKey)
  /-- PACKET_NODE, R335. -/
  | packetNode (q : QKey)
  /-- PACKET_COPY, R342. -/
  | packetCopy (q : QKey)
  /-- PACKET_SIGNAL, R333. -/
  | packetSignal (q : QKey)
  /-- READY_POOL_AGING, R336. -/
  | readyPoolAging (launch : Nat)
  /-- PLACEMENT, R337. -/
  | placement (part : BitVec 4)
  /-- COHORT_INSTANCE_END, R449. -/
  | cohortInstanceEnd (inst : Nat)
  /-- LAUNCH_END, R340. -/
  | launchEnd (launch : Nat)
  /-- COPY_PACKET_DONE, R342. -/
  | copyPacketDone (q : QKey)
  /-- TRACE_DRAIN, R407. -/
  | traceDrain (core : CoreId)
  /-- LOSS_RECORD, R406. -/
  | lossRecord (core : CoreId)
  /-- CORRECTED_ERROR, R431. -/
  | correctedError (sock : BitVec 5) (unit : BitVec 16)
  /-- UNCORRECTABLE_ERROR, R431. -/
  | uncorrectableError (at_ : ErrPlace)
  /-- LOST_CONTROL_FLIT, R433. -/
  | lostControlFlit (pa : Nat) (link : Option (BitVec 6))
  /-- POTLUCK_RECALL_FAILURE, R434. -/
  | potluckRecallFailure (pa : Nat) (tower : BitVec 2)
  /-- DESTINATION_ERROR, R11. -/
  | destinationError (src dst : BitVec 5)
  /-- LINK_CRC_REPLAY, R447. -/
  | linkCrcReplay (link : BitVec 6)
  /-- LINK_RETIRE, R447. -/
  | linkRetire (link : BitVec 6)
  /-- DEVICE_UNREACHABLE, R448. -/
  | deviceUnreachable (dev : BitVec 9)
  /-- EXPANDER_LOSS, R446. -/
  | expanderLoss (port : BitVec 2)
  /-- PEER_REQUEST, R169. -/
  | peerRequest (dev : BitVec 9) (part : BitVec 4) (pa : Nat) (ask : Ask)
  /-- PEER_UNKNOWN_PARTITION, R451. -/
  | peerUnknownPartition (dev : BitVec 9) (part : BitVec 4) (pa : Nat) (ask : Ask)
  /-- HOST_BAR2_ACCESS, R440. -/
  | hostBar2Access (fn : BitVec 5) (offset : Nat) (ask : Ask)
  /-- HOST_ATOMIC, R440. -/
  | hostAtomic (fn : BitVec 5) (offset : Nat) (a : AtomAsk)
  /-- NOT_READY_ACCESS, R444. -/
  | notReadyAccess (bar2 : Bool) (offset : Nat) (ask : Ask)
  /-- REGISTER_WRITE, R6. -/
  | registerWrite (offset : Nat) (data : List Byte)
  /-- CREATE, R394. -/
  | mbCreate
  /-- DESTROY, R445. -/
  | mbDestroy
  /-- QUEUE, R450. -/
  | mbQueue
  /-- LOAD, R401. -/
  | mbLoad
  /-- SEAL, R401. -/
  | mbSeal
  /-- ATTEST, R402. -/
  | mbAttest
  /-- IMPORT, R403. -/
  | mbImport
  /-- CHECKPOINT, R437. -/
  | mbCheckpoint
  /-- RESTORE, R438. -/
  | mbRestore
  /-- SETTCS, R123. -/
  | mbSettcs
  /-- SETWDOG, R436. -/
  | mbSetwdog
  /-- ASSIGN, R445. -/
  | mbAssign
  /-- POWER_ON, R442. -/
  | powerOn (b : BringUp)
  /-- POWER_LOSS, R13. -/
  | powerLoss
  /-- CLOCK_THROTTLE, R14. -/
  | clockThrottle (level : BitVec 5)
  /-- THERMAL_SHUTDOWN, R17. -/
  | thermalShutdown (sock : BitVec 5)
  /-- REJECTED_PACKET, R333. -/
  | rejectedPacket (q : QKey)
  /-- TIMESTAMP_SWEEP, R146. -/
  | timestampSweep (line : Nat)
deriving DecidableEq, Repr

end Sys2Proof
end

