-- ==== Sys2Proof/Machine/State.lean ====
section
/-!
DEFINITION. The state of the Stoiq as plain data: the registers of groups, engine commands, launches, partitions,
memory and its coherence state, the host windows. The value of a field at reset is the default written beside it.
-/
namespace Sys2Proof.Machine
open Sys2Proof

/-! ### Registers of a group (02 R26) -/

/-- The deferral tags of the elements of a register that carry poison, elements rising (24 R389). -/
abbrev Tags := Store Tag

/-- A vector register: 1,024 elements of 32 bits, or the lanes of a w register in its first elements. -/
structure VReg where
  val : VecBits := 0
  tags : Tags := []
deriving DecidableEq, Repr

/-- A scalar register with its deferral tag. -/
structure SReg where
  val : Word64 := 0
  tag : Option Tag := none
deriving DecidableEq, Repr

/-- A predicate register. -/
structure PReg where
  val : PredBits := 0
  tags : Tags := []
deriving DecidableEq, Repr

/-- The state of an Agate accumulator (16 R262). -/
inductive AccState where
  | finite | posInf | negInf | nan | overflow
deriving DecidableEq, Repr

/-- An Agate accumulator (16 R262): the payload counts units of 2^-2148. -/
structure Acc where
  payload : Int := 0
  st : AccState := .finite
  ne : Bool := false
  nz : Bool := false
  tag : Option Tag := none
deriving DecidableEq, Repr

/-- A matrix tile of 128 by 64 FP32 elements, element (i, n) at position 64i + n (18 R301). -/
structure Tile where
  val : BitVec 262144 := 0
  tags : Tags := []
deriving DecidableEq, Repr

/-- A bypass latch by the class of the destination that filled it (02 R29, 06 R91); `w` marks a w register. -/
inductive Latch where
  | empty
  | vec (w : Bool) (r : VReg)
  | pair (w : Bool) (lo hi : VReg)
  | scal (r : SReg)
  | pred (r : PReg)
deriving DecidableEq, Repr

/-- The latch-chain state of the decoder (03 R62), with the address of the chain's head (03 R64) and whether the last
instruction other than NOP was a switch point (03 R63). -/
structure Chain where
  seq : Nat := 0
  head : Nat := 0
  length : Nat := 0
  closed : Bool := false
  made : Vector (Option Nat) 4 := Vector.replicate 4 none
  headAt : Word64 := 0
  switchPt : Bool := true
deriving DecidableEq, Repr

/-- Why a load was deferred (24 R389). -/
inductive DeferCause where
  | pageFault | protection | memory
deriving DecidableEq, Repr

/-- An entry of the deferral table (24 R389): the load's address, its space, the cause, and the virtual address of the lowest
affected element, or its offset in a scratchpad. -/
structure Defer where
  pc : Word64
  space : BitVec 3
  cause : DeferCause
  addr : Word64
deriving DecidableEq, Repr

/-- The registers of a group that its instructions write and that a replay (08 R149) or an abort (20 R345) restores. -/
structure Regs where
  pc : Word64 := 0
  s : Vector SReg 64 := Vector.replicate 64 {}
  v : Vector VReg 128 := Vector.replicate 128 {}
  w : Vector VReg 32 := Vector.replicate 32 {}
  p : Vector PReg 16 := Vector.replicate 16 {}
  mask : BitVec 16 := 0
  mstack : List (BitVec 16) := []
  acc : Vector Acc 256 := Vector.replicate 256 {}
  flags : Vector PredBits 6 := Vector.replicate 6 0
  latch : Vector Latch 4 := Vector.replicate 4 .empty
  chain : Chain := {}
  dic : Vector Word64 16 := Vector.replicate 16 0
  gmi : Vector Word32 16 := Vector.replicate 16 0
  fcr : Word32 := 1
  lt : Word64 := 0
  seen : Nat := 0
  acq : Nat := 0
  defer : Vector (Option Defer) 16 := Vector.replicate 16 none
  progress : PredBits := 0
  olds : List (Nat × Word64) := []
deriving DecidableEq, Repr

/-- A timeline (02 R31), with the numbers of its finished commands and the logical time each carries (08 R145). -/
structure Timeline where
  issued : Word64 := 0
  done : Word64 := 0
  err : Bool := false
  fin : Store Nat := []
deriving DecidableEq, Repr

/-- A segment register (02 R37). -/
structure Seg where
  base : Word64 := 0
  limit : Word32 := 0
  stride : Word32 := 0
deriving DecidableEq, Repr

/-- A trap record (28 R427) before its 64 bytes are written. -/
structure TrapRec where
  cyc : Word64 := 0
  daddr : Word64 := 0
  head : Word64 := 0
  dcause : Byte := 0
  didx : Byte := 0
  held : Bool := false
  supv : Bool := false
  chain : Bool := false
  cause : Byte := 0
  master : Word64 := 0
  xinfo : Word64 := 0
  xaddr : Word64 := 0
  xpc : Word64 := 0
deriving DecidableEq, Repr

/-- What a suspended group waits for; the fields of the waiting instruction are kept beside it. -/
inductive WaitOp where
  | fullEmpty (i : Instr)
  | timeline
  | chunk
  | plane
  | barrier (bar : Nat) (target : Word32) (half : Bool)
  | join
  | lnch
  | ordc
  | pwait
  | sleep
  | mrg (ret : Bool)
  | tlbsync
  | ctxs
deriving DecidableEq, Repr

/-- A wait: what for, under which fields, since when (cyc at issue, and the time), its timeout in clocks (10 R193), and for SLEEP
whether an event that ends it has come (22 R363). -/
structure Wait where
  op : WaitOp
  f : Fields
  start : Word64
  since : Nat := 0
  limit : Option Nat := none
  hit : Bool := false
deriving DecidableEq, Repr

/-- Whether a group may issue (20 R343): suspended in a wait, suspended on a trap with its record and the record's
place in the trap queue once it is written (28 R426), or ended. -/
inductive RunState where
  | ready
  | waiting (w : Wait)
  | trapped (r : TrapRec) (idx : Option Nat)
  | ended
deriving DecidableEq, Repr

/-- A fence that has not completed: which fence, and its scope code (10 R195). -/
structure Fence where
  fn : BitVec 4
  scope : BitVec 3
deriving DecidableEq, Repr

/-- A load that used an expired leased copy while its renewal is in flight (08 R149): the line, the write timestamp
of the copy, the registers before the load, the instructions issued since. -/
structure Spec where
  line : Nat
  wts : Nat
  saved : Regs
  count : Nat := 0
deriving DecidableEq, Repr

/-- A line in the read set of a speculative group, with the timestamp of the version each read returned, or none for
memory (20 R344). -/
structure ReadMark where
  line : Nat
  src : Option Nat
deriving DecidableEq, Repr

/-- The ordered-mode state of a group (20 R344, R345): its timestamp, its read set, a trap held (28 R427). -/
structure Ordered where
  ts : Nat
  reads : List ReadMark := []
  held : Option TrapRec := none
  committed : Bool := false
deriving DecidableEq, Repr

/-- The four segment registers of a group (02 R37). -/
structure Segs where
  l : Seg := {}
  w : Seg := {}
  k : Seg := {}
  m : Seg := {}
deriving DecidableEq, Repr

/-! ### Engine commands and matrix queues -/

/-- A record read from memory at issue, as its bytes. -/
abbrev Rec := List Byte

/-- A matrix command with the shape records it names, and the member word that R307 fixes at issue: the global member
index for G, K and S, the slot for L and W (18 R309, R307). -/
structure MatCmd where
  mrec : Rec := []
  arec : Rec := []
  brec : Rec := []
  gmi : Nat := 0
  slot : Nat := 0
  none : Bool := false
deriving DecidableEq, Repr

/-- A tile transfer (18 R316, R319): the space, the shape record and the fields of I32; `dic` is that of the slot at
issue (18 R319). -/
structure TileMove where
  sp : BitVec 3 := 0
  t : BitVec 3 := 0
  srec : Rec := []
  i32 : Word32 := 0
  gmi : Nat := 0
  slot : Nat := 0
  dic : Word64 := 0
  rm : BitVec 3 := 0
  none : Bool := false
deriving DecidableEq, Repr

/-- An entry of a matrix queue (18 R302). -/
inductive MqOp where
  | zero (tile : BitVec 3)
  | mma (m : MatCmd)
  | load (m : TileMove)
  | store (m : TileMove)
  | drain (m : TileMove)
  | peer (tile : BitVec 3) (word : Word64)
  | mrp (v : Word64)
  | follow (m : MatCmd)
deriving DecidableEq, Repr

/-- A queue entry with the command number it finishes under, whether it has begun, its next unit (an MMA's next step
and row, a transfer's next row or sector), whether what carries it has written its last sector (18 R323), and its
instruction's address with the deferral entry that each poisoned sector took: a sector of memory, or of the scratchpad of
a position. -/
structure MqEntry where
  op : MqOp
  cmd : Option (BitVec 4 × Word64) := none
  begun : Bool := false
  step : Nat := 0
  row : Nat := 0
  ready : Bool := true
  pc : Word64 := 0
  tags : List ((Option Nat × Nat) × Tag) := []
  acq : Nat := 0
deriving DecidableEq, Repr

/-- A tile that MDRN.PEER sends and that the peer has not acquired (18 R320): the peer's tile, what arrives, what the tile held when
it was sent, and the logical time that the drain carries. -/
structure Landing where
  tile : Nat
  new : Tile
  old : Tile
  lt : Nat
deriving DecidableEq, Repr

/-- A copy of CPY, of a FILL, or of a COPY packet (10 R207, 20 R342). -/
structure Copy where
  dsp : BitVec 3
  ssp : BitVec 3
  dst : Word64
  src : Word64
  len : Nat
  fill : Option Word32 := none
  bitmap : Option Word64 := none
  done : Word64 := 0
  snid : Word32 := 0xFFFFFFFF
deriving DecidableEq, Repr

/-- A tile copy (10 R208): one repetition for each member word of `reps`. -/
structure TileCopy where
  dsp : BitVec 3
  ssp : BitVec 3
  drec : Rec
  srec : Rec
  pad : Word64
  reps : List (Nat × Nat)
  follow : Bool
deriving DecidableEq, Repr

/-- A layout command (18 R324). -/
structure Layout where
  wrec : Rec
  inrec : Rec
  outrec : Rec
  follow : Bool
deriving DecidableEq, Repr

/-- A row command (11 R213). -/
structure RowCmd where
  fn : BitVec 4
  d : Word64
  b : Word64
  c : Word64
  n : Nat
deriving DecidableEq, Repr

/-- An indexed reduce (11 R222). -/
structure IredCmd where
  desc : Rec
  entries : Word64
  n : Nat
deriving DecidableEq, Repr

/-- A collective (12 R229 to R240): descriptor, communicator record and table, auxiliary array, sequence number; once matched
whether the descriptors agree and the remote participants; for a progressive command how far each tile has come (one
more than its planes once the header has arrived) and the tiles cancelled here with the participant that cancelled. -/
structure CollCmd where
  fn : BitVec 4
  prog : Bool
  desc : Rec
  comm : Rec
  table : Rec := []
  aux : Rec
  seq : Nat
  matched : Bool := false
  agree : Bool := true
  remote : List PeerPart := []
  planes : Store Nat := []
  cancelled : Store Nat := []
  opened : Nat := 0
deriving DecidableEq, Repr

/-- A signal (22 R371). -/
structure Signal where
  cid : Word64
  gen : Word32
  bar : BitVec 4
  lt : Word64
deriving DecidableEq, Repr

/-- What an engine command does. -/
inductive CmdKind where
  | null
  | copy (c : Copy)
  | tile (c : TileCopy)
  | layout (c : Layout)
  | row (c : RowCmd)
  | ired (c : IredCmd)
  | coll (c : CollCmd)
  | signal (s : Signal)
  | matrix
deriving DecidableEq, Repr

/-- The state of a command (10 R205, R206): running; stopped at a unit by a fault, with the faulting address, the
cause and whether it may resume; frozen for a violation (25 R398); stopped by an exchange (26 R422); finished. -/
inductive CmdState where
  | running
  | stopped (unit : Nat) (addr : Word64) (cause : Byte) (resumable : Bool)
  | frozen
  | halted
deriving DecidableEq, Repr

/-- An unfinished engine command with the context its units run under: partition, ASID, privilege, the instance and
segment registers at issue, service class and stamp (10 R205), the units written, the largest timestamp written, and the
logical time at issue (11 R218). -/
structure Cmd where
  key : CKey
  kind : CmdKind
  part : BitVec 4
  asid : BitVec 16
  sup : Bool
  inst : Nat := 0
  lin : Nat := 0
  segs : Segs := {}
  spd : Nat := 0
  fs : Vector Word32 8 := Vector.replicate 8 0
  seed : Word64 := 0
  fcr : Word32 := 1
  state : CmdState := .running
  units : NSet := []
  total : Nat := 0
  failed : Bool := false
  killed : Bool := false
  trap : Option (TrapRec × Option Nat) := none
  cls : BitVec 2 := 0
  stamp : Nat := 0
  lt : Word64 := 0
  lt0 : Word64 := 0
  op : Byte := 0
  frec : Rec := []
deriving DecidableEq, Repr

/-- Who a group is and what its launch gave it; only placement writes it, but for the privileged registers. `mcount`
is M (02 R20); `alloc` fields are the counts of the partition word (02 R32). -/
structure Ident where
  key : GKey
  launch : Nat := 0
  inst : Nat := 0
  ci : Nat := 0
  cx : Nat := 0
  cy : Nat := 0
  lin : Nat := 0
  part : BitVec 4 := 0
  asid : BitVec 16 := 0
  sup : Bool := false
  mcount : Nat := 1
  vregs : Nat := 128
  wregs : Nat := 32
  spd : Nat := 0
  tiles : Nat := 0
  agates : Nat := 0
  mbase : Word32 := 0
  seed : Word64 := 0
  svcMax : BitVec 2 := 0
  fs : Vector Word32 8 := Vector.replicate 8 0
  entry : Word64 := 0
  args : Word64 := 0
deriving DecidableEq, Repr

/-- A resident group (02 R26 to R43). `armed` holds the address of a BAR.ARRIVE_WAIT that the watchdog has trapped, and the
target of its arrival, which stands (28 R436). -/
structure Group where
  id : Ident
  regs : Regs := {}
  segs : Segs := {}
  tiles : Vector Tile 8 := Vector.replicate 8 {}
  tl : Vector Timeline 16 := Vector.replicate 16 {}
  xcause : Byte := 0
  xpc : Word64 := 0
  xaddr : Word64 := 0
  xinfo : Word64 := 0
  prio : BitVec 3 := 0
  svc : Word64 := 0
  dlm : Word32 := 0
  rp : Word64 := 0
  mcls : BitVec 3 := 0
  mq : List MqEntry := []
  mqAge : Nat := 0
  mqSince : Nat := 0
  lands : List Landing := []
  run : RunState := .ready
  frozen : Option (TrapRec × Option Nat) := none
  preempted : Bool := false
  wantPreempt : Bool := false
  wantFreeze : Bool := false
  wantKill : Bool := false
  mcheck : Option (BitVec 4 × Byte) := none
  killed : Bool := false
  stepOnce : Bool := false
  armed : Option (Word64 × Word32) := none
  fence : Option Fence := none
  spec : Option Spec := none
  ord : Option Ordered := none
  kids : List Nat := []
  readyScalar : Nat := 0
  readyVector : Nat := 0
  wonScalar : Bool := false
  wonVector : Bool := false
  ticked : Nat := 0
deriving DecidableEq, Repr

/-! ### Launches, instances and partitions -/

/-- One barrier of a cohort instance (22 R364), with what its acquires raise lt to (22 R367): the largest lt of the
arrivals in the open phase, of the whole and of each die-half, and by phase of those in the phases up to it. -/
structure Barrier where
  phase : Word32 := 0
  arr : Nat := 0
  exp : Nat := 1
  arrived : NSet := []
  local0 : Word32 := 0
  local1 : Word32 := 0
  broken : Bool := false
  openLt : Nat := 0
  openLt0 : Nat := 0
  openLt1 : Nat := 0
  hist : Store Nat := []
  hist0 : Store Nat := []
  hist1 : Store Nat := []
deriving DecidableEq, Repr

/-- The scratchpad of one group position (02 R38, 28 R431): bytes (an unlisted byte is zero), the full words, the
poisoned sectors, and by word the logical time that its last release carries (08 R145, 09 R176). -/
structure Pad where
  bytes : Store Byte := []
  full : NSet := []
  poison : NSet := []
  lts : Store Nat := []
deriving DecidableEq, Repr

/-- A cohort instance (02 R22, R449): its place, its barrier-file slot with its generation (22 R370), its barriers and
scratchpads, and which of its groups, by position, have departed from the barriers and have ended. -/
structure Inst where
  launch : Nat
  part : BitVec 4
  sup : Bool
  ci : Nat
  ox : Nat
  oy : Nat
  width : Nat
  height : Nat
  mcount : Nat := 1
  spd : Nat := 0
  fslot : Nat
  gen : Word32
  groups : List GKey
  departed : NSet := []
  ended : NSet := []
  bars : Vector Barrier 16
  pads : Store Pad := []
deriving DecidableEq, Repr

/-- An operand range of a node (20 R333): base, length, write intent. -/
structure OpRange where
  base : Nat
  len : Nat
  write : Bool
deriving DecidableEq, Repr

/-- How a launch ends (20 R338, R340). -/
inductive LaunchEnd where
  | completed | faulted | killed | error
deriving DecidableEq, Repr

/-- A launch with its graph node (20 R329, R335): the record, the queue and slot it came from, the node's fields, and what
has become of it so far; `detail` is that of a LAUNCH_ERROR. -/
structure Launch where
  part : BitVec 4
  q : BitVec 4
  asid : BitVec 16
  sup : Bool
  rec256 : Rec
  serial : Nat
  nid : Option Word32 := none
  count : Nat := 0
  succ : List Word32 := []
  ops : List OpRange := []
  cls : Nat := 0
  stamp : Option Nat := none
  consumed : Nat := 0
  pooled : Option Nat := none
  raised : Nat := 0
  dispatched : Bool := false
  nextCi : Nat := 0
  started : Nat := 0
  endedGroups : Nat := 0
  nkill : Nat := 0
  frec : Rec := []
  killed : Bool := false
  faulted : Bool := false
  parent : Option Nat := none
  detail : Nat := 0
  slotAt : Nat := 0
  lt : Word64 := 0
  ctx : Option Bool := none
  committed : Nat := 0
deriving DecidableEq, Repr

/-- A child from its LNCH until its parent group joins it (22 R372, R373): the queue and index of its packet, the parent
launch and group, its launch once the packet is consumed, and how and when it ended. -/
structure Child where
  id : Nat
  part : BitVec 4
  q : BitVec 4
  idx : Nat
  parent : Nat
  group : GKey
  launch : Option Nat := none
  outcome : Option LaunchEnd := none
  doneAt : Word64 := 0
  endOrder : Nat := 0
  lt : Word64 := 0
deriving DecidableEq, Repr

/-- A registered device queue (20 R332, R450): the physical address of its descriptor, its privilege and its ASID. -/
structure Queue where
  desc : Nat
  sup : Bool
  asid : BitVec 16
deriving DecidableEq, Repr

/-- A lifetime hint of a page (07 R133): priority and next-use step, all ones for never. -/
structure Hint where
  prio : Nat
  next : Nat
deriving DecidableEq, Repr

/-- A context held in shadow storage (26 R421): its groups, instances and commands. -/
structure Shadow where
  groups : Store Group := []
  insts : Store Inst := []
  cmds : List Cmd := []
deriving DecidableEq, Repr

/-- A trap record that waits for room in the queue (26 R414), with the group or the command that it stops, if one. -/
structure HeldRec where
  r : TrapRec
  g : Option GKey := none
  c : Option CKey := none
deriving DecidableEq, Repr

/-- A partition (25 R393): the descriptor's 128 bytes, SEALED, its queues, trap queue counts (26 R414), measurement and
key number (25 R400, R401), inbound signals (22 R371), contexts, what the CTXS so far have released, and the group whose CTXS is under way (26 R421, R422),
Hamper state with the held releases and the successors to be killed when they arrive (20 R335, R339, R340), watchdog
(28 R436), stale signals, step counters and hints (07 R133). -/
structure Part where
  desc : Rec
  sealed : Bool := false
  queues : Store Queue := []
  tqw : Word64 := 0
  tqr : Word64 := 0
  recs : List HeldRec := []
  meas : BitVec 512 := 0
  keys : Nat := 0
  inbound : List Signal := []
  ctx : Bool := false
  ctxLt : Nat := 0
  shadow : Shadow := {}
  exchanging : Option GKey := none
  serial : Nat := 0
  released : List Word32 := []
  doomed : List Word32 := []
  wdog : Word32 := 0
  stale : Word64 := 0
  steps : Store Nat := []
  hints : Store Hint := []
deriving DecidableEq, Repr

/-! ### The memory system -/

/-- The main state of a line at a tower's directory (08 R136), for the states that name cache copies. -/
inductive DirState where
  | s | e | m | x
deriving DecidableEq, Repr

/-- The bits that a cache keeps for the four sectors of a line that it holds (07 R122). A sector of a copy is poisoned where `poison`
says so of a clean copy that an error has struck (28 R431), and where the line's own sector is, but for a clean copy that an error in
the backing location left `sound`. -/
structure SecBits where
  valid : BitVec 4 := 0xF
  dirty : BitVec 4 := 0
  poison : BitVec 4 := 0
  sound : BitVec 4 := 0
deriving DecidableEq, Repr

/-- A core's copy with its byte mask under a split (08 R140). -/
structure Mask where
  core : Nat
  mask : BitVec 128
deriving DecidableEq, Repr

/-- A directory entry of one tower (08 R136): the state, the L1s (by core) and the L2 that hold the line with their sector
bits, the masks of a split or of its gathering, the core that took write ownership last, the clocks of the passes of ownership
that count toward contention (08 R140), and how many transfers have been gathered. -/
structure DirEntry where
  st : DirState
  l1 : Store SecBits := []
  l2 : Option SecBits := none
  masks : List Mask := []
  owner : Option Nat := none
  passes : List Nat := []
  gather : Nat := 0
deriving DecidableEq, Repr

/-- A leased copy of a line in a tower that is not its home (08 R147), in the L1 of a core or in the tower's L2: its
timestamps and its bytes and poison. -/
structure Leased where
  tower : Nat
  core : Option Nat := none
  wts : Nat
  rts : Nat
  data : BitVec 1024
  poison : BitVec 4
deriving DecidableEq, Repr

/-- An eviction notice in flight (08 R137, R138): the tower, the core whose L1 sent it or none for the L2, and the bits of the
copy that it gives up. -/
structure Notice where
  tower : Nat
  core : Option Nat
  bits : SecBits
deriving DecidableEq, Repr

/-- An exact partial value of an element (08 R151): for FADD an exact sum in units of 2^-1074 with the state and the
all-negative-zero bit of an accumulator; for the other operators the combined word. -/
structure PartialElem where
  sum : Int := 0
  st : AccState := .finite
  nz : Bool := true
  word : Word64 := 0
deriving DecidableEq, Repr

/-- Where a partial is held (08 R151). -/
inductive PartLoc where
  | l1 (core : Nat) | l2 (tower : Nat) | home
deriving DecidableEq, Repr

/-- A partial of a Potluck line: its place, the order in which its entry was taken, its elements by byte offset. -/
structure Partial where
  loc : PartLoc
  order : Nat
  elems : Store PartialElem
deriving DecidableEq, Repr

/-- A line in P (08 R150): the operator tag, the partials, the largest lt of a contribution. -/
structure Potluck where
  fn : BitVec 4
  t : BitVec 3
  parts : List Partial := []
  lt : Word64 := 0
deriving DecidableEq, Repr

/-- A writer in the window of the order-dependence detector (09 R179). -/
structure Writer where
  launch : Nat
  lin : Nat
  mask : BitVec 128
deriving DecidableEq, Repr

/-- What the L2 of a tower tracks of a line (09 R179): up to four writers, and whether a fifth has come. -/
structure Track where
  writers : List Writer := []
  overflow : Bool := false
deriving DecidableEq, Repr

/-- The state that a line's home keeps (08 R136 to R152), with what the memory-side cache of the home holds of it (07 R120,
R125), the eviction notices in flight, and by tower what the detector tracks (09 R179). `seen` is the base under which the line
was last swept (08 R146); `placed` says that the contention predictor places the next atomic of a group at the home (09 R162). -/
structure Line where
  wts : Nat := 0
  rts : Nat := 0
  lease : Nat := 64
  seen : Nat := 0
  dirs : Store DirEntry := []
  msc : Option SecBits := none
  notices : List Notice := []
  copies : List Leased := []
  pot : Option Potluck := none
  tracks : Store Track := []
  placed : Bool := false
deriving DecidableEq, Repr

/-- The owner of a scoped copy (08 R142). -/
inductive CowOwner where
  | group (g : GKey) | cohort (inst : Nat)
deriving DecidableEq, Repr

/-- A C copy (08 R142), with the virtual addresses, in lines, under which it was used (24 R386). -/
structure CCopy where
  owner : CowOwner
  line : Nat
  data : BitVec 1024
  mask : BitVec 128 := 0
  poison : BitVec 4 := 0
  users : List GKey := []
  lt : Word64 := 0
  vas : List Nat := []
deriving DecidableEq, Repr

/-- A write-combining line (07 R128), the earliest allocated first in the list of its core, with the class and the stamp of
the store that allocated it (07 R130) and the virtual addresses, in lines, under which it was written (24 R386). -/
structure WcLine where
  g : GKey
  line : Nat
  data : BitVec 1024
  mask : BitVec 128
  cls : BitVec 2 := 0
  stamp : Nat := 0
  vas : List Nat := []
deriving DecidableEq, Repr

/-- A request (07 R130), in the order of arrival: class, stamp, line, the group whose dlm counts a miss with its launch and
linear index, and which of its instructions sent it. -/
structure DramReq where
  cls : BitVec 2
  stamp : Nat
  line : Nat
  g : Option GKey
  who : Nat × Nat := (0, 0)
  ins : Nat
deriving DecidableEq, Repr

/-- A store or atomic of a group of an ordered launch that has not committed (20 R344): versions stand in the order in which
their groups made them; `tracked` marks those that the detector counts when they commit (09 R179), `alloc` those that may allocate
in a cache (07 R128), `req` is the request with the class and stamp of their issue (07 R130), and `vas` are the virtual addresses, in
lines, under which they were made (24 R386). -/
structure Version where
  launch : Nat
  ts : Nat
  line : Nat
  data : BitVec 1024
  mask : BitVec 128
  tracked : Bool := true
  alloc : Bool := true
  req : Option DramReq := none
  vas : List Nat := []
deriving DecidableEq, Repr

/-- A store of a group to memory homed on another device that its home has not performed yet (09 R169), with what a version
notes of a store. -/
structure OutWrite where
  g : GKey
  bytes : List (Nat × Byte)
  tracked : Bool
  alloc : Bool := true
  req : Option DramReq := none
deriving DecidableEq, Repr

/-- A DRAM pseudo-channel or a CXL root port (07 R130): its place in the rotation, its waiting requests, and those that wait in
the home tower for room at a root port (07 R126). -/
structure DramQueue where
  slot : Nat := 0
  reqs : List DramReq := []
  held : List DramReq := []
deriving DecidableEq, Repr

/-- The engine contexts, each with its own walk-ahead TLB (24 R382). -/
inductive EngCtx where
  | copy | matrix | layout | row | ired | coll | migration | queueCopy
deriving DecidableEq, Repr

/-- A TLB (24 R382): the shootdown target it stands behind, its core, and the engine context or none for the core's own. -/
structure TlbId where
  target : Nat
  core : Option Nat := none
  eng : Option EngCtx := none
deriving DecidableEq, Repr

/-- A TLB entry (24 R381, R382): a valid leaf of an ASID. -/
structure TlbEntry where
  at_ : TlbId
  part : BitVec 4
  asid : BitVec 16
  va : Nat
  size : Nat
  pte : Word64
deriving DecidableEq, Repr

/-- An entry of a walk cache (24 R382): the table of a level that serves a span of addresses of an ASID. -/
structure WalkPtr where
  at_ : TlbId
  part : BitVec 4
  asid : BitVec 16
  va : Nat
  level : Nat
  table : Nat
deriving DecidableEq, Repr

/-- A walk (24 R383, R387): for whom and for which of its instructions, the TLB it fills, its address, the clock since which it is
pending, whether it has started, and the invalidation generation at its start. -/
structure Walk where
  who : WalkFor
  ins : Nat
  at_ : TlbId
  part : BitVec 4
  asid : BitVec 16
  va : Nat
  asked : Nat
  started : Bool := false
  gen : Nat := 0
deriving DecidableEq, Repr

/-- A posted invalidation (24 R385): its range in one ASID, or every address, and the targets it has reached, that have
acknowledged, and that are lost (24 R388). -/
structure Tlbi where
  g : Option GKey
  part : BitVec 4
  asid : Option (BitVec 16)
  lo : Nat
  hi : Nat
  targets : NSet
  reached : NSet := []
  acked : NSet := []
  lost : NSet := []
deriving DecidableEq, Repr

/-- A page migration under way (07 R135): the page and its two frames, and the steps done. -/
structure Migration where
  part : BitVec 4
  asid : BitVec 16
  va : Nat
  size : Nat
  pteAt : Nat
  old : Nat
  new : Nat
  phase : Nat
deriving DecidableEq, Repr

/-- A core: the round-robin places of its issue slots (20 R343), the slot of the group whose queue its matrix
engine serves (18 R314), the records of its trace buffer, each of 16 bytes, and the count dropped (25 R404, R406). -/
structure Core where
  rrScalar : Nat := 0
  rrVector : Nat := 0
  mx : Option (BitVec 3) := none
  trail : List (BitVec 128) := []
  dropped : Nat := 0
deriving DecidableEq, Repr

/-- A Turlin link (29 R441, R447), link k on switch plane k: up, retired, retries, failed replays of the flit in hand. -/
structure Link where
  up : Bool := false
  retired : Bool := false
  retries : Word32 := 0
  replays : Nat := 0
deriving DecidableEq, Repr

/-- A CXL expander (29 R446): its capacity in 4-KiB frames, and whether it is lost. -/
structure Expander where
  frames : Nat := 0
  lost : Bool := false
deriving DecidableEq, Repr

/-- The mailbox (29 R445): command and response words, argument buffer, whether a command runs, and whether it is a checkpoint whose body
stands in its slot (28 R437). -/
structure Mbox where
  cmd : Word64 := 0
  resp : Word64 := 0
  args : Store Byte := []
  running : Bool := false
  written : Bool := false
deriving DecidableEq, Repr

/-- The units of time in some microseconds: the clock of 0.6 GHz (01 R14, R19) at any level in sixteenths takes a whole number of them. -/
def usUnits (us : Nat) : Nat := us * 600 * 720720
/-- The units that a clock takes at a level. -/
def clockUnits (level : Nat) : Nat := 16 * 720720 / level

/-- The state a checkpoint writes and a restore reads (28 R437), and what the device holds beside it while it runs. `time` is the time
that the clocks counted by `cyc` have taken at the levels of their time (01 R14), in units of which a microsecond has `usUnits 1`; `left`
is what ended groups left in their slots (22 R361, log 62). -/
structure Body where
  cyc : Word64 := 0
  time : Nat := 0
  mem : Store Byte := []
  poison : NSet := []
  dirty : NSet := []
  lines : Store Line := []
  bases : Vector Nat 4 := Vector.replicate 4 0
  floor : Word64 := 0
  ccopies : List CCopy := []
  wc : List WcLine := []
  versions : List Version := []
  outbox : List OutWrite := []
  dram : Store DramQueue := []
  served : List DramReq := []
  tlb : List TlbEntry := []
  walkCache : List WalkPtr := []
  gens : Store Nat := []
  walks : List Walk := []
  tlbis : List Tlbi := []
  migrations : List Migration := []
  groups : Store Group := []
  left : Store Group := []
  insts : Store Inst := []
  launches : Store Launch := []
  children : List Child := []
  cmds : List Cmd := []
  parts : Store Part := []
  cores : Store Core := []
  fslots : Store Word32 := []
  nextId : Nat := 0
  order : Nat := 0
deriving DecidableEq, Repr

/-- A checkpoint slot (28 R437): the header's STATE, SEQ, BLEN, digests and identity, the body, and the power cycle that wrote it. -/
structure Slot where
  complete : Bool := false
  seq : Nat := 0
  blen : Nat := 0
  bodyd : BitVec 512 := 0
  fwd : BitVec 512 := 0
  idk : BitVec 256 := 0
  body : Option Body := none
  power : Nat := 0
deriving DecidableEq, Repr

/-- How a request of the host or of a peer device is answered: completed, Completer Abort, Unsupported Request, or an
error (29 R439, R444, 25 R398, R451). -/
inductive ReplyStatus where
  | ok | abort | unsupported | error
deriving DecidableEq, Repr

/-- An answer with its data. -/
structure Reply where
  status : ReplyStatus
  data : Rec := []
deriving DecidableEq, Repr

/-- The machine. Beside the body: power and bring-up (01 R13, 29 R442), the registers of the device windows (29 R441),
links, expanders, functions and peers, the machine-check log (28 R432), the safe region (28 R437), what else firmware has written
to the capacity tier (01 R13), the sockets a message of which has come back with a destination error that no request has met yet
(01 R11, log 65), the data flits lost on a link whose request has not ended yet (29 R447), the requests of host functions and peers whose answers are on the way (25 R397), the clock level (01 R14),
the answer to the last request from outside, the partitions that mailbox events have named (28 R426), and the model's own
fields: the steps that come next, the groups given an issue slot, the group whose instruction runs, the counter of free
values, and the power cycle the keys belong to. -/
structure State extends Body where
  powered : Bool := true
  bstate : BitVec 4 := 0
  berr : Byte := 0
  lup : BitVec 6 := 0
  halt : Bool := false
  fwdig : BitVec 512 := 0
  devnum : BitVec 9 := 0
  domain : NSet := []
  unreachable : NSet := []
  temp : Vector Word32 18 := Vector.replicate 18 0
  tcs : Vector Word32 4 := Vector.replicate 4 6
  mbox : Mbox := {}
  links : Vector Link 36 := Vector.replicate 36 {}
  expanders : Vector Expander 4 := Vector.replicate 4 {}
  vfs : Store (BitVec 4) := []
  vfFrozen : NSet := []
  vfRefused : NSet := []
  peerFrozen : NSet := []
  peerRefused : NSet := []
  mclog : Store (BitVec 256) := []
  mcw : Word64 := 0
  corrected : Store Nat := []
  slots : Vector Slot 2 := Vector.replicate 2 {}
  firm : Store Byte := []
  astray : NSet := []
  flits : Nat := 0
  asking : Store Nat := []
  throttle : Nat := 16
  reply : Option Reply := none
  hostEvents : List Nat := []
  agenda : List Instr := []
  grant : List GKey := []
  cur : Option GKey := none
  nonce : Nat := 0
  power : Nat := 0
deriving DecidableEq, Repr

/-- Why a step ends with no next state. `noGroup` is raised by an instruction that runs while no group holds the issue
slot: safe, no run of `step` meets it. -/
inductive Fault where
  | noGroup
deriving DecidableEq, Repr

/-- Why the model gives no meaning: `notModelled` for an instruction whose meaning is not written; safe. -/
inductive Refusal where
  | notModelled (mnemonic : String)
deriving DecidableEq, Repr

/-- The machine right after power-on (29 R442, R443): POWERED, nothing trained, no partition, no group. Values the spec
does not give are named in the assumption log. -/
def State.reset : State := {}

end Sys2Proof.Machine
end

