-- ==== Sys2Proof/WellFormed.lean ====
section
/-!
DEFINITION. What the decoder checks of a word before it looks at the group (03 R65 step 4): one row for each
instruction constructor, holding its opcode, its functions, the selector classes of its operands and the values its
other fields may take, each from the field table of the instruction's chapter.
-/
namespace Sys2Proof

/-- What a selector field may name (03 R52). `v1` is a single vector register even beside pair operands (06 R112),
`absent` the code 0x00 that stands for no timeout (10 R193), `sNz` one of s1 to s63 (06 R99), `sEven` an even scalar
register other than s0 (22 R356), `lm` the lane and member indices, `raw` a register number (26 R408). -/
inductive Kind where
  | v | v1 | w | s | sNz | sEven | p | imm | zero | one | lm | absent | raw
deriving DecidableEq, Repr

/-- How an instruction uses one selector field: the classes it accepts (none: the field is marked 00 and holds 0x00),
whether the operand has 64 bits, and whether it is a floating-point or packed operand (03 R53). -/
structure Use where
  ks : List Kind := []
  wide : Bool := false
  fpk : Bool := false
deriving DecidableEq, Repr

/-- One row of the field tables. `enc` holds when T, M, X, the length and the immediate have values that the
instruction's chapter defines; `vec` when it counts in dic (02 R40), `gov` when P and PN govern it (03 R55), `load`
when it may not set N (03 R54), `cont` when it may continue a latch chain (03 R61), `priv` when it is privileged
(04 R72). -/
structure Row where
  op : BitVec 8
  fns : List (BitVec 4) := [0]
  d : Use := {}
  a : Use := {}
  b : Use := {}
  c : Use := {}
  enc : Bool := true
  vec : Bool := false
  gov : Bool := false
  load : Bool := false
  cont : Bool := false
  priv : Bool := false
deriving DecidableEq, Repr

/-- The field is used by the instruction. -/
def Use.used (u : Use) : Bool := !u.ks.isEmpty

/-- The instruction has a destination (02 R29). -/
def Row.dest (r : Row) : Bool := r.d.used

/-- Opcodes 0x02 to 0x0C, which close their chain (03 R62). -/
def Row.ctrl (r : Row) : Bool := 0x02 ≤ r.op && r.op ≤ 0x0C

/-! ### Lengths and immediates -/

/-- The 64-bit form. -/
def Fields.is64 (f : Fields) : Bool := f.imm == .none
/-- The 96-bit form. -/
def Fields.is96 (f : Fields) : Bool := match f.imm with | .i32 _ => true | _ => false
/-- The 128-bit form. -/
def Fields.is128 (f : Fields) : Bool := match f.imm with | .i64 _ => true | _ => false
/-- Some source selector names the immediate. -/
def Fields.hasImmSel (f : Fields) : Bool := f.a == .imm || f.b == .imm || f.c == .imm
/-- 64 bits; 96 or 128 bits with 0xF0. -/
def Fields.lenImm (f : Fields) : Bool := f.is64 || f.hasImmSel
/-- 64 bits; 96 bits with 0xF0. -/
def Fields.lenImm96 (f : Fields) : Bool := f.is64 || (f.is96 && f.hasImmSel)
/-- 64 or 96 bits. -/
def Fields.lenOff (f : Fields) : Bool := f.is64 || f.is96
/-- The immediate is zero or absent. -/
def Fields.immZero (f : Fields) : Bool :=
  match f.imm with | .none => true | .i32 w => w == 0 | .i64 w => w == 0
/-- I32, zero where the word has none. -/
def Fields.i32 (f : Fields) : Word32 := match f.imm with | .i32 w => w | _ => 0
/-- I64, zero where the word has none. -/
def Fields.i64 (f : Fields) : Word64 := match f.imm with | .i64 w => w | _ => 0
/-- The length of the word in bytes (03 R45). -/
def Fields.len (f : Fields) : Nat := match f.imm with | .none => 8 | .i32 _ => 12 | .i64 _ => 16
/-- T, M and X are zero. -/
def Fields.tmx0 (f : Fields) : Bool := f.t == 0 && f.m == 0 && f.x == 0
/-- T and M are zero, X is a timeline, barrier or predicate number in X[3:0]. -/
def Fields.tm0x4 (f : Fields) : Bool := f.t == 0 && f.m == 0 && f.x < 16
/-- M is a rounding code of a vector instruction (03 R58). -/
def Fields.rounding (f : Fields) : Bool := f.m < 7
/-- T is a floating-point code (03 R57). -/
def Fields.fpT (f : Fields) : Bool := f.t < 4
/-- T is an integer code of two or more packed values. -/
def packedInt (t : BitVec 3) : Bool := 2 ≤ t && t ≤ 5
/-- T is one of the unpacked integer codes I32, N32, I64, N64. -/
def Fields.plainInt (f : Fields) : Bool := !packedInt f.t
/-- T is a 64-bit integer code. -/
def wideInt (t : BitVec 3) : Bool := 6 ≤ t
/-- The scope code in X[2:0] is defined (03 R59). -/
def Fields.scopeOk (f : Fields) : Bool := f.x &&& 7 ≤ 4
/-- The access mode in X[4:3] (10 R182). -/
def Fields.mode (f : Fields) : BitVec 2 := f.x.extractLsb' 3 2

/-! ### Selector classes -/

/-- An s register or a special value, all 64 bits (06 R101). -/
def scSrc : Use := { ks := [.s, .imm, .zero, .one], wide := true }
/-- A scalar destination, or nil. -/
def scDst : Use := { ks := [.s, .zero], wide := true }
/-- A scalar register. -/
def scReg : Use := { ks := [.s], wide := true }
/-- A predicate. -/
def prReg : Use := { ks := [.p] }
/-- A predicate destination, or nil. -/
def prDst : Use := { ks := [.p, .zero] }
/-- A timeout (10 R193). -/
def timeoutUse : Use := { ks := [.absent, .s, .zero], wide := true }
/-- Stored scalar data (10 R181). -/
def scData : Use := { ks := [.s, .zero, .one], wide := true }
/-- A source of the vector integer and lane families (06 R108). -/
def viSrc (t : BitVec 3) : Use :=
  { ks := [.v, .w, .s, .imm, .zero, .one, .lm], wide := wideInt t, fpk := packedInt t }
/-- A destination of the vector families (06 R108, 17 R277). -/
def vDst (wide : Bool) : Use := { ks := [.v, .w, .zero], wide := wide }
/-- A source of the vector floating-point family (17 R277). -/
def vfSrc (t : BitVec 3) : Use := { ks := [.v, .w, .s, .imm, .zero, .one], wide := t == 1, fpk := true }
/-- A source of the scalar floating-point family (17 R293). -/
def sfSrc (t : BitVec 3) : Use := { ks := [.s, .imm, .zero, .one], wide := t == 1, fpk := true }
/-- A block scale (17 R295). -/
def scaleUse : Use := { ks := [.v, .w, .s] }
/-- Stored vector data (10 R181). -/
def vData (t : BitVec 3) (wide : Bool) : Use := { ks := [.v, .w, .s, .zero, .one], wide := wide, fpk := packedInt t }
/-- The index, stride or empty field of a vector access by its mode (10 R182). -/
def modeUse (f : Fields) : Use :=
  if f.mode = 0 then {} else if f.mode = 1 then scReg else { ks := [.v1] }

/-! ### The families -/

/-- A control row (06 R94): 96 bits with an offset. -/
def rowRel (op : BitVec 8) (f : Fields) : Row := { op, enc := f.is96 && f.tmx0 }
/-- A scalar integer row (06 R101). -/
def rowSi (op : BitVec 8) (f : Fields) (n : Nat) : Row :=
  { op, d := scDst, a := scSrc, b := if 2 ≤ n then scSrc else {}, c := if 3 ≤ n then scSrc else {},
    enc := f.lenImm && wideInt f.t && f.m == 0 && f.x == 0, cont := true }
/-- A bit-field row (06 R103). -/
def rowSbf (op : BitVec 8) (f : Fields) (n : Nat) : Row :=
  let r : Use := { ks := [.s, .zero, .one], wide := true }
  { op, d := scDst, a := r, b := if 2 ≤ n then r else {},
    enc := f.is96 && wideInt f.t && f.m == 0 && f.x == 0 && f.i32 &&& 0xFFFFC0C0 == 0 &&
      (f.i32.extractLsb' 0 6).toNat + (f.i32.extractLsb' 8 6).toNat + 1 ≤ 64,
    cont := true }
/-- A predicate row (06 R105 to R107), at 64 bits: chapter 06 states no length for it (log 67). -/
def rowP (op : BitVec 8) (f : Fields) : Row :=
  { op, d := prDst, a := prReg, enc := f.is64 && f.tmx0, vec := true, gov := true, cont := true }
/-- A vector integer row (06 R108); `sat` holds where the table allows M = 001. Chapter 06 states no lengths for the vector integer and
lane families; they exist at 64 bits, and at 96 or 128 bits where a selector names the immediate (log 67). -/
def rowVi (op : BitVec 8) (f : Fields) (n : Nat) (sat : Bool := false) : Row :=
  { op, d := vDst (wideInt f.t), a := viSrc f.t, b := if 2 ≤ n then viSrc f.t else {},
    c := if 3 ≤ n then viSrc f.t else {},
    enc := f.lenImm && (f.m == 0 || (sat && f.m == 1)) && f.x == 0, vec := true, gov := true, cont := true }
/-- A lane row (06 R111), at the lengths of `rowVi`. -/
def rowLn (op : BitVec 8) (f : Fields) : Row :=
  { op, d := vDst (wideInt f.t), a := viSrc f.t, enc := f.lenImm && f.plainInt && f.m == 0 && f.x == 0,
    vec := true, gov := true, cont := true }
/-- A vector floating-point row (17 R277); `rm` holds where M is a rounding code. -/
def rowVf (op : BitVec 8) (f : Fields) (n : Nat) (rm : Bool := true) : Row :=
  { op, d := vDst (f.t == 1), a := vfSrc f.t, b := if 2 ≤ n then vfSrc f.t else {},
    c := if 3 ≤ n then vfSrc f.t else {},
    enc := f.lenImm && f.fpT && (if rm then f.rounding else f.m == 0) && f.x == 0,
    vec := true, gov := true, cont := true }
/-- A scalar floating-point row (17 R293). -/
def rowSf (op : BitVec 8) (f : Fields) (n : Nat) : Row :=
  { op, d := scDst, a := sfSrc f.t, b := if 2 ≤ n then sfSrc f.t else {}, c := if 3 ≤ n then sfSrc f.t else {},
    enc := f.lenImm && f.t < 2 && f.m < 6 && f.x == 0, cont := true }
/-- An Agate row (16 R270): the accumulator number is X[3:0]. -/
def rowG (op : BitVec 8) (f : Fields) : Row :=
  { op, enc := f.is64 && f.t == 0 && f.m == 0 && f.x < 16, vec := true }
/-- An Agate row with an image in memory (16 R270); space K of a writing form traps at execution (16 R274). -/
def rowGm (f : Fields) (op : BitVec 8) : Row :=
  { op, a := scReg, enc := f.lenOff && f.t == 0 && f.m < 5 && f.x < 16, vec := true }
/-- The space code of a memory instruction is one of G, L, W, K, M, S (03 R58). -/
def Fields.space (f : Fields) : Bool := f.m < 6
/-- A scalar memory row (10 R181). -/
def rowMem (op : BitVec 8) (f : Fields) (ok : Bool) : Row :=
  { op, a := scReg, enc := f.lenOff && ok }
/-- The T codes of an atomic under its operator (10 R189). -/
def atomT (f : Fields) : Bool := if f.fn ≤ 6 then f.plainInt else f.t < 2
/-- The data of an atomic has 64 bits (10 R183). -/
def atomWide (f : Fields) : Bool := if f.fn ≤ 6 then wideInt f.t else f.t == 1
/-- A wait row with its timeout in C and its timeout predicate in X[3:0] (22 R356). -/
def rowWait (op : BitVec 8) (f : Fields) (fn : BitVec 4 := 0) : Row :=
  { op, fns := [fn], c := timeoutUse, enc := f.is64 && f.tm0x4 }
/-- A row whose function is fixed by the constructor. -/
def Row.fn (r : Row) (k : BitVec 4) : Row := { r with fns := [k] }
/-- The functions 0 to n-1. -/
def fnsTo (n : Nat) : List (BitVec 4) := (List.range n).map (BitVec.ofNat 4)
/-- A ROW row (11 R213). -/
def rowRow (f : Fields) (k : BitVec 4) (n : Nat) : Row :=
  { op := 0xE2, fns := [k], a := scReg, b := if 1 ≤ n then scReg else {}, c := if 2 ≤ n then scReg else {},
    enc := f.is96 && f.tm0x4 }
/-- The spaces of a copy (10 R207): M is neither source nor destination, and a bitmap needs a destination in memory. -/
def copySpaces (f : Fields) : Bool :=
  f.t < 6 && f.t != 4 && f.m < 6 && f.m != 4 && !(f.is96 && (f.m == 1 || f.m == 2))
/-- A COLL row (12 R236); only functions 0 to 3 have a progressive form. -/
def rowColl (f : Fields) (k : BitVec 4) : Row :=
  { op := 0xE4, fns := [k], a := scReg, b := scReg,
    enc := f.is64 && f.t == 0 && f.m == 0 && (f.x < 16 || k < 4) }
/-- A matrix row (18 R315). -/
def rowMx (op : BitVec 8) (f : Fields) (ok : Bool) : Row := { op, a := scReg, enc := ok && f.x < 16 }
/-- I32 of MLDT and MSTT holds the tile, row, column and SK, with SLOT and RM zero (18 R316). -/
def tileImm (f : Fields) : Bool := f.i32 &&& 0xF880C0F8 == 0
/-- I32 of MDRN.OWN (18 R316). -/
def drainImm (f : Fields) : Bool :=
  f.i32 &&& 0xC000C0F8 == 0 && f.i32.extractLsb' 27 3 != 7 && (f.i32.getLsbD 23 → f.t == 0)
/-- A BAR row with a destination (22 R356). -/
def rowBarA (f : Fields) (k : BitVec 4) : Row := { op := 0xE8, fns := [k], d := scDst, enc := f.is64 && f.tm0x4 }
/-- A BAR row that waits for a given target (22 R356). -/
def rowBarW (f : Fields) (k : BitVec 4) : Row :=
  { op := 0xE8, fns := [k], a := { ks := [.s, .imm], wide := true }, b := prReg, c := timeoutUse,
    enc := f.lenImm96 && f.tm0x4 }
/-- A BARQ row (22 R356): M selects the mode, and B is 0xF1 outside .STATUS. -/
def rowBarq (f : Fields) (k : BitVec 3) : Row :=
  { op := 0xE9, d := scReg, b := { ks := [.s, .imm, .zero], wide := true },
    enc := f.lenImm96 && f.t == 0 && f.m == k && f.x < 16 && (k == 0 || f.b == .zero) }
/-- A system row at 64 bits (26 R408). -/
def rowSys (op : BitVec 8) (f : Fields) : Row := { op, enc := f.is64 && f.tmx0 }
/-- The code pairs of VCVTI: its source code is X[2:0] (06 R110). -/
def cvtiPair (s t : BitVec 3) : Bool :=
  (!packedInt s && !packedInt t) || (s.extractLsb' 1 2 == t.extractLsb' 1 2)
/-- The code pairs of the conversions between floating point `f` and integer `i` (17 R297). -/
def cvtPair (fp i : BitVec 3) : Bool :=
  (fp < 2 && !packedInt i) || ((fp == 2 || fp == 3) && (i == 2 || i == 3))
/-- The code combinations of SFCVT (17 R294). -/
def sfcvtOk (f : Fields) : Bool :=
  let k := f.x.extractLsb' 3 2
  let s := f.x.extractLsb' 0 3
  if k = 0 then s < 2 && f.t < 2
  else if k = 1 then s < 2 && f.plainInt
  else if k = 2 then !packedInt s && f.t < 2
  else false

/-- D names a scalar register. -/
def Fields.dScalar (f : Fields) : Bool := match f.d with | .s _ => true | _ => false

/-- The row of an instruction; a hardware or host step has none. -/
def row : Instr → Option Row
  | .nop f => some { op := 0x01, enc := f == { imm := f.imm } && f.immZero }
  | .br f => some (rowRel 0x02 f)
  | .brc f =>
    some { op := 0x03, fns := fnsTo 6, a := scData, b := scData, enc := f.is96 && wideInt f.t && f.m == 0 && f.x == 0,
           cont := true }
  | .jmp f => some { op := 0x04, a := scReg, enc := f.is64 && f.tmx0 }
  | .call f => some { op := 0x05, a := if f.is96 then {} else scReg, enc := f.lenOff && f.tmx0 }
  | .ret f => some { op := 0x06, enc := f.is64 && f.tmx0 }
  | .loop f => some { rowRel 0x07 f with d := { ks := [.sNz], wide := true } }
  | .clk f => some { op := 0x0C, d := scDst, enc := f.is64 && f.tmx0 }
  | .brm f => some { rowRel 0x08 f with fns := fnsTo 3, a := prReg, gov := true, cont := true }
  | .exit f => some { op := 0x09, enc := f.is64 && f.tmx0 }
  | .yield f => some { op := 0x0A, enc := f.is64 && f.tmx0 }
  | .sleep f => some { op := 0x0B, a := { ks := [.s, .imm, .zero], wide := true }, enc := f.lenImm && f.tmx0 }
  | .sadd f => some (rowSi 0x10 f 2)
  | .ssub f => some (rowSi 0x11 f 2)
  | .smul f => some (rowSi 0x12 f 2)
  | .smulh f => some (rowSi 0x13 f 2)
  | .sdiv f => some { rowSi 0x14 f 2 with cont := false }
  | .srem f => some { rowSi 0x15 f 2 with cont := false }
  | .smadd f => some (rowSi 0x16 f 3)
  | .slog f => some { rowSi 0x17 f 2 with fns := fnsTo 6 }
  | .sshf f => some { rowSi 0x18 f 2 with fns := fnsTo 5 }
  | .sbit f => some { rowSi 0x19 f 1 with fns := fnsTo 5 }
  | .smnx f => some { rowSi 0x1A f 2 with fns := fnsTo 2 }
  | .sset f => some { rowSi 0x1B f 2 with fns := fnsTo 6 }
  | .ssel f => some (rowSi 0x1C f 3)
  | .smov f => some (rowSi 0x1D f 1)
  | .sbfx f => some (rowSbf 0x1E f 1)
  | .sbfi f => some (rowSbf 0x1F f 2)
  | .slea f => some { rowSi 0x20 f 3 with enc := f.lenImm && wideInt f.t && f.m == 0 && f.x < 8 }
  | .plog f => some { rowP 0x30 f with fns := fnsTo 6, b := prReg }
  | .pcnt f => some { rowP 0x31 f with d := { ks := [.v, .s, .zero] } }
  | .pfirst f => some (rowP 0x32 f)
  | .pmem f => some { rowP 0x33 f with fns := fnsTo 3, d := { ks := [.p, .s, .zero] } }
  | .mmskSet f => some { op := 0x34, fns := [0], a := scSrc, enc := f.lenImm && f.tmx0 }
  | .mmskAnd f => some { op := 0x34, fns := [1], a := scSrc, enc := f.lenImm && f.tmx0 }
  | .mmskOr f => some { op := 0x34, fns := [2], a := scSrc, enc := f.lenImm && f.tmx0 }
  | .mmskPush f => some { op := 0x34, fns := [3], a := scSrc, enc := f.lenImm && f.tmx0 }
  | .mmskPop f => some { op := 0x34, fns := [4], enc := f.is64 && f.tmx0 }
  | .vadd f => some (rowVi 0x40 f 2 true)
  | .vsub f => some (rowVi 0x41 f 2 true)
  | .vmul f => some { rowVi 0x42 f 2 (f.fn == 0) with fns := fnsTo 2 }
  | .vmad f => some (rowVi 0x43 f 3 true)
  | .vmnx f => some { rowVi 0x44 f 2 with fns := fnsTo 2 }
  | .vabs f => let r := rowVi 0x45 f 1 true; some { r with enc := r.enc && f.t &&& 1 == 0 }
  | .vlog f => some { rowVi 0x46 f 2 with fns := fnsTo 6 }
  | .vshf f => some { rowVi 0x47 f 2 with fns := fnsTo 5 }
  | .vbit f => some { rowVi 0x48 f 1 with fns := fnsTo 5 }
  | .vcmp f =>
    let r := rowVi 0x49 f 2
    some { r with fns := fnsTo 6, d := prDst, enc := r.enc && f.plainInt }
  | .vsel f => some { rowVi 0x4A f 2 with c := prReg }
  | .vmov f => some (rowVi 0x4B f 1)
  | .vcvti f =>
    some { rowVi 0x4C f 1 true with
      a := viSrc (f.x.extractLsb' 0 3),
      enc := f.lenImm && f.m < 2 && f.x < 8 && cvtiPair (f.x.extractLsb' 0 3) f.t }
  | .vperm f => some { rowLn 0x60 f with b := viSrc 0 }
  | .vslide f =>
    some { rowLn 0x61 f with fns := fnsTo 2, b := viSrc f.t, c := { ks := [.s, .imm, .zero], wide := true } }
  | .vblut f =>
    let h : Use := { ks := [.s, .imm, .zero], wide := true }
    some { rowLn 0x62 f with b := h, c := h, enc := f.lenImm && f.t == 5 && f.m == 0 && f.x < 2 }
  | .vredi f =>
    some { rowLn 0x63 f with
      fns := fnsTo 6,
      enc := f.lenImm && f.plainInt && (f.m == 0 || (f.m == 1 && f.fn == 0)) && f.x == 0 }
  -- VEXT and VINS: the selectors of B, and A of VINS, are those of a scalar source (log 21)
  | .vext f => some { rowLn 0x64 f with d := scDst, b := scSrc, gov := false }
  | .vins f =>
    some { rowLn 0x65 f with a := { ks := [.s, .imm, .zero, .one], wide := true }, b := scSrc }
  | .vscan f =>
    some { rowLn 0x66 f with
      fns := fnsTo 6,
      enc := f.lenImm && f.plainInt && (f.m == 0 || (f.m == 1 && f.fn == 0)) && f.x < 2 }
  | .vcompCompress f => some ((rowLn 0x67 f).fn 0)
  | .vcompExpand f => some ((rowLn 0x67 f).fn 1)
  | .vfadd f => some (rowVf 0x70 f 2)
  | .vfsub f => some (rowVf 0x71 f 2)
  | .vfmul f => some (rowVf 0x72 f 2)
  | .vfma f => some { rowVf 0x73 f 3 with fns := fnsTo 4 }
  | .vfdiv f => some { rowVf 0x74 f 2 with cont := false }
  | .vfsqrt f => some { rowVf 0x75 f 1 with cont := false }
  | .vfmnx f => some { rowVf 0x76 f 2 false with fns := fnsTo 4 }
  | .vfsgn f => some { rowVf 0x77 f (if f.fn = 1 then 1 else 2) false with fns := fnsTo 3 }
  | .vfcmp f =>
    some { rowVf 0x78 f 2 with
      fns := fnsTo 8, d := prDst,
      enc := f.lenImm && f.fpT && f.m == 0 && f.x < 4 && (2 ≤ f.t || f.x == 0) }
  | .vfcls f =>
    some { rowVf 0x79 f 1 with
      d := prDst, b := { ks := [.s, .imm] },
      enc := f.lenImm && f.fpT && f.m == 0 && f.x < 4 && (2 ≤ f.t || f.x == 0) }
  | .vfscl f => some { rowVf 0x7A f 1 with b := { viSrc 0 with fpk := 2 ≤ f.t } }
  | .vfexp f => some (rowVf 0x7B f 1)
  | .vflog f => some (rowVf 0x7C f 1)
  | .vfrnd f => some (rowVf 0x7D f 1)
  | .vfxp f => some { rowVf 0x7E f 1 false with fns := fnsTo 2 }
  | .rdfl f => some { op := 0x7F, d := { ks := [.v, .zero] }, enc := f.is64 && f.tmx0, vec := true, gov := true }
  | .clfl f =>
    some { op := 0x80, a := { ks := [.s, .imm, .zero, .one] }, enc := f.lenImm && f.tmx0, vec := true, gov := true }
  | .sfadd f => some { rowSf 0x90 f 2 with fns := fnsTo 2 }
  | .sfmul f => some (rowSf 0x91 f 2)
  | .sffma f => some { rowSf 0x92 f 3 with fns := fnsTo 4 }
  | .sfdiv f => some { rowSf 0x93 f 2 with cont := false }
  | .sfsqrt f => some { rowSf 0x94 f 1 with cont := false }
  | .sfcmp f =>
    let r := rowSf 0x95 f 2
    some { r with fns := fnsTo 8, enc := r.enc && f.m == 0 }
  | .sfcvt f =>
    let s := f.x.extractLsb' 0 3
    let src : Use := if f.x.extractLsb' 3 2 = 2 then { scSrc with wide := wideInt s } else sfSrc s
    some { rowSf 0x96 f 1 with a := src, enc := f.lenImm && f.m < 6 && sfcvtOk f }
  | .vcvtFpfp f =>
    let s := f.x.extractLsb' 0 3
    some { rowVf 0x97 f 1 with
      fns := [0], a := vfSrc s,
      enc := f.is64 && f.fpT && s < 4 && f.rounding && f.x < 16 &&
      (f.x < 8 || (decide (2 ≤ s) != decide (2 ≤ f.t))) }
  | .vcvtFpint f =>
    let s := f.x.extractLsb' 0 3
    some { rowVf 0x97 f 1 with
      fns := [1], d := vDst (wideInt f.t), a := vfSrc s,
      enc := f.is64 && f.rounding && f.x < 8 && cvtPair s f.t }
  | .vcvtIntfp f =>
    let s := f.x.extractLsb' 0 3
    some { rowVf 0x97 f 1 with
      fns := [2], a := viSrc s,
      enc := f.is64 && f.rounding && f.x < 8 && cvtPair f.t s }
  | .vcvtFpslot f =>
    some { op := 0x97, fns := [3], d := { ks := [.v, .w] }, a := { ks := [.v, .w, .s], wide := f.t == 1, fpk := true },
           b := scaleUse, enc := f.is96 && f.t < 2 && f.rounding && f.x == 0 && f.i32 &&& 0xFFFFF8F8 == 0,
           vec := true, gov := true, cont := true }
  | .vcvtSlotfp f =>
    some { op := 0x97, fns := [4], d := vDst (f.t == 1), a := { ks := [.v, .w, .s], fpk := true },
           b := scaleUse, enc := f.is96 && f.t < 2 && f.rounding && f.x == 0 && f.i32 &&& 0xFFFFF8F8 == 0,
           vec := true, gov := true, cont := true }
  | .vrq f =>
    some { op := 0x98, d := vDst false, a := { ks := [.v, .w, .s], fpk := true }, b := scaleUse, c := scaleUse,
           enc := f.is96 && f.t == 0 && f.rounding && f.x == 0 && f.i32 &&& 0xFFFFFFF8 == 0,
           vec := true, gov := true, cont := true }
  | .vbsc f =>
    some { op := 0x99, d := vDst false, a := { ks := [.v, .w, .s, .zero, .one], wide := f.t == 1, fpk := true },
           enc := f.is96 && f.fpT && f.m == 0 && f.x == 0 && f.i32 &&& 0xFFFFFFF8 == 0,
           vec := true, gov := true, cont := true }
  | .gclr f => some (rowG 0xA0 f)
  | .gadd f =>
    some { rowG 0xA1 f with
      a := vfSrc f.t, enc := f.lenImm && f.t < 2 && f.m == 0 && f.x < 16, gov := true,
      cont := true }
  | .gdot f =>
    some { rowG 0xA2 f with
      a := vfSrc f.t, b := vfSrc f.t, enc := f.lenImm && f.t < 2 && f.m == 0 && f.x < 16,
      gov := true, cont := true }
  | .grnd f =>
    some { rowG 0xA3 f with
      d := { ks := [.v, .zero], wide := f.t == 1 }, c := prReg,
      enc := f.is64 && f.t < 2 && f.rounding && f.x < 16, gov := true }
  | .gst f => some (rowGm f 0xA4)
  | .gld f => some (rowGm f 0xA5)
  | .gmrg f => some (rowGm f 0xA6)
  | .gmrgMem f => let r := rowGm f 0xA6; some { r with enc := f.lenOff && f.t == 0 && f.m < 5 && 16 ≤ f.x }
  | .gstat f =>
    some { rowG 0xA7 f with d := { ks := [.s, .v], wide := true }, gov := match f.d with | .v _ => true | _ => false }
  | .mzero f => some { op := 0xB0, enc := f.is64 && f.t == 0 && f.m == 0 && f.x < 8 }
  | .mma f => some (rowMx 0xB1 f (f.is64 && f.t == 0 && f.m == 0))
  | .mldt f =>
    some (rowMx 0xB2 f (f.is96 && (f.t == 0 || f.t == 2 || f.t == 3) && f.space && f.m != 4 && tileImm f))
  | .mstt f => some (rowMx 0xB3 f (f.is96 && f.t == 0 && f.space && f.m != 4 && tileImm f))
  | .mdrnOwn f =>
    some ((rowMx 0xB4 f (f.is96 && (f.t == 0 || f.t == 2 || f.t == 3) && f.space && f.m != 4 && drainImm f)).fn 0)
  | .mdrnPeer f =>
    some ((rowMx 0xB4 f (f.is96 && f.t == 0 && f.m == 0 && f.i32 &&& 0xFFFFFFF8 == 0)).fn 1)
  | .mrp f => some { op := 0xB5, a := { ks := [.s, .zero], wide := true }, enc := f.is64 && f.tmx0 }
  | .mpri f => some { op := 0xB6, a := scSrc, enc := f.lenImm && f.tmx0 }
  | .layx f => some { op := 0xB7, a := scReg, enc := f.is64 && f.t == 0 && f.m == 0 }
  | .sld f => some { rowMem 0xC0 f (f.space && f.x == 0) with d := scReg, load := true }
  | .sst f => some { rowMem 0xC1 f (f.space && f.x == 0) with b := scData }
  | .vld f =>
    some { rowMem 0xC2 f (f.space && f.mode != 3 && f.x &&& 7 == 0) with
      d := { ks := [.v], wide := wideInt f.t }, c := modeUse f, vec := true, gov := true, load := true }
  | .vst f =>
    some { rowMem 0xC3 f (f.space && f.mode != 3 && f.x &&& 7 == 0) with
      b := vData f.t (wideInt f.t), c := modeUse f, vec := true, gov := true }
  | .wld f =>
    some { rowMem 0xC4 f (f.plainInt && f.m < 4 && f.x == 0) with
      d := { ks := [.w], wide := wideInt f.t }, vec := true, load := true }
  | .satom f =>
    some { rowMem 0xC5 f (atomT f && f.m < 5 && f.x < 8 && f.scopeOk) with fns := fnsTo 10, d := scDst, b := { scData with fpk := 7 ≤ f.fn } }
  | .scas f =>
    some { rowMem 0xC6 f (f.plainInt && f.m < 5 && f.x < 8 && f.scopeOk) with d := scDst, b := scData, c := scData }
  | .vatom f =>
    some { rowMem 0xC7 f (atomT f && f.m < 5 && f.mode != 3 && f.scopeOk) with
      fns := fnsTo 10, d := { ks := [.v, .zero], wide := atomWide f },
      b := { ks := [.v, .w, .s, .zero, .one], wide := atomWide f, fpk := 7 ≤ f.fn }, c := modeUse f, vec := true, gov := true }
  | .plk f =>
    let vec := match f.b with | .v _ | .w _ => true | _ => false
    some { rowMem 0xC8 f (atomT f && (f.m == 0 || f.m == 3 || f.m == 4) && f.mode != 3 && f.scopeOk &&
             (vec || f.mode == 0)) with
      fns := [0, 1, 2, 3, 4, 5, 7, 8, 9], b := { ks := [.v, .w, .s, .zero, .one], wide := atomWide f, fpk := 7 ≤ f.fn },
      c := modeUse f, vec := vec, gov := vec }
  | .ldfKeep f =>
    some { rowMem 0xC9 f (f.t < 2 && (f.m == 1 || f.m == 2) && f.x < 16) with
      d := scReg, c := timeoutUse, load := true }
  | .ldfTake f =>
    some { rowMem 0xC9 f (f.t < 2 && (f.m == 1 || f.m == 2) && f.x < 16) with
      fns := [1], d := scReg, c := timeoutUse, load := true }
  | .ste f =>
    some { rowMem 0xCA f (f.t < 2 && (f.m == 1 || f.m == 2 || f.m == 3) && f.x < 16) with b := scData, c := timeoutUse }
  | .fesetEmpty f => some (rowMem 0xCB f (f.t == 0 && (f.m == 1 || f.m == 2 || f.m == 3) && f.x == 0))
  | .fesetFull f => some ((rowMem 0xCB f (f.t == 0 && (f.m == 1 || f.m == 2 || f.m == 3) && f.x == 0)).fn 1)
  | .fenceAcq f => some { op := 0xCC, enc := f.is64 && f.t == 0 && f.m == 0 && f.x < 5 }
  | .fenceRel f => some { op := 0xCC, fns := [1], enc := f.is64 && f.t == 0 && f.m == 0 && f.x < 5 }
  | .fenceFull f => some { op := 0xCC, fns := [2], enc := f.is64 && f.t == 0 && f.m == 0 && f.x < 5 }
  | .fencePromote f =>
    some { op := 0xCC, fns := [3], a := scReg, enc := f.is64 && f.t == 0 && f.m == 0 && 2 ≤ f.x && f.x < 5 }
  | .tlwaitWait f =>
    some { op := 0xCD, d := prReg, a := scSrc, b := timeoutUse, c := prReg,
           enc := f.lenOff && f.tm0x4 && (f.a == .imm || f.immZero) }
  | .tlwaitTest f =>
    some { op := 0xCD, fns := [1], d := prReg, a := scSrc, c := prReg,
           enc := f.lenOff && f.tm0x4 && (f.a == .imm || f.immZero) }
  | .tlrdDone f => some { op := 0xCE, d := scReg, enc := f.is64 && f.tm0x4 }
  | .tlrdIssued f => some { op := 0xCE, fns := [1], d := scReg, enc := f.is64 && f.tm0x4 }
  | .tlrdErr f => some { op := 0xCE, fns := [2], d := scReg, enc := f.is64 && f.tm0x4 }
  | .tlrdClrerr f => some { op := 0xCE, fns := [3], d := scReg, enc := f.is64 && f.tm0x4 }
  | .tlinc f => some { op := 0xCF, d := scReg, enc := f.is64 && f.tm0x4 }
  | .cmoClean f => some { rowMem 0xD0 f f.tmx0 with b := scData }
  | .cmoInval f => some { rowMem 0xD0 f f.tmx0 with fns := [1], b := scData }
  | .cmoFlush f => some { rowMem 0xD0 f f.tmx0 with fns := [2], b := scData }
  | .cmoPin f => some { rowMem 0xD0 f f.tmx0 with fns := [3], b := scData, priv := true }
  | .cmoUnpin f => some { rowMem 0xD0 f f.tmx0 with fns := [4], b := scData, priv := true }
  | .pref f => some (rowMem 0xD1 f (f.t == 0 && (f.m == 0 || f.m == 3 || f.m == 4) && f.x < 2))
  | .lifeMark f => some { rowMem 0xD2 f f.tmx0 with b := scData, c := { ks := [.s, .zero], wide := true } }
  | .lifeStep f =>
    some { op := 0xD2, fns := [1], a := { ks := [.s, .imm], wide := true },
           enc := f.lenOff && f.tmx0 && (f.a == .imm || f.immZero) }
  | .svc f =>
    some { op := 0xD3, a := scSrc, b := scSrc,
           enc := f.lenOff && f.tmx0 && (f.a == .imm || f.b == .imm || f.immZero) }
  | .chkwWait f =>
    some { rowMem 0xD4 f (f.t == 0 && f.m == 1 && f.x < 16) with b := scData, c := timeoutUse }
  | .chkwTest f => some { rowMem 0xD4 f (f.t == 0 && f.m == 1 && f.x < 16) with fns := [1], b := scData }
  | .cpyCopy f =>
    some { rowMem 0xE0 f (copySpaces f && f.x < 16) with b := scReg, c := { ks := [.s, .zero], wide := true } }
  | .cpyFill f =>
    some { rowMem 0xE0 f (f.t == 0 && copySpaces f && f.x < 16) with
      fns := [1], b := scReg, c := { ks := [.s, .zero], wide := true } }
  | .cpyt f => some { op := 0xE1, a := scReg, b := scReg, enc := (f.is64 || f.is128) && copySpaces f }
  | .rowCopy f => some (rowRow f 0 1)
  | .rowFill0 f => some (rowRow f 1 0)
  | .rowFill1 f => some (rowRow f 2 0)
  | .rowAnd f => some (rowRow f 3 2)
  | .rowOr f => some (rowRow f 4 2)
  | .rowXor f => some (rowRow f 5 2)
  | .rowNot f => some (rowRow f 6 1)
  | .ired f =>
    some { op := 0xE3, a := scReg, b := scReg, c := { ks := [.s, .imm], wide := true },
           enc := (f.is64 || (f.is96 && f.c == .imm)) && f.tm0x4 }
  | .collAllred f => some (rowColl f 0)
  | .collReduce f => some (rowColl f 1)
  | .collBcast f => some (rowColl f 2)
  | .collAllgath f => some (rowColl f 3)
  | .collXsum f => some (rowColl f 4)
  | .collSpread f => some (rowColl f 5)
  | .collQuant f => some (rowColl f 6)
  | .collRankh f => some (rowColl f 7)
  | .cprec f => some { rowMem 0xE5 f f.tmx0 with d := scReg, load := true }
  | .cwaitp f => some { rowMem 0xE6 f f.tm0x4 with d := prReg, b := scData, c := timeoutUse }
  | .ccan f => some { rowMem 0xE7 f f.tmx0 with d := prReg }
  | .barArrive f => some (rowBarA f 0)
  | .barArriveWait f => some { rowBarA f 1 with b := prReg, c := timeoutUse }
  | .barWait f => some (rowBarW f 2)
  | .barWaitLocal f => some (rowBarW f 3)
  | .barqStatus f => some (rowBarq f 0)
  | .barqCid f => some (rowBarq f 1)
  | .barqGen f => some (rowBarq f 2)
  | .sig f => some { op := 0xEA, a := scReg, b := scReg, enc := f.is96 && f.tm0x4 && f.i32 &&& 0xFFFFFFF0 == 0 }
  | .lnch f => some { rowWait 0xEB f with d := scDst, a := scReg, b := scReg }
  | .join f => some { rowWait 0xEC f with d := { ks := [.sEven], wide := true }, b := prReg }
  | .mrgRegroup f =>
    some { op := 0xED, a := prReg, b := { ks := [.s, .zero], wide := true }, c := { ks := [.s, .zero], wide := true },
           enc := f.is96 && f.tmx0 && f.i32 &&& 0xFFFF0000 == 0 }
  | .mrgReturn f =>
    some { op := 0xED, fns := [1], b := { ks := [.s, .zero], wide := true }, c := { ks := [.s, .zero], wide := true },
           enc := f.is96 && f.tmx0 && f.i32 &&& 0xFFFF0000 == 0 }
  | .ordc f => some { rowWait 0xEE f with d := scDst }
  | .trap f => some { op := 0xF0, enc := f.lenOff && f.tmx0 }
  | .gctlResume f => some { rowSys 0xF1 f with d := scReg, a := scReg, b := { ks := [.s, .zero], wide := true }, priv := true }
  | .gctlKill f => some { rowSys 0xF1 f with fns := [1], d := scReg, a := scReg, priv := true }
  | .gctlStep f =>
    some { rowSys 0xF1 f with fns := [2], d := scReg, a := scReg, b := { ks := [.s, .zero], wide := true }, priv := true }
  | .mfs f =>
    some { rowSys 0xF2 f with d := { ks := [.s, .v], wide := true }, b := { ks := [.raw] } }
  | .mts f =>
    some { op := 0xF3, a := scSrc, b := { ks := [.raw] }, enc := (f.is64 || f.a == .imm) && f.tmx0 }
  | .segld f => some { op := 0xF4, a := scReg, enc := f.lenOff && f.t == 0 && f.m == 0 && f.x < 4, priv := true }
  | .tlbiRange f => some { rowSys 0xF5 f with a := scReg, b := scReg, c := scReg, priv := true }
  | .tlbiAsid f => some { rowSys 0xF5 f with fns := [1], a := scReg, priv := true }
  | .tlbiAll f => some { rowSys 0xF5 f with fns := [2], priv := true }
  | .tlbsync f => some { rowSys 0xF6 f with d := scReg, priv := true }
  | .adhv f => some { op := 0xF7, a := scReg, b := scReg, c := scReg, enc := f.lenOff && f.tmx0, priv := true }
  | .frzThaw f => some { rowSys 0xF8 f with d := scReg, a := scReg, priv := true }
  | .frzKill f => some { rowSys 0xF8 f with fns := [1], d := scReg, a := scReg, priv := true }
  | .ctxs f => some { rowSys 0xF9 f with d := scReg, priv := true }
  | .trmPredicate f =>
    some { op := 0xFA, d := prReg, a := { ks := [.v, .w], wide := f.t == 6 },
           enc := f.is64 && (f.t == 0 || f.t == 6) && f.m == 0 && f.x == 0 && !f.dScalar }
  | .trmScalar f => some { op := 0xFA, d := scReg, enc := f.is64 && f.tmx0 && f.dScalar }
  | .pwait f => some { rowWait 0xFB f with d := scReg, a := { ks := [.s, .zero], wide := true }, priv := true }
  | .issueArbitration _ _ | .ltTick _ | .trapRecordWrite _ | .switchPointEvent _ | .fullEmptyWake _
  | .timelineWaitWake _ | .chunkWaitWake _ | .planeWaitWake _ | .barrierWaitWake _ | .joinWake _
  | .lnchRoomWake _ | .ordcWake _ | .pwaitWake _ | .sleepWake _ | .sleepExpiry _
  | .waitTimeout _ | .watchdog _ | .fenceComplete _ | .mrgRendezvous _ | .signalArrival _
  | .signalQueued _ | .signalStaleDrop _ | .engineUnit _ _ | .rowBlockWrite _ _ | .iredRun _ _
  | .collMatch _ _ | .collPlaneArrival _ _ | .cancelPropagation _ _ _ | .engineCommandFinish _ | .engineFault _ _
  | .followOnSubmit _ | .matrixEntry _ | .matrixStep _ | .matrixQueueAging _ | .directoryLoadMiss _ _
  | .directoryWriteOwnership _ _ _ | .directoryPlk _ _ _ _ | .directoryScopedAtomic _ _ _ | .evictionNotice _ _ _ | .leaseRenewalReturn _
  | .homeAtomic _ _ _ _ | .dramSchedulerPick _ | .tierPromotion _ _ _ | .pageMigration _ | .pageWalk _ _ _ _ _
  | .tlbiTarget _ _ | .tlbiAck _ _ | .shootdownTargetLost _ | .orderedCommit _ | .packetLaunch _
  | .packetNode _ | .packetCopy _ | .packetSignal _ | .readyPoolAging _ | .placement _
  | .cohortInstanceEnd _ | .launchEnd _ | .copyPacketDone _ | .traceDrain _ | .lossRecord _
  | .correctedError _ _ | .uncorrectableError _ | .lostControlFlit _ _ | .potluckRecallFailure _ _ | .destinationError _ _
  | .linkCrcReplay _ | .linkRetire _ | .deviceUnreachable _ | .expanderLoss _ | .peerRequest _ _ _ _
  | .peerUnknownPartition _ _ _ _ | .hostBar2Access _ _ _ | .hostAtomic _ _ _ | .notReadyAccess _ _ _ | .registerWrite _ _
  | .mbCreate | .mbDestroy | .mbQueue | .mbLoad | .mbSeal
  | .mbAttest | .mbImport | .mbCheckpoint | .mbRestore | .mbSettcs
  | .mbSetwdog | .mbAssign | .powerOn _ | .powerLoss | .clockThrottle _
  | .thermalShutdown _ | .rejectedPacket _ | .timestampSweep _
    => none

/-! ### Step 4 of the decode order -/

/-- The fields of an instruction; a hardware or host step has none. -/
def fields : Instr → Option Fields
  | .nop f | .br f | .brc f | .jmp f | .call f | .ret f
  | .loop f | .clk f | .brm f | .exit f | .yield f | .sleep f
  | .sadd f | .ssub f | .smul f | .smulh f | .sdiv f | .srem f
  | .smadd f | .slog f | .sshf f | .sbit f | .smnx f | .sset f
  | .ssel f | .smov f | .sbfx f | .sbfi f | .slea f | .plog f
  | .pcnt f | .pfirst f | .pmem f | .mmskSet f | .mmskAnd f | .mmskOr f
  | .mmskPush f | .mmskPop f | .vadd f | .vsub f | .vmul f | .vmad f
  | .vmnx f | .vabs f | .vlog f | .vshf f | .vbit f | .vcmp f
  | .vsel f | .vmov f | .vcvti f | .vperm f | .vslide f | .vblut f
  | .vredi f | .vext f | .vins f | .vscan f | .vcompCompress f | .vcompExpand f
  | .vfadd f | .vfsub f | .vfmul f | .vfma f | .vfdiv f | .vfsqrt f
  | .vfmnx f | .vfsgn f | .vfcmp f | .vfcls f | .vfscl f | .vfexp f
  | .vflog f | .vfrnd f | .vfxp f | .rdfl f | .clfl f | .sfadd f
  | .sfmul f | .sffma f | .sfdiv f | .sfsqrt f | .sfcmp f | .sfcvt f
  | .vcvtFpfp f | .vcvtFpint f | .vcvtIntfp f | .vcvtFpslot f | .vcvtSlotfp f | .vrq f
  | .vbsc f | .gclr f | .gadd f | .gdot f | .grnd f | .gst f
  | .gld f | .gmrg f | .gmrgMem f | .gstat f | .mzero f | .mma f
  | .mldt f | .mstt f | .mdrnOwn f | .mdrnPeer f | .mrp f | .mpri f
  | .layx f | .sld f | .sst f | .vld f | .vst f | .wld f
  | .satom f | .scas f | .vatom f | .plk f | .ldfKeep f | .ldfTake f
  | .ste f | .fesetEmpty f | .fesetFull f | .fenceAcq f | .fenceRel f | .fenceFull f
  | .fencePromote f | .tlwaitWait f | .tlwaitTest f | .tlrdDone f | .tlrdIssued f | .tlrdErr f
  | .tlrdClrerr f | .tlinc f | .cmoClean f | .cmoInval f | .cmoFlush f | .cmoPin f
  | .cmoUnpin f | .pref f | .lifeMark f | .lifeStep f | .svc f | .chkwWait f
  | .chkwTest f | .cpyCopy f | .cpyFill f | .cpyt f | .rowCopy f | .rowFill0 f
  | .rowFill1 f | .rowAnd f | .rowOr f | .rowXor f | .rowNot f | .ired f
  | .collAllred f | .collReduce f | .collBcast f | .collAllgath f | .collXsum f | .collSpread f
  | .collQuant f | .collRankh f | .cprec f | .cwaitp f | .ccan f | .barArrive f
  | .barArriveWait f | .barWait f | .barWaitLocal f | .barqStatus f | .barqCid f | .barqGen f
  | .sig f | .lnch f | .join f | .mrgRegroup f | .mrgReturn f | .ordc f
  | .trap f | .gctlResume f | .gctlKill f | .gctlStep f | .mfs f | .mts f
  | .segld f | .tlbiRange f | .tlbiAsid f | .tlbiAll f | .tlbsync f | .adhv f
  | .frzThaw f | .frzKill f | .ctxs f | .trmPredicate f | .trmScalar f | .pwait f
    => some f
  | .issueArbitration _ _ | .ltTick _ | .trapRecordWrite _ | .switchPointEvent _ | .fullEmptyWake _
  | .timelineWaitWake _ | .chunkWaitWake _ | .planeWaitWake _ | .barrierWaitWake _ | .joinWake _
  | .lnchRoomWake _ | .ordcWake _ | .pwaitWake _ | .sleepWake _ | .sleepExpiry _
  | .waitTimeout _ | .watchdog _ | .fenceComplete _ | .mrgRendezvous _ | .signalArrival _
  | .signalQueued _ | .signalStaleDrop _ | .engineUnit _ _ | .rowBlockWrite _ _ | .iredRun _ _
  | .collMatch _ _ | .collPlaneArrival _ _ | .cancelPropagation _ _ _ | .engineCommandFinish _ | .engineFault _ _
  | .followOnSubmit _ | .matrixEntry _ | .matrixStep _ | .matrixQueueAging _ | .directoryLoadMiss _ _
  | .directoryWriteOwnership _ _ _ | .directoryPlk _ _ _ _ | .directoryScopedAtomic _ _ _ | .evictionNotice _ _ _ | .leaseRenewalReturn _
  | .homeAtomic _ _ _ _ | .dramSchedulerPick _ | .tierPromotion _ _ _ | .pageMigration _ | .pageWalk _ _ _ _ _
  | .tlbiTarget _ _ | .tlbiAck _ _ | .shootdownTargetLost _ | .orderedCommit _ | .packetLaunch _
  | .packetNode _ | .packetCopy _ | .packetSignal _ | .readyPoolAging _ | .placement _
  | .cohortInstanceEnd _ | .launchEnd _ | .copyPacketDone _ | .traceDrain _ | .lossRecord _
  | .correctedError _ _ | .uncorrectableError _ | .lostControlFlit _ _ | .potluckRecallFailure _ _ | .destinationError _ _
  | .linkCrcReplay _ | .linkRetire _ | .deviceUnreachable _ | .expanderLoss _ | .peerRequest _ _ _ _
  | .peerUnknownPartition _ _ _ _ | .hostBar2Access _ _ _ | .hostAtomic _ _ _ | .notReadyAccess _ _ _ | .registerWrite _ _
  | .mbCreate | .mbDestroy | .mbQueue | .mbLoad | .mbSeal
  | .mbAttest | .mbImport | .mbCheckpoint | .mbRestore | .mbSettcs
  | .mbSetwdog | .mbAssign | .powerOn _ | .powerLoss | .clockThrottle _
  | .thermalShutdown _ | .rejectedPacket _ | .timestampSweep _
    => none

/-- A selector against R51 and R53: an unused field holds 0x00, the lane and member indices stand for no
floating-point or packed operand, and a 128-bit immediate that a 32-bit operand takes has a zero upper half. -/
def selEnc (f : Fields) (u : Use) (s : Sel) : Bool :=
  (u.used || s == .v 0) &&
  !(u.fpk && (s == .lane || s == .member)) &&
  (u.wide || !u.ks.contains .imm || s != .imm || f.i64 >>> 32 == 0)

/-- The register-number field of MFS and MTS holds a number, which is no selector (26 R408). -/
def selEncB (f : Fields) (u : Use) (s : Sel) : Bool := u.ks == [.raw] || selEnc f u s

/-- Step 4 of R65 for fields under their row: R51, R53, R54, R55, R73. -/
def Row.step4 (r : Row) (f : Fields) : Bool :=
  r.fns.contains f.fn && r.enc &&
  (!r.d.used && f.d == .v 0 && !f.n || r.d.used && (f.d == .zero) == f.n && !(r.load && f.n)) &&
  selEnc f r.a f.a && selEncB f r.b f.b && selEnc f r.c f.c &&
  (r.gov || f.p == 0 && !f.pn)

/-- An instruction whose word passes steps 3 and 4 of the decode order (03 R65). A hardware or host step is no word. -/
def wellFormed (i : Instr) : Bool :=
  match row i, fields i with
  | some r, some f => r.step4 f
  | _, _ => false

end Sys2Proof
end

