-- ==== Sys2Proof/Machine/Operands.lean ====
section
/-!
DEFINITION. Operands: what selectors may name in a group (step 5 of 03 R65), the values of sources with their deferral
tags (03 R53, 06 R91, R92), and the writing of destinations with the filling of latch b0 (02 R28, R29).
-/
namespace Sys2Proof.Machine
open Sys2Proof

/-! ### Geometry of the vector context (02 R20) -/

/-- L, the lanes of a member. -/
def Ident.lanes (i : Ident) : Nat := 1024 / i.mcount
/-- L, the lanes of a member. -/
def Group.lanes (g : Group) : Nat := g.id.lanes
/-- The member slot of element e. -/
def Group.slotOf (g : Group) (e : Nat) : Nat := e / g.lanes
/-- The lane of element e. -/
def Group.laneOf (g : Group) (e : Nat) : Nat := e % g.lanes
/-- The member's bit in mk is set. -/
def Group.inMask (g : Group) (m : Nat) : Bool := g.regs.mask.getLsbD m
/-- The member slots set in mk, rising. -/
def Group.members (g : Group) : List Nat := (List.range g.id.mcount).filter g.inMask
/-- The lowest slot set in mk. -/
def Group.lowest (g : Group) : Option Nat := g.members.head?

/-- The elements 0 to 1,023. -/
def allElems : List Nat := List.range 1024

/-! ### Register files -/

/-- Scalar register r; s0 reads zero (02 R26). -/
def Regs.sget (r : Regs) (i : Nat) : SReg := if i = 0 then {} else vget r.s i {}
/-- Scalar register r written; s0 ignores writes. -/
def Regs.sset (r : Regs) (i : Nat) (x : SReg) : Regs :=
  if i = 0 then r else { r with s := r.s.setIfInBounds i x }
/-- Vector register i. -/
def Regs.vreg (r : Regs) (i : Nat) : VReg := vget r.v i {}
/-- w register i. -/
def Regs.wreg (r : Regs) (i : Nat) : VReg := vget r.w i {}
/-- Predicate register i; p0 reads all ones (02 R26). -/
def Regs.pget (r : Regs) (i : Nat) : PReg :=
  if i = 0 then { val := BitVec.allOnes 1024 } else vget r.p i {}
/-- Predicate register i written; p0 ignores writes. -/
def Regs.pset (r : Regs) (i : Nat) (x : PReg) : Regs :=
  if i = 0 then r else { r with p := r.p.setIfInBounds i x }
/-- Latch bj. -/
def Regs.latchAt (r : Regs) (j : Nat) : Latch := vget r.latch j .empty

/-- b3 is lost, the others move up, and b0 takes a result (02 R29). -/
def Regs.fillLatch (r : Regs) (x : Latch) : Regs :=
  { r with latch := #v[x, r.latchAt 0, r.latchAt 1, r.latchAt 2] }

/-! ### Types of operands (03 R53) -/

/-- The type under which an operand is read: a T code under the integer or the floating-point table (03 R57). -/
inductive Ty where
  | i (t : BitVec 3)
  | f (t : BitVec 3)
deriving DecidableEq, Repr

/-- The operand has 64 bits. -/
def Ty.wide : Ty → Bool
  | .i t => wideInt t
  | .f t => t = 1

/-- The value of selector 0xF2 (03 R53). -/
def Ty.one : Ty → Word64
  | .i t => if t = 2 || t = 3 then 0x00010001 else if t = 4 || t = 5 then 0x01010101 else 1
  | .f t =>
    if t = 0 then 0x3F800000 else if t = 1 then 0x3FF0000000000000 else if t = 2 then 0x3F803F80 else 0x3C003C00

/-- An FP32 value widened exactly to FP64 by its bits (03 R53). -/
def widenF32 (w : Word32) : Word64 :=
  match decodeFp f32 w.toNat with
  | .nan _ => BitVec.ofNat 64 (bitNat w.toNat 31 * 2 ^ 63 + 2047 * 2 ^ 52 + w.toNat % 2 ^ 23 * 2 ^ 29)
  | .inf n => BitVec.ofNat 64 (f64.infCode n)
  | .fin n m e => BitVec.ofNat 64 (encodeFp f64 n m e)

/-- The value of the immediate as a vector operand (03 R53). -/
def Ty.imm (ty : Ty) (f : Fields) : Word64 :=
  match f.imm with
  | .none => 0
  | .i32 w =>
    match ty with
    | .i t => if t = 6 then sext32 w else w.setWidth 64
    | .f t => if t = 1 then widenF32 w else w.setWidth 64
  | .i64 w => if ty.wide then w else (w.setWidth 32).setWidth 64

/-- The value of the immediate as an operand of a scalar instruction: I32 is sign-extended, but zero-extended for an
N64 operand (03 R53). -/
def immScalar (n64 : Bool) (f : Fields) : Word64 :=
  match f.imm with
  | .none => 0
  | .i32 w => if n64 then w.setWidth 64 else sext32 w
  | .i64 w => w

/-! ### Sources -/

/-- One element of an operand or of a result: its bits (32 in the low half, or 64), its deferral tag, and the flags
that a result raises. -/
structure Elem where
  v : Word64 := 0
  tag : Option Tag := none
  fl : Fl := 0
deriving DecidableEq, Repr

/-- A 32-bit element as the high half of a pair. -/
def Elem.up (x : Elem) : Elem := { x with v := x.v <<< 32 }

/-- The first tag of several inputs, in the order given (06 R92). -/
def firstTag : List (Option Tag) → Option Tag
  | [] => none
  | some t :: _ => some t
  | none :: r => firstTag r

/-- Element e of a register. -/
def VReg.at (r : VReg) (e : Nat) : Elem := { v := (elem r.val e).setWidth 64, tag := Store.get? r.tags e }
/-- Element e of a pair: the even register holds the low half (02 R26). -/
def pairAt (lo hi : VReg) (e : Nat) : Elem :=
  { v := elem hi.val e ++ elem lo.val e, tag := firstTag [Store.get? lo.tags e, Store.get? hi.tags e] }

/-- A scalar value broadcast (02 R26, 03 R53). -/
def SReg.cast (r : SReg) (wide : Bool) : Elem :=
  { v := if wide then r.val else (r.val.setWidth 32).setWidth 64, tag := r.tag }

/-- The element that a vector source gives at position e (03 R53, 06 R91). -/
def Group.vsrc (g : Group) (f : Fields) (ty : Ty) (s : Sel) (e : Nat) : Elem :=
  let r := g.regs
  let wide := ty.wide
  match s with
  | .v i => if wide then pairAt (r.vreg i.toNat) (r.vreg (i.toNat + 1)) e else (r.vreg i.toNat).at e
  | .w i =>
    let l := g.laneOf e
    if wide then pairAt (r.wreg i.toNat) (r.wreg (i.toNat + 1)) l else (r.wreg i.toNat).at l
  | .s i => (r.sget i.toNat).cast wide
  | .b j =>
    match r.latchAt j.toNat with
    | .vec w x => x.at (if w then g.laneOf e else e)
    | .pair w lo hi => pairAt lo hi (if w then g.laneOf e else e)
    | .scal x => x.cast wide
    | _ => {}
  | .imm => { v := ty.imm f }
  | .one => { v := ty.one }
  | .lane => { v := BitVec.ofNat 64 (g.laneOf e) }
  | .member => { v := (vget r.gmi (g.slotOf e) 0).setWidth 64 }
  | .zero => {}
  | .bad _ => {}

/-- The value of a scalar source under an integer type; `n64` holds for an N64 operand (03 R53). -/
def Group.ssrc (g : Group) (f : Fields) (n64 : Bool) (s : Sel) : SReg :=
  match s with
  | .s i => g.regs.sget i.toNat
  | .b j => match g.regs.latchAt j.toNat with | .scal x => x | _ => {}
  | .imm => { val := immScalar n64 f }
  | .one => { val := 1 }
  | _ => {}

/-- A predicate source: p0 to p15, or a latch that holds a predicate result (06 R91). -/
def Group.psrc (g : Group) (s : Sel) : PReg :=
  match s with
  | .v i => g.regs.pget i.toNat
  | .b j => match g.regs.latchAt j.toNat with | .pred x => x | _ => {}
  | _ => {}

/-- active(m, l): bit e of predicate P, inverted when PN = 1, and the member's bit in mk (03 R55). DESIGN CHOICE, log 26: where bit e
is tagged, an instruction that only writes registers takes the bit beneath the tag, and the tag goes no further. -/
def Group.active (g : Group) (f : Fields) : Nat → Bool :=
  let p := (g.regs.pget f.p.toNat).val
  fun e => (p.getLsbD e != f.pn) && g.inMask (g.slotOf e)

/-! ### Step 5 of the decode order (03 R52, R61, R62) -/

/-- A v register of the group's allocation, the first of an even pair where the operand is a pair (02 R27, R34). -/
def vOk (n i : Nat) (wide : Bool) : Bool := if wide then i % 2 = 0 && i + 1 < n else i < n

/-- A latch has a class that the operand would accept as a register (06 R91). -/
def latchOk (u : Use) : Latch → Bool
  | .vec w _ => !u.wide && u.ks.contains (if w then .w else .v) || u.ks.contains .v1 && !w
  | .pair w _ _ => u.wide && u.ks.contains (if w then .w else .v)
  | .scal _ => u.ks.contains .s
  | .pred _ => u.ks.contains .p
  | .empty => false

/-- A source or destination selector names something that its field accepts in this group. -/
def Group.selOk (g : Group) (r : Row) (f : Fields) (u : Use) (s : Sel) : Bool :=
  !u.used || u.ks.contains .raw ||
  match s with
  | .v i =>
    (u.ks.contains .p && i < 16) || (u.ks.contains .absent && i == 0) ||
    (u.ks.contains .v && vOk g.id.vregs i.toNat u.wide) || (u.ks.contains .v1 && i.toNat < g.id.vregs)
  | .w i => u.ks.contains .w && vOk g.id.wregs i.toNat u.wide
  | .s i => u.ks.contains .s || (u.ks.contains .sNz && i != 0) || (u.ks.contains .sEven && i != 0 && i &&& 1 == 0)
  | .b j => r.cont && latchOk u (g.regs.latchAt j.toNat)
  | .imm => u.ks.contains .imm && !f.is64
  | .zero => u.ks.contains .zero
  | .one => u.ks.contains .one
  | .lane => u.ks.contains .lm
  | .member => u.ks.contains .lm
  | .bad _ => false

/-- The destination selector: a w register only when M is 1, or for WLD, whose field accepts nothing else (02 R27). -/
def Group.dstOk (g : Group) (r : Row) (f : Fields) : Bool :=
  match f.d with
  | .w _ => g.selOk r f r.d f.d && (g.id.mcount = 1 || r.d.ks == [.w])
  | .b _ => !r.d.used
  | .imm => !r.d.used
  | _ => g.selOk r f r.d f.d

/-- The latches among the sources. -/
def latchSels (r : Row) (f : Fields) : List Nat :=
  (if r.b.ks == [.raw] then [f.a, f.c] else [f.a, f.b, f.c]).filterMap
    fun | .b j => some j.toNat | _ => none

/-- The word names a latch (03 R61). -/
def namesLatch (r : Row) (f : Fields) : Bool := !(latchSels r f).isEmpty

/-- The latch reads are legal in the chain (03 R62). -/
def Chain.ok (c : Chain) (r : Row) (f : Fields) : Bool :=
  !namesLatch r f ||
  (r.cont && !c.closed && c.length < 32 &&
    (latchSels r f).all fun j => match vget c.made j none with | some s => c.head ≤ s | none => false)

/-- Step 5 of R65 for the selectors and latches of an instruction. -/
def Group.step5 (g : Group) (r : Row) (f : Fields) : Bool :=
  g.dstOk r f && g.selOk r f r.a f.a && g.selOk r f r.b f.b && g.selOk r f r.c f.c && g.regs.chain.ok r f

/-- The chain after an instruction other than NOP is decoded at an address (03 R62). -/
def Chain.next (c : Chain) (r : Row) (f : Fields) (pc : Word64) : Chain :=
  let latch := namesLatch r f
  { seq := c.seq + 1
    head := if latch then c.head else c.seq
    length := if latch then c.length + 1 else 1
    closed := (latch && c.closed) || r.ctrl
    made := if r.dest then #v[some c.seq, vget c.made 0 none, vget c.made 1 none, vget c.made 2 none] else c.made
    headAt := if latch then c.headAt else pc
    switchPt := !latch }

/-- A switch: nothing made stands in a latch (03 R62, R63). -/
def Regs.loseLatches (r : Regs) : Regs :=
  { r with latch := Vector.replicate 4 .empty, chain := { r.chain with made := Vector.replicate 4 none } }

/-! ### Destinations -/

/-- The 1,024 bits or words of a list, element 0 lowest. -/
def packBits (w : Nat) : List Nat → Nat
  | [] => 0
  | x :: r => x % 2 ^ w + 2 ^ w * packBits w r

/-- A vector register from its elements. -/
def vecBits (l : List Word32) : VecBits := BitVec.ofNat 32768 (packBits 32 (l.map BitVec.toNat))
/-- A predicate register from its bits. -/
def predBits (l : List Bool) : PredBits := BitVec.ofNat 1024 (packBits 1 (l.map Bool.toNat))

/-- The tags of a list of elements, in their order. -/
def tagsOf (l : List (Option Tag)) (k : Nat := 0) : Tags :=
  match l with
  | [] => []
  | some t :: r => (k, t) :: tagsOf r (k + 1)
  | none :: r => tagsOf r (k + 1)

/-- A vector register from its elements, low halves. -/
def VReg.ofLow (l : List Elem) : VReg := { val := vecBits (l.map fun x => x.v.setWidth 32), tags := tagsOf (l.map (·.tag)) }
/-- A vector register from its elements, high halves. -/
def VReg.ofHigh (l : List Elem) : VReg :=
  { val := vecBits (l.map fun x => x.v.extractLsb' 32 32), tags := tagsOf (l.map (·.tag)) }

/-- What an instruction writes at each element in turn: a result where the element is active, nothing elsewhere. -/
abbrev Writes := List (Option Elem)

/-- The results at the active elements. -/
def writesOf (act : Nat → Bool) (res : Nat → Elem) : Writes := allElems.map fun e => if act e then some (res e) else none

/-- The elements of a destination after a write: the result where there is one, else what stood there. -/
def mergeFrom (old : Nat → Elem) : Nat → Writes → List Elem
  | _, [] => []
  | e, some x :: r => x :: mergeFrom old (e + 1) r
  | e, none :: r => old e :: mergeFrom old (e + 1) r

/-- The element of a vector destination before it is written, or of its high half of a pair, in bits 63 to 32; zero for
nil. -/
def Regs.dstAt (r : Regs) (d : Sel) (high : Bool) (e : Nat) : Elem :=
  match d with
  | .v i => if high then ((r.vreg (i.toNat + 1)).at e).up else (r.vreg i.toNat).at e
  | .w i => if high then ((r.wreg (i.toNat + 1)).at e).up else (r.wreg i.toNat).at e
  | _ => {}

/-- Puts a register or a pair into a vector or w register. -/
def Regs.putVec (r : Regs) (d : Sel) (wide : Bool) (lo hi : VReg) : Regs :=
  match d with
  | .v i =>
    if wide then { r with v := (r.v.setIfInBounds i.toNat lo).setIfInBounds (i.toNat + 1) hi }
    else { r with v := r.v.setIfInBounds i.toNat lo }
  | .w i =>
    if wide then { r with w := (r.w.setIfInBounds i.toNat lo).setIfInBounds (i.toNat + 1) hi }
    else { r with w := r.w.setIfInBounds i.toNat lo }
  | _ => r

/-- Writes a vector destination: the active elements take the result, the others keep their value, and b0 takes the
register's value after the instruction, or zero at inactive elements under N (02 R28, R29, 03 R54). -/
def Regs.vdst (r : Regs) (d : Sel) (wide : Bool) (ws : Writes) : Regs :=
  let lo := VReg.ofLow (mergeFrom (r.dstAt d false) 0 ws)
  let hi := VReg.ofHigh (mergeFrom (r.dstAt d true) 0 ws)
  let isW := match d with | .w _ => true | _ => false
  (r.putVec d wide lo hi).fillLatch (if wide then .pair isW lo hi else .vec isW lo)

/-- Writes a scalar destination and fills b0, also when N or s0 discards the register write (02 R29, 03 R54). -/
def Regs.sdst (r : Regs) (d : Sel) (x : SReg) : Regs :=
  let r1 := match d with | .s i => r.sset i.toNat x | _ => r
  r1.fillLatch (.scal x)

/-- A predicate register with new bits where `w` holds. -/
def PReg.merge (old : PReg) (w : Nat → Bool) (res : Nat → Bool × Option Tag) : PReg :=
  let l := allElems.map fun e => if w e then res e else (old.val.getLsbD e, Store.get? old.tags e)
  { val := predBits (l.map (·.1)), tags := tagsOf (l.map (·.2)) }

/-- Writes a predicate destination where `w` holds and fills b0 (06 R105); p0 discards the write. -/
def Regs.pdst (r : Regs) (d : Sel) (w : Nat → Bool) (res : Nat → Bool × Option Tag) : Regs :=
  let old : PReg := match d with | .v i => r.pget i.toNat | _ => {}
  let x := old.merge w res
  let r1 := match d with | .v i => r.pset i.toNat x | _ => r
  r1.fillLatch (.pred x)

/-- Writes the bits of a predicate register that is no destination. -/
def Regs.pbits (r : Regs) (i : Nat) (w : Nat → Bool) (res : Nat → Bool × Option Tag) : Regs :=
  r.pset i ((r.pget i).merge w res)

/-- Sets every bit of a predicate register, with no tag: the timeout and error predicates (10 R190, R193). -/
def Regs.pfill (r : Regs) (i : Nat) (b : Bool) : Regs :=
  r.pset i { val := if b then BitVec.allOnes 1024 else 0 }

/-- The flags that a write raises at an element: none where the result carries a tag (15 R260). -/
def writeFl : Option Elem → Fl
  | some x => if x.tag.isSome then 0 else x.fl
  | none => 0

/-- A vector result: written at the active elements, its flags raised there unless Q or fcr.QD is set (15 R260). -/
def Group.vresult (g : Group) (f : Fields) (wide : Bool) (ws : Writes) : Group :=
  let r1 := g.regs.vdst f.d wide ws
  { g with regs := { r1 with flags := raiseFlags g.regs.flags (f.q || g.regs.fcr.getLsbD 3) (ws.map writeFl) } }

end Sys2Proof.Machine
end

