-- ==== Sys2Proof/Machine/Slots.lean ====
section
/-!
DEFINITION. Slot formats and block scales (15 R252 to R258), rounding modes of a group (15 R247, R249), draws (15 R250).
-/
namespace Sys2Proof.Machine
open Sys2Proof

/-! ### Slot words (15 R252) -/

/-- The format of a slot word. -/
def slotFmt (w : Word32) : Fmt :=
  let n := w.toNat
  { eb := bitsNat n 2 0
    mb := bitsNat n 5 3
    sgn := bitNat n 6 = 1
    bias := toSigned 8 (bitsNat n 14 7)
    spc := match bitsNat n 16 15 with | 0 => .finite | 1 => .nan | 2 => .ieee | _ => .sat
    int := bitNat n 21 = 1 }

/-- The block size of a slot word: zero for none. -/
def slotBlk (w : Word32) : Nat :=
  match bitsNat w.toNat 18 17 with | 0 => 0 | 1 => 16 | 2 => 32 | _ => 64

/-- SCL of a slot word: 0 E8, 1 B16, 2 FP32. -/
def slotScl (w : Word32) : Nat := bitsNat w.toNat 20 19

/-- A slot word is legal (15 R253). -/
def slotLegal (w : Word32) : Bool :=
  let F := slotFmt w
  F.width ≤ 8 && 1 ≤ F.eb + F.mb && (!F.int || F.eb = 0) && (F.eb != 0 || F.spc == .finite || F.spc == .sat) &&
  slotScl w != 3 && (slotBlk w != 0 || slotScl w = 0) && w.toNat < 2 ^ 22

/-- The container width of a format: 4 or 8 bits (15 R254). -/
def Fmt.cont (F : Fmt) : Nat := if F.width ≤ 4 then 4 else 8
/-- The containers of an element. -/
def Fmt.per (F : Fmt) : Nat := 32 / F.cont
/-- The code in container j of an element. -/
def Fmt.codeAt (F : Fmt) (x j : Nat) : Nat := unpackNat F.cont x j % 2 ^ F.width

/-- An element with container j replaced. -/
def Fmt.putCode (F : Fmt) (x j c : Nat) : Nat :=
  x - unpackNat F.cont x j * 2 ^ (F.cont * j) + c * 2 ^ (F.cont * j)

/-! ### Block scales (15 R257, R258) -/

/-- The value of a scale code. -/
def scaleOf (scl c : Nat) : Fp :=
  if scl = 0 then (if c % 256 = 255 then .nan false else .fin false 1 ((c % 256 : Nat) - 127))
  else if scl = 1 then decodeFp b16 (c % 2 ^ 16)
  else decodeFp f32 (c % 2 ^ 32)

/-- The code of a power of two, or of NaN, as a scale (17 R300). -/
def scaleCode (scl : Nat) (kk : Option Int) : Nat :=
  match kk with
  | none => if scl = 0 then 255 else if scl = 1 then b16.nanCode else f32.nanCode
  | some k => if scl = 0 then (k + 127).toNat else if scl = 1 then (k + 127).toNat * 2 ^ 7 else (k + 127).toNat * 2 ^ 23

/-- The value of a scaled element (15 R258). -/
def scaleMul (v s : Fp) : Exact × Fl :=
  match s with
  | .fin .. => match v with | .nan _ => (.nan, 0) | _ => mulX v.exact s.exact
  | _ => (.nan, flNV)

/-- A value divided by a finite nonzero scale (17 R298, R299). -/
def scaleDiv (x : Exact) (s : Fp) : Exact × Fl :=
  match x with
  | .nan => (.nan, 0)
  | _ => divX x s.exact

/-- A scale that FPSLOT and VRQ divide by: finite and not zero. -/
def Fp.divisor : Fp → Bool
  | .fin _ m _ => m != 0
  | _ => false

/-! ### Modes and draws -/

/-- The rounding mode of a vector instruction (15 R247). -/
def Group.rm (g : Group) (m : BitVec 3) : Rm := rmOf (if m = 0 then g.regs.fcr.extractLsb' 0 3 else m)

/-- The rounding mode of a scalar instruction (15 R249). -/
def Group.rmScalar (g : Group) (m : BitVec 3) : Rm :=
  match g.rm m with
  | .sr => .rne
  | x => x

/-- The draw of element e at a position (15 R250); zero in the modes that draw nothing. -/
def Group.draw (g : Group) (mode : Rm) (e pos : Nat) : Nat :=
  if mode = .sr then srf g.id.seed (vget g.regs.gmi (g.slotOf e) 0) (vget g.regs.dic (g.slotOf e) 0) (g.laneOf e) pos else 0

/-- The slot word of index k. -/
def Group.slot (g : Group) (k : Nat) : Word32 := vget g.id.fs k 0

end Sys2Proof.Machine
end

