-- ==== Sys2Proof/Machine/FloatOps.lean ====
section
/-!
DEFINITION. Floating-point operations on operands given as codes (17 R281 to R291), each once for the vector and the
scalar family: the code of the result and the flags it raises.
-/
namespace Sys2Proof.Machine

/-- The flags of signalling NaNs among operands (15 R245). -/
def sigOf : List Fp → Fl
  | [] => 0
  | x :: r => x.sigFl ||| sigOf r

/-- An exact result rounded once, with the flags of its operation and of its operands (17 R279, R282). -/
def roundRes (F : Fmt) (mode : Rm) (rnd : Nat) (ops : List Fp) (x : Exact × Fl) : Nat × Fl :=
  let (c, fl) := roundTo F mode rnd x.1
  (c, fl ||| x.2 ||| sigOf ops)

/-- a + b, or a - b. -/
def fpAdd (sub : Bool) (F : Fmt) (mode : Rm) (rnd a b : Nat) : Nat × Fl :=
  let x := decodeFp F a
  let y := decodeFp F b
  roundRes F mode rnd [x, y] (addX x.exact (if sub then negX y.exact else y.exact) (mode = .rdn))

/-- a * b. -/
def fpMul (F : Fmt) (mode : Rm) (rnd a b : Nat) : Nat × Fl :=
  let x := decodeFp F a
  let y := decodeFp F b
  roundRes F mode rnd [x, y] (mulX x.exact y.exact)

/-- The four forms of the multiply-add: the product is never rounded on its own (17 R281); 0 * inf is invalid whatever c
holds (17 R282). -/
def fpFma (fn : BitVec 4) (F : Fmt) (mode : Rm) (rnd a b c : Nat) : Nat × Fl :=
  let x := decodeFp F a
  let y := decodeFp F b
  let z := decodeFp F c
  let p := mulX x.exact y.exact
  let p1 := if 2 ≤ fn.toNat then negX p.1 else p.1
  let z1 := if fn.toNat % 2 = 1 then negX z.exact else z.exact
  let s := addX p1 z1 (mode = .rdn)
  roundRes F mode rnd [x, y, z] (s.1, s.2 ||| p.2)

/-- a / b. -/
def fpDiv (F : Fmt) (mode : Rm) (rnd a b : Nat) : Nat × Fl :=
  let x := decodeFp F a
  let y := decodeFp F b
  roundRes F mode rnd [x, y] (divX x.exact y.exact)

/-- The square root. -/
def fpSqrt (F : Fmt) (mode : Rm) (rnd a : Nat) : Nat × Fl :=
  let x := decodeFp F a
  roundRes F mode rnd [x] (sqrtX x.exact)

/-- MIN, MAX, MINNUM, MAXNUM (17 R284). -/
def vfMinMax (fn : BitVec 4) (F : Fmt) (a b : Nat) : Nat × Fl :=
  let x := decodeFp F a
  let y := decodeFp F b
  let fl := sigOf [x, y]
  let least := fn.toNat % 2 = 0
  let num := 2 ≤ fn.toNat
  if x.isNan && y.isNan then (F.nanCode, fl)
  else if x.isNan then (if num then b else F.nanCode, fl)
  else if y.isNan then (if num then a else F.nanCode, fl)
  else
    let bLess := ltSigned y.exact x.exact
    (if bLess == least then b else a, fl)

/-- COPY, NEG, XOR on the sign bit (17 R285). -/
def fpSign (fn : BitVec 4) (F : Fmt) (a b : Nat) : Nat :=
  let top := 2 ^ (F.width - 1)
  let sa := a / top % 2
  let sb := b / top % 2
  let s := if fn = 0 then sb else if fn = 1 then 1 - sa else (sa + sb) % 2
  a % top + s * top

/-- The eight comparison codes with NV (17 R286). -/
def fpCmp (fn : BitVec 4) (F : Fmt) (a b : Nat) : Bool × Fl :=
  let x := decodeFp F a
  let y := decodeFp F b
  let un := x.isNan || y.isNan
  let o := cmpX x.exact y.exact
  let fl := if 2 ≤ fn.toNat && fn.toNat ≤ 5 && un then flNV else sigOf [x, y]
  (match fn.toNat with
    | 0 => !un && o == .eq
    | 1 => un || o != .eq
    | 2 => !un && o == .lt
    | 3 => !un && o != .gt
    | 4 => !un && o == .gt
    | 5 => !un && o != .lt
    | 6 => un
    | _ => !un, fl)

/-- The class bit of a value (17 R287). -/
def fpClass (F : Fmt) (a : Nat) : Nat :=
  match decodeFp F a with
  | .nan sig => if sig then 8 else 9
  | .inf neg => if neg then 0 else 7
  | .fin neg m _ =>
    if m = 0 then (if neg then 3 else 4)
    else if a / 2 ^ F.mb % 2 ^ F.eb = 0 then (if neg then 2 else 5)
    else if neg then 1 else 6

/-- Exponents beyond these make every format overflow or underflow alike. -/
def clampExp (n : Int) : Int := if n > 5000 then 5000 else if n < -5000 then -5000 else n

/-- a * 2^n (17 R288). -/
def fpScale (F : Fmt) (mode : Rm) (rnd a : Nat) (n : Int) : Nat × Fl :=
  let x := decodeFp F a
  roundRes F mode rnd [x] (match x with
    | .fin neg m e => (.num neg m (e + clampExp n) false, 0)
    | y => (y.exact, 0))

/-- A finite value is an integer, which this gives. -/
def intOf (neg : Bool) (m : Nat) (e : Int) : Option Int :=
  let (n, fr) := floorMag m e
  if fr then none else some (signedM neg n)

/-- 2^a (17 R289). -/
def fpExp2 (F : Fmt) (mode : Rm) (rnd a : Nat) : Nat × Fl :=
  let x := decodeFp F a
  roundRes F mode rnd [x] (match x with
    | .nan _ => (.nan, 0)
    | .inf neg => (if neg then .num false 0 0 false else .inf false, 0)
    | .fin neg m e =>
      match intOf neg m e with
      | some n => (.num false 1 (clampExp n) false, 0)
      | none => (exp2X neg m e, 0))

/-- log2 a (17 R289): log2 1 is +0. -/
def fpLog2 (F : Fmt) (mode : Rm) (rnd a : Nat) : Nat × Fl :=
  let x := decodeFp F a
  roundRes F mode rnd [x] (match x with
    | .nan _ => (.nan, 0)
    | .inf neg => if neg then (.nan, flNV) else (.inf false, 0)
    | .fin neg m e =>
      if m = 0 then (.inf true, flDZ)
      else if neg then (.nan, flNV)
      else if m = 2 ^ log2 m then
        let n : Int := log2 m + e
        (.num (n < 0) n.natAbs 0 false, 0)
      else (log2X m e, 0))

/-- Rounding to an integral value of the format (17 R290). -/
def fpRint (F : Fmt) (mode : Rm) (rnd a : Nat) : Nat × Fl :=
  let x := decodeFp F a
  match x with
  | .nan _ => (F.nanCode, sigOf [x])
  | .inf _ => (a, 0)
  | .fin neg m e =>
    let (r, nx) := roundInt mode rnd neg m e
    (encodeFp F neg r 0, if nx then flNX else 0)

/-- EXP and MANT (17 R291). -/
def fpParts (fn : BitVec 4) (F : Fmt) (a : Nat) : Nat × Fl :=
  let x := decodeFp F a
  roundRes F .rne 0 [x] (match x with
    | .nan _ => (.nan, 0)
    | .inf _ => if fn = 0 then (.inf false, 0) else (.nan, flNV)
    | .fin neg m e =>
      if m = 0 then (if fn = 0 then (.inf true, flDZ) else (.num neg 0 0 false, 0))
      else if fn = 0 then
        let n : Int := log2 m + e
        (.num (n < 0) n.natAbs 0 false, 0)
      else (.num neg m (-(log2 m : Int)) false, 0))

/-! ### Conversions (17 R296, R297) -/

/-- From one floating-point format to another. -/
def fpConv (S F : Fmt) (mode : Rm) (rnd a : Nat) : Nat × Fl :=
  let x := decodeFp S a
  roundRes F mode rnd [x] (x.exact, 0)

/-- From floating point to an integer of w bits. -/
def fpToInt (S : Fmt) (sg : Bool) (w : Nat) (mode : Rm) (rnd a : Nat) : Nat × Fl :=
  let lo : Int := if sg then -(2 ^ (w - 1) : Nat) else 0
  let hi : Int := if sg then (2 ^ (w - 1) : Nat) - 1 else (2 ^ w : Nat) - 1
  match decodeFp S a with
  | .nan _ => (0, flNV)
  | .inf neg => (wrap w (if neg then lo else hi), flNV)
  | .fin neg m e =>
    let (k, nx) := roundInt mode rnd neg m e
    let r := signedM neg k
    if r < lo then (wrap w lo, flNV)
    else if hi < r then (wrap w hi, flNV)
    else (wrap w r, if nx then flNX else 0)

/-- From an integer to floating point. -/
def intToFp (F : Fmt) (mode : Rm) (rnd : Nat) (n : Int) : Nat × Fl := roundTo F mode rnd (.num (n < 0) n.natAbs 0 false)

end Sys2Proof.Machine
end

