-- ==== Sys2Proof/Config.lean ====
section
/-!
DEFINITION. What the spec leaves to the implementation or leaves open, as constants with no body: nothing about their
values can be proved. A use that is a choice made afresh each time is applied to the counter `nonce` of the state.
-/
namespace Sys2Proof.Config

/-- The step that comes next where the agenda and the granted groups are empty (09 R161: the order of the agents' steps
is open); none lets a clock pass. DESIGN CHOICE, log 1. -/
opaque nextEvent : Nat → Option Instr

/-- The arithmetic clocks between two steps (01 R19). DESIGN CHOICE, log 3. -/
opaque elapsed : Nat → Nat

/-- A choice between two behaviours that the spec allows. DESIGN CHOICE, log 3. -/
opaque freeBit : Nat → Bool

/-- The bits of a poisoned element that a deferred load writes (24 R389), by use and element. DESIGN CHOICE, log 6. -/
opaque poisonWord : Nat → Nat → BitVec 64

/-- The value beneath a tag of a quotient or remainder that has no value (06 R92). DESIGN CHOICE, log 6. -/
opaque underTag : BitVec 64 → BitVec 64 → BitVec 64

/-- The scale exponent of VBSC for a slot whose only finite value is zero, where no exponent satisfies 17 R300.
DESIGN CHOICE, log 6. -/
opaque noScale : BitVec 32 → Int

/-- An accumulator after a deferred GLD or register GMRG (16 R274: unspecified), as a number that codes its state, its bits
and its payload. DESIGN CHOICE, log 6. -/
opaque accAfterDefer : Nat → Nat → Int

/-- The value of a matrix-tile or accumulator bit pattern left by an uncorrectable error (28 R431). DESIGN CHOICE, log 6. -/
opaque damaged : Nat → BitVec 64

/-- The frame that the eviction engine takes for a page (07 R134, R135), among those that are free. DESIGN CHOICE, log 6. -/
opaque tierFrame : Nat → Nat

/-- The device's Ed25519 identity private key (29 R441). DESIGN CHOICE, log 5. -/
opaque idSecret : BitVec 256

/-- The X25519 private key of the key pair drawn for a partition (25 R401), by its number. DESIGN CHOICE, log 5. -/
opaque importSecret : Nat → BitVec 256

/-- The two memory keys drawn for a partition (25 R400), by its number. DESIGN CHOICE, log 5. -/
opaque memoryKeys : Nat → BitVec 512

/-- The temperature of a socket when firmware reads it (29 R441). DESIGN CHOICE, log 4. -/
opaque temperature : Nat → Nat → BitVec 32

/-- Which line a full cache gives up, since the spec fixes no replacement (07 R120, log 44); which copy of a sector an error
strikes (28 R431, log 48), by number; which elements of a landing tile are the drained ones, bit by bit (18 R320, log 31). DESIGN CHOICE. -/
opaque victim : Nat → Nat

/-- What another device has written to a line of its own: a byte of the line, or the poison of a sector (09 R169).
DESIGN CHOICE, log 61. -/
opaque remoteByte : Nat → Nat → BitVec 8

/-- The lines of versions that a speculative group may keep (20 R344). DESIGN CHOICE, log 59. -/
opaque versionRoom : Nat

end Sys2Proof.Config
end

