-- ==== Sys2Proof/Decode.lean ====
section
/-!
DEFINITION. The decoder, steps 1 to 4 of the decode order (03 R65), total on any bytes and rejecting by name; and
after it the encoder, written from the same encoding tables of the spec (03 R50, R52, 04 R67, R73).
-/
namespace Sys2Proof
open Sys2Proof.Machine

/-- Why bytes are no instruction: the causes ILLEGAL_ENCODING and ILLEGAL_OPCODE (03 R65). -/
inductive Reject where
  | encoding
  | opcode
deriving DecidableEq, Repr

/-- The name a selector code stands for (03 R52). -/
def selOf (c : BitVec 8) : Sel :=
  if c < 0x80 then .v (c.setWidth 7)
  else if c < 0xA0 then .w (c.setWidth 5)
  else if c < 0xE0 then .s ((c - 0xA0).setWidth 6)
  else if c < 0xE4 then .b (c.setWidth 2)
  else if c = 0xF0 then .imm
  else if c = 0xF1 then .zero
  else if c = 0xF2 then .one
  else if c = 0xF3 then .lane
  else if c = 0xF4 then .member
  else .bad c

/-- The length of an instruction in bytes by its length code, bits [1:0] of its first byte (03 R45). -/
def lengthOf (b : Byte) : Option Nat :=
  match b &&& 3 with
  | 1 => some 8
  | 2 => some 12
  | 3 => some 16
  | _ => none

/-- The fields of a 64-bit base with its immediate (03 R50). -/
def fieldsOf (w : Word64) (imm : Imm) : Fields where
  fn := w.extractLsb' 10 4
  d := selOf (w.extractLsb' 14 8)
  a := selOf (w.extractLsb' 22 8)
  b := selOf (w.extractLsb' 30 8)
  c := selOf (w.extractLsb' 38 8)
  p := w.extractLsb' 46 4
  pn := w.getLsbD 50
  n := w.getLsbD 51
  q := w.getLsbD 52
  t := w.extractLsb' 53 3
  m := w.extractLsb' 56 3
  x := w.extractLsb' 59 5
  imm := imm

/-- The opcodes of row 0x0_ of the map (04 R67). -/
def opcodes0 : List (BitVec 8 × (Fields → Instr)) :=
  [(0x01, .nop),
   (0x02, .br),
   (0x03, .brc),
   (0x04, .jmp),
   (0x05, .call),
   (0x06, .ret),
   (0x07, .loop),
   (0x08, .brm),
   (0x09, .exit),
   (0x0A, .yield),
   (0x0B, .sleep),
   (0x0C, .clk)]

/-- The opcodes of row 0x1_ of the map (04 R67). -/
def opcodes1 : List (BitVec 8 × (Fields → Instr)) :=
  [(0x10, .sadd),
   (0x11, .ssub),
   (0x12, .smul),
   (0x13, .smulh),
   (0x14, .sdiv),
   (0x15, .srem),
   (0x16, .smadd),
   (0x17, .slog),
   (0x18, .sshf),
   (0x19, .sbit),
   (0x1A, .smnx),
   (0x1B, .sset),
   (0x1C, .ssel),
   (0x1D, .smov),
   (0x1E, .sbfx),
   (0x1F, .sbfi)]

/-- The opcodes of row 0x2_ of the map (04 R67). -/
def opcodes2 : List (BitVec 8 × (Fields → Instr)) :=
  [(0x20, .slea)]

/-- The opcodes of row 0x3_ of the map (04 R67). -/
def opcodes3 : List (BitVec 8 × (Fields → Instr)) :=
  [(0x30, .plog),
   (0x31, .pcnt),
   (0x32, .pfirst),
   (0x33, .pmem),
   (0x34, fun f => if f.fn = 0 then .mmskSet f else if f.fn = 1 then .mmskAnd f else if f.fn = 2 then .mmskOr f else if f.fn = 3 then .mmskPush f else .mmskPop f)]

/-- The opcodes of row 0x4_ of the map (04 R67). -/
def opcodes4 : List (BitVec 8 × (Fields → Instr)) :=
  [(0x40, .vadd),
   (0x41, .vsub),
   (0x42, .vmul),
   (0x43, .vmad),
   (0x44, .vmnx),
   (0x45, .vabs),
   (0x46, .vlog),
   (0x47, .vshf),
   (0x48, .vbit),
   (0x49, .vcmp),
   (0x4A, .vsel),
   (0x4B, .vmov),
   (0x4C, .vcvti)]

/-- The opcodes of row 0x6_ of the map (04 R67). -/
def opcodes6 : List (BitVec 8 × (Fields → Instr)) :=
  [(0x60, .vperm),
   (0x61, .vslide),
   (0x62, .vblut),
   (0x63, .vredi),
   (0x64, .vext),
   (0x65, .vins),
   (0x66, .vscan),
   (0x67, fun f => if f.fn = 0 then .vcompCompress f else .vcompExpand f)]

/-- The opcodes of row 0x7_ of the map (04 R67). -/
def opcodes7 : List (BitVec 8 × (Fields → Instr)) :=
  [(0x70, .vfadd),
   (0x71, .vfsub),
   (0x72, .vfmul),
   (0x73, .vfma),
   (0x74, .vfdiv),
   (0x75, .vfsqrt),
   (0x76, .vfmnx),
   (0x77, .vfsgn),
   (0x78, .vfcmp),
   (0x79, .vfcls),
   (0x7A, .vfscl),
   (0x7B, .vfexp),
   (0x7C, .vflog),
   (0x7D, .vfrnd),
   (0x7E, .vfxp),
   (0x7F, .rdfl)]

/-- The opcodes of row 0x8_ of the map (04 R67). -/
def opcodes8 : List (BitVec 8 × (Fields → Instr)) :=
  [(0x80, .clfl)]

/-- The opcodes of row 0x9_ of the map (04 R67). -/
def opcodes9 : List (BitVec 8 × (Fields → Instr)) :=
  [(0x90, .sfadd),
   (0x91, .sfmul),
   (0x92, .sffma),
   (0x93, .sfdiv),
   (0x94, .sfsqrt),
   (0x95, .sfcmp),
   (0x96, .sfcvt),
   (0x97, fun f => if f.fn = 0 then .vcvtFpfp f else if f.fn = 1 then .vcvtFpint f else if f.fn = 2 then .vcvtIntfp f else if f.fn = 3 then .vcvtFpslot f else .vcvtSlotfp f),
   (0x98, .vrq),
   (0x99, .vbsc)]

/-- The opcodes of row 0xA_ of the map (04 R67). -/
def opcodesA : List (BitVec 8 × (Fields → Instr)) :=
  [(0xA0, .gclr),
   (0xA1, .gadd),
   (0xA2, .gdot),
   (0xA3, .grnd),
   (0xA4, .gst),
   (0xA5, .gld),
   (0xA6, fun f => if f.x < 16 then .gmrg f else .gmrgMem f),
   (0xA7, .gstat)]

/-- The opcodes of row 0xB_ of the map (04 R67). -/
def opcodesB : List (BitVec 8 × (Fields → Instr)) :=
  [(0xB0, .mzero),
   (0xB1, .mma),
   (0xB2, .mldt),
   (0xB3, .mstt),
   (0xB4, fun f => if f.fn = 0 then .mdrnOwn f else .mdrnPeer f),
   (0xB5, .mrp),
   (0xB6, .mpri),
   (0xB7, .layx)]

/-- The opcodes of row 0xC_ of the map (04 R67). -/
def opcodesC : List (BitVec 8 × (Fields → Instr)) :=
  [(0xC0, .sld),
   (0xC1, .sst),
   (0xC2, .vld),
   (0xC3, .vst),
   (0xC4, .wld),
   (0xC5, .satom),
   (0xC6, .scas),
   (0xC7, .vatom),
   (0xC8, .plk),
   (0xC9, fun f => if f.fn = 0 then .ldfKeep f else .ldfTake f),
   (0xCA, .ste),
   (0xCB, fun f => if f.fn = 0 then .fesetEmpty f else .fesetFull f),
   (0xCC, fun f => if f.fn = 0 then .fenceAcq f else if f.fn = 1 then .fenceRel f else if f.fn = 2 then .fenceFull f else .fencePromote f),
   (0xCD, fun f => if f.fn = 0 then .tlwaitWait f else .tlwaitTest f),
   (0xCE, fun f => if f.fn = 0 then .tlrdDone f else if f.fn = 1 then .tlrdIssued f else if f.fn = 2 then .tlrdErr f else .tlrdClrerr f),
   (0xCF, .tlinc)]

/-- The opcodes of row 0xD_ of the map (04 R67). -/
def opcodesD : List (BitVec 8 × (Fields → Instr)) :=
  [(0xD0, fun f => if f.fn = 0 then .cmoClean f else if f.fn = 1 then .cmoInval f else if f.fn = 2 then .cmoFlush f else if f.fn = 3 then .cmoPin f else .cmoUnpin f),
   (0xD1, .pref),
   (0xD2, fun f => if f.fn = 0 then .lifeMark f else .lifeStep f),
   (0xD3, .svc),
   (0xD4, fun f => if f.fn = 0 then .chkwWait f else .chkwTest f)]

/-- The opcodes of row 0xE_ of the map (04 R67). -/
def opcodesE : List (BitVec 8 × (Fields → Instr)) :=
  [(0xE0, fun f => if f.fn = 0 then .cpyCopy f else .cpyFill f),
   (0xE1, .cpyt),
   (0xE2, fun f => if f.fn = 0 then .rowCopy f else if f.fn = 1 then .rowFill0 f else if f.fn = 2 then .rowFill1 f else if f.fn = 3 then .rowAnd f else if f.fn = 4 then .rowOr f else if f.fn = 5 then .rowXor f else .rowNot f),
   (0xE3, .ired),
   (0xE4, fun f => if f.fn = 0 then .collAllred f else if f.fn = 1 then .collReduce f else if f.fn = 2 then .collBcast f else if f.fn = 3 then .collAllgath f else if f.fn = 4 then .collXsum f else if f.fn = 5 then .collSpread f else if f.fn = 6 then .collQuant f else .collRankh f),
   (0xE5, .cprec),
   (0xE6, .cwaitp),
   (0xE7, .ccan),
   (0xE8, fun f => if f.fn = 0 then .barArrive f else if f.fn = 1 then .barArriveWait f else if f.fn = 2 then .barWait f else .barWaitLocal f),
   (0xE9, fun f => if f.m = 0 then .barqStatus f else if f.m = 1 then .barqCid f else .barqGen f),
   (0xEA, .sig),
   (0xEB, .lnch),
   (0xEC, .join),
   (0xED, fun f => if f.fn = 0 then .mrgRegroup f else .mrgReturn f),
   (0xEE, .ordc)]

/-- The opcodes of row 0xF_ of the map (04 R67). -/
def opcodesF : List (BitVec 8 × (Fields → Instr)) :=
  [(0xF0, .trap),
   (0xF1, fun f => if f.fn = 0 then .gctlResume f else if f.fn = 1 then .gctlKill f else .gctlStep f),
   (0xF2, .mfs),
   (0xF3, .mts),
   (0xF4, .segld),
   (0xF5, fun f => if f.fn = 0 then .tlbiRange f else if f.fn = 1 then .tlbiAsid f else .tlbiAll f),
   (0xF6, .tlbsync),
   (0xF7, .adhv),
   (0xF8, fun f => if f.fn = 0 then .frzThaw f else .frzKill f),
   (0xF9, .ctxs),
   (0xFA, fun f => match f.d with | .s _ => .trmScalar f | _ => .trmPredicate f),
   (0xFB, .pwait)]

/-- The 146 major opcodes (04 R67), each with the constructor that its function or mode names (04 R73). -/
def opcodes : List (BitVec 8 × (Fields → Instr)) :=
  opcodes0 ++ opcodes1 ++ opcodes2 ++ opcodes3 ++ opcodes4 ++ opcodes6 ++ opcodes7 ++ opcodes8 ++ opcodes9 ++ opcodesA ++ opcodesB ++ opcodesC ++ opcodesD ++ opcodesE ++ opcodesF

/-- The immediate of a word of `n` bytes (03 R50). -/
def immOf (n : Nat) (bs : List Byte) : Imm :=
  if n = 8 then .none
  else if n = 12 then .i32 (BitVec.ofNat 32 (recNat bs 8 4))
  else .i64 (BitVec.ofNat 64 (recNat bs 8 8))

/-- The instruction in bytes that reach from the program counter to the end of its 32-byte fetch block, or to 16
bytes: step 1 the length, step 2 the block, step 3 the opcode, step 4 the encoding (03 R65, R46). -/
def decode (bs : List Byte) : Except Reject Instr :=
  match bs with
  | [] => .error .encoding
  | b0 :: _ =>
    match lengthOf b0 with
    | none => .error .encoding
    | some n =>
      if bs.length < n then .error .encoding
      else
        let w : Word64 := BitVec.ofNat 64 (recNat bs 0 8)
        match opcodes.lookup (w.extractLsb' 2 8) with
        | none => .error .opcode
        | some k =>
          let i := k (fieldsOf w (immOf n bs))
          if wellFormed i then .ok i else .error .encoding

/-! ### The encoder -/

/-- The code of a selector (03 R52). -/
def selCode : Sel → BitVec 8
  | .v r => r.setWidth 8
  | .w r => 0x80 ||| r.setWidth 8
  | .s r => 0xA0 + r.setWidth 8
  | .b r => 0xE0 ||| r.setWidth 8
  | .imm => 0xF0
  | .zero => 0xF1
  | .one => 0xF2
  | .lane => 0xF3
  | .member => 0xF4
  | .bad c => c

/-- The selector is one that a code stands for. -/
def selNamed (s : Sel) : Bool := selOf (selCode s) == s

/-- The length code of a word (03 R45). -/
def lenCode : Imm → BitVec 2
  | .none => 1
  | .i32 _ => 2
  | .i64 _ => 3

/-- The 64-bit base of a word (03 R50). -/
def baseWord (op : BitVec 8) (f : Fields) : Word64 :=
  f.x ++ f.m ++ f.t ++ BitVec.ofBool f.q ++ BitVec.ofBool f.n ++ BitVec.ofBool f.pn ++ f.p ++
    selCode f.c ++ selCode f.b ++ selCode f.a ++ selCode f.d ++ f.fn ++ op ++ lenCode f.imm

/-- The bytes of an immediate. -/
def immBytes : Imm → List Byte
  | .none => []
  | .i32 w => leBytes 4 w.toNat
  | .i64 w => leBytes 8 w.toNat

/-- The bytes of an instruction, the first at the lowest address; none for a hardware or host step. -/
def encode (i : Instr) : List Byte :=
  match row i, fields i with
  | some r, some f => leBytes 8 (baseWord r.op f).toNat ++ immBytes f.imm
  | _, _ => []

/-- The instruction is one that bytes can hold: it is well formed and each of its selectors is one that a code
stands for. -/
def encodable (i : Instr) : Bool :=
  wellFormed i &&
  match fields i with
  | some f => selNamed f.d && selNamed f.a && selNamed f.b && selNamed f.c
  | none => false

/-- The instruction that the decoder reads from a word of the opcode table whose bits are `w`, the least significant
byte first, with zero bits above `nbits`. -/
def decodeTableWord (nbits w : Nat) : Option Instr :=
  match decode (leBytes 16 (w % 2 ^ nbits)) with
  | .ok i => some i
  | .error _ => none

end Sys2Proof
end

