-- ==== Sys2Proof/Machine/Place.lean ====
section
/-!
DEFINITION. Where things stand: cores, towers and dies (01 R12), the physical address map and the homes of lines
(07 R124, R125), the partition descriptor (25 R393), Trail records (25 R404 to R406) and the machine-check log (28 R432).
-/
namespace Sys2Proof.Machine
open Sys2Proof

/-! ### Cores and groups -/

/-- The number of a core in row-major order of (y, x). -/
def coreNo (x y : Nat) : Nat := 32 * y + x
/-- The column of a core. -/
def coreX (c : Nat) : Nat := c % 32
/-- The row of a core. -/
def coreY (c : Nat) : Nat := c / 32
/-- The core of a group, as its number. -/
def keyCore (k : GKey) : Nat := coreNo k.x.toNat k.y.toNat
/-- The key of a group in the map of resident groups. -/
def keyCode (k : GKey) : Nat := 8 * keyCore k + k.rs.toNat
/-- The group key with a given code. -/
def keyOf (n : Nat) : GKey :=
  ⟨BitVec.ofNat 5 (coreX (n / 8)), BitVec.ofNat 4 (coreY (n / 8)), BitVec.ofNat 3 n⟩
/-- The tower of a core (01 R12). -/
def towerOf (core : Nat) : Nat := coreX core / 16 + 2 * (coreY core / 8)
/-- The die within the tower (01 R12). -/
def dieOf (core : Nat) : Nat := coreX core / 8 % 2
/-- The global die (01 R12). -/
def gdieOf (core : Nat) : Nat := 2 * towerOf core + dieOf core

/-- The group with a key. -/
def State.group? (s : State) (k : GKey) : Option Group := Store.get? s.groups (keyCode k)
/-- A group put in place. -/
def State.setGroup (s : State) (k : GKey) (g : Group) : State := { s with groups := Store.put s.groups (keyCode k) g }
/-- A change to a group, if it is resident. -/
def State.onGroup (s : State) (k : GKey) (f : Group → Group) : State :=
  match s.group? k with
  | some g => s.setGroup k (f g)
  | none => s
/-- The core with a number. -/
def State.coreAt (s : State) (c : Nat) : Core := Store.getD s.cores c {}
/-- A core put in place. -/
def State.setCore (s : State) (c : Nat) (k : Core) : State := { s with cores := Store.put s.cores c k }
/-- The cohort instance with a number. -/
def State.inst? (s : State) (i : Nat) : Option Inst := Store.get? s.insts i
/-- A cohort instance put in place. -/
def State.setInst (s : State) (i : Nat) (x : Inst) : State := { s with insts := Store.put s.insts i x }
/-- A change to a cohort instance. -/
def State.onInst (s : State) (i : Nat) (f : Inst → Inst) : State :=
  match s.inst? i with
  | some x => s.setInst i (f x)
  | none => s
/-- The partition with an id. -/
def State.part? (s : State) (p : Nat) : Option Part := Store.get? s.parts p
/-- A partition put in place. -/
def State.setPart (s : State) (p : Nat) (x : Part) : State := { s with parts := Store.put s.parts p x }
/-- A change to a partition. -/
def State.onPart (s : State) (p : Nat) (f : Part → Part) : State :=
  match s.part? p with
  | some x => s.setPart p (f x)
  | none => s
/-- The launch with a number. -/
def State.launch? (s : State) (l : Nat) : Option Launch := Store.get? s.launches l
/-- A launch put in place. -/
def State.setLaunch (s : State) (l : Nat) (x : Launch) : State := { s with launches := Store.put s.launches l x }
/-- A change to a launch. -/
def State.onLaunch (s : State) (l : Nat) (f : Launch → Launch) : State :=
  match s.launch? l with
  | some x => s.setLaunch l (f x)
  | none => s

/-- The resident groups with their keys, cores and slots rising. -/
def State.allGroups (s : State) : List (GKey × Group) := s.groups.map fun x => (keyOf x.1, x.2)

/-! ### The partition descriptor (25 R393) -/

namespace Part
/-- ROOT, the root table. -/
def root (p : Part) : Nat := recNat p.desc 0 8
/-- TQBASE. -/
def tqBase (p : Part) : Nat := recNat p.desc 8 8
/-- TRBASE. -/
def trBase (p : Part) : Nat := recNat p.desc 16 8
/-- The bytes of the trace region, from TRSIZE. -/
def trSize (p : Part) : Nat := recNat p.desc 24 4 * 2 ^ 21
/-- TQUOTA. -/
def tquota (p : Part) : Nat := recNat p.desc 28 4
/-- ASID0. -/
def asid0 (p : Part) : Nat := recNat p.desc 32 2
/-- NASID. -/
def nasid (p : Part) : Nat := recNat p.desc 34 2
/-- RX. -/
def rx (p : Part) : Nat := recNat p.desc 36 1 % 32
/-- RY. -/
def ry (p : Part) : Nat := recNat p.desc 37 1 % 16
/-- The width of the core rectangle. -/
def width (p : Part) : Nat := 2 ^ (recNat p.desc 38 1 % 8)
/-- The height of the core rectangle. -/
def height (p : Part) : Nat := 2 ^ (recNat p.desc 38 1 / 16 % 8)
/-- The records that the trap queue holds, 2^TQLOG. -/
def tqSize (p : Part) : Nat := 2 ^ recNat p.desc 39 1
/-- The engine-command quota in commands. -/
def engQuota (p : Part) : Nat := 64 * recNat p.desc 40 1
/-- ENCL, an enclave partition. -/
def encl (p : Part) : Bool := bitNat (recNat p.desc 42 1) 0 = 1
/-- PID. -/
def pid (p : Part) : Nat := recNat p.desc 43 1
/-- TREN bit j. -/
def tren (p : Part) (j : Nat) : Bool := bitNat (recNat p.desc 44 4) j = 1
/-- RANGE i: its base and its length in bytes, zero for an unused entry. -/
def range (p : Part) (i : Nat) : Nat × Nat :=
  let w := recNat p.desc (64 + 8 * i) 8
  (bitsNat w 34 0 * 2 ^ 21, bitsNat w 58 35 * 2 ^ 21)
/-- The eight ranges. -/
def ranges (p : Part) : List (Nat × Nat) := (List.range 8).map p.range
/-- Where the ranges, of which one may begin where another ends, stop to cover the addresses from one on. -/
def reach (p : Part) : Nat → Nat → Nat
  | 0, a => a
  | n + 1, a => match p.ranges.find? fun r => r.1 ≤ a && a < r.1 + r.2 with
    | some r => reach p n (r.1 + r.2)
    | none => a
/-- A physical address range lies within one range of the partition. -/
def owns (p : Part) (pa len : Nat) : Bool :=
  (p.ranges.any fun r => r.1 ≤ pa && pa + len ≤ r.1 + r.2) || (0 < len && pa + len ≤ p.reach 8 pa)
/-- A core lies in the partition's rectangle. -/
def hasCore (p : Part) (x y : Nat) : Bool :=
  p.rx ≤ x && x < p.rx + p.width && p.ry ≤ y && y < p.ry + p.height
/-- The cores of the rectangle in row-major order of (y, x) (25 R407). -/
def coreList (p : Part) : List Nat :=
  (List.range p.height).flatMap fun j => (List.range p.width).map fun i => coreNo (p.rx + i) (p.ry + j)
/-- An ASID of the partition's set. -/
def hasAsid (p : Part) (a : Nat) : Bool := p.asid0 ≤ a && a < p.asid0 + p.nasid
end Part

/-- The partition that a core belongs to (25 R394: at most one). -/
def State.partOfCore (s : State) (core : Nat) : Option Nat :=
  (s.parts.find? fun x => x.2.hasCore (coreX core) (coreY core)).map (·.1)

/-! ### Physical addresses (07 R124, R125) -/

/-- The end of local HBM. -/
def hbmEnd : Nat := 0xC000000000
/-- The base of the capacity tier. -/
def capBase : Nat := 0x100000000000
/-- The end of the range of the capacity tier. -/
def capEnd : Nat := 0x130000000000
/-- The local part of a physical address. -/
def localPa (pa : Nat) : Nat := pa % 2 ^ 47
/-- The device that a physical address names. -/
def devOf (pa : Nat) : Nat := pa / 2 ^ 47 % 2 ^ 9
/-- An address of this device. -/
def State.isLocal (s : State) (pa : Nat) : Bool := devOf pa = s.devnum.toNat
/-- The address lies in HBM. -/
def isHbm (pa : Nat) : Bool := localPa pa < hbmEnd

/-- The 4-KiB frames of the expanders before port k. -/
def framesBefore (e : Vector Expander 4) (k : Nat) : Nat :=
  ((List.range k).map fun j => (vget e j {}).frames).sum

/-- The root port whose expander holds a local address of the capacity tier, each port's range from the end of the one
before (29 R446). -/
def State.portOf (s : State) (l : Nat) : Option Nat :=
  if capBase ≤ l then
    let fr := (l - capBase) / 4096
    (List.range 4).find? fun k => framesBefore s.expanders k ≤ fr && fr < framesBefore s.expanders (k + 1)
  else none

/-- A backed address: HBM, or the populated part of the capacity tier (07 R124). Of another device's capacity tier this
device does not know what is populated: that device's home refuses what it does not back (log 8). -/
def State.backed (s : State) (pa : Nat) : Bool :=
  let l := localPa pa
  isHbm pa || (capBase ≤ l && l < capEnd && (!s.isLocal pa || (s.portOf l).isSome))

/-- Another device of the domain to which a path is left (29 R448). -/
def State.reaches (s : State) (dev : Nat) : Bool :=
  NSet.has s.domain dev && !NSet.has s.unreachable dev && s.links.any fun l => l.up

/-- The other devices of the domain to which every path is lost. -/
def State.lostPeers (s : State) : List Nat :=
  (s.domain.map (·.1)).filter fun d => d != s.devnum.toNat && !s.reaches d

/-- An address whose requests end with error: another device that is not in the domain or cannot be reached (29 R448),
or an expander that is lost (29 R446). -/
def State.lostAt (s : State) (pa : Nat) : Bool :=
  if s.isLocal pa then
    match s.portOf (localPa pa) with
    | some k => (vget s.expanders k {}).lost
    | none => false
  else !s.reaches (devOf pa)

/-- The home tower of an address (07 R125). -/
def homeOf (pa : Nat) : Nat :=
  let l := localPa pa
  if l < hbmEnd then l / 1024 % 12 / 3 else (l - capBase) / 4096 % 4

/-! ### Trail (25 R404 to R406) -/

/-- A Trail record. -/
def trailRec (typ aux : Nat) (rs core cyc : Nat) (pay : Nat) : BitVec 128 :=
  BitVec.ofNat 128 (typ % 16 + aux % 256 * 2 ^ 4 + rs % 8 * 2 ^ 12 + coreX core * 2 ^ 15 + coreY core * 2 ^ 20 +
    cyc % 2 ^ 40 * 2 ^ 24 + pay % 2 ^ 64 * 2 ^ 64)

/-- The records that a trace buffer of 64 KiB holds. -/
def trailCap : Nat := 4096

/-- A core writes a record if TREN enables its type, or for the types 7 and 8 always; a full buffer drops it. -/
def State.trail (s : State) (core rs typ aux pay : Nat) : State :=
  let on := typ = 7 || typ = 8 ||
    match s.partOfCore core with
    | some p => (s.part? p).any fun x => x.tren typ
    | none => false
  if !on then s
  else
    let k := s.coreAt core
    if trailCap ≤ k.trail.length then s.setCore core { k with dropped := k.dropped + 1 }
    else s.setCore core { k with trail := k.trail ++ [trailRec typ aux rs core s.cyc.toNat pay] }

/-! ### The machine-check log (28 R432) -/

/-- What a machine-check record holds beside CYC. -/
structure McRec where
  kind : Nat
  sev : Nat
  unit : Nat := 0
  sock : Nat := 0
  part : Option Nat := none
  count : Nat := 0
  addr : Nat := 0
deriving DecidableEq, Repr

/-- Bytes 0 to 7 of a machine-check record. -/
def McRec.low (m : McRec) : Nat :=
  m.kind % 2 ^ 16 + m.sev % 256 * 2 ^ 24 + m.unit % 2 ^ 16 * 2 ^ 32 + m.sock % 32 * 2 ^ 48 +
    (match m.part with | some p => 2 ^ 63 + p % 16 * 2 ^ 56 | none => 0)

/-- A machine-check record. -/
def McRec.bits (m : McRec) (cyc : Nat) : BitVec 256 :=
  BitVec.ofNat 256 (m.low + m.count % 2 ^ 32 * 2 ^ 96 + m.addr % 2 ^ 64 * 2 ^ 128 + cyc % 2 ^ 64 * 2 ^ 192)

/-- Record m stands in the ring of 256, the oldest overwritten. -/
def State.logMc (s : State) (m : McRec) : State :=
  { s with
    mclog := Store.put s.mclog (s.mcw.toNat % 256) (m.bits s.cyc.toNat)
    mcw := s.mcw + 1 }

/-- The partition that an address belongs to. -/
def State.partOfPa (s : State) (pa : Nat) : Option Nat :=
  if s.isLocal pa then (s.parts.find? fun x => x.2.owns pa 1).map (·.1) else none

/-! ### The launch record (20 R329) -/

namespace Launch
/-- ENTRY. -/
def entry (l : Launch) : Nat := recNat l.rec256 0 8
/-- ARGS. -/
def args (l : Launch) : Nat := recNat l.rec256 8 8
/-- DONE. -/
def doneAddr (l : Launch) : Nat := recNat l.rec256 16 8
/-- PARENT. -/
def parentAddr (l : Launch) : Nat := recNat l.rec256 24 8
/-- TSBASE. -/
def tsbase (l : Launch) : Nat := recNat l.rec256 32 8
/-- SEED. -/
def seed (l : Launch) : Nat := recNat l.rec256 40 8
/-- PWORD, the partition word of 02 R32. -/
def pword (l : Launch) : Nat := recNat l.rec256 48 4
/-- MBASE. -/
def mbase (l : Launch) : Nat := recNat l.rec256 52 4
/-- COUNT. -/
def countCi (l : Launch) : Nat := recNat l.rec256 56 4
/-- DEADLINE. -/
def deadline (l : Launch) : Nat := recNat l.rec256 60 4
/-- RX, the column of the rectangle's origin. -/
def rx (l : Launch) : Nat := recNat l.rec256 64 1
/-- RY. -/
def ry (l : Launch) : Nat := recNat l.rec256 65 1
/-- The rectangle's width. -/
def rw (l : Launch) : Nat := 2 ^ (recNat l.rec256 66 1 % 8)
/-- The rectangle's height. -/
def rh (l : Launch) : Nat := 2 ^ (recNat l.rec256 66 1 / 16 % 8)
/-- The cohort's width. -/
def cw (l : Launch) : Nat := 2 ^ (recNat l.rec256 67 1 % 8)
/-- The cohort's height. -/
def ch (l : Launch) : Nat := 2 ^ (recNat l.rec256 67 1 / 16 % 4)
/-- M, the members of a group. -/
def members (l : Launch) : Nat := 2 ^ (recNat l.rec256 68 1 % 8)
/-- PRIO. -/
def prio (l : Launch) : Nat := recNat l.rec256 69 1 % 8
/-- SVC. -/
def svc (l : Launch) : Nat := recNat l.rec256 69 1 / 8 % 4
/-- ORD. -/
def ordered (l : Launch) : Bool := bitNat (recNat l.rec256 69 1) 5 = 1
/-- Segment image k: 0 L, 1 W, 2 K, 3 M. -/
def seg (l : Launch) (k : Nat) : Seg :=
  { base := BitVec.ofNat 64 (recNat l.rec256 (80 + 16 * k) 8)
    limit := BitVec.ofNat 32 (recNat l.rec256 (88 + 16 * k) 4)
    stride := BitVec.ofNat 32 (recNat l.rec256 (92 + 16 * k) 4) }
/-- The four segment images. -/
def segs (l : Launch) : Segs := { l := l.seg 0, w := l.seg 1, k := l.seg 2, m := l.seg 3 }
/-- FMTj. -/
def fmt (l : Launch) (j : Nat) : Word32 := BitVec.ofNat 32 (recNat l.rec256 (144 + 4 * j) 4)
end Launch

/-- v registers of a partition word (02 R32). -/
def pwVregs (w : Nat) : Nat := 32 * (w % 4 + 1)
/-- w registers. -/
def pwWregs (w : Nat) : Nat := 8 * 2 ^ (w / 4 % 4)
/-- Scratchpad units of 32 KiB. -/
def pwSpd (w : Nat) : Nat := bitsNat w 8 4
/-- Matrix tiles. -/
def pwTiles (w : Nat) : Nat := if bitsNat w 10 9 = 0 then 0 else 2 ^ bitsNat w 10 9
/-- Agate accumulators of a member. -/
def pwAgates (w : Nat) : Nat := if bitsNat w 12 11 = 0 then 0 else 2 * 2 ^ bitsNat w 12 11
/-- Resident groups per core. -/
def pwGroups (w : Nat) : Nat := bitsNat w 15 13 + 1
/-- The pool charge of one group (02 R33). -/
def pwCharge (w m : Nat) : Nat :=
  pwVregs w * 4096 + pwWregs w * (1024 / m) * 4 + 2048 + pwSpd w * 32768 + pwTiles w * 32768 + pwAgates w * 544 * m

/-- The register state of R43 for a group of M members at global member index `gfirst`: the entry address, the argument
pointer in s1, mk full, and a logical time. -/
def freshRegs (entry args : Word64) (m gfirst : Nat) (lt : Word64) : Regs :=
  { pc := entry
    s := (Vector.replicate 64 {}).setIfInBounds 1 { val := args }
    mask := BitVec.ofNat 16 (2 ^ m - 1)
    gmi := Vector.ofFn fun i : Fin 16 => if i.val < m then BitVec.ofNat 32 (gfirst + i.val) else 0
    lt := lt }

/-- A group as it starts (02 R43, 20 R331). -/
def freshGroup (id : Ident) (sg : Segs) (prio : Nat) (dl : Nat) (lt : Word64) (ord : Option Ordered) : Group :=
  { id := id
    regs := freshRegs id.entry id.args id.mcount (id.mbase.toNat + id.lin * id.mcount) lt
    segs := sg
    prio := BitVec.ofNat 3 prio
    mcls := BitVec.ofNat 3 prio
    svc := BitVec.ofNat 64 (id.svcMax.toNat + 4 * dl)
    ord := ord }

end Sys2Proof.Machine
end

