-- ==== Sys2Proof/Machine/Caches.lean ====
section
/-!
DEFINITION. What the caches of a tower hold of a line and how its directory answers (07 R120 to R123, 08 R136 to R141, R155):
holders with their sector bits, byte-mask splits, eviction notices in flight, and the changes that a request makes. No value
depends on them (08 R156): the bytes of a line stand in its backing location, in leased copies and in scoped copies.
-/
namespace Sys2Proof.Machine
open Sys2Proof

/-- The towers. -/
def towers : List Nat := [0, 1, 2, 3]
/-- The entry of a tower for a line; none is I. -/
def Line.dir? (l : Line) (t : Nat) : Option DirEntry := Store.get? l.dirs t
/-- The entry has a holder. -/
def DirEntry.held (e : DirEntry) : Bool := !e.l1.isEmpty || e.l2.isSome
/-- The L1 of a core holds the line. -/
def DirEntry.has (e : DirEntry) (core : Nat) : Bool := (Store.get? e.l1 core).isSome
/-- A holder that may keep a leased copy: the L1 of a core, or the L2, of an entry in S. -/
def DirEntry.leases (e : DirEntry) (core : Option Nat) : Bool :=
  e.st == .s && match core with | none => e.l2.isSome | some c => e.has c

/-- A line without the entry of a tower: its leased copies there go with it, and what its L2 tracked of the line (09 R179). -/
def Line.delDir (l : Line) (t : Nat) : Line :=
  { l with
    dirs := Store.del l.dirs t
    copies := l.copies.filter fun c => c.tower != t
    tracks := if (l.dir? t).isSome then Store.del l.tracks t else l.tracks }
/-- An entry put in place; one with no holder is I. Leased copies stand only in holders that the entry names. -/
def Line.setDir (l : Line) (t : Nat) (e : DirEntry) : Line :=
  if e.held then
    { l with dirs := Store.put l.dirs t e, copies := l.copies.filter fun c => c.tower != t || e.leases c.core }
  else l.delDir t

/-- The dirty sectors of the copies that an entry names. -/
def DirEntry.dirtyBits (e : DirEntry) : BitVec 4 :=
  e.l1.foldl (fun m x => m ||| x.2.dirty) (match e.l2 with | some b => b.dirty | none => 0)
/-- The copies of an entry are clean. -/
def DirEntry.clean (e : DirEntry) : DirEntry :=
  { e with l1 := e.l1.map fun x => (x.1, { x.2 with dirty := 0 }), l2 := e.l2.map fun b => { b with dirty := 0 } }
/-- The sectors that a byte mask touches. -/
def secMask (m : BitVec 128) : BitVec 4 :=
  BitVec.ofNat 4 (((List.range 4).map fun i => if m.extractLsb' (32 * i) 32 = 0 then 0 else 2 ^ i).sum)

/-- A split ends: the line stands in M at the L2 with every masked byte, and every X copy is invalidated (08 R141). -/
def DirEntry.endSplit (e : DirEntry) : DirEntry :=
  match e.st with
  | .x => { st := .m, l2 := some { dirty := e.dirtyBits }, owner := e.owner }
  | _ => e

/-- Where a line is homed: the tower of this device, or none, and whether that tower's MSC caches it (07 R125, R126). -/
structure Home where
  tower : Option Nat
  msc : Bool
deriving DecidableEq, Repr

/-- The home of a line. -/
def State.homeIn (s : State) (ln : Nat) : Home :=
  if s.isLocal (128 * ln) then { tower := some (homeOf (128 * ln)), msc := isHbm (128 * ln) } else { tower := none, msc := false }

/-- Dirty sectors come back to the home: the MSC takes them for a line of HBM; for another line they go to its backing
location. -/
def Line.takeDirty (l : Line) (h : Home) (d : BitVec 4) : Line :=
  if h.msc && d != 0 then
    { l with msc := some (match l.msc with
      | some b => { b with dirty := b.dirty ||| d, poison := b.poison &&& ~~~d }
      | none => { dirty := d }) }
  else l

/-- What a request that comes from elsewhere leaves of an entry, with the dirty sectors that go home (08 R139, R147, R155): a
split ends; at the home E and M fall to S under a read, and a write invalidates every copy; in another tower a line in E or M
returns to its home, and S copies are leased, which nothing recalls. -/
def DirEntry.asked (e : DirEntry) (atHome writes : Bool) : Option DirEntry × BitVec 4 :=
  let x := e.endSplit
  match x.st with
  | .s => if atHome && writes then (none, x.dirtyBits) else (some x, 0)
  | _ => if atHome && !writes then (some { x.clean with st := .s }, x.dirtyBits) else (none, x.dirtyBits)

/-- The entries of every tower but one after a request that comes from that tower, or from none. -/
def Line.others (l : Line) (h : Home) (t : Option Nat) (writes : Bool) : Line :=
  l.dirs.foldl (fun l x =>
    if t = some x.1 then l
    else
      let (e, d) := x.2.asked (h.tower = some x.1) writes
      (match e with | some e => l.setDir x.1 e | none => l.delDir x.1).takeDirty h d) l

/-! ### Eviction notices (08 R137, R138) -/

/-- A copy leaves the L1 of a core that holds it: dirty sectors and the masked bytes of a split go to the L2 copy. -/
def DirEntry.dropL1 (e : DirEntry) (core : Nat) : DirEntry :=
  match Store.get? e.l1 core with
  | none => e
  | some b =>
    let l1 := Store.del e.l1 core
    let to2 : Option SecBits := some (match e.l2 with
      | some x => { x with dirty := x.dirty ||| b.dirty, poison := x.poison &&& ~~~b.dirty }
      | none => b)
    match e.st with
    | .x =>
      let ms := e.masks.filter fun x => x.core != core
      if 2 ≤ ms.length then { e with l1 := l1, l2 := to2, masks := ms }
      else { e with l1 := l1, l2 := to2 }.endSplit
    | .m => { e with l1 := l1, l2 := to2 }
    | _ => { e with l1 := l1 }

/-- A copy leaves the L2: a clean entry loses the holder; the only copy of a line in M goes home. -/
def DirEntry.dropL2 (e : DirEntry) : DirEntry := { e with l2 := none }

/-- A notice arrives: the directory removes the holder and takes its dirty sectors. -/
def Line.arrive (l : Line) (h : Home) (n : Notice) : Line :=
  match l.dir? n.tower with
  | none => l
  | some e => match n.core with
    | some c => l.setDir n.tower (e.dropL1 c)
    | none => if e.l2.isSome then (l.setDir n.tower e.dropL2).takeDirty h n.bits.dirty else l

/-- A request that meets notices in flight completes only when they have arrived: a cache that has sent one answers "absent",
and the notice stands for its acknowledgement and its data (08 R138). -/
def Line.settle (l : Line) (h : Home) : Line := l.notices.foldl (fun l n => l.arrive h n) { l with notices := [] }

/-- A notice of a cache is in flight. -/
def Line.leaving (l : Line) (t : Nat) (core : Option Nat) : Bool := l.notices.any fun n => n.tower = t && n.core = core

/-- The bits of the copy that a cache holds, unless it has given the copy up. -/
def Line.bitsIn (l : Line) (t : Nat) (core : Option Nat) : Option SecBits :=
  if l.leaving t core then none
  else match l.dir? t with
    | none => none
    | some e => match core with | some c => Store.get? e.l1 c | none => e.l2

/-! ### Requests -/

/-- The core holds an X copy whose mask has the bytes. -/
def DirEntry.maskHas (e : DirEntry) (core : Nat) (m : BitVec 128) : Bool :=
  e.st == .x && e.masks.any fun x => x.core = core && m &&& ~~~x.mask = 0

/-- A load of a core that its L1 serves: a copy of the whole line, or the bytes of its own mask of a split. -/
def Line.hit (l : Line) (t core : Nat) (m : BitVec 128) : Bool :=
  (l.bitsIn t (some core)).isSome && match l.dir? t with
    | some e => e.st != .x || e.maskHas core m
    | none => false

/-- A write of a core that needs no request: it holds the line in E or M, or the bytes lie in its own mask of a split. -/
def Line.ownHit (l : Line) (t core : Nat) (m : BitVec 128) : Bool :=
  (l.bitsIn t (some core)).isSome && match l.dir? t with
    | some e => e.st == .e || e.st == .m || e.maskHas core m
    | none => false

/-- The tower holds the line otherwise than by leased copies: in E, M or X. -/
def Line.owns (l : Line) (t : Nat) : Bool := (l.dir? t).any fun e => e.st != .s

/-- The copy that serves a request of a core, or of an engine of a tower: that of the core's L1, else of the L1 that owns the line,
else of the tower's L2, else of the home's MSC. -/
def Line.copyOf (l : Line) (t core : Option Nat) : Option SecBits :=
  let l1 := t.bind fun t => core.bind fun c => l.bitsIn t (some c)
  let owner := (t.bind l.dir?).bind fun e => if e.st == .s then none else e.l1.head?.map (·.2)
  let l2 := t.bind fun t => l.bitsIn t none
  ((l1.orElse fun _ => owner).orElse fun _ => l2).orElse fun _ => l.msc
/-- The sectors that the copy which serves a request holds poisoned though the line does not. -/
def Line.struck (l : Line) (t core : Option Nat) : BitVec 4 := match l.copyOf t core with | some b => b.poison | none => 0
/-- The sectors that the copy which serves a request holds sound though the backing location is poisoned. -/
def Line.soundIn (l : Line) (t core : Option Nat) : BitVec 4 := match l.copyOf t core with | some b => b.sound | none => 0

/-- A load miss served without a new copy (07 R128): the owner's or the next level's value; E and M fall to S, a split ends. -/
def Line.borrow (l : Line) (h : Home) (t : Nat) : Line :=
  let l1 := (l.settle h).others h (some t) false
  match l1.dir? t with
  | none => l1
  | some e =>
    let x := e.endSplit
    if x.st == .s then l1 else (l1.setDir t { x.clean with st := .s }).takeDirty h x.dirtyBits

/-- A load miss of a core (08 R139): after the change of the other copies, the copy stands in the L2, and in the L1 where the
core asks for it there; a line of this device that nothing holds may be given in E to the L1 alone; a miss served from HBM leaves
the line in the MSC (07 R127). -/
def Line.fill (l : Line) (h : Home) (t core : Nat) (toL1 excl : Bool) : Line :=
  let b : SecBits := { poison := l.struck (some t) (some core), sound := l.soundIn (some t) (some core) }
  let l1 := l.borrow h t
  let l2 := if l1.dirs.isEmpty && h.msc && l1.msc.isNone then { l1 with msc := some {} } else l1
  match l2.dir? t with
  | none =>
    if excl && toL1 && h.tower.isSome && l2.dirs.isEmpty then l2.setDir t { st := .e, l1 := [(core, b)] }
    else l2.setDir t { st := .s, l1 := if toL1 then [(core, b)] else [], l2 := some b }
  | some e =>
    l2.setDir t { e with
      l1 := if toL1 && !e.has core then Store.put e.l1 core b else e.l1
      l2 := some (e.l2.getD b) }

/-- The write masks gathered, with the mask of one more transfer. -/
def addMask (l : List Mask) (core : Nat) (m : BitVec 128) : List Mask :=
  if l.any fun x => x.core = core then l.map fun x => if x.core = core then { x with mask := x.mask ||| m } else x
  else l ++ [{ core := core, mask := m }]

/-- The masks are pairwise disjoint. -/
def disjointMasks : List Mask → Bool
  | [] => true
  | x :: r => r.all (fun y => x.mask &&& y.mask = 0) && disjointMasks r

/-- The window in which passes of ownership count toward contention, in clocks (08 R140). -/
def contendedIn : Nat := 4096

/-- Ownership goes to a core of the tower: the fourth pass between cores within the window makes the line contended, and the
masks of the next eight are gathered (08 R140); `d` are the dirty sectors that the home hands on, and `p` and `q` those that the copy
which serves the request holds poisoned, and sound. -/
def DirEntry.transfer (e : DirEntry) (core : Nat) (m : BitVec 128) (d p q : BitVec 4) (now : Nat) : DirEntry :=
  let moved := match e.owner with | some o => o != core | none => false
  let owned : DirEntry :=
    { e with
      st := .m
      l1 := [(core, { dirty := d ||| e.dirtyBits ||| secMask m, poison := p &&& ~~~secMask m, sound := q &&& ~~~secMask m })]
      l2 := none, owner := some core }
  if e.gather = 0 then
    if !moved then owned
    else
      let ps := now :: e.passes.filter fun c => now < c + contendedIn
      if 4 ≤ ps.length then { owned with passes := [], gather := 1, masks := [] } else { owned with passes := ps }
  else
    let ms := addMask e.masks core m
    if !moved then { owned with masks := ms }
    else if e.gather < 8 then { owned with masks := ms, gather := e.gather + 1 }
    else if 2 ≤ ms.length && ms.length ≤ 8 && disjointMasks ms then
      { st := .x, l1 := ms.foldl (fun x k => Store.put x k.core { dirty := secMask k.mask }) [], masks := ms, owner := some core }
    else { owned with masks := [], gather := 0, passes := [] }

/-- Written bytes are dirty in the L1 of a core that holds the line, which then stands in M unless it is split. -/
def DirEntry.write (e : DirEntry) (core : Nat) (m : BitVec 128) : DirEntry :=
  { e with
    st := if e.st == .x then .x else .m
    l1 := e.l1.map fun x =>
      if x.1 = core then (x.1, { x.2 with
          dirty := x.2.dirty ||| secMask m
          poison := x.2.poison &&& ~~~secMask m
          sound := x.2.sound &&& ~~~secMask m }) else x
    owner := if e.st == .x then e.owner else some core
    masks := if e.gather = 0 || e.st == .x then e.masks else addMask e.masks core m }

/-- Write ownership of a core (08 R139): a write that needs no request marks its bytes; else every other copy is invalidated and
the core's is dirty. -/
def Line.own (l : Line) (h : Home) (t core : Nat) (m : BitVec 128) (now : Nat) : Line :=
  if l.ownHit t core m then
    match l.dir? t with | some e => l.setDir t (e.write core m) | none => l
  else
    let l1 := (l.settle h).others h (some t) true
    let e := match l1.dir? t with | some e => e.endSplit | none => { st := .s }
    let d : BitVec 4 := match l1.msc with | some b => b.dirty | none => 0
    { l1.setDir t (e.transfer core m d (l.struck (some t) (some core)) (l.soundIn (some t) (some core)) now) with msc := none }

/-- What a write that allocates in no cache leaves (07 R128, 11 R218), and a line that enters P (08 R139): the home's copies and
those of the writer's own tower are invalidated and a line in E, M or X elsewhere has returned; leased copies of other towers
expire (08 R147). What the L2 of the writer's own tower tracks of the line stands, since the write is of that tower (log 57). -/
def Line.wrote (l : Line) (h : Home) (t : Option Nat) : Line :=
  let l1 := (l.settle h).others h none true
  let l2 := match t with | some t => l1.delDir t | none => l1
  { l2 with msc := none, tracks := l.tracks.filter fun x => some x.1 = t || (Store.get? l2.tracks x.1).isSome }

/-- The line's current value is brought to its home (11 R218, R227): dirty copies of every L1 and L2 go to the home and a line in
E or M elsewhere returns; where the row itself must hold it, the memory-side cache is written back too. -/
def Line.brought (l : Line) (h : Home) (toRow : Bool) : Line :=
  let l1 := (l.settle h).others h none false
  if toRow then { l1 with msc := l1.msc.map fun b => { b with dirty := 0 } } else l1

/-- The line is operated on at its home (11 R221): recalled, its copies in the home tower invalidated, and written in the
memory-side cache where a cache of the device held it, in the row where none did, or for a line of the capacity tier in the home
tower's L2. -/
def Line.homeOp (l : Line) (h : Home) (cached : Bool) (m : BitVec 128) : Line :=
  let l1 := (l.settle h).others h none true
  match h.tower with
  | none => l1
  | some t =>
    if h.msc then (if cached then l1.takeDirty h (secMask m) else l1)
    else l1.setDir t { st := .m, l2 := some { dirty := secMask m } }

/-- Every dirty copy is written back to the backing location, and the copies stay valid (10 R201). -/
def Line.cleaned (l : Line) (h : Home) : Line :=
  let l1 := l.settle h
  { l1 with
    dirs := l1.dirs.map fun x => (x.1, { x.2.clean with st := if x.2.st == .m then .e else x.2.st })
    msc := l1.msc.map fun b => { b with dirty := 0 } }

/-- The copies in the L1 of a core and in its tower's L2 are written back if dirty and removed (10 R201). -/
def Line.purge (l : Line) (h : Home) (t core : Nat) : Line :=
  let l1 := l.settle h
  match l1.dir? t with
  | none => l1
  | some e =>
    let x := e.dropL1 core
    let d : BitVec 4 := match x.l2 with | some b => b.dirty | none => 0
    { (l1.setDir t x.dropL2).takeDirty h d with tracks := Store.del l1.tracks t }

/-- The line has no copy in any cache of the device. -/
def Line.uncached (l : Line) : Bool := l.dirs.isEmpty && l.msc.isNone

/-! ### Errors in copies (28 R431) -/

/-- The caches that hold a line: the L1 of a core or the L2 of a tower, or the home's MSC. -/
def Line.holders (l : Line) : List (Option (Nat × Option Nat)) :=
  (l.dirs.flatMap fun x => (x.2.l1.map fun y => some (x.1, some y.1)) ++ (if x.2.l2.isSome then [some (x.1, none)] else [])) ++
    (if l.msc.isSome then [none] else [])

/-- The bits that one of them holds. -/
def Line.heldIn (l : Line) : Option (Nat × Option Nat) → SecBits
  | none => l.msc.getD {}
  | some (t, none) => ((l.dir? t).bind (·.l2)).getD {}
  | some (t, some c) => ((l.dir? t).bind fun e => Store.get? e.l1 c).getD {}

/-- The bits of one of them changed. -/
def Line.onHolder (l : Line) (f : SecBits → SecBits) : Option (Nat × Option Nat) → Line
  | none => { l with msc := l.msc.map f }
  | some (t, none) => match l.dir? t with | some e => { l with dirs := Store.put l.dirs t { e with l2 := e.l2.map f } } | none => l
  | some (t, some c) => match l.dir? t with
    | some e => { l with dirs := Store.put l.dirs t { e with l1 := e.l1.map fun x => if x.1 = c then (x.1, f x.2) else x } }
    | none => l

/-- A copy holds sector i dirty. -/
def Line.dirtyAt (l : Line) (i : Nat) : Bool := l.holders.any fun h => (l.heldIn h).dirty.getLsbD i

/-! ### Sizes (07 R120, R123) -/

/-- The lines that an L1 of 128 KiB holds. -/
def l1Lines : Nat := 1024
/-- MSCU of a tower. -/
def State.mscu (s : State) (t : Nat) : Nat := (vget s.tcs t 0).toNat % 16
/-- The lines that the L2 of a tower holds. -/
def State.l2Lines (s : State) (t : Nat) : Nat := (192 - 16 * s.mscu t) * 2 ^ 20 / 128
/-- The lines that the MSC of a tower holds. -/
def State.mscLines (s : State) (t : Nat) : Nat := 16 * s.mscu t * 2 ^ 20 / 128
/-- The lines that stand in a cache of a tower: the L1 of a core, or the L2. -/
def State.linesIn (s : State) (t : Nat) (core : Option Nat) : List Nat :=
  (s.lines.filter fun x => (x.2.bitsIn t core).isSome).map (·.1)
/-- The lines that stand in the MSC of a tower. -/
def State.mscIn (s : State) (t : Nat) : List Nat :=
  (s.lines.filter fun x => x.2.msc.isSome && homeOf (128 * x.1) = t).map (·.1)

end Sys2Proof.Machine
end

