-- ==== Sys2Proof/Machine/Memory.lean ====
section
/-!
DEFINITION. Physical memory: bytes and poison (07 R122), timestamps and leased copies (08 R145 to R148), the Potluck
state (08 R150 to R154), scoped copies (08 R142, R143), write-combining lines (07 R128), ordered versions (20 R344,
R345), the order-dependence detector (09 R179), and the loads, stores and atomics of an agent over them. The single
order of 09 R158 is the order of the steps.
-/
namespace Sys2Proof.Machine
open Sys2Proof

/-- Who makes an access: a group, an engine command, or an agent outside (the host, a peer, firmware, the Hamper). -/
inductive Agent where
  | group (k : GKey)
  | cmd (c : CKey)
  | ext
deriving DecidableEq, Repr

/-- The unfinished command with a key. -/
def State.cmd? (s : State) (c : CKey) : Option Cmd := s.cmds.find? fun x => x.key == c
/-- A change to the command with a key. -/
def State.onCmd (s : State) (c : CKey) (f : Cmd → Cmd) : State :=
  { s with cmds := s.cmds.map fun x => if x.key == c then f x else x }

namespace Agent
/-- The group that an access stems from. -/
def key? : Agent → Option GKey
  | .group k => some k
  | .cmd (.group k _ _) => some k
  | _ => none
/-- The core that an access stems from. -/
def core? (a : Agent) : Option Nat := a.key?.map keyCore
/-- The tower whose copies it reads. -/
def tower? (a : Agent) : Option Nat := a.core?.map towerOf
/-- The core whose L1 serves it: an engine command reads through the L2. -/
def l1? : Agent → Option Nat
  | .group k => some (keyCore k)
  | _ => none
/-- The sockets that its requests leave from: its tower, or either I/O die (01 R10). -/
def socks (a : Agent) : List Nat := match a.tower? with | some t => [t] | none => [16, 17]
end Agent

/-- A free choice (log 3). -/
def State.flip (s : State) : Bool × State := (Config.freeBit s.nonce, { s with nonce := s.nonce + 1 })

/-- A message from the agent's socket has come back with a destination error: the next request from there ends with error (01 R11,
log 65). -/
def State.strays (s : State) (a : Agent) : Bool := a.socks.any fun k => NSet.has s.astray k
/-- The request has ended with that error. -/
def State.strayed (s : State) (a : Agent) : State :=
  match a.socks.find? fun k => NSet.has s.astray k with
  | some k => { s with astray := NSet.rem s.astray k }
  | none => s

/-- A request to memory ends with error: after a destination error; and one to another device if a flit of it was lost (29 R447), or
if the other device refuses it, since it lacks the partition or has frozen this device (25 R398, R451): that is free (log 61). -/
def State.meets (s : State) (a : Agent) (pa : Nat) : Bool × State :=
  if s.strays a then (true, s.strayed a)
  else if s.isLocal pa then (false, s)
  else if 0 < s.flits then (true, { s with flits := s.flits - 1 })
  else s.flip

/-- The logical time of an agent (08 R145). -/
def State.ltOf (s : State) : Agent → Nat
  | .group k => match s.group? k with | some g => g.regs.lt.toNat | none => 0
  | .cmd c => match s.cmd? c with | some x => x.lt.toNat | none => 0
  | .ext => 0

/-- The later of two logical times. -/
def maxLt (a : Word64) (n : Nat) : Word64 := BitVec.ofNat 64 (max a.toNat n)

/-- Registers after an acquire: lt rises to the releaser's (08 R145), and so does the largest time acquired. -/
def Regs.acquire (r : Regs) (n : Nat) : Regs := { r with lt := maxLt r.lt n, acq := max r.acq n }

/-- lt rises to the timestamp of an access (08 R145); a later fence that acquires takes it up. -/
def State.raiseLt (s : State) (a : Agent) (n : Nat) : State :=
  match a with
  | .group k => s.onGroup k fun g => { g with regs := { g.regs with lt := maxLt g.regs.lt n, seen := max g.regs.seen n } }
  | .cmd c => s.onCmd c fun x => { x with lt := maxLt x.lt n }
  | .ext => s

/-- The timestamp of a group that runs speculatively or has not committed in an ordered launch. -/
def State.ordOf (s : State) (a : Agent) : Option (Nat × Ordered) :=
  match a with
  | .group k =>
    match s.group? k with
    | some g => match g.ord with | some o => if o.committed then none else some (g.id.launch, o) | none => none
    | none => none
  | _ => none

/-! ### Bytes and poison (07 R122) -/

/-- The byte at a physical address; a byte that nothing has written reads zero (log 2). -/
def State.byteAt (s : State) (pa : Nat) : Byte := Store.getD s.mem pa 0
/-- A byte written; zero bytes are not listed. -/
def Memory.put (m : Store Byte) (pa : Nat) (b : Byte) : Store Byte := if b = 0 then Store.del m pa else Store.put m pa b
/-- The canonical form of memory: addresses rising, no zero byte listed. -/
def Memory.wf (m : Store Byte) : Bool := Store.wf m && m.all fun x => x.2 != 0
/-- The sector of an address. -/
def sectorOf (pa : Nat) : Nat := pa / 32
/-- The line of an address. -/
def lineOf (pa : Nat) : Nat := pa / 128
/-- The poison that an access meets in the copy that serves it, of a core, of an engine of a tower, or of the home itself: an error
that struck that copy alone, or the line's own, but for a copy that an error in the backing location left sound (28 R431). -/
def State.badFor (s : State) (t core : Option Nat) (pa : Nat) : Bool :=
  let i := pa % 128 / 32
  let row := NSet.has s.poison (sectorOf pa)
  s.lostAt pa || match (Store.getD s.lines (lineOf pa) {}).copyOf t core with
    | some b => b.poison.getLsbD i || (row && !b.sound.getLsbD i)
    | none => row
/-- The sector that holds an address is poisoned at the line's home, or its backing location is lost. -/
def State.poisonAt (s : State) (pa : Nat) : Bool := s.badFor (s.homeIn (lineOf pa)).tower none pa

/-- Bytes written as one operation; a sector of which all 32 bytes are written loses its poison (07 R122). -/
def putAll (m : Store Byte) : List (Nat × Byte) → Store Byte
  | [] => m
  | (pa, b) :: r => putAll (Memory.put m pa b) r

/-- The sectors that a list of bytes covers whole. -/
def wholeSectors (l : List (Nat × Byte)) : List Nat :=
  let secs := (l.map fun x => sectorOf x.1).eraseDups
  secs.filter fun k => (List.range 32).all fun i => l.any fun x => x.1 = 32 * k + i

/-- Bytes put into the backing location. -/
def State.putBytes (s : State) (l : List (Nat × Byte)) : State :=
  { s with
    mem := putAll s.mem l
    poison := (wholeSectors l).foldl NSet.rem s.poison }

/-- A sector marked poisoned. -/
def State.markPoison (s : State) (pa : Nat) : State := { s with poison := NSet.add s.poison (sectorOf pa) }

/-! ### Lines, timestamps, leases (08 R145 to R148) -/

/-- The state of a line at its home. -/
def State.lineAt (s : State) (ln : Nat) : Line := Store.getD s.lines ln {}
/-- A line's state put in place. -/
def State.setLine (s : State) (ln : Nat) (l : Line) : State := { s with lines := Store.put s.lines ln l }

/-- A change to the state of a line. -/
def State.onLine (s : State) (ln : Nat) (f : Line → Line) : State := s.setLine ln (f (s.lineAt ln))

/-- The base of a home tower rises when a timestamp to be stored exceeds its reach (08 R146). -/
def State.rebase (s : State) (ln n : Nat) : State :=
  let home := homeOf (128 * ln)
  if s.isLocal (128 * ln) && vget s.bases home 0 + 2 ^ 20 ≤ n then
    { s with bases := s.bases.setIfInBounds home (n - 2 ^ 19) } else s

/-- A line swept under the base of its home: its timestamps below the base rise to it (08 R146). -/
def State.sweepLine (s : State) (ln : Nat) : State :=
  let b := vget s.bases (homeOf (128 * ln)) 0
  let l := s.lineAt ln
  if s.isLocal (128 * ln) && l.seen < b then s.setLine ln { l with wts := max l.wts b, rts := max l.rts b, seen := b } else s

/-- The leased copy that a core, or an engine of the tower, may use at a logical time: that of the L1 before that of the L2. Its
lease reaches the time, and ends at or above the base of its home (08 R146, R147). A copy of a line homed on another device is
good until it is renewed or an acquire of domain scope drops it (09 R169, log 61). -/
def State.copyFor (s : State) (t : Nat) (core : Option Nat) (lt ln : Nat) : Option Leased :=
  let good (c : Leased) : Bool := c.tower = t &&
    (!s.isLocal (128 * ln) || (lt ≤ c.rts && vget s.bases (homeOf (128 * ln)) 0 ≤ c.rts))
  let cs := (s.lineAt ln).copies.filter good
  match core.bind fun k => cs.find? fun c => c.core = some k with
  | some c => some c
  | none => cs.find? fun c => c.core.isNone

/-- The 128 bytes of a line in its backing location. -/
def State.lineData (s : State) (ln : Nat) : BitVec 1024 :=
  BitVec.ofNat 1024 (ofLeBytes ((List.range 128).map fun i => s.byteAt (128 * ln + i)))
/-- The poison bits of its four sectors. -/
def State.linePoison (s : State) (ln : Nat) : BitVec 4 :=
  BitVec.ofNat 4 (((List.range 4).map fun i => if s.poisonAt (128 * ln + 32 * i) then 2 ^ i else 0).sum)
/-- Byte i of a line's data. -/
def dataByte (d : BitVec 1024) (i : Nat) : Byte := d.extractLsb' (8 * i) 8

/-- The tower of an agent reads the line otherwise than by leased copies: it is the home, or it holds the line in E, M or X. -/
def State.direct (s : State) (t ln : Nat) : Bool := s.isLocal (128 * ln) && t = homeOf (128 * ln) || (s.lineAt ln).owns t

/-- The leased copy that gives an agent its bytes, if one does. A group of an ordered launch reads versions or memory (20 R344). -/
def State.leasedFor (s : State) (a : Agent) (ln : Nat) : Option Leased :=
  match a.tower? with
  | some t => if s.direct t ln || (s.ordOf a).isSome then none else s.copyFor t a.l1? (s.ltOf a) ln
  | none => none

/-- The lease is renewed at the home, or taken there on a miss (08 R147, R148): the copies of the agent's L1 and of its tower's L2
that the directory names take the new one. A renewal that finds wts unchanged grants the doubled lease (log 44). -/
def State.renew (s : State) (a : Agent) (t ln : Nat) : State :=
  let lt := s.ltOf a
  let l := s.lineAt ln
  let mine (c : Leased) : Bool := c.tower = t && (c.core.isNone || c.core = a.l1?)
  let lease := if l.copies.any fun c => mine c && c.wts = l.wts then min 4096 (2 * l.lease) else l.lease
  let rts := max l.rts (max lt l.wts + lease)
  let copy (c : Option Nat) : Leased :=
    { tower := t, core := c, wts := l.wts, rts := rts, data := s.lineData ln, poison := s.linePoison ln }
  let new : List Leased := match (if s.direct t ln then none else l.dir? t) with
    | some e => ((none :: (a.l1?.map some).toList).filter fun c => e.leases c).map copy
    | none => []
  let cs := (l.copies.filter fun c => !mine c) ++ new
  ((s.setLine ln { l with rts := rts, lease := lease, copies := cs }).rebase ln rts |>.sweepLine ln).raiseLt a l.wts

/-- A load that the home serves to an agent which reads the home's value: within the lease that stands there, or renewed. -/
def State.atHome (s : State) (a : Agent) (t ln : Nat) : State :=
  let l := s.lineAt ln
  if s.ltOf a ≤ l.rts then s.raiseLt a l.wts else s.renew a t ln

/-- The L1 of a core takes the leased copy that its L2 gives, with its timestamps (08 R147). -/
def State.takeL1 (s : State) (a : Agent) (t ln : Nat) (c : Leased) : State :=
  let l := s.lineAt ln
  match a.l1?, l.dir? t with
  | some k, some e =>
    if c.core.isNone && e.leases (some k) then
      s.setLine ln { l with copies := (l.copies.filter fun x => !(x.tower = t && x.core = some k)) ++ [{ c with core := some k }] }
    else s
  | _, _ => s

/-- What another device may have written meanwhile to a line homed there: whether it has is free, and so are the bytes and the
poison (09 R169, log 61). -/
def State.remoteNews (s : State) (ln : Nat) : State :=
  if s.isLocal (128 * ln) then s
  else
    let n := s.nonce
    let s1 := { s with nonce := n + 1 }
    if Config.freeBit n then
      let l := s.lineAt ln
      let bytes := (List.range 128).map fun i => (128 * ln + i, Config.remoteByte n i)
      let s2 := s1.setLine ln { l with wts := l.rts + 1, rts := l.rts + 1 }
      let s3 := { s2 with mem := putAll s2.mem bytes }
      (List.range 4).foldl (fun s i =>
        { s with poison := NSet.set s.poison (4 * ln + i) (Config.remoteByte n (128 + i) == 1) }) s3
    else s1

/-- A load of a line homed on another device: a copy of the tower may serve it; else, or by a free choice, it reads what the home
then holds (09 R169). -/
def State.touchRemote (s : State) (a : Agent) (t ln : Nat) : State :=
  let n := s.nonce
  let s1 := { s with nonce := n + 1 }
  match (if (s.ordOf a).isSome then none else s.copyFor t a.l1? 0 ln) with
  | some c => if Config.freeBit n then (s1.remoteNews ln).renew a t ln else (s1.takeL1 a t ln c).raiseLt a c.wts
  | none => (s1.remoteNews ln).renew a t ln

/-- The timestamp side of a load (08 R147, R148): a copy whose lease reaches lt, or the value itself for an agent of the home tower
or of a tower that holds the line in E or M, is used as it stands; else the lease is renewed at the home, as it is for a group of an
ordered launch, which reads memory (20 R344). -/
def State.touch (s : State) (a : Agent) (ln : Nat) : State :=
  match a.tower? with
  | none => s
  | some t =>
    if !s.isLocal (128 * ln) then s.touchRemote a t ln
    else if s.direct t ln then s.atHome a t ln
    else match s.leasedFor a ln with
      | some c => (s.takeL1 a t ln c).raiseLt a c.wts
      | none => s.renew a t ln

/-- The dirty bit of a line's frame is set (24 R384). -/
def State.markDirty (s : State) (ln : Nat) : State :=
  if s.isLocal (128 * ln) then { s with dirty := NSet.add s.dirty (128 * ln / 4096) } else s

/-- The timestamp side of a write (08 R147, R148): the write takes a timestamp above the lease end, and the frame's dirty bit is
set (24 R384). -/
def State.stamp (s : State) (a : Agent) (ln : Nat) (lt0 : Nat := 0) : State :=
  let lt := max lt0 (s.ltOf a)
  let l := s.lineAt ln
  let ts := max lt (l.rts + 1)
  let lease := if lt < l.rts + 1 then max 8 (l.lease / 2) else l.lease
  let s1 := s.setLine ln { l with wts := ts, rts := ts, lease := lease }
  (((s1.markDirty ln).rebase ln ts).sweepLine ln).raiseLt a ts

/-! ### Requests to DRAM (07 R130) -/

/-- The stamp of a request: cyc at issue plus svc.DL, where zero stands for the greatest (07 R130). -/
def stampOf (cyc : Word64) (svc : Word64) : Nat :=
  let dl := bitsNat svc.toNat 33 2
  cyc.toNat + (if dl = 0 then 2 ^ 32 - 1 else dl)

/-- The queue that serves an address: a pseudo-channel of a stack (11 R210), or after those a root port. -/
def State.dramQueue (s : State) (pa : Nat) : Option Nat :=
  if !s.isLocal pa then none
  else if isHbm pa then
    let rb := localPa pa / 1024
    some (rb % 12 * 64 + rb / 12 % 64)
  else (s.portOf (localPa pa)).map (768 + ·)

/-- The request of an agent for a line, with its class and stamp; a command's were fixed at issue, and it counts its own
miss (07 R131). -/
def State.reqFor (s : State) (a : Agent) (ln : Nat) : Option DramReq :=
  match a with
  | .group k => (s.group? k).map fun g =>
    { cls := g.svc.setWidth 2, stamp := stampOf s.cyc g.svc, line := ln, g := some k, who := (g.id.launch, g.id.lin),
      ins := g.regs.chain.seq }
  | .cmd c => (s.cmd? c).map fun x => { cls := x.cls, stamp := x.stamp, line := ln, g := none, ins := 0 }
  | .ext => none

/-- The requests that a root port holds at most (07 R126). -/
def portRoom : Nat := 2048

/-- A request arrives at a queue; one beyond the room of a root port waits in the home tower (07 R126). -/
def DramQueue.arrive (d : DramQueue) (port : Bool) (r : DramReq) : DramQueue :=
  if d.reqs.contains r || d.held.contains r then d
  else if port && portRoom ≤ d.reqs.length then { d with held := d.held ++ [r] }
  else { d with reqs := d.reqs ++ [r] }

/-- A request that a cache serves where the requester stands: it is answered at some later time (07 R131). -/
def State.sendNear (s : State) (req : Option DramReq) : State :=
  match req with
  | some r => if r.g.isNone || s.served.contains r then s else { s with served := s.served ++ [r] }
  | none => s

/-- A request that no cache of the device serves waits in the queue of its DRAM; one that a cache or another device serves is
answered at some later time (07 R130, R131). This decides when, never a value (07 R132). -/
def State.send (s : State) (req : Option DramReq) (ln : Nat) : State :=
  match req with
  | none => s
  | some r =>
    match (if (s.lineAt ln).uncached then s.dramQueue (128 * ln) else none) with
    | some q => { s with dram := Store.put s.dram q ((Store.getD s.dram q {}).arrive (768 ≤ q) r) }
    | none => s.sendNear (some r)

/-- An access to a line makes the request of its agent. -/
def State.ask (s : State) (a : Agent) (ln : Nat) : State := s.send (s.reqFor a ln) ln

/-- A request stems from the group that now stands in its slot. -/
def DramReq.of (r : DramReq) (g : Group) : Bool := r.who = (g.id.launch, g.id.lin)

/-! ### Element arithmetic of atomics and of Potluck (10 R189, 08 R150) -/

/-- The operator takes its type from the floating-point table. -/
def fnFp (fn : BitVec 4) : Bool := 7 ≤ fn
/-- The size of an element of an atomic or a contribution (10 R183). -/
def atomSize (fn : BitVec 4) (t : BitVec 3) : Nat :=
  if fnFp fn then (if t = 0 then 4 else 8) else if wideInt t then 8 else 4
/-- A signed type. -/
def signedT (t : BitVec 3) : Bool := t &&& 1 = 0
/-- x lies below y as integers of a type. -/
def intLt (t : BitVec 3) (bits x y : Nat) : Bool := if signedT t then toSigned bits x < toSigned bits y else x < y

/-- minimumNumber or maximumNumber with -0 below +0; the canonical NaN only when both are NaNs (10 R189). -/
def fpMinMax (F : Fmt) (isMax : Bool) (x y : Nat) : Nat :=
  match decodeFp F x, decodeFp F y with
  | .nan _, .nan _ => F.nanCode
  | .nan _, _ => y
  | _, .nan _ => x
  | a, b => if ltSigned a.exact b.exact == isMax then y else x

/-- The combining operator on an old value x and an operand y of a given size (10 R189). -/
def atomOp (fn : BitVec 4) (t : BitVec 3) (x y : Nat) : Nat :=
  let bits := 8 * atomSize fn t
  let F := if t = 0 then f32 else f64
  if fn = 0 then (x + y) % 2 ^ bits
  else if fn = 1 then x &&& y
  else if fn = 2 then x ||| y
  else if fn = 3 then x ^^^ y
  else if fn = 4 then (if intLt t bits y x then y else x)
  else if fn = 5 then (if intLt t bits x y then y else x)
  else if fn = 6 then y
  else if fn = 7 then (roundTo F .rne 0 (addX (decodeFp F x).exact (decodeFp F y).exact false).1).1
  else if fn = 8 then fpMinMax F false x y
  else fpMinMax F true x y

/-- The operator tag (10 R192): under ADD, AND, OR and XOR the signed and unsigned codes of a width are one. -/
def potTag (fn : BitVec 4) (t : BitVec 3) : BitVec 4 × BitVec 3 := (fn, if fn ≤ 3 then t &&& 6 else t)

/-- A value as an exact partial: FINITE, +INF, -INF or NAN, in units of 2^-1074 (08 R151). -/
def exactElem (F : Fmt) (w : Nat) : PartialElem :=
  match decodeFp F w with
  | .nan _ => { st := .nan, nz := false }
  | .inf n => { st := if n then .negInf else .posInf, nz := false }
  | .fin n m e => { sum := signedM n (m * 2 ^ (e + 1074).toNat), nz := n && m = 0 }

/-- The state of a sum of two states; opposite infinities give NAN (16 R264). -/
def joinSt : AccState → AccState → AccState
  | .nan, _ => .nan
  | _, .nan => .nan
  | .posInf, .negInf => .nan
  | .negInf, .posInf => .nan
  | .overflow, .finite => .overflow
  | .overflow, .overflow => .overflow
  | .overflow, x => x
  | .finite, x => x
  | x, _ => x

/-- A contribution as a partial element. -/
def partOf (fn : BitVec 4) (t : BitVec 3) (w : Nat) : PartialElem :=
  if fn = 7 then exactElem (if t = 0 then f32 else f64) w else { word := BitVec.ofNat 64 w }

/-- Two partial elements combined exactly. -/
def joinElem (fn : BitVec 4) (t : BitVec 3) (a b : PartialElem) : PartialElem :=
  if fn = 7 then { sum := a.sum + b.sum, st := joinSt a.st b.st, nz := a.nz && b.nz }
  else { word := BitVec.ofNat 64 (atomOp fn t a.word.toNat b.word.toNat) }

/-- The code that a merged element leaves (08 R153). -/
def elemCode (fn : BitVec 4) (t : BitVec 3) (a : PartialElem) : Nat :=
  if fn = 7 then
    let F := if t = 0 then f32 else f64
    match a.st with
    | .posInf => F.infCode false
    | .negInf => F.infCode true
    | .finite =>
      if a.sum = 0 then (if a.nz then 2 ^ (F.eb + F.mb) else 0)
      else (roundTo F .rne 0 (.num (a.sum < 0) a.sum.natAbs (-1074) false)).1
    | _ => F.nanCode
  else a.word.toNat

/-- The elements of two partials combined. -/
def joinElems (fn : BitVec 4) (t : BitVec 3) (a b : Store PartialElem) : Store PartialElem :=
  b.foldl (fun m x =>
    match Store.get? m x.1 with
    | some e => Store.put m x.1 (joinElem fn t e x.2)
    | none => Store.put m x.1 x.2) a

/-! ### The order-dependence detector (09 R179, R180) -/

/-- The identity of a writer: its launch and its linear index. -/
def State.writerId (s : State) : Agent → Option (Nat × Nat)
  | .group k => (s.group? k).map fun g => (g.id.launch, g.id.lin)
  | .cmd c =>
    match s.cmd? c, c with
    | some x, .group .. => (s.inst? x.inst).map fun i => (i.launch, x.lin)
    | _, _ => none
  | .ext => none

/-- The identity word of a writer (25 R405). -/
def State.identWord (s : State) (w : Writer) : Nat :=
  (match s.launch? w.launch with | some l => l.serial % 2 ^ 24 | none => 0) * 2 ^ 40 + w.lin % 2 ^ 32

/-- The first two writers whose masks overlap, with the overlap. -/
def overlapOf : List Writer → Option (Writer × Writer × BitVec 128)
  | [] => none
  | a :: r =>
    match r.find? fun b => a.mask &&& b.mask != 0 with
    | some b => some (a, b, a.mask &&& b.mask)
    | none => overlapOf r

/-- The five records of a detector report (09 R179); that the core of the writer which completed the overlap takes them, and that they
show RS 0, is a DESIGN CHOICE (log 57). -/
def State.report (s : State) (core ln : Nat) (w1 w2 : Nat) (m : BitVec 128) (ovf : Bool) : State :=
  let o := if ovf then 8 else 0
  ((((s.trail core 0 7 o (128 * ln)).trail core 0 7 (o + 1) (m.toNat % 2 ^ 64)).trail core 0 7 (o + 2)
    (m.toNat / 2 ^ 64)).trail core 0 7 (o + 3) w1).trail core 0 7 (o + 4) w2

/-- A tracked write, in the L2 of the writer's tower (09 R179, log 57). DESIGN CHOICE, log 57: an overflow report of which no masks
overlap names the first two recorded writers. -/
def State.detect (s : State) (a : Agent) (ln : Nat) (m : BitVec 128) : State :=
  match s.writerId a, a.core? with
  | some (la, lin), some core =>
    let l := s.lineAt ln
    let k : Track := Store.getD l.tracks (towerOf core) {}
    let known := k.writers.any fun w => w.launch = la && w.lin = lin
    let ws := if known then k.writers.map fun w => if w.launch = la && w.lin = lin then { w with mask := w.mask ||| m } else w
      else if k.writers.length < 4 then k.writers ++ [{ launch := la, lin := lin, mask := m }] else k.writers
    let ovf := k.overflow || (!known && 4 ≤ k.writers.length)
    let cleared := s.setLine ln { l with tracks := Store.del l.tracks (towerOf core) }
    match overlapOf ws with
    | some (w1, w2, x) => cleared.report core ln (s.identWord w1) (s.identWord w2) x ovf
    | none =>
      if ovf then
        let n (i : Nat) : Nat := match ws[i]? with | some w => s.identWord w | none => 0
        cleared.report core ln (n 0) (n 1) 0 true
      else s.setLine ln { l with tracks := Store.put l.tracks (towerOf core) { writers := ws } }
  | _, _ => s

/-- The windows that a recorded writer closes (09 R179). -/
def State.closeWindows (s : State) (p : Writer → Bool) : State :=
  { s with lines := s.lines.map fun x => (x.1, { x.2 with tracks := x.2.tracks.filter fun k => !k.2.writers.any p }) }

/-- The mask of the bytes of a line that a list of writes names. -/
def maskOf (l : List (Nat × Byte)) : BitVec 128 :=
  l.foldl (fun m x => m ||| (1#128 <<< (x.1 % 128))) 0

/-! ### Room in the caches (07 R120, R123) -/

/-- A cache that holds more lines than it has room for gives one up at the next step, by a free choice (07 R120). -/
def State.spill (s : State) (t : Nat) (core : Nat) (l2 : Bool) : State :=
  let here := s.linesIn t (if l2 then none else some core)
  if here.length ≤ (if l2 then s.l2Lines t else l1Lines) then s
  else
    let n := s.nonce
    let ln := (here[Config.victim n % here.length]?).getD 0
    let at_ : CoreId := ⟨BitVec.ofNat 5 (coreX core), BitVec.ofNat 4 (coreY core)⟩
    { s with nonce := n + 1, agenda := s.agenda ++ [.evictionNotice (128 * ln) at_ l2] }

/-- A full MSC gives up lines, which go back to their rows, by a free choice. -/
def State.spillMsc (s : State) (t : Nat) : State :=
  let here := s.mscIn t
  if here.length ≤ s.mscLines t then s
  else
    let n := s.nonce
    let ln := (here[Config.victim n % here.length]?).getD 0
    { s.setLine ln { s.lineAt ln with msc := none } with nonce := n + 1 }

/-- The first core of a tower. -/
def towerCore (t : Nat) : Nat := coreNo (t % 2 * 16) (t / 2 * 8)

/-- The L2 and the MSC of a line's home are kept within their room. -/
def State.spillHome (s : State) (ln : Nat) : State :=
  match (s.homeIn ln).tower with | some h => (s.spill h (towerCore h) true).spillMsc h | none => s

/-- The caches of a core and those of the line's home are kept within their room. -/
def State.spillAll (s : State) (core ln : Nat) : State :=
  ((s.spill (towerOf core) core false).spill (towerOf core) core true).spillHome ln

/-! ### The merge of a P line (08 R153) -/

/-- The bytes of an element from an offset of a line. -/
def elemBytes (ln off size code : Nat) : List (Nat × Byte) :=
  ((leBytes size code).zipIdx).map fun x => (128 * ln + off + x.2, x.1)

/-- The bytes that the merge of a P line writes: every partial combined, added to memory, rounded once (08 R153). -/
def State.mergedBytes (s : State) (ln : Nat) : List (Nat × Byte) :=
  match (s.lineAt ln).pot with
  | none => []
  | some p =>
    let size := atomSize p.fn p.t
    let elems := p.parts.foldl (fun m q => joinElems p.fn p.t m q.elems) []
    elems.flatMap fun x =>
      let old := ofLeBytes ((List.range size).map fun i => s.byteAt (128 * ln + x.1 + i))
      elemBytes ln x.1 size (elemCode p.fn p.t (joinElem p.fn p.t (partOf p.fn p.t old) x.2))

/-- The value of a byte, partials included (08 R136). -/
def State.valueAt (s : State) (pa : Nat) : Byte :=
  match (s.mergedBytes (lineOf pa)).find? fun x => x.1 = pa with
  | some x => x.2
  | none => s.byteAt pa

/-- A P line is merged (08 R153): its value is written with one timestamp and the line leaves P for M at the home; its sectors
keep their poison (28 R434). -/
def State.mergeLine (s : State) (a : Agent) (ln : Nat) : State :=
  let l := s.lineAt ln
  match l.pot with
  | none => s
  | some p =>
    let bytes := s.mergedBytes ln
    let l1 := { l with pot := none }
    let l2 := match (s.homeIn ln).tower with
      | some t => l1.setDir t { st := .m, l2 := some { dirty := secMask (maskOf bytes) } }
      | none => l1
    let s1 := (s.setLine ln l2).stamp .ext ln p.lt.toNat
    let s2 := { s1 with mem := putAll s1.mem bytes }
    let s3 := s2.spillHome ln
    let core := match a.core? with
      | some c => some c
      | none => match s.partOfPa (128 * ln) with
        | some q => (s.part? q).map fun x => coreNo x.rx x.ry
        | none => none
    match core with
    | some c => s3.trail c 0 5 (p.fn.toNat * 8 + p.t.toNat) (128 * ln)
    | none => s3

/-! ### Requests to the directories (08 R139, log 44) -/

/-- A load miss of a core: the copy stands in its tower's L2 and, if asked, in its L1. That a line which nothing holds is given
in E is free (log 44); a grant of E sets the frame's dirty bit (24 R384). -/
def State.missLine (s : State) (ln core : Nat) (toL1 : Bool) : State :=
  let n := s.nonce
  let l := (s.lineAt ln).fill (s.homeIn ln) (towerOf core) core toL1 (Config.freeBit n)
  let s1 := { s with nonce := n + 1 }.setLine ln l
  let s2 := if (l.dir? (towerOf core)).any fun e => e.st == .e then s1.markDirty ln else s1
  s2.spillAll core ln

/-- The copy that the tower of a group holds in S has no lease that reaches the group's logical time: its renewal is a request to the
home (08 R147, R148). -/
def State.expiredFor (s : State) (a : Agent) (ln : Nat) : Bool :=
  match a.tower? with
  | some t => s.isLocal (128 * ln) && !s.direct t ln && (s.leasedFor a ln).isNone
  | none => false

/-- The directory side of a load of some bytes of a line: a group's copy serves it, or it misses; a load in S and an engine
allocate nowhere (07 R127, R128). -/
def State.reqLoad (s : State) (a : Agent) (nt : Bool) (ln : Nat) (m : BitVec 128) : State :=
  let h := s.homeIn ln
  match a with
  | .group k =>
    let c := keyCore k
    if (s.lineAt ln).hit (towerOf c) c m && !s.expiredFor a ln then s
    else if nt then (s.setLine ln ((s.lineAt ln).borrow h (towerOf c))).spillHome ln
    else s.missLine ln c true
  | _ =>
    let l := s.lineAt ln
    let l1 := (l.settle h).others h none false
    (s.setLine ln (match a.tower? with | some t => l1.borrow h t | none => l1)).spillHome ln

/-- The sectors that a writer dirties in the copy that serves it are the line's from now on: one that an error has struck there
carries the error on, and one that is sound there replaces what the backing location lost (28 R431). -/
def State.carryPoison (s : State) (a : Agent) (ln : Nat) (m : BitVec 128) : State :=
  let x := (s.lineAt ln).struck a.tower? a.l1? &&& secMask m
  let y := (s.lineAt ln).soundIn a.tower? a.l1? &&& secMask m
  if x = 0 && y = 0 then s
  else (List.range 4).foldl (fun s i =>
    if x.getLsbD i then s.markPoison (128 * ln + 32 * i)
    else if y.getLsbD i then { s with poison := NSet.rem s.poison (4 * ln + i) }
    else s) s

/-- The directory side of a write: a group's core takes write ownership of a line of this device; a write that allocates nowhere
invalidates. -/
def State.reqWrite (s : State) (a : Agent) (ln : Nat) (m : BitVec 128) (alloc : Bool) : State :=
  let h := s.homeIn ln
  let l := s.lineAt ln
  match alloc && h.tower.isSome, a with
  | true, .group k =>
    let c := keyCore k
    ((s.carryPoison a ln m).setLine ln (l.own h (towerOf c) c m s.cyc.toNat)).spillAll c ln
  | _, _ => s.setLine ln (l.wrote h a.tower?)

/-! ### Contributions (08 R150 to R154) -/

/-- The partials at a location, over all lines: the line and the order of each. -/
def State.partsAt (s : State) (loc : PartLoc) : List (Nat × Nat) :=
  s.lines.flatMap fun x =>
    match x.2.pot with
    | some p => (p.parts.filter fun q => q.loc = loc).map fun q => (x.1, q.order)
    | none => []

/-- The pair with the least second number. -/
def oldestOf : List (Nat × Nat) → Option (Nat × Nat)
  | [] => none
  | x :: r => match oldestOf r with
    | some y => some (if y.2 < x.2 then y else x)
    | none => some x

/-- The elements at one location of a line joined with others; a new partial takes its order. -/
def addPart (fn : BitVec 4) (t : BitVec 3) (loc : PartLoc) (order : Nat) (e : Store PartialElem) :
    List Partial → List Partial
  | [] => [{ loc := loc, order := order, elems := e }]
  | q :: r =>
    if q.loc = loc then { q with elems := joinElems fn t q.elems e } :: r
    else q :: addPart fn t loc order e r

/-- The partial of a line at one location moves to another, combined exactly (08 R151). -/
def State.movePart (s : State) (ln : Nat) (src dst : PartLoc) : State :=
  let l := s.lineAt ln
  match l.pot with
  | none => s
  | some p =>
    match p.parts.find? fun q => q.loc = src with
    | none => s
    | some q =>
      let rest := p.parts.filter fun q => q.loc != src
      { s.setLine ln { l with pot := some { p with parts := addPart p.fn p.t dst s.order q.elems rest } } with
        order := s.order + 1 }

/-- Room for one more partial in a tower's L2, whose 4,096 entries give way to the home, oldest first. -/
def State.roomL2 (s : State) (t ln : Nat) : State :=
  let at_ := s.partsAt (.l2 t)
  if at_.any fun x => x.1 = ln then s
  else if 4096 ≤ at_.length then
    match oldestOf at_ with
    | some (o, _) => s.movePart o (.l2 t) .home
    | none => s
  else s

/-- Room for one more partial in an L1, whose 16 entries give way to the tower's L2, oldest first. -/
def State.roomL1 (s : State) (c ln : Nat) : State :=
  let at_ := s.partsAt (.l1 c)
  if at_.any fun x => x.1 = ln then s
  else if 16 ≤ at_.length then
    match oldestOf at_ with
    | some (o, _) => (s.roomL2 (towerOf c) o).movePart o (.l1 c) (.l2 (towerOf c))
    | none => s
  else s

/-! ### Writes at the home -/

/-- One write of an agent to bytes of one sector, as one operation in the single order: a P line is merged, the directories
answer, the write takes its timestamp, at or above `lt0`, the bytes stand at the home, and the detector sees a write that it tracks.
`alloc` is false for a write that allocates in no cache, and `req` is the request of one whose class and stamp were fixed before. -/
def State.performOp (s : State) (a : Agent) (l : List (Nat × Byte)) (tracked : Bool := true) (alloc : Bool := true)
    (req : Option DramReq := none) (lt0 : Nat := 0) : State :=
  match l with
  | [] => s
  | (pa, _) :: _ =>
    let ln := lineOf pa
    let s1 := s.send (match req with | some r => some r | none => s.reqFor a ln) ln
    let s2 := (((s1.mergeLine a ln).reqWrite a ln (maskOf l) alloc).stamp a ln lt0).putBytes l
    if tracked then s2.detect a ln (maskOf l) else s2

/-- A write of an agent: lost where its location cannot be reached (29 R448) or its request ends with error, else performed. -/
def State.writeOp (s : State) (a : Agent) (l : List (Nat × Byte)) (tracked : Bool := true) (alloc : Bool := true)
    (req : Option DramReq := none) (lt0 : Nat := 0) : State :=
  match l with
  | [] => s
  | (pa, _) :: _ =>
    if s.lostAt pa then s
    else match s.meets a pa with
    | (true, s1) => s1
    | (false, s1) => s1.performOp a l tracked alloc req lt0

/-- Bytes grouped by sector, sectors in the order of their first byte. -/
def bySector (l : List (Nat × Byte)) : List (List (Nat × Byte)) :=
  ((l.map fun x => sectorOf x.1).eraseDups).map fun k => l.filter fun x => sectorOf x.1 = k

/-- Writes to several sectors, one operation each. -/
def State.writeSectors (s : State) (a : Agent) (l : List (Nat × Byte)) (tracked : Bool := true) (alloc : Bool := true)
    (req : Option DramReq := none) (lt0 : Nat := 0) : State :=
  (bySector l).foldl (fun s x => s.writeOp a x tracked alloc req lt0) s

/-! ### Scoped copies (08 R142, R143) -/

/-- The masked bytes of a line's data. -/
def maskedBytes (ln : Nat) (d : BitVec 1024) (m : BitVec 128) : List (Nat × Byte) :=
  ((List.range 128).filter fun i => m.getLsbD i).map fun i => (128 * ln + i, dataByte d i)

/-- The agent that a drain stands for: the group, or the last group of a cohort's instance still there whose atomics the copy
holds. -/
def State.copyAgent (s : State) (c : CCopy) : Agent :=
  match c.owner with
  | .group g => .group g
  | .cohort i => match c.users.reverse.find? fun g => (s.group? g).any fun x => x.id.inst = i with
    | some g => .group g
    | none => .ext

/-- A copy drains: its masked bytes are written as a store of its owner, for a release or an access the group that makes it
(08 R143), and its poisoned sectors as poison. -/
def State.drainCopy (s : State) (by_ : Option GKey) (c : CCopy) : State :=
  let a := match by_ with | some k => .group k | none => s.copyAgent c
  let s1 := s.raiseLt a c.lt.toNat
  let s2 := s1.writeSectors a (maskedBytes c.line c.data c.mask) true true none c.lt.toNat
  (List.range 4).foldl (fun s i =>
    if c.poison.getLsbD i && !s.lostAt (128 * c.line) then s.markPoison (128 * c.line + 32 * i) else s) s2

/-- The copies that satisfy a test drain, one after another, and are removed. -/
def State.drainWhere (s : State) (p : CCopy → Bool) (by_ : Option GKey := none) : State :=
  (s.ccopies.filter p).foldl (fun s c => s.drainCopy by_ c) { s with ccopies := s.ccopies.filter fun c => !p c }

/-- The copy belongs to the group or to its cohort instance. -/
def CCopy.ownedBy (c : CCopy) (k : GKey) (inst : Nat) : Bool := c.owner = .group k || c.owner = .cohort inst

/-- The group or its cohort holds a copy of the line. -/
def State.holdsCopy (s : State) (k : GKey) (ln : Nat) : Bool :=
  match s.group? k with
  | some g => s.ccopies.any fun c => c.line = ln && c.ownedBy k g.id.inst
  | none => false

/-- An access of device scope by a group drains its copies of the line first (08 R142). -/
def State.drainOwn (s : State) (a : Agent) (ln : Nat) : State :=
  match a with
  | .group k =>
    match s.group? k with
    | some g => if s.holdsCopy k ln then s.drainWhere (fun c => c.line = ln && c.ownedBy k g.id.inst) (some k) else s
    | none => s
  | _ => s

/-! ### Stores to memory homed on another device (09 R169, log 61) -/

/-- The home performs the waiting stores that satisfy a test, in their order. -/
def State.deliverOut (s : State) (p : OutWrite → Bool) : State :=
  (s.outbox.filter p).foldl (fun s o => s.writeOp (.group o.g) o.bytes o.tracked o.alloc o.req)
    { s with outbox := s.outbox.filter fun o => !p o }

/-- The waiting store names a line. -/
def OutWrite.line (o : OutWrite) : Nat := match o.bytes with | (pa, _) :: _ => lineOf pa | [] => 0

/-- A group's accesses to one location keep its program order: its own stores to the line reach the home first. -/
def State.ownOut (s : State) (a : Agent) (ln : Nat) : State :=
  match a with
  | .group k => if s.outbox.any fun o => o.g = k && o.line = ln then s.deliverOut fun o => o.g = k && o.line = ln else s
  | _ => s

/-- An acquire of domain scope: the group's tower keeps no copy of a line homed on another device (09 R169). -/
def State.dropRemote (s : State) (k : GKey) : State :=
  let t := towerOf (keyCore k)
  { s with lines := s.lines.map fun x =>
      if s.isLocal (128 * x.1) then x else (x.1, { x.2 with copies := x.2.copies.filter fun c => c.tower != t }) }

/-! ### Contributions (08 R150 to R154) -/

/-- One contribution of a word to an element (08 R151, R152, R154): under the tag of a P line it joins a partial; else
the line is merged first and opens P under the new tag. Its agent's logical time rises above every lease on the line, so that what
follows it in the single order sees it (09 R158, log 44). Scoped copies of other owners stand beside P (log 9). A contribution to a
location that cannot be reached is lost, and so is one whose request ends with error. -/
def State.contribute (s00 : State) (a : Agent) (fn : BitVec 4) (t : BitVec 3) (pa w : Nat) : State :=
  if s00.lostAt pa then s00
  else match s00.meets a pa with
  | (true, s1) => s1
  | (false, s) =>
    let ln := lineOf pa
    let (fn', t') := potTag fn t
    let s0 := (s.drainOwn a ln).ownOut a ln
    let s1 := match (s0.lineAt ln).pot with
      | some p => if p.fn = fn' && p.t = t' then s0 else s0.mergeLine a ln
      | none => s0
    let s2 := if (s1.lineAt ln).pot.isNone then (s1.ask a ln).setLine ln ((s1.lineAt ln).wrote (s1.homeIn ln) a.tower?) else s1
    let loc : PartLoc :=
      if !s.isLocal pa then .home
      else match a.core? with
        | none => .home
        | some c => if fn = 7 && t = 1 then .l2 (towerOf c) else .l1 c
    let s3 := match loc with
      | .l1 c => s2.roomL1 c ln
      | .l2 tw => s2.roomL2 tw ln
      | .home => s2
    let s4 := s3.raiseLt a ((s3.lineAt ln).rts + 1)
    let l := s4.lineAt ln
    let p : Potluck := match l.pot with | some p => p | none => { fn := fn', t := t' }
    let e : Store PartialElem := [(pa % 128, partOf fn t w)]
    { s4.setLine ln { l with
        pot := some { p with parts := addPart fn' t' loc s4.order e p.parts, lt := maxLt p.lt (s4.ltOf a) } } with
      order := s4.order + 1 }

/-! ### Ordered versions (20 R344, R345) -/

/-- A group is the oldest uncommitted of its ordered launch: its linear index is the number of groups of its launch
that have committed. -/
def State.isOldest (s : State) (la : Nat) (o : Ordered) : Bool :=
  match s.launch? la with
  | some l => o.ts = l.tsbase * 2 ^ 20 + l.committed
  | none => true

/-- The versions of a line that a timestamp sees, the newest first; of one group the later first. -/
def State.versionsFor (s : State) (la ts ln : Nat) : List Version :=
  ((s.versions.filter fun v => v.launch = la && v.line = ln && v.ts ≤ ts).reverse).mergeSort fun a b => b.ts ≤ a.ts

/-- The byte that the newest version holding it gives. -/
def versionByte : List Version → Nat → Option Byte
  | [], _ => none
  | v :: r, i => if v.mask.getLsbD i then some (dataByte v.data i) else versionByte r i

/-- A line enters the read set of a speculative group. -/
def State.markRead (s : State) (a : Agent) (ln : Nat) : State :=
  match a, s.ordOf a with
  | .group k, some (la, o) =>
    let src := (s.versionsFor la o.ts ln).head?.map (·.ts)
    if o.reads.any fun r => r.line = ln then
      s.onGroup k fun g => { g with ord := some { o with
        reads := o.reads.map fun r => if r.line = ln then
          { r with src := if r.src = src then src else (match r.src, src with | some x, some y => some (min x y) | _, _ => none) }
          else r } }
    else s.onGroup k fun g => { g with ord := some { o with reads := o.reads ++ [{ line := ln, src := src }] } }
  | _, _ => s

/-- The state of R43 for a group that restarts (20 R345); its logical time does not decrease (08 R145), what its supervisor has
asked of it stands, its write-combining lines are discarded, and its arrivals in open barrier phases are taken back. -/
def State.restart (s : State) (k : GKey) (g : Group) (o : Ordered) : State :=
  match s.launch? g.id.launch with
  | none => s
  | some l =>
    let g1 := { freshGroup g.id l.segs l.prio l.deadline (maxLt g.regs.lt s.floor.toNat) (some { ts := o.ts }) with
      wantKill := g.wantKill, wantFreeze := g.wantFreeze, wantPreempt := g.wantPreempt, preempted := g.preempted,
      frozen := g.frozen, xpc := if g.frozen.isSome then g.id.entry else 0, kids := g.kids, ticked := g.ticked }
    ({ s with wc := s.wc.filter fun w => w.g != k }.setGroup k g1).onInst g.id.inst fun i =>
      let pos := g.id.cy * i.width + g.id.cx
      let back (b : Barrier) : Barrier :=
        if NSet.has b.arrived pos then { b with arrived := NSet.rem b.arrived pos, arr := b.arr - 1 } else b
      { i with pads := Store.put i.pads pos {}, bars := i.bars.map back }

/-- The groups with given timestamps are aborted, with every group that read one of their versions: versions and read
sets are discarded and the groups restart. -/
def State.abort (s : State) (la : Nat) : Nat → List Nat → State
  | 0, _ => s
  | _, [] => s
  | n + 1, ts =>
    let isHit (g : Group) : Bool := match g.ord with
      | some o => g.id.launch = la && !o.committed && !g.killed && ts.contains o.ts
      | none => false
    let s1 := (s.allGroups.filter fun x => isHit x.2).foldl (fun s x =>
      match x.2.ord with | some o => s.restart x.1 x.2 o | none => s)
      { s with versions := s.versions.filter fun v => !(v.launch = la && ts.contains v.ts) }
    let next := (s1.allGroups.filterMap fun x =>
      match x.2.ord with
      | some o =>
        if x.2.id.launch = la && !o.committed && !x.2.killed && o.reads.any fun r => match r.src with | some t => ts.contains t | none => false
        then some o.ts else none
      | none => none)
    s1.abort la n next

/-- A write of a line under a timestamp aborts the later groups whose read of it did not see this write or a later
version (20 R345). -/
def State.abortReaders (s : State) (la ts ln : Nat) : State :=
  let hit := s.allGroups.filterMap fun x =>
    match x.2.ord with
    | some o =>
      if x.2.id.launch = la && !o.committed && !x.2.killed && ts < o.ts && o.reads.any fun r =>
        r.line = ln && (match r.src with | some t => t < ts | none => true)
      then some o.ts else none
    | none => none
  if hit.isEmpty then s else s.abort la (s.groups.length + 1) hit

/-- A byte put into a line's data. -/
def putByte (d : BitVec 1024) (i : Nat) (b : Byte) : BitVec 1024 :=
  (d &&& ~~~(BitVec.ofNat 1024 0xFF <<< (8 * i))) ||| (b.setWidth 1024 <<< (8 * i))
/-- Bytes of one line put over its data. -/
def putOver (l : List (Nat × Byte)) (d : BitVec 1024) : BitVec 1024 := l.foldl (fun d x => putByte d (x.1 % 128) x.2) d

/-- The versions of a timestamp enter the single order as stores of their group, in its program order (20 R345). -/
def State.flushVersions (s : State) (a : Agent) (la ts : Nat) : State :=
  (s.versions.filter fun v => v.launch = la && v.ts = ts).foldl
    (fun s v => s.writeSectors a (maskedBytes v.line v.data v.mask) v.tracked v.alloc v.req)
    { s with versions := s.versions.filter fun v => !(v.launch = la && v.ts = ts) }

/-- The lines of which a group keeps versions. -/
def State.versionLines (s : State) (la ts : Nat) : List Nat :=
  ((s.versions.filter fun v => v.launch = la && v.ts = ts).map (·.line)).eraseDups

/-! ### Loads and stores of an agent -/

/-- The bytes of a line from an address. -/
def spanMask (pa n : Nat) : BitVec 128 := BitVec.ofNat 128 ((2 ^ n - 1) * 2 ^ (pa % 128))

/-- What a load of n bytes does before its bytes are read: the line's P state, the agent's scoped copies and its own waiting stores
are settled, the directory and the lease answer (08 R139, R147), and a speculative group notes the line. -/
def State.loadLine (s : State) (a : Agent) (nt : Bool) (pa n : Nat) : State :=
  let ln := lineOf pa
  let s1 := (((s.ask a ln).mergeLine a ln).drainOwn a ln).ownOut a ln
  ((s1.reqLoad a nt ln (spanMask pa n)).touch a ln).markRead a ln

/-- Bytes of a line that a load ahead of a renewal would change something by reading: a merge, a drain, a store on its way. Such a
load waits, since no effect of a discarded load may be seen (08 R149). -/
def State.restless (s : State) (k : GKey) (ln : Nat) : Bool :=
  (s.lineAt ln).pot.isSome || s.holdsCopy k ln || s.outbox.any fun o => o.g = k && o.line = ln

/-- The byte of a group's own write-combining line, for a load in S (07 R128). -/
def State.ownWc (s : State) (a : Agent) (nt : Bool) (pa : Nat) : Option Byte :=
  match nt, a with
  | true, .group k => match s.wc.find? fun w => w.g = k && w.line = lineOf pa with
    | some w => if w.mask.getLsbD (pa % 128) then some (dataByte w.data (pa % 128)) else none
    | none => none
  | _, _ => none

/-- The byte that an agent sees at an address: the newest version for a group of an ordered launch, its own
write-combining line for a load in S, the leased copy of its tower, else memory. -/
def State.seeByte (s : State) (a : Agent) (nt : Bool) (pa : Nat) : Byte :=
  let ln := lineOf pa
  let i := pa % 128
  let base : Byte := match s.leasedFor a ln with | some c => dataByte c.data i | none => s.byteAt pa
  match s.ownWc a nt pa with
  | some b => b
  | none =>
    match s.ordOf a with
    | some (la, o) => match versionByte (s.versionsFor la o.ts ln) i with | some b => b | none => base
    | none => base

/-- The poison that an agent sees at an address: of the line, or of the copy that serves it alone; a sector that a version covers
whole carries none. -/
def State.seePoison (s : State) (a : Agent) (pa : Nat) : Bool :=
  let ln := lineOf pa
  let base : Bool := match s.leasedFor a ln with
    | some c => c.poison.getLsbD (pa % 128 / 32) || s.lostAt pa || ((s.lineAt ln).struck a.tower? a.l1?).getLsbD (pa % 128 / 32)
    | none => s.badFor a.tower? a.l1? pa
  base && match s.ordOf a with
    | some (la, o) =>
      let vs := s.versionsFor la o.ts ln
      !((List.range 32).all fun i => (versionByte vs (pa % 128 / 32 * 32 + i)).isSome)
    | none => true

/-- The bytes that an agent sees from an address. -/
def State.seeBytes (s : State) (a : Agent) (nt : Bool) (pa n : Nat) : List Byte :=
  (List.range n).map fun i => s.seeByte a nt (pa + i)

/-- A load of n bytes within one sector: the bytes, or none where the sector is poisoned or the request ends with error. -/
def State.loadBytes (s : State) (a : Agent) (nt : Bool) (pa n : Nat) : Option (List Byte) × State :=
  match s.meets a pa with
  | (true, s1) => (none, s1)
  | (false, s0) =>
    let s1 := s0.loadLine a nt pa n
    (if s1.seePoison a pa then none else some (s1.seeBytes a nt pa n), s1)

/-- A plain store to bytes of one sector, as one operation: a version for a speculative group, a store on its way to another
device's home, else a write at the home; later groups of an ordered launch that read the line too early are aborted. -/
def State.storeBytes (s : State) (a : Agent) (l : List (Nat × Byte)) (tracked : Bool := true) (alloc : Bool := true)
    (req : Option DramReq := none) : State :=
  match l with
  | [] => s
  | (pa, _) :: _ =>
    let ln := lineOf pa
    let s1 := s.drainOwn a ln
    let req := match req with | some r => some r | none => s1.reqFor a ln
    match s1.ordOf a with
    | some (la, o) =>
      if s1.isOldest la o then ((s1.flushVersions a la o.ts).writeOp a l tracked alloc req).abortReaders la o.ts ln
      else
        let v : Version := { launch := la, ts := o.ts, line := ln, data := putOver l 0, mask := maskOf l, tracked := tracked,
                             alloc := alloc, req := req }
        { s1 with versions := s1.versions ++ [v] }.abortReaders la o.ts ln
    | none =>
      match a with
      | .group k =>
        if s1.isLocal pa then s1.writeOp a l tracked alloc req
        else { s1 with outbox := s1.outbox ++ [{ g := k, bytes := l, tracked := tracked, alloc := alloc, req := req }] }
      | _ => s1.writeOp a l tracked alloc req

/-! ### Write-combining (07 R128) -/

/-- A buffered line leaves for its home, sector by sector, with the class and stamp of its buffering (log 61). -/
def State.departLine (s : State) (w : WcLine) : State :=
  let s1 := { s with wc := s.wc.filter fun x => !(x.g = w.g && x.line = w.line) }
  let req := (s1.reqFor (.group w.g) w.line).map fun r => { r with cls := w.cls, stamp := w.stamp }
  (bySector (maskedBytes w.line w.data w.mask)).foldl (fun s l => s.storeBytes (.group w.g) l true false req) s1

/-- The buffered lines that satisfy a test leave, the earliest allocated first. -/
def State.departWhere (s : State) (p : WcLine → Bool) : State := (s.wc.filter p).foldl State.departLine s

/-- A store in space S: the line of another group leaves first, a ninth line sends the earliest away, and a line all of
whose bytes are written leaves. -/
def State.streamStore (s : State) (k : GKey) (l : List (Nat × Byte)) : State :=
  match l with
  | [] => s
  | (pa, _) :: _ =>
    let ln := lineOf pa
    let s0 := s.drainOwn (.group k) ln
    let mine (w : WcLine) : Bool := w.g = k && w.line = ln
    let s1 := s0.departWhere fun w => w.line = ln && keyCore w.g = keyCore k && w.g != k
    let here := s1.wc.filter fun w => keyCore w.g = keyCore k
    let s2 :=
      if s1.wc.any mine then s1
      else
        let s1' := match here with
          | w :: _ => if 8 ≤ here.length then s1.departLine w else s1
          | [] => s1
        let (cls, stamp) := match s.reqFor (.group k) ln with | some r => (r.cls, r.stamp) | none => (0, 0)
        { s1' with wc := s1'.wc ++ [{ g := k, line := ln, data := 0, mask := 0, cls := cls, stamp := stamp }] }
    let fill (w : WcLine) : WcLine :=
      if mine w then { w with data := putOver l w.data, mask := w.mask ||| maskOf l } else w
    { s2 with wc := s2.wc.map fill }.departWhere fun w => mine w && w.mask = BitVec.allOnes 128

/-! ### Atomics (10 R190, R191) -/

/-- What an atomic does to the value it reads: the new value, or none where nothing is written. -/
abbrev AtomF := Nat → Option Nat

/-- The bytes of a number from an address. -/
def numBytes (pa size w : Nat) : List (Nat × Byte) := ((leBytes size w).zipIdx).map fun x => (pa + x.2, x.1)

/-- A write at the home slice leaves its value there (11 R221). -/
def State.homeSlice (s : State) (ln : Nat) (cached : Bool) (m : BitVec 128) : State :=
  (s.onLine ln fun l => { l.homeOp (s.homeIn ln) cached m with placed := false }).spillHome ln

/-- An atomic performed at the line of device scope or wider: with write ownership, or at the home slice where the contention
predictor has placed it (09 R162, 11 R221). The first result is the old value, none where the read half found poison: the sector is
then marked poisoned; a request that ends with error gives none too. -/
def State.atomicHome (s : State) (a : Agent) (pa size : Nat) (f : AtomF) (tracked : Bool) : Option Nat × State :=
  let ln := lineOf pa
  match s.meets a pa with
  | (true, s1) => (none, s1)
  | (false, s00) =>
  let s0 := (((s00.ask a ln).mergeLine a ln).drainOwn a ln).ownOut a ln
  match s0.ordOf a with
  | some _ =>
    let s2 := s0.loadLine a false pa size
    if s2.seePoison a pa then (none, if s2.lostAt pa then s2 else s2.markPoison pa)
    else
      let x := ofLeBytes (s2.seeBytes a false pa size)
      match f x with
      | some y => (some x, s2.storeBytes a (numBytes pa size y) tracked)
      | none => (some x, s2)
  | none =>
    let s1 := s0.remoteNews ln
    let l := s1.lineAt ln
    if s1.badFor a.tower? a.l1? pa then
      (none, if s1.lostAt pa then s1 else s1.markPoison pa)
    else
      let x := ofLeBytes ((List.range size).map fun i => s1.byteAt (pa + i))
      match f x with
      | some y =>
        let s2 := s1.performOp a (numBytes pa size y) tracked (!l.placed)
        (some x, if l.placed then s2.homeSlice ln (!l.uncached) (spanMask pa size) else s2)
      | none =>
        let s2 := s1.reqLoad a true ln (spanMask pa size)
        (some x, match a.tower? with | some t => s2.atHome a t ln | none => s2)

/-- Bytes put over a copy. -/
def CCopy.write (c : CCopy) (l : List (Nat × Byte)) (k : GKey) (lt : Nat) : CCopy :=
  { c with
    data := putOver l c.data
    mask := c.mask ||| maskOf l
    users := if c.users.contains k then c.users else c.users ++ [k]
    lt := maxLt c.lt lt }

/-- A group's copy of a line combined into the cohort's copy of it (09 R164). -/
def CCopy.absorb (c d : CCopy) (k : GKey) : CCopy :=
  { (c.write (maskedBytes d.line d.data d.mask) k d.lt.toNat) with poison := c.poison ||| d.poison, vas := c.vas ++ d.vas }

/-- The copies with owner and line. -/
def isCopy (o : CowOwner) (ln : Nat) (c : CCopy) : Bool := c.owner = o && c.line = ln

/-- A scoped copy is made from a device-scope read of the line, after the merge of a P line; the main state stands beside it (08 R139,
R142). An atomic that a standing copy serves makes its request there (07 R131). -/
def State.fillCopy (s : State) (k : GKey) (o : CowOwner) (pa : Nat) : State :=
  let ln := lineOf pa
  let s0 := s.mergeLine (.group k) ln
  if s0.ccopies.any (isCopy o ln) then s0.sendNear (s0.reqFor (.group k) ln)
  else
    let s1 := ((s0.ask (.group k) ln).ownOut (.group k) ln).touch (.group k) ln
    let d := BitVec.ofNat 1024 (ofLeBytes ((List.range 128).map fun i => s1.seeByte (.group k) false (128 * ln + i)))
    let p := BitVec.ofNat 4 (((List.range 4).map fun i => if s1.seePoison (.group k) (128 * ln + 32 * i) then 2 ^ i else 0).sum)
    { s1 with ccopies := s1.ccopies ++ [{ owner := o, line := ln, data := d, poison := p }] }

/-- An atomic of group or cohort scope on its owner's copy (08 R142, 09 R166): a group-scope atomic uses the cohort's
copy where one stands, and a cohort-scope atomic takes the group's own copy into the cohort's (log 9). Its lt rises to that of
the atomics that the copy holds, of which a cohort's other groups may have released some (08 R145, log 44). -/
def State.atomicScoped (s : State) (k : GKey) (inst : Nat) (cohort : Bool) (pa size : Nat) (f : AtomF) :
    Option Nat × State :=
  let ln := lineOf pa
  let o : CowOwner := if cohort || s.ccopies.any (isCopy (.cohort inst) ln) then .cohort inst else .group k
  match (if s.ccopies.any (isCopy o ln) then (false, s) else s.meets (.group k) pa) with
  | (true, s1) => (none, s1)
  | (false, s0) =>
  let s1 := s0.fillCopy k o pa
  let s2 := match o, s1.ccopies.find? (isCopy (.group k) ln) with
    | .cohort _, some d =>
      let into (c : CCopy) : CCopy := if isCopy o ln c then c.absorb d k else c
      { s1 with ccopies := (s1.ccopies.filter fun c => !isCopy (.group k) ln c).map into }
    | _, _ => s1
  match s2.ccopies.find? (isCopy o ln) with
  | none => (none, s2)
  | some c =>
    if c.poison.getLsbD (pa % 128 / 32) then (none, s2)
    else
      let x := ofLeBytes ((List.range size).map fun i => dataByte c.data (pa % 128 + i))
      let s3 := s2.raiseLt (.group k) c.lt.toNat
      match f x with
      | some y =>
        let lt := s3.ltOf (.group k)
        let upd (c : CCopy) : CCopy := if isCopy o ln c then c.write (numBytes pa size y) k lt else c
        (some x, { s3 with ccopies := s3.ccopies.map upd })
      | none => (some x, s3)

/-- An atomic of a group under its scope code (09 R162). Group and cohort scope work on scoped copies, but for a group
of an ordered launch, all of whose atomics become versions (20 R344). -/
def State.atomic (s : State) (k : GKey) (scope : BitVec 3) (pa size : Nat) (f : AtomF) (tracked : Bool) :
    Option Nat × State :=
  match s.group? k with
  | none => (none, s)
  | some g =>
    if scope ≤ 1 && (s.ordOf (.group k)).isNone then s.atomicScoped k g.id.inst (scope = 1) pa size f
    else s.atomicHome (.group k) pa size f tracked

end Sys2Proof.Machine
end

