-- ==== Sys2Proof/Machine/Translate.lean ====
section
/-!
DEFINITION. Address translation (24 R377 to R382): the walk, the leaf's permissions, the TLB entries that an access may
use in place of a walk, and the checks that a frame lies within the partition (25 R397).
-/
namespace Sys2Proof.Machine
open Sys2Proof

/-- What an access does to the page (24 R380). -/
inductive Access where
  | read | write | rmw | fetch
deriving DecidableEq, Repr

/-- The access writes. -/
def Access.writes : Access → Bool
  | .write => true
  | .rmw => true
  | _ => false
/-- The access reads as data. -/
def Access.reads : Access → Bool
  | .read => true
  | .rmw => true
  | _ => false

/-- How a translation ends (24 R380): a physical address; a page fault or a protection fault with its detail bits for
XINFO (28 R428); a poisoned table entry; a violation with its code; a wait for a migration (07 R135). -/
inductive Xlat where
  | ok (pa : Nat)
  | page (malformed : Bool) (level : Nat)
  | prot (sup : Bool) (level : Nat)
  | poison (pa : Nat)
  | violation (code : Nat) (addr : Nat)
  | wait
deriving DecidableEq, Repr

/-- How a walk ends: a leaf with its level. -/
inductive Walked where
  | leaf (pte level : Nat)
  | page (malformed : Bool) (level : Nat)
  | poison (pa : Nat)
  | violation (addr : Nat)
deriving DecidableEq, Repr

/-- The span of one entry of a level as a power of two (24 R377). -/
def spanLog (level : Nat) : Nat := 57 - 9 * level
/-- The index of a virtual address at a level. -/
def vaIndex (va level : Nat) : Nat := va / 2 ^ spanLog level % (if level = 0 then 8 else 512)

/-- The value that a walker reads at an address: one device-scope load, which gives a P line its merged value (24 R381,
08 R153). -/
def State.walkWord (s : State) (pa : Nat) : Nat := ofLeBytes ((List.range 8).map fun i => s.valueAt (pa + i))

/-- The physical address bits [55:12] of an entry. -/
def ptePfn (e : Nat) : Nat := bitsNat e 55 12 * 4096

/-- An entry with V = 1 is malformed (24 R379). -/
def State.malformed (s : State) (e level : Nat) : Bool :=
  let leaf := bitNat e 1 = 1
  bitsNat e 63 60 != 0 || bitsNat e 57 56 != 0 || bitsNat e 11 6 != 0 ||
  (leaf && level ≤ 1) || (!leaf && level = 5) ||
  (leaf && ptePfn e % 2 ^ spanLog level != 0) ||
  (bitNat e 3 = 1 && bitNat e 2 = 0) ||
  (!leaf && (bitsNat e 5 2 != 0 || bitsNat e 59 58 != 0)) ||
  (!leaf && !(s.isLocal (ptePfn e) && s.backed (ptePfn e)))

/-- The levels below the root, from a table at an address (24 R377, R379, R380). -/
def State.walkFrom (s : State) (p : Part) (va : Nat) : Nat → Nat → Nat → Walked
  | 0, _, level => .page true level
  | n + 1, table, level =>
    let pa := table + 8 * vaIndex va level
    if !(s.isLocal pa && p.owns pa 8) then .violation pa
    else if s.poisonAt pa then .poison pa
    else
      let e := s.walkWord pa
      if bitNat e 0 = 0 then .page false level
      else if s.malformed e level then .page true level
      else if bitNat e 1 = 1 then .leaf e level
      else s.walkFrom p va n (ptePfn e) (level + 1)

/-- The walk of an address of an ASID (24 R377, R378). -/
def State.walk (s : State) (p : Part) (asid va : Nat) : Walked :=
  if 2 ^ 60 ≤ va then .page false 0
  else
    let pa := p.root + 8 * (asid - p.asid0)
    if !(p.hasAsid asid && s.isLocal pa && p.owns pa 8) then .violation pa
    else if s.poisonAt pa then .poison pa
    else
      let e := s.walkWord pa
      let top := bitsNat e 55 6 * 64
      if bitNat e 0 = 0 then .page false 6
      else if bitsNat e 63 56 != 0 || bitsNat e 5 2 != 0 || !(s.isLocal top && s.backed top) then .page true 6
      else s.walkFrom p va 6 top 0

/-- The tables that the levels of a walk go through, each with its level (24 R377): a walk cache holds them, and the walk reads an
entry of each. -/
def State.walkTables (s : State) (va : Nat) : Nat → Nat → Nat → List (Nat × Nat)
  | 0, _, _ => []
  | n + 1, table, level =>
    let e := s.walkWord (table + 8 * vaIndex va level)
    (level, table) ::
      (if bitNat e 0 = 0 || bitNat e 1 = 1 || s.malformed e level then [] else s.walkTables va n (ptePfn e) (level + 1))

/-- The lines of table entries that the walk of an address reads. -/
def State.walkLines (s : State) (p : Part) (asid va : Nat) : List Nat :=
  let pa := p.root + 8 * (asid - p.asid0)
  let e := s.walkWord pa
  lineOf pa :: (if bitNat e 0 = 0 then [] else
    (s.walkTables va 6 (bitsNat e 55 6 * 64) 0).map fun x => lineOf (x.2 + 8 * vaIndex va x.1))

/-- The TLB entry that an access finds in its TLB (24 R381, R382). -/
def State.tlbHit (s : State) (at_ : TlbId) (part asid va : Nat) : Option (Nat × Nat) :=
  (s.tlb.find? fun e => e.at_ = at_ && e.part.toNat = part && e.asid.toNat = asid &&
    e.va ≤ va && va < e.va + e.size).map fun e => (e.pte.toNat, 5 - (Nat.log2 e.size - 12) / 9)

/-- The page of an address is under migration (07 R135). -/
def State.migrating (s : State) (part asid va : Nat) : Bool :=
  s.migrations.any fun m => m.part.toNat = part && m.asid.toNat = asid && m.va ≤ va && va < m.va + m.size

/-- The leaf's permissions (24 R380). -/
def pteAllows (e : Nat) (acc : Access) (sup : Bool) : Bool :=
  (!acc.reads || bitNat e 2 = 1) && (!acc.writes || bitNat e 3 = 1) && (acc != .fetch || bitNat e 4 = 1) &&
  (bitNat e 5 = 0 || sup)

/-- The checks of a frame: backed (violation 1), within the partition's ranges (0), and not a write to the trace region
(3). The ranges are of local memory; an address of another device is checked by that device (25 R397). -/
def State.frameCheck (s : State) (p : Part) (pa : Nat) (acc : Access) : Option Nat :=
  if !s.backed pa then some 1
  else if !s.isLocal pa then none
  else if !p.owns pa 1 then some 0
  else if acc.writes && p.trBase ≤ pa && pa < p.trBase + p.trSize then some 3
  else none

/-- Who translates: partition, ASID, privilege, and the TLB it looks into. -/
structure Ctx where
  part : Nat
  asid : Nat
  sup : Bool
  tlb : TlbId
deriving DecidableEq, Repr

/-- The leaf that a translation finds: in the TLB, else by a walk. -/
def State.leafAt (s : State) (x : Ctx) (p : Part) (va : Nat) : Walked :=
  match (if va < 2 ^ 60 then s.tlbHit x.tlb x.part x.asid va else none) with
  | some (e, l) => .leaf e l
  | none => s.walk p x.asid va

/-- Translation of one address (24 R377 to R381). -/
def State.translate (s : State) (x : Ctx) (acc : Access) (va : Nat) : Xlat :=
  match s.part? x.part with
  | none => .page false 6
  | some p =>
    match s.leafAt x p va with
    | .page m l => .page m l
    | .poison pa => .poison pa
    | .violation a => .violation 2 a
    | .leaf e l =>
      let pa := ptePfn e + va % 2 ^ spanLog l
      if !pteAllows e acc x.sup then .prot (bitNat e 5 = 1) l
      else if acc.writes && s.migrating x.part x.asid va then .wait
      else match s.frameCheck p pa acc with
        | some c => .violation c pa
        | none => .ok pa

/-- The page of an address: its first address, under the size of the leaf that maps it, or 4 KiB where none does (24 R391). -/
def State.pageOf (s : State) (x : Ctx) (va : Nat) : Nat :=
  match s.part? x.part with
  | none => va - va % 4096
  | some p => match s.leafAt x p va with
    | .leaf _ l => va - va % 2 ^ spanLog l
    | _ => va - va % 4096

/-- A walk reads its entries as device-scope loads, which end P of their lines (24 R381, 08 R153). -/
def State.walked (s : State) (x : Ctx) (va : Nat) : State :=
  match s.part? x.part with
  | none => s
  | some p =>
    if 2 ^ 60 ≤ va || (s.tlbHit x.tlb x.part x.asid va).isSome || !p.hasAsid x.asid then s
    else ((s.walkLines p x.asid va).filter fun ln => s.isLocal (128 * ln) && p.owns (128 * ln) 128).foldl
      (fun s ln => s.mergeLine .ext ln) s

/-- The detail of a page or protection fault for XINFO, without e (28 R428). -/
def faultInfo (acc : Access) (malformed : Bool) (level : Nat) (sup : Bool) (rec_ : Bool) : Nat :=
  acc.writes.toNat + (if acc = .fetch then 2 else 0) + (if malformed then 4 else 0) + level % 8 * 8 +
    (if sup then 64 else 0) + (if rec_ then 128 else 0)

/-- The TLB of a core (24 R382). -/
def coreTlb (core : Nat) : TlbId := { target := gdieOf core, core := some core }

/-- The context of a group's accesses. -/
def Group.ctx (g : Group) : Ctx :=
  { part := g.id.part.toNat, asid := g.id.asid.toNat, sup := g.id.sup, tlb := coreTlb (keyCore g.id.key) }

end Sys2Proof.Machine
end

