-- ==== Sys2Proof/Machine/Ops.lean ====
section
/-!
DEFINITION. The operations that instructions share. Taking an exception: trap records and the trap queue (28 R425 to R428, 26 R414), delivery of a trap to a
group (28 R426, R427), freezing (25 R398), and the return to service (26 R411, 25 R399). Then the frame of an instruction
(03 R65, R66), accesses to the six spaces (10 R181 to R184), deferral (24 R389), lane progress (24 R391), waits
(10 R193), timelines (02 R31) and the issue of engine commands (10 R205).
-/
namespace Sys2Proof.Machine
open Sys2Proof

/-! ### Causes (28 R425) -/

/-- ILLEGAL_OPCODE. -/
def cOpcode : Nat := 0x01
/-- ILLEGAL_ENCODING. -/
def cEncoding : Nat := 0x02
/-- ILLEGAL_OPERAND. -/
def cOperand : Nat := 0x03
/-- PRIVILEGED. -/
def cPrivileged : Nat := 0x04
/-- MISALIGNED. -/
def cMisaligned : Nat := 0x05
/-- SEGMENT. -/
def cSegment : Nat := 0x06
/-- PAGE_FAULT. -/
def cPage : Nat := 0x07
/-- PROTECTION. -/
def cProt : Nat := 0x08
/-- POISON_CONSUMED. -/
def cPoison : Nat := 0x09
/-- DIVIDE_BY_ZERO. -/
def cDivide : Nat := 0x0A
/-- SOFTWARE. -/
def cSoftware : Nat := 0x0C
/-- ENGINE_FAULT. -/
def cEngine : Nat := 0x0D
/-- BARRIER_ERROR. -/
def cBarrier : Nat := 0x0E
/-- LAUNCH_ERROR. -/
def cLaunch : Nat := 0x0F
/-- WATCHDOG. -/
def cWatchdog : Nat := 0x11
/-- KILLED. -/
def cKilled : Nat := 0x13
/-- MACHINE_CHECK. -/
def cMachine : Nat := 0x14
/-- FROZEN. -/
def cFrozen : Nat := 0x15

/-- A trap before its record is formed: cause, XADDR, XINFO, and for POISON_CONSUMED the deferral entry consumed. -/
structure Trap where
  cause : Nat
  xaddr : Nat := 0
  xinfo : Nat := 0
  tag : Option Tag := none
deriving DecidableEq, Repr

/-- POISON_CONSUMED of an element that carries a tag, at element e. -/
def poisonTrap (tag : Tag) (e : Nat := 0) : Trap := { cause := cPoison, xinfo := e * 2 ^ 16, tag := some tag }

/-! ### Master words (26 R410) -/

/-- The master word of a group. -/
def groupWord (k : GKey) : Nat := k.rs.toNat * 2 ^ 32 + k.y.toNat * 2 ^ 8 + k.x.toNat
/-- The master word of an engine command. -/
def cmdWord : CKey → Nat
  | .group k tl n => 2 ^ 62 + n.toNat % 2 ^ 16 * 2 ^ 40 + tl.toNat * 2 ^ 36 + groupWord k
  | .queue _ q => 2 ^ 62 + 2 ^ 61 + q.toNat

/-! ### Records -/

/-- The code of the cause of a deferral. -/
def DeferCause.code : DeferCause → Nat
  | .pageFault => cPage
  | .protection => cProt
  | .memory => cPoison

/-- The record of a trap of a group at an address (28 R427, R428). -/
def State.groupRec (s : State) (k : GKey) (g : Group) (t : Trap) (chain : Bool) (xpc : Word64) : TrapRec :=
  let d := match t.tag with | some i => vget g.regs.defer i.toNat none | none => none
  { cyc := s.cyc
    daddr := match d with | some e => e.pc | none => 0
    head := if chain then g.regs.chain.headAt else 0
    dcause := if t.cause = cPoison then (match d with | some e => BitVec.ofNat 8 e.cause.code | none => 9) else 0
    didx := match t.tag with | some i => i.setWidth 8 | none => 0
    supv := g.id.sup
    chain := chain
    cause := BitVec.ofNat 8 t.cause
    master := BitVec.ofNat 64 (groupWord k)
    xinfo := BitVec.ofNat 64 t.xinfo
    xaddr := match d with | some e => e.addr | none => BitVec.ofNat 64 t.xaddr
    xpc := xpc }

/-- The 64 bytes of a trap record (28 R427). -/
def TrapRec.bytes (r : TrapRec) : List Byte :=
  leBytes 8 r.xpc.toNat ++ leBytes 8 r.xaddr.toNat ++ leBytes 8 r.xinfo.toNat ++ leBytes 8 r.master.toNat ++
  [r.cause, BitVec.ofNat 8 (r.chain.toNat + 2 * r.supv.toNat + 4 * r.held.toNat), r.didx, r.dcause, 0, 0, 0, 0] ++
  leBytes 8 r.head.toNat ++ leBytes 8 r.daddr.toNat ++ leBytes 8 r.cyc.toNat

/-- Bytes placed from an address on. -/
def bytesAt (pa : Nat) (l : List Byte) : List (Nat × Byte) := l.zipIdx.map fun x => (pa + x.2, x.1)

/-- A written record and its index are noted at the master that it stops. -/
def State.noteRec (s : State) (h : HeldRec) (i : Nat) : State :=
  let mark (o : Option (TrapRec × Option Nat)) : Option (TrapRec × Option Nat) :=
    match o with | some _ => some (h.r, some i) | none => none
  let s1 := match h.g with
    | some k => s.onGroup k fun g =>
      { g with
        run := match g.run with | .trapped _ none => .trapped h.r (some i) | x => x
        frozen := mark g.frozen }
    | none => s
  match h.c with
  | some c => s1.onCmd c fun x => { x with trap := mark x.trap }
  | none => s1

/-- A group may resolve a trap: it is a supervisor group of the partition that is neither suspended on a trap nor frozen. -/
def Group.resolves (g : Group) (part : Nat) : Bool :=
  g.id.part.toNat = part && g.id.sup && g.frozen.isNone &&
  match g.run with | .trapped .. => false | .ended => false | _ => true

/-- Where no group may resolve a record, firmware raises a mailbox event that names the partition (28 R426, log 60). -/
def State.hostEvent (s : State) (part : Nat) : State :=
  if s.groups.any (fun x => x.2.resolves part) then s else { s with hostEvents := s.hostEvents ++ [part] }

/-- The oldest waiting record is written to the trap queue when there is room, and TQW advances (26 R414). -/
def State.flushRec (s : State) (part : Nat) : State :=
  match s.part? part with
  | none => s
  | some p =>
    match p.recs with
    | [] => s
    | h :: rest =>
      if p.tqSize ≤ p.tqw.toNat - p.tqr.toNat then s
      else
        let at_ := p.tqBase + 64 * (p.tqw.toNat % p.tqSize)
        let s1 := s.writeSectors .ext (bytesAt at_ h.r.bytes) false
        ((s1.setPart part { p with recs := rest, tqw := p.tqw + 1 }).noteRec h p.tqw.toNat).hostEvent part

/-- A record goes to the trap queue of a partition, or waits for room there (26 R414). -/
def State.pushRec (s : State) (part : Nat) (h : HeldRec) : State :=
  match s.part? part with
  | none => s
  | some p =>
    let full := !p.recs.isEmpty || p.tqSize ≤ p.tqw.toNat - p.tqr.toNat
    let s1 := s.setPart part { p with recs := p.recs ++ [{ h with r := { h.r with held := full } }] }
    if full then s1 else s1.flushRec part

/-- A machine-check record is logged, and copied to the trap queue of the partition that it touches (28 R432). -/
def State.machineCheck (s : State) (m : McRec) : State :=
  let s1 := s.logMc m
  match m.part with
  | none => s1
  | some p => s1.pushRec p { r := { cyc := s.cyc, cause := BitVec.ofNat 8 cMachine,
                                    xaddr := BitVec.ofNat 64 m.addr, xinfo := BitVec.ofNat 64 m.low } }

/-! ### Switches (03 R62, R63) -/

/-- A switch that suspends the group on an instruction of its own: the latches are lost, and of what was made only the
result of that instruction, if it has a destination, is still to come. -/
def Regs.switchAt (r : Regs) (dest : Bool) : Regs :=
  { r with
    latch := Vector.replicate 4 .empty
    chain := { r.chain with made := #v[if dest then some (r.chain.seq - 1) else none, none, none, none] } }

/-! ### Delivery -/

/-- A record is delivered to its group (28 R426): the group is suspended, a switch, at which its write-combining lines
depart (07 R128); its trap registers take the values of
the record; the record goes to the trap queue. A FROZEN record freezes the group (25 R398). -/
def State.deliver (s0 : State) (k : GKey) (r : TrapRec) : State :=
  let s := s0.departWhere fun w => w.g = k
  match s.group? k with
  | none => s
  | some g =>
    let g1 := { g with
      regs := g.regs.loseLatches
      xcause := r.cause
      xpc := r.xpc
      xaddr := r.xaddr
      xinfo := r.xinfo
      stepOnce := false }
    let g2 := if r.cause.toNat = cFrozen then { g1 with frozen := some (r, none) } else { g1 with run := .trapped r none }
    ((s.setGroup k g2).trail (keyCore k) k.rs.toNat 6 r.cause.toNat r.xpc.toNat).pushRec g.id.part.toNat
      { r := r, g := some k }

/-- A trap of a group at its program counter: held while the group runs speculatively in an ordered launch (28 R427),
else delivered. -/
def State.trapGroup (s : State) (k : GKey) (t : Trap) (chain : Bool) : State :=
  match s.group? k with
  | none => s
  | some g =>
    let r := s.groupRec k g t chain g.regs.pc
    match s.ordOf (.group k) with
    | some (la, o) =>
      if s.isOldest la o then s.deliver k r else s.setGroup k { g with ord := some { o with held := some r } }
    | none => s.deliver k r

/-- A violation of a group: the access is not performed and the group is frozen at its instruction (25 R398). -/
def State.freezeGroup (s : State) (k : GKey) (code addr : Nat) : State :=
  s.trapGroup k { cause := cFrozen, xaddr := addr, xinfo := code } false

/-- The record of an engine command (28 R428, R435). -/
def State.cmdRec (s : State) (c : Cmd) (cause xaddr xinfo : Nat) : TrapRec :=
  { cyc := s.cyc, supv := c.sup, cause := BitVec.ofNat 8 cause, master := BitVec.ofNat 64 (cmdWord c.key),
    xinfo := BitVec.ofNat 64 xinfo, xaddr := BitVec.ofNat 64 xaddr }

/-- The timeline of a command, zero for a queue copy. -/
def ckeyTl : CKey → Nat
  | .group _ tl _ => tl.toNat
  | .queue _ _ => 0

/-- The Trail record of a trap of a command, with the core of its group; it has no xpc, whose place reads zero (25 R405, log 46). -/
def State.cmdTrail (s : State) (c : CKey) (cause : Nat) : State :=
  match c with
  | .group k _ _ => s.trail (keyCore k) k.rs.toNat 6 cause 0
  | .queue .. => s

/-- A command stops at a unit with ENGINE_FAULT (10 R206, 28 R435). -/
def State.stopCmd (s : State) (c : Cmd) (unit addr cause : Nat) (resumable : Bool) : State :=
  let r := s.cmdRec c cEngine addr (c.op.toNat + cause * 2 ^ 8 + unit % 2 ^ 32 * 2 ^ 16 + ckeyTl c.key * 2 ^ 48)
  (s.onCmd c.key fun x =>
    { x with state := .stopped unit (BitVec.ofNat 64 addr) (BitVec.ofNat 8 cause) resumable, trap := some (r, none) })
    |>.cmdTrail c.key cEngine |>.pushRec c.part.toNat { r := r, c := some c.key }

/-- A command is frozen for a violation at its current unit (25 R398). -/
def State.freezeCmd (s : State) (c : Cmd) (code addr : Nat) : State :=
  let r := s.cmdRec c cFrozen addr code
  (s.onCmd c.key fun x => { x with state := .frozen, trap := some (r, none) })
    |>.cmdTrail c.key cFrozen |>.pushRec c.part.toNat { r := r, c := some c.key }

/-- The FROZEN record of a master from outside (25 R398). -/
def State.frozenRec (s : State) (part master code addr : Nat) : State :=
  s.pushRec part { r := { cyc := s.cyc, cause := BitVec.ofNat 8 cFrozen, master := BitVec.ofNat 64 master,
                          xinfo := BitVec.ofNat 64 code, xaddr := BitVec.ofNat 64 addr } }

/-- A host function is frozen; its pending requests end (25 R398). -/
def State.freezeHost (s : State) (fn part code addr : Nat) : State :=
  { s with vfFrozen := NSet.add s.vfFrozen fn, asking := Store.del s.asking fn }.frozenRec part (2 * 2 ^ 62 + fn) code addr

/-- The mark of a peer device under a partition. -/
def peerId (dev part : Nat) : Nat := dev * 16 + part

/-- A peer device is frozen for a partition; its pending requests end (25 R398). -/
def State.freezePeer (s : State) (dev part code addr : Nat) : State :=
  { s with peerFrozen := NSet.add s.peerFrozen (peerId dev part), asking := Store.del s.asking (32 + peerId dev part) }.frozenRec part
    (3 * 2 ^ 62 + dev) code addr

/-! ### Return to service -/

/-- The lane-progress mask clears, with the old values noted beside it (24 R391). -/
def Regs.clearLanes (r : Regs) : Regs := { r with progress := 0, olds := [] }

/-- A trapped group goes on at an address (26 R411): any address but xpc clears the lane-progress mask (24 R391); its
first instruction acquires what the resuming group released (26 R413). -/
def Group.resume (g : Group) (pc : Word64) (lt : Word64) (once : Bool) : Group :=
  let r := { g.regs.acquire lt.toNat with pc := pc }
  { g with
    regs := if pc = g.xpc then r else r.clearLanes
    armed := if pc = g.xpc then g.armed else none
    run := .ready
    stepOnce := once }

/-- A frozen group goes on at xpc (25 R399). -/
def Group.thaw (g : Group) (lt : Word64) : Group :=
  { g with regs := { g.regs.acquire lt.toNat with pc := g.xpc }, frozen := none }

/-! ### The frame of an instruction -/

/-- Why an instruction does not complete: a trap or a violation, with the state it leaves where the elements of earlier
pages have been performed (24 R391); or it is not ready and nothing happens (20 R343). -/
inductive Stop where
  | trap (t : Trap) (kept : Option State)
  | violation (code addr : Nat) (kept : Option State)
  | stall

/-- An instruction's effect on the machine. -/
abbrev M := StateT State (Except Stop)

namespace M
/-- The group. -/
def group (k : GKey) : M Group := fun s => match s.group? k with | some g => .ok (g, s) | none => .error .stall
/-- The group put in place. -/
def setGroup (k : GKey) (g : Group) : M Unit := fun s => .ok ((), s.setGroup k g)
/-- A change to the group. -/
def onGroup (k : GKey) (f : Group → Group) : M Unit := fun s => .ok ((), s.onGroup k f)
/-- A change to the machine. -/
def modify (f : State → State) : M Unit := fun s => .ok ((), f s)
/-- A change to the machine with a result. -/
def run' {α : Type} (f : State → α × State) : M α := fun s => .ok (f s)
/-- A precise trap with no effect. -/
def trap {α : Type} (t : Trap) : M α := fun _ => .error (.trap t none)
/-- A precise trap that keeps what has been performed. -/
def trapKeep {α : Type} (t : Trap) : M α := fun s => .error (.trap t (some s))
/-- Not ready. -/
def stall {α : Type} : M α := fun _ => .error .stall
/-- A violation with no effect. -/
def violate {α : Type} (code addr : Nat) : M α := fun _ => .error (.violation code addr none)
/-- A violation that keeps what has been performed. -/
def violateKeep {α : Type} (code addr : Nat) : M α := fun s => .error (.violation code addr (some s))
/-- A check that traps. -/
def check (b : Bool) (t : Trap) : M Unit := if b then pure () else M.trap t
/-- The result of a pure check. -/
def lift {α : Type} : Except Trap α → M α
  | .ok a => pure a
  | .error t => M.trap t
/-- A source that carries a deferral tag is consumed (24 R390). -/
def clean (r : SReg) : M Word64 :=
  match r.tag with
  | some t => M.trap (poisonTrap t)
  | none => pure r.val
end M

/-- A vector operand consumed at the elements given: the lowest that carries a tag traps (10 R184 step 1). -/
def M.cleanEls (l : List (Nat × Elem)) : M Unit :=
  match l.findSome? fun x => x.2.tag.map fun t => (x.1, t) with
  | some (e, t) => M.trap (poisonTrap t e)
  | none => pure ()

/-- What an instruction checks at steps 5 and 6 beyond its row: a register number, a tile, an accumulator; a register
that is privileged (02 R39). -/
structure Chk where
  ok5 : Group → Fields → Bool := fun _ _ => true
  priv : Fields → Bool := fun _ => false

/-- The group as the instruction begins: the program counter stands behind it, the chain state has taken it in (NOP
leaves the chain as it is), and a speculation counts it (08 R149). -/
def Group.enter (g : Group) (r : Row) (f : Fields) : Group :=
  { g with
    regs := { g.regs with
      pc := g.regs.pc + BitVec.ofNat 64 f.len
      chain := if r.op = 1 then g.regs.chain else g.regs.chain.next r f g.regs.pc }
    spec := match g.spec with | some x => some { x with count := x.count + 1 } | none => none }

/-- dic counts a vector instruction for each member set in mk (02 R40). -/
def Regs.countDic (r : Regs) (vec : Bool) : Regs :=
  let up (i : Fin 16) : Word64 := vget r.dic i.val 0 + (if r.mask.getLsbD i.val then 1 else 0)
  if vec then { r with dic := Vector.ofFn up } else r

/-- A group that GCTL.STEP let run suspends before its next instruction, once no renewal is in flight that may take it back (26 R411,
08 R149). -/
def State.stepped (s : State) (k : GKey) : State :=
  match s.group? k with
  | none => s
  | some g =>
    if g.stepOnce && g.run == .ready && g.spec.isNone then
      s.deliver k (s.groupRec k g { cause := cSoftware, xinfo := 2 ^ 63 } false g.regs.pc)
    else s

/-- How an instruction begins. -/
inductive Begin where
  | none
  | trapped (s : State)
  | stall
  | go (k : GKey) (g : Group) (r : Row) (f : Fields)

/-- A trap, but a speculation on an expired copy first waits for its renewal (08 R149). -/
def State.trapOrWait (s : State) (k : GKey) (g : Group) (t : Trap) (chain : Bool) : Begin :=
  if g.spec.isSome then .stall else .trapped (s.trapGroup k t chain)

/-- Steps 5 and 6 of the decode order (03 R65) for the group that holds the issue slot. -/
def State.begin_ (s : State) (i : Instr) (c : Chk) : Begin :=
  match s.cur, row i, fields i with
  | some k, some r, some f =>
    match s.group? k with
    | none => .none
    | some g =>
      let w := (baseWord r.op f).toNat
      if !(g.step5 r f && c.ok5 g f) then s.trapOrWait k g { cause := cOperand, xinfo := w } (namesLatch r f)
      else if (r.priv || c.priv f) && !g.id.sup then
        s.trapOrWait k g { cause := cPrivileged, xinfo := w } (namesLatch r f)
      else if g.spec.any fun x => 64 ≤ x.count then .stall
      else .go k g r f
  | _, _, _ => .none

/-- The outcome of an instruction. -/
abbrev Out := Host.Outcome State Fault Refusal

/-- The end of an instruction that completes: dic counts it, and a single step ends. -/
def State.complete (s : State) (k : GKey) (r : Row) : State :=
  (s.onGroup k fun g => { g with regs := g.regs.countDic r.vec }).stepped k

/-- An instruction that works on its group alone. -/
def runRegs (i : Instr) (body : Fields → Group → Except Trap Group) (s : State) (c : Chk := {}) : Out :=
  match s.begin_ i c with
  | .none => .fault .noGroup
  | .trapped s' => .next s'
  | .stall => .next s
  | .go k g r f =>
    match body f (g.enter r f) with
    | .ok g' => .next ((s.setGroup k g').complete k r)
    | .error t =>
      match s.trapOrWait k g t (namesLatch r f) with
      | .trapped s' => .next s'
      | _ => .next s

/-- The state that an instruction which stops part of the way leaves: the program counter and the chain stand as before
it (03 R66). -/
def keepOf (s : State) (k : GKey) (g : Group) : Option State → State
  | none => s
  | some s' => s'.onGroup k fun x => { x with regs := { x.regs with pc := g.regs.pc, chain := g.regs.chain } }

/-- An instruction that works on the machine. -/
def runM (i : Instr) (body : Fields → GKey → M Unit) (s : State) (c : Chk := {}) : Out :=
  match s.begin_ i c with
  | .none => .fault .noGroup
  | .trapped s' => .next s'
  | .stall => .next s
  | .go k g r f =>
    match body f k (s.setGroup k (g.enter r f)) with
    | .ok (_, s') => .next (s'.complete k r)
    | .error .stall => .next s
    | .error (.trap t kept) =>
      match (keepOf s k g kept).trapOrWait k g t (namesLatch r f) with
      | .trapped s' => .next s'
      | _ => .next s
    | .error (.violation code addr kept) =>
      if g.spec.isSome then .next s else .next ((keepOf s k g kept).freezeGroup k code addr)

/-! ### Gates (20 R343, R344, 08 R149, 10 R195) -/

/-- An engine command, a fence, a wait or a store waits for a renewal (08 R149). -/
def M.noSpec (k : GKey) : M Unit := do
  let g ← M.group k
  if g.spec.isSome then M.stall else pure ()

/-- A memory instruction waits for the group's fence (10 R195). -/
def M.noFence (k : GKey) : M Unit := do
  let g ← M.group k
  if g.fence.isSome then M.stall else pure ()

/-- What a speculative group of an ordered launch may not do before it is the oldest uncommitted; once it is, its
versions stand in the single order (20 R344, R345). -/
def M.oldest (k : GKey) : M Unit := fun s =>
  match s.ordOf (.group k) with
  | none => .ok ((), s)
  | some (la, o) => if s.isOldest la o then .ok ((), s.flushVersions (.group k) la o.ts) else .error .stall

/-- The three gates of an engine command or a wait. -/
def M.gate (k : GKey) : M Unit := do
  M.noSpec k
  M.noFence k
  M.oldest k

/-! ### Places (02 R24, R35 to R37) -/

/-- Where an element lies: a byte of the scratchpad of a position of the instance, or a virtual address. -/
inductive Place where
  | pad (pos off : Nat)
  | va (a : Nat)
deriving DecidableEq, Repr

/-- Space codes (02 R35). -/
abbrev Space := BitVec 3
/-- G. -/
def spG : Space := 0
/-- L. -/
def spL : Space := 1
/-- W. -/
def spW : Space := 2
/-- K. -/
def spK : Space := 3
/-- M. -/
def spM : Space := 4
/-- S. -/
def spS : Space := 5

/-- The position that a window address names, and the offset there (02 R24). -/
def windowAt (i : Inst) (wa size : Nat) : Option (Nat × Nat) :=
  let off := bitsNat wa 19 0
  let col := bitsNat wa 22 20
  let row := bitsNat wa 25 23
  let die := bitsNat wa 26 26
  let half := if i.width = 16 then 8 else i.width
  if 2 ^ 27 ≤ wa || (die = 1 && i.width != 16) || half ≤ col || i.height ≤ row || i.spd * 32768 < off + size then none
  else some (row * i.width + 8 * die + col, off)

/-- The place of an access of a given size at an offset, with the address that alignment is checked on; else the
number of the segment that it leaves (02 R36, R24). -/
def placeOf (sg : Segs) (i : Inst) (pos : Nat) (sp : Space) (size : Nat) (off : Word64) (gmi : Nat) :
    Except Nat (Nat × Place) :=
  let out (s : Seg) : Bool := s.limit.toNat < off.toNat + size
  if sp = spL then
    if out sg.l then .error 0 else
      let a := (sg.l.base + off).toNat
      .ok (a, .pad pos a)
  else if sp = spW then
    if out sg.w then .error 1 else
      match windowAt i (sg.w.base + off).toNat size with
      | some (p, o) => .ok (o, .pad p o)
      | none => .error 1
  else if sp = spK then
    if out sg.k then .error 2 else
      let a := (sg.k.base + off).toNat
      .ok (a, .va a)
  else if sp = spM then
    if out sg.m then .error 3 else
      let a := (sg.m.base + BitVec.ofNat 64 (gmi * sg.m.stride.toNat) + off).toNat
      .ok (a, .va a)
  else .ok (off.toNat, .va off.toNat)

/-- A store of a speculative group whose version storage is full stalls until the group is the oldest (20 R344). -/
def M.room (k : GKey) (sp : Space) : M Unit := fun s =>
  match s.ordOf (.group k) with
  | none => .ok ((), s)
  | some (la, o) =>
    if sp = spL || sp = spW || (s.versionLines la o.ts).length < Config.versionRoom then .ok ((), s) else M.oldest k s

/-- An element of an access: its index, its offset, its global member index. -/
structure El where
  e : Nat
  off : Word64
  gmi : Nat
deriving DecidableEq, Repr

/-- Steps 2 and 3 of R184 over the elements in order: every offset in its segment, then every address a multiple of the
size. -/
def placesOf (sg : Segs) (i : Inst) (pos : Nat) (sp : Space) (size : Nat) (els : List El) :
    Except Trap (List (Nat × Place)) := do
  let ps ← els.mapM fun x =>
    match placeOf sg i pos sp size x.off x.gmi with
    | .ok (a, p) => .ok (x.e, a, p)
    | .error k => .error { cause := cSegment, xaddr := x.off.toNat, xinfo := k + x.e * 2 ^ 16 }
  match ps.find? fun x => x.2.1 % size != 0 with
  | some x => .error { cause := cMisaligned, xaddr := x.2.1, xinfo := size + x.1 * 2 ^ 16 }
  | none => .ok (ps.map fun x => (x.1, x.2.2))

/-- The position of a group in its instance. -/
def Group.pos (g : Group) (i : Inst) : Nat := g.id.cy * i.width + g.id.cx

/-- The instance of a group. -/
def M.inst (g : Group) : M Inst := fun s =>
  match s.inst? g.id.inst with
  | some i => .ok (i, s)
  | none => .error .stall

/-- Steps 2 to 4 of R184 for a group's own access. -/
def M.places (g : Group) (sp : Space) (size : Nat) (els : List El) (writes : Bool) : M (List (Nat × Place)) := do
  let i ← M.inst g
  let ps ← M.lift (placesOf g.segs i (g.pos i) sp size els)
  match writes && sp = spK, ps with
  | true, (e, .va a) :: _ => M.trap { cause := cProt, xaddr := a, xinfo := 1 + e * 2 ^ 16 }
  | _, _ => pure ps

/-! ### Scratchpads (02 R38) -/

/-- The scratchpad of a position. -/
def Inst.pad (i : Inst) (pos : Nat) : Pad := Store.getD i.pads pos {}
/-- A byte of a scratchpad. -/
def Pad.byteAt (p : Pad) (o : Nat) : Byte := Store.getD p.bytes o 0
/-- Bytes put into a scratchpad; a sector written whole loses its poison. -/
def Pad.put (p : Pad) (l : List (Nat × Byte)) : Pad :=
  { p with bytes := putAll p.bytes l, poison := (wholeSectors l).foldl NSet.rem p.poison }
/-- The words that bytes touch set full. -/
def Pad.fillWords (p : Pad) (l : List (Nat × Byte)) : Pad :=
  { p with full := (l.map fun x => x.1 / 4).eraseDups.foldl NSet.add p.full }
/-- A change to the scratchpad of a position of an instance. -/
def State.onPad (s : State) (inst pos : Nat) (f : Pad → Pad) : State :=
  s.onInst inst fun i => { i with pads := Store.put i.pads pos (f (i.pad pos)) }
/-- The words that bytes of a scratchpad from an offset touch. -/
def padWords (o n : Nat) : List Nat := (List.range ((o + n + 3) / 4 - o / 4)).map (o / 4 + ·)

/-- The latest logical time of an access to words of a scratchpad. -/
def Pad.ltAt (p : Pad) (ws : List Nat) : Nat := ws.foldl (fun m w => max m (Store.getD p.lts w 0)) 0

/-- An access to words of a scratchpad takes its place in the single order: the agent's logical time and that of the words rise to
the later of the two (09 R157, R158, 08 R145, log 44). -/
def State.syncPad (s : State) (a : Agent) (inst pos o n : Nat) : State :=
  match s.inst? inst with
  | none => s
  | some i =>
    let p := i.pad pos
    let ws := padWords o n
    let t := max (s.ltOf a) (p.ltAt ws)
    (s.setInst inst { i with pads := Store.put i.pads pos { p with lts := ws.foldl (fun m w => Store.put m w t) p.lts } }).raiseLt a t

/-- The scratchpad of a position of an instance. -/
def State.padAt (s : State) (inst pos : Nat) : Pad := match s.inst? inst with | some i => i.pad pos | none => {}

/-! ### Deferral (24 R389) -/

/-- The tags of a register file's elements contain a tag. -/
def tagsHave (t : Tags) (x : Tag) : Bool := t.any fun y => y.2 = x

/-- A latch carries a tag. -/
def Latch.hasTag (x : Tag) : Latch → Bool
  | .empty => false
  | .vec _ r => tagsHave r.tags x
  | .pair _ lo hi => tagsHave lo.tags x || tagsHave hi.tags x
  | .scal r => r.tag = some x
  | .pred r => tagsHave r.tags x

/-- A register, predicate, latch, accumulator or tile element of the group carries a tag: its entry is in use. -/
def Group.tagUsed (g : Group) (x : Tag) : Bool :=
  let r := g.regs
  r.s.toList.any (fun y => y.tag = some x) || r.v.toList.any (fun y => tagsHave y.tags x) ||
  r.w.toList.any (fun y => tagsHave y.tags x) || r.p.toList.any (fun y => tagsHave y.tags x) ||
  r.latch.toList.any (Latch.hasTag x) || r.acc.toList.any (fun y => y.tag = some x) ||
  g.tiles.toList.any (fun y => tagsHave y.tags x)

/-- The lowest free entry of the deferral table. -/
def Group.freeTag (g : Group) : Option Tag :=
  ((List.range 16).find? fun i => !g.tagUsed (BitVec.ofNat 4 i)).map (BitVec.ofNat 4)

/-- What happens to one element of a load: its bytes as a number, or the cause of its deferral with the virtual address (or the
offset in a scratchpad) for the deferral entry (24 R389), and the address and detail of the trap of a load that finds no free entry
(28 R428). -/
inductive Got where
  | val (v : Nat)
  | defer (c : DeferCause) (va : Nat) (addr : Nat) (info : Nat)
deriving DecidableEq, Repr

/-- The trap that a deferred element raises when no entry is free (24 R389). -/
def Got.trap (e : Nat) : Got → Trap
  | .val _ => { cause := cPoison }
  | .defer c _ addr info => { cause := c.code, xaddr := addr, xinfo := info + e * 2 ^ 16 }

/-- One element read (10 R184 steps 5 and 6): translation failures and poison are deferred; a violation is none. -/
def State.readEl (s : State) (a : Agent) (x : Ctx) (inst : Nat) (sp : Space) (size : Nat) : Place → Except (Nat × Nat) (Got × State)
  | .pad pos o =>
    let p := s.padAt inst pos
    let s1 := s.syncPad a inst pos o size
    if NSet.has p.poison (o / 32) then .ok (.defer .memory o (o / 32 * 32) 0, s1)
    else .ok (.val (ofLeBytes ((List.range size).map fun i => p.byteAt (o + i))), s1)
  | .va va =>
    match s.translate x .read va with
    | .ok pa =>
      match (s.walked x va).loadBytes a (sp = spS) pa size with
      | (some l, s') => .ok (.val (ofLeBytes l), s')
      | (none, s') => .ok (.defer .memory va (pa / 32 * 32) 0, s')
    | .page m l => .ok (.defer .pageFault va va (faultInfo .read m l false false), s.walked x va)
    | .prot u l => .ok (.defer .protection va va (faultInfo .read false l u false), s.walked x va)
    | .poison pa => .ok (.defer .memory va (pa / 32 * 32) 0, s)
    | .violation c ad => .error (c, ad)
    | .wait => .ok (.defer .pageFault va va 0, s)

/-- The elements read one after another. -/
def State.readEls (s : State) (a : Agent) (x : Ctx) (inst : Nat) (sp : Space) (size : Nat) :
    List (Nat × Place) → Except (Nat × Nat) (List (Nat × Got) × State)
  | [] => .ok ([], s)
  | (e, p) :: r =>
    match s.readEl a x inst sp size p with
    | .error v => .error v
    | .ok (g, s') =>
      match s'.readEls a x inst sp size r with
      | .error v => .error v
      | .ok (l, s'') => .ok ((e, g) :: l, s'')

/-- An element with the tag of the instruction's deferral entry; its bits are a free value. -/
def poisoned (n e : Nat) (t : Tag) : Elem := { v := Config.poisonWord n e, tag := some t }

/-- Some element lies on a page under migration: the whole instruction waits (07 R135). -/
def State.held (s : State) (x : Ctx) (acc : Access) (ps : List (Nat × Place)) : Bool :=
  ps.any fun p => match p.2 with | .va a => s.translate x acc a == .wait | .pad .. => false

/-- A deferred element. -/
def Got.deferred : Got → Bool
  | .defer .. => true
  | .val _ => false

/-- The trap of an access whose translation fails (10 R184 step 5). -/
def xlatTrap (acc : Access) (va e : Nat) (rec_ : Bool) : Xlat → Option Trap
  | .page m l => some { cause := cPage, xaddr := va, xinfo := faultInfo acc m l false rec_ + e * 2 ^ 16 }
  | .prot u l => some { cause := cProt, xaddr := va, xinfo := faultInfo acc false l u rec_ + e * 2 ^ 16 }
  | .poison pa => some { cause := cPoison, xaddr := pa / 32 * 32, xinfo := e * 2 ^ 16 }
  | _ => none

/-- A load ahead of a renewal would change something that others see (08 R149). -/
def State.mustWait (s : State) (k : GKey) (g : Group) (ps : List (Nat × Place)) : Bool :=
  g.spec.isSome && ps.any fun p => match p.2 with
    | .va a => match s.translate g.ctx .read a with | .ok pa => s.restless k (lineOf pa) | _ => false
    | .pad .. => false

/-- The first element that step 5 defers (10 R184): a translation fault or a poisoned table entry. -/
def State.failing (s : State) (x : Ctx) (ps : List (Nat × Place)) : Option Trap :=
  ps.findSome? fun p => match p.2 with | .va a => xlatTrap .read a p.1 false (s.translate x .read a) | .pad .. => none

/-- A load of a group (10 R184, 24 R389): what happens to its elements, and where some are affected the one entry of the
deferral table that the instruction takes, whose record names the lowest. With no free entry a translation fault traps, before a
violation of another element (step 5 before step 6). -/
def M.loadGot (k : GKey) (sp : Space) (size : Nat) (pc : Word64) (ps : List (Nat × Place)) :
    M (List (Nat × Got) × Option Tag) := fun s =>
  match s.group? k with
  | none => .error .stall
  | some g =>
    if s.held g.ctx .read ps || s.mustWait k g ps then .error .stall
    else match (if g.freeTag.isNone then s.failing g.ctx ps else none) with
    | some t => .error (.trap t none)
    | none =>
      match s.readEls (.group k) g.ctx g.id.inst sp size ps with
      | .error (c, ad) => .error (.violation c ad none)
      | .ok (l, s1) =>
        match l.find? fun x => x.2.deferred with
        | none => .ok ((l, none), s1)
        | some (e0, d) =>
          match g.freeTag, d with
          | none, _ => .error (.trap (d.trap e0) none)
          | some t, .defer c va _ _ =>
            let entry : Defer := { pc := pc, space := sp, cause := c, addr := BitVec.ofNat 64 va }
            .ok ((l, some t), s1.onGroup k fun g =>
              { g with regs := { g.regs with defer := g.regs.defer.setIfInBounds t.toNat (some entry) } })
          | some _, .val _ => .error .stall

/-- The next number for free values. -/
def M.nonce : M Nat := fun s => .ok (s.nonce, { s with nonce := s.nonce + 1 })

/-- The elements that a load of up to 8 bytes each gives its registers; the affected ones carry the tag. -/
def M.load (k : GKey) (sp : Space) (size : Nat) (pc : Word64) (ps : List (Nat × Place)) : M (List (Nat × Elem)) := do
  let (l, t) ← M.loadGot k sp size pc ps
  match t with
  | none => pure (l.map fun x => (x.1, match x.2 with | .val v => { v := BitVec.ofNat 64 v } | .defer .. => {}))
  | some t =>
    let n ← M.nonce
    pure (l.map fun x => (x.1, match x.2 with
      | .val v => { v := BitVec.ofNat 64 v }
      | .defer .. => poisoned n x.1 t))

/-! ### Stores and read-modify-writes page by page (24 R391) -/

/-- Where an element lies once translated. -/
inductive Spot where
  | pad (pos off : Nat)
  | pa (a : Nat)
deriving DecidableEq, Repr

/-- Steps 5 and 6 of R184 over the elements of one page. -/
def M.xlatPage (x : Ctx) (acc : Access) (ps : List (Nat × Place)) : M (List (Nat × Spot)) := fun s0 =>
  let s := ps.foldl (fun s p => match p.2 with | .va a => s.walked x a | .pad .. => s) s0
  let rs := ps.map fun p => (p.1, p.2, match p.2 with | .va a => s.translate x acc a | .pad .. => .ok 0)
  match rs.findSome? fun r => match r.2.1 with | .va a => xlatTrap acc a r.1 false r.2.2 | .pad .. => none with
  | some t => M.trapKeep t s
  | none =>
    match rs.findSome? fun r => match r.2.2 with | .violation c ad => some (c, ad) | _ => none with
    | some (c, ad) => M.violateKeep c ad s
    | none =>
      if rs.any fun r => r.2.2 == .wait then M.stall s
      else .ok (rs.map fun r => (r.1, match r.2.1, r.2.2 with
        | .pad q o, _ => .pad q o
        | _, .ok pa => .pa pa
        | .va a, _ => .pa a), s)

/-- The page of a place: a scratchpad counts as one. -/
def State.placePage (s : State) (x : Ctx) : Place → Nat
  | .pad .. => 2 ^ 64
  | .va a => s.pageOf x a

/-- Elements grouped by page, pages in the order of their lowest element. -/
def State.byPage (s : State) (x : Ctx) (ps : List (Nat × Place)) : List (List (Nat × Place)) :=
  let at_ := ps.map fun p => (s.placePage x p.2, p)
  ((at_.map (·.1)).eraseDups).map fun q => (at_.filter fun p => p.1 = q).map (·.2)

/-- The elements that the lane-progress mask does not record. -/
def Group.unrecorded (g : Group) (ps : List (Nat × Place)) : List (Nat × Place) :=
  ps.filter fun p => !g.regs.progress.getLsbD p.1

/-- Elements recorded as performed. -/
def recordEls (l : List (Nat × Spot)) (m : PredBits) : PredBits := l.foldl (fun m x => m ||| (1#1024 <<< x.1)) m

/-- The elements of a page recorded as performed, with what they give. -/
def Regs.record (r : Regs) (spots : List (Nat × Spot)) (l : List (Nat × Elem)) : Regs :=
  { r with progress := recordEls spots r.progress, olds := r.olds ++ l.map fun x => (x.1, x.2.v) }

/-- The buffered lines, versions and scoped copies that a group's accesses have reached note under which addresses (24 R386). -/
def State.noteVas (s : State) (k : GKey) (ps : List (Nat × Place)) (spots : List (Nat × Spot)) : State :=
  if s.wc.isEmpty && s.ccopies.isEmpty && s.versions.isEmpty then s
  else
    let at_ (ln : Nat) : List Nat := (ps.zip spots).filterMap fun x =>
      match x.1.2, x.2.2 with
      | .va a, .pa p => if lineOf p = ln then some (a / 128) else none
      | _, _ => none
    let inst := match s.group? k with | some g => g.id.inst | none => 0
    { s with
      versions := match s.ordOf (.group k) with
        | some (la, o) => s.versions.map fun v =>
            if v.launch = la && v.ts = o.ts then { v with vas := (v.vas ++ at_ v.line).eraseDups } else v
        | none => s.versions
      wc := s.wc.map fun w => if w.g = k then { w with vas := (w.vas ++ at_ w.line).eraseDups } else w
      ccopies := s.ccopies.map fun c => if c.ownedBy k inst then { c with vas := (c.vas ++ at_ c.line).eraseDups } else c }

/-- The pages of a per-lane instruction one after another, with what each gives. -/
def M.pagesFrom (k : GKey) (x : Ctx) (acc : Access) (perform : List (Nat × Spot) → M (List (Nat × Elem))) :
    List (List (Nat × Place)) → M (List (Nat × Elem))
  | [] => pure []
  | page :: rest => do
    let spots ← M.xlatPage x acc page
    let a ← perform spots
    M.modify fun s => (s.noteVas k page spots).onGroup k fun g => { g with regs := g.regs.record spots a }
    let b ← M.pagesFrom k x acc perform rest
    pure (a ++ b)

/-- A per-lane instruction that writes memory performs its elements page by page, recording them; the mask clears when
it completes (24 R391). A page under migration holds the whole instruction (07 R135). -/
def M.pages (k : GKey) (x : Ctx) (acc : Access) (ps : List (Nat × Place))
    (perform : List (Nat × Spot) → M (List (Nat × Elem))) : M (List (Nat × Elem)) := do
  let g ← M.group k
  let todo := g.unrecorded ps
  let pages ← fun s => if s.held x acc todo then .error .stall else .ok (s.byPage x todo, s)
  let l ← M.pagesFrom k x acc perform pages
  M.onGroup k fun g => { g with regs := g.regs.clearLanes }
  pure l

/-- The bytes of elements at physical addresses, in the order of the elements. -/
def spotBytes (size : Nat) (val : Nat → Word64) (l : List (Nat × Spot)) : List (Nat × Byte) :=
  l.flatMap fun x => match x.2 with | .pa a => numBytes a size (val x.1).toNat | .pad .. => []

/-- The last of several bytes for one address stands: the higher element supplies it (09 R159). -/
def lastBytes : List (Nat × Byte) → List (Nat × Byte)
  | [] => []
  | x :: r => if r.any fun y => y.1 = x.1 then lastBytes r else x :: lastBytes r

/-- The bytes of elements in scratchpads, by scratchpad and sector, in the order of the elements. -/
def padSectors (size : Nat) (val : Nat → Word64) (l : List (Nat × Spot)) : List ((Nat × Nat) × List (Nat × Byte)) :=
  let here := l.filterMap fun x => match x.2 with
    | .pad q o => some ((q, o / 32), bytesAt o (leBytes size (val x.1).toNat))
    | .pa _ => none
  ((here.map (·.1)).eraseDups).map fun k => (k, (here.filter fun x => x.1 = k).flatMap (·.2))

/-- The bytes of one sector of a scratchpad stored as one operation (09 R159): the words that they touch are synchronised, and a sector
written whole loses its poison. -/
def State.storePad (s : State) (k : GKey) (inst pos : Nat) (l : List (Nat × Byte)) : State :=
  (((l.map fun x => x.1 / 4).eraseDups).foldl (fun s w => s.syncPad (.group k) inst pos (4 * w) 4) s).onPad inst pos fun p => p.put l

/-- Stores of elements, one operation for each sector of memory or of a scratchpad (09 R159). -/
def State.storeSpots (s : State) (k : GKey) (inst : Nat) (sp : Space) (size : Nat) (val : Nat → Word64)
    (l : List (Nat × Spot)) : State :=
  let s1 := (bySector (lastBytes (spotBytes size val l))).foldl
    (fun s b => if sp = spS then s.streamStore k b else s.storeBytes (.group k) b) s
  (padSectors size val l).foldl (fun s x => s.storePad k inst x.1.1 x.2) s1

/-- A scalar access's one place translated (10 R184 steps 5 and 6). -/
def M.spot (x : Ctx) (acc : Access) (p : Place) : M Spot := do
  let l ← M.xlatPage x acc [(0, p)]
  match l with
  | (_, s) :: _ => pure s
  | [] => M.stall

/-! ### Records read through space G (10 R208, 18 R306, 11 R223) -/

/-- Bytes read through space G at issue: a translation fault traps precisely, poison traps POISON_CONSUMED. -/
def M.readRec (k : GKey) (va len : Nat) : M Rec := do
  let g ← M.group k
  let rec go (n : Nat) (va left : Nat) : M Rec :=
    match n with
    | 0 => pure []
    | n + 1 => fun s =>
      let here := min left (32 - va % 32)
      if left = 0 then .ok ([], s)
      else
        let t := s.translate g.ctx .read va
        match xlatTrap .read va 0 true t, t with
        | some tr, _ => .error (.trap tr none)
        | none, .ok pa =>
          match (s.walked g.ctx va).loadBytes (.group k) false pa here with
          | (some l, s') =>
            match go n (va + here) (left - here) s' with
            | .ok (r, s'') => .ok (l ++ r, s'')
            | .error e => .error e
          | (none, s') => .error (.trap { cause := cPoison, xaddr := pa / 32 * 32 } (some s'))
        | none, .violation c ad => .error (.violation c ad none)
        | none, _ => .error .stall
  go (len / 32 + 2) va len

/-! ### Waits (10 R193) -/

/-- The group is suspended in a wait, a switch (03 R63), at which its write-combining lines depart (07 R128). -/
def State.suspend (s : State) (k : GKey) (w : WaitOp) (f : Fields) (limit : Option Nat) (dest : Bool) : State :=
  (s.departWhere fun w => w.g = k).onGroup k fun g => { g with
    regs := g.regs.switchAt dest
    run := .waiting { op := w, f := f, start := s.cyc, since := s.time, limit := limit } }

/-- The timeout operand of a wait: none without one, a count of clocks, or poison (10 R193). -/
def M.timeout (g : Group) (f : Fields) (sel : Sel) : M (Option Nat) :=
  match sel with
  | .v _ => pure none
  | _ => do
    let w ← M.clean (g.ssrc f true sel)
    pure (some w.toNat)

/-- The timeout predicate: zeros when the condition was met, ones when the timeout passed first. -/
def M.setPt (k : GKey) (i : Nat) (timedOut : Bool) : M Unit :=
  M.onGroup k fun g => { g with regs := g.regs.pfill i timedOut }

/-- An acquire: lt rises to the releaser's (08 R145). -/
def M.acquire (k : GKey) (lt : Nat) : M Unit :=
  M.onGroup k fun g => { g with regs := g.regs.acquire lt }

/-! ### Timelines (02 R31) and engine commands (10 R205) -/

/-- The largest n such that every number up to it has finished, from a count on. -/
def doneFrom (fin : Store Nat) : Nat → Nat → Nat
  | 0, n => n
  | f + 1, n => if (Store.get? fin (n + 1)).isSome then doneFrom fin f (n + 1) else n

/-- A number finishes. -/
def Timeline.finish (t : Timeline) (n lt : Nat) (failed : Bool) : Timeline :=
  let fin := Store.put t.fin n lt
  { t with
    fin := fin
    done := BitVec.ofNat 64 (doneFrom fin (fin.length + 1) t.done.toNat)
    err := t.err || failed }

/-- The largest logical time of the commands numbered n or below. -/
def Timeline.ltOf (t : Timeline) (n : Nat) : Nat := (t.fin.filter fun x => x.1 ≤ n).foldl (fun m x => max m x.2) 0

/-- An event that ends the SLEEP of a group has come (22 R363). -/
def Group.nudged (g : Group) : Group :=
  match g.run with
  | .waiting w => match w.op with
    | .sleep => { g with run := .waiting { w with hit := true } }
    | _ => g
  | _ => g

/-- SLEEP of the groups that satisfy a test ends early (22 R363). -/
def State.nudge (s : State) (p : Group → Bool) : State :=
  { s with groups := s.groups.map fun x => (x.1, if p x.2 then x.2.nudged else x.2) }

/-- The same of the groups in shadow storage: they go on when their context is resident again. -/
def State.nudgeAway (s : State) (p : Group → Bool) : State :=
  { s with parts := s.parts.map fun q =>
      (q.1, { q.2 with shadow := { q.2.shadow with
        groups := q.2.shadow.groups.map fun x => (x.1, if p x.2 then x.2.nudged else x.2) } }) }

/-- A command's number finishes on its group's timeline, with its Trail record (25 R405). -/
def State.advance (s : State) (k : GKey) (tl n lt : Nat) (failed : Bool) : State :=
  match s.group? k with
  | none => s
  | some g =>
    let t0 := vget g.tl tl {}
    let t := t0.finish n lt failed
    let s1 := s.setGroup k { g with tl := g.tl.setIfInBounds tl t }
    if t.done = t0.done then s1
    else (s1.nudge fun x => x.id.key = k).trail (keyCore k) k.rs.toNat 4 t.err.toNat (t.done.toNat % 2 ^ 48 * 2 ^ 16 + tl)

/-- The unfinished commands of a group. -/
def State.cmdsOf (s : State) (k : GKey) : List Cmd :=
  s.cmds.filter fun c => match c.key with | .group g _ _ => g = k | .queue .. => false

/-- The unfinished commands of a partition, COPY packets and those of a swapped-out context included (25 R395). -/
def State.cmdsOfPart (s : State) (p : Nat) : Nat :=
  (s.cmds.filter fun c => c.part.toNat = p).length + match s.part? p with | some x => x.shadow.cmds.length | none => 0

/-- A deadline miss of a group (07 R131). -/
def Group.miss (g : Group) : Group := { g with dlm := if g.dlm = BitVec.allOnes 32 then g.dlm else g.dlm + 1 }

/-- The data of a request arrive: later than its stamp, they count the one miss of its instruction, while the group that issued it
stands in its slot (07 R131). -/
def State.arrived (s : State) (r : DramReq) : State :=
  match r.g with
  | none => s
  | some k =>
    if r.stamp < s.cyc.toNat && (s.group? k).any r.of then
      let same (x : DramReq) : Bool := x.g = some k && x.who = r.who && x.ins = r.ins
      let counted (x : DramReq) : DramReq := if same x then { x with g := none } else x
      let queue (q : Nat × DramQueue) : Nat × DramQueue :=
        (q.1, { q.2 with reqs := q.2.reqs.map counted, held := q.2.held.map counted })
      { s with dram := s.dram.map queue, served := s.served.filter fun x => !same x }.onGroup k Group.miss
    else s

/-- The issue of an engine command (10 R205): the gates, at most 64 unfinished commands of the group and the quota of
its partition; the command takes the next number of its timeline and is a release of the group's earlier accesses. -/
def M.issue (k : GKey) (tl : Nat) (op : BitVec 8) (kind : CmdKind) (total : Nat) : M Word64 := do
  M.gate k
  fun s =>
    match s.group? k with
    | none => .error .stall
    | some g =>
      let quota := match s.part? g.id.part.toNat with | some p => p.engQuota | none => 0
      if 64 ≤ (s.cmdsOf k).length || quota ≤ s.cmdsOfPart g.id.part.toNat then .error .stall
      else
        let t := vget g.tl tl {}
        let n := t.issued + 1
        let c : Cmd :=
          { key := .group k (BitVec.ofNat 4 tl) n, kind := kind, part := g.id.part, asid := g.id.asid, sup := g.id.sup,
            inst := g.id.inst, lin := g.id.lin, segs := g.segs, spd := g.id.spd, fs := g.id.fs, seed := g.id.seed,
            fcr := g.regs.fcr, total := total, cls := g.svc.setWidth 2, stamp := stampOf s.cyc g.svc, lt := g.regs.lt, lt0 := g.regs.lt, op := op }
        let s1 := (s.setGroup k { g with tl := g.tl.setIfInBounds tl { t with issued := n } })
        .ok (n, { s1 with cmds := s1.cmds ++ [c] }.trail (keyCore k) k.rs.toNat 3 op.toNat
          (n.toNat % 2 ^ 48 * 2 ^ 16 + tl))

/-- The slot of a group that has ended becomes free once its commands have finished, its matrix queue is empty, and its
versions have committed (22 R361); what it held is left there until a group is placed in the slot (log 62). -/
def State.reap (s : State) (k : GKey) : State :=
  match s.group? k with
  | none => s
  | some g =>
    if g.run == .ended && g.mq.isEmpty && (s.cmdsOf k).isEmpty && (match g.ord with | some o => o.committed | none => true)
    then { s with groups := Store.del s.groups (keyCode k), left := Store.put s.left (keyCode k) g } else s

/-- A command finishes (09 R172): its number finishes on its timeline with the largest timestamp it wrote, which joins that of its
launch (20 R340); finishing after its stamp counts one miss (07 R131). -/
def State.finishCmd (s : State) (c : CKey) (failed : Bool) : State :=
  match s.cmd? c with
  | none => s
  | some x =>
    let s1 := { s with cmds := s.cmds.filter fun y => y.key != c }
    match c with
    | .group k tl n =>
      let s2 := s1.advance k tl.toNat n.toNat x.lt.toNat failed
      let s3 := if x.stamp < s.cyc.toNat then s2.onGroup k Group.miss else s2
      let s4 := match s.inst? x.inst with
        | some i => s3.onLaunch i.launch fun l => { l with lt := maxLt l.lt x.lt.toNat }
        | none => s3
      s4.reap k
    | .queue .. => s1

/-- A null command, or a command with nothing to do, takes a number and finishes at once (10 R199, R207). -/
def M.nullCmd (k : GKey) (tl : Nat) (op : BitVec 8) : M Word64 := do
  let n ← M.issue k tl op .null 0
  M.modify fun s => s.finishCmd (.group k (BitVec.ofNat 4 tl) n) false
  pure n

end Sys2Proof.Machine
end

