-- ==== Sys2Proof/Machine/VectorFloat.lean ====
section
/-!
DEFINITION. Vector floating-point instructions (17 R277 to R292).
-/
namespace Sys2Proof.Machine
open Sys2Proof

/-- The width of a part of a floating-point type. -/
def fpW (t : BitVec 3) : Nat := (fmtOf t).width
/-- The parts of an element of a floating-point type. -/
def fpN (t : BitVec 3) : Nat := if t < 2 then 1 else 2

/-- The parts of a result joined, the lowest first, with the flags of all. -/
def joinFl (w : Nat) : List (Nat × Fl) → Nat × Fl
  | [] => (0, 0)
  | (x, fl) :: r => let y := joinFl w r; (x + 2 ^ w * y.1, fl ||| y.2)

/-- An element of a floating-point result. -/
def felem (x : Nat × Fl) (tags : List (Option Tag)) : Elem :=
  { v := BitVec.ofNat 64 x.1, tag := firstTag tags, fl := x.2 }

/-- A floating-point source. -/
def Group.fsrc (g : Group) (f : Fields) (s : Sel) (e : Nat) : Elem := g.vsrc f (.f f.t) s e

/-- A floating-point instruction of one, two or three sources, part by part; the operation gets the format, the mode, the
draw and the codes. -/
def vfloat (i : Instr) (n : Nat) (op : Fields → Fmt → Rm → Nat → Nat → Nat → Nat → Nat × Fl) (s : State) : Out :=
  runRegs i (fun f g =>
    let mode := g.rm f.m
    let w := fpW f.t
    let res (e : Nat) : Elem :=
      let a := g.fsrc f f.a e
      let b := if 2 ≤ n then g.fsrc f f.b e else {}
      let c := if 3 ≤ n then g.fsrc f f.c e else {}
      let part (j : Nat) : Nat × Fl :=
        op f (fmtOf f.t) mode (g.draw mode e j) (unpackNat w a.v.toNat j) (unpackNat w b.v.toNat j) (unpackNat w c.v.toNat j)
      felem (joinFl w ((List.range (fpN f.t)).map part)) [a.tag, b.tag, c.tag]
    .ok (g.vresult f (f.t == 1) (writesOf (g.active f) res))) s

/-- VFADD (17 R281). -/
def execVfadd (f : Fields) (s : State) : Out := vfloat (.vfadd f) 2 (fun _ F m r a b _ => fpAdd false F m r a b) s
/-- VFSUB (17 R281). -/
def execVfsub (f : Fields) (s : State) : Out := vfloat (.vfsub f) 2 (fun _ F m r a b _ => fpAdd true F m r a b) s
/-- VFMUL (17 R281). -/
def execVfmul (f : Fields) (s : State) : Out := vfloat (.vfmul f) 2 (fun _ F m r a b _ => fpMul F m r a b) s
/-- VFMA (17 R281). -/
def execVfma (f : Fields) (s : State) : Out := vfloat (.vfma f) 3 (fun f F m r a b c => fpFma f.fn F m r a b c) s
/-- VFDIV (17 R281). -/
def execVfdiv (f : Fields) (s : State) : Out := vfloat (.vfdiv f) 2 (fun _ F m r a b _ => fpDiv F m r a b) s
/-- VFSQRT (17 R281). -/
def execVfsqrt (f : Fields) (s : State) : Out := vfloat (.vfsqrt f) 1 (fun _ F m r a _ _ => fpSqrt F m r a) s
/-- VFMNX (17 R284). -/
def execVfmnx (f : Fields) (s : State) : Out := vfloat (.vfmnx f) 2 (fun f F _ _ a b _ => vfMinMax f.fn F a b) s
/-- VFSGN (17 R285): bit operations that set no flag. -/
def execVfsgn (f : Fields) (s : State) : Out :=
  vfloat (.vfsgn f) (if f.fn = 1 then 1 else 2) (fun f F _ _ a b _ => (fpSign f.fn F a b, 0)) s

/-- The parts that a comparison or a class test looks at (17 R286). -/
def partsOf (f : Fields) : List Nat :=
  if f.t < 2 || f.x = 0 then [0] else if f.x = 1 then [1] else [0, 1]

/-- A predicate result with the flags of the parts looked at: both parts under .BOTH, else any of them. -/
def vfPred (g : Group) (f : Fields) (res : Nat → List (Bool × Fl) × Option Tag) : Group :=
  let act := g.active f
  let one (l : List (Bool × Fl)) : Bool := if f.x = 2 then l.all (·.1) else l.any (·.1)
  let all := allElems.map fun e => if act e then some (res e) else none
  let at_ (e : Nat) : Bool × Option Tag :=
    match all.getD e none with | some (l, t) => (one l, t) | none => (false, none)
  let fls := all.map fun x => match x with
    | some (l, none) => l.foldl (fun x y => x ||| y.2) (0 : Fl)
    | _ => 0
  let r1 := g.regs.pdst f.d act at_
  { g with regs := { r1 with flags := raiseFlags g.regs.flags (f.q || g.regs.fcr.getLsbD 3) fls } }

/-- VFCMP (17 R286). -/
def execVfcmp (f : Fields) (s : State) : Out :=
  runRegs (.vfcmp f) (fun f g =>
    let w := fpW f.t
    let res (e : Nat) : List (Bool × Fl) × Option Tag :=
      let a := g.fsrc f f.a e
      let b := g.fsrc f f.b e
      ((partsOf f).map fun j => fpCmp f.fn (fmtOf f.t) (unpackNat w a.v.toNat j) (unpackNat w b.v.toNat j),
        firstTag [a.tag, b.tag])
    .ok (vfPred g f res)) s

/-- VFCLS (17 R287). -/
def execVfcls (f : Fields) (s : State) : Out :=
  runRegs (.vfcls f) (fun f g =>
    let w := fpW f.t
    let b := g.ssrc f true f.b
    let res (e : Nat) : List (Bool × Fl) × Option Tag :=
      let a := g.fsrc f f.a e
      ((partsOf f).map fun j => (b.val.getLsbD (fpClass (fmtOf f.t) (unpackNat w a.v.toNat j)), 0), firstTag [a.tag, b.tag])
    .ok (vfPred g f res)) s

/-- VFSCL (17 R288): n is one 32-bit register read as I32, or its 16-bit parts. -/
def execVfscl (f : Fields) (s : State) : Out :=
  runRegs (.vfscl f) (fun f g =>
    let mode := g.rm f.m
    let w := fpW f.t
    let nw := if f.t < 2 then 32 else 16
    let res (e : Nat) : Elem :=
      let a := g.fsrc f f.a e
      let b := g.vsrc f (.i (if f.t < 2 then 0 else 2)) f.b e
      let part (j : Nat) : Nat × Fl :=
        fpScale (fmtOf f.t) mode (g.draw mode e j) (unpackNat w a.v.toNat j) (toSigned nw (unpackNat nw b.v.toNat j))
      felem (joinFl w ((List.range (fpN f.t)).map part)) [a.tag, b.tag]
    .ok (g.vresult f (f.t == 1) (writesOf (g.active f) res))) s

/-- VFEXP (17 R289). -/
def execVfexp (f : Fields) (s : State) : Out := vfloat (.vfexp f) 1 (fun _ F m r a _ _ => fpExp2 F m r a) s
/-- VFLOG (17 R289). -/
def execVflog (f : Fields) (s : State) : Out := vfloat (.vflog f) 1 (fun _ F m r a _ _ => fpLog2 F m r a) s
/-- VFRND (17 R290). -/
def execVfrnd (f : Fields) (s : State) : Out := vfloat (.vfrnd f) 1 (fun _ F m r a _ _ => fpRint F m r a) s
/-- VFXP (17 R291). -/
def execVfxp (f : Fields) (s : State) : Out := vfloat (.vfxp f) 1 (fun f F _ _ a _ _ => fpParts f.fn F a) s

/-- RDFL (17 R292). -/
def execRdfl (f : Fields) (s : State) : Out :=
  runRegs (.rdfl f) (fun f g =>
    .ok (g.vresult f false (writesOf (g.active f) fun e => { v := (flagsAt g.regs.flags e).setWidth 64 }))) s

/-- CLFL (17 R292): its mask is consumed (17 R280). -/
def execClfl (f : Fields) (s : State) : Out :=
  runRegs (.clfl f) (fun f g =>
    let a := g.ssrc f true f.a
    match a.tag with
    | some t => .error (poisonTrap t)
    | none =>
      let act := predBits (allElems.map (g.active f))
      .ok { g with regs := { g.regs with flags := clearFlags g.regs.flags (a.val.setWidth 6) act } }) s

end Sys2Proof.Machine
end

