-- ==== Sys2Proof/Machine/Agate.lean ====
section
/-!
DEFINITION. Agate accumulators (16): addends, merges, rounding, images, and the instructions of opcodes 0xA0 to 0xA7.
-/
namespace Sys2Proof.Machine
open Sys2Proof

/-! ### The accumulator (16 R262 to R267) -/

/-- The largest payload; the least is its complement. -/
def accMax : Int := 2 ^ 4287 - 1

/-- A finite payload put in, leaving FINITE for OVERFLOW beyond the range. -/
def Acc.setPayload (a : Acc) (x : Int) : Acc :=
  if x < -accMax - 1 || accMax < x then { a with st := .overflow, payload := 0 } else { a with payload := x }

/-- The class of an addend. -/
def classOf : Exact → AccState
  | .nan => .nan
  | .inf neg => if neg then .negInf else .posInf
  | .num .. => .finite

/-- An exact addend in units of 2^-2148. -/
def unitsOf : Exact → Int
  | .num neg m e _ => signedM neg (m * 2 ^ (e + 2148).toNat)
  | _ => 0

/-- The addend is -0. -/
def isNegZero : Exact → Bool
  | .num neg m _ _ => neg && m = 0
  | _ => false

/-- add (16 R263). -/
def Acc.add (a : Acc) (v : Exact) (tag : Option Tag) : Acc :=
  match tag with
  | some t => { a with tag := firstTag [a.tag, some t] }
  | none =>
    let wasNz := a.nz || !a.ne
    let b := { a with ne := true, nz := wasNz && isNegZero v, st := joinSt a.st (classOf v) }
    if b.st = .finite then b.setPayload (a.payload + unitsOf v) else { b with payload := 0 }

/-- merge (16 R265). -/
def Acc.merge (a b : Acc) : Acc :=
  let ne := a.ne || b.ne
  let c := { a with
    tag := firstTag [a.tag, b.tag]
    ne := ne
    nz := (a.nz || !a.ne) && (b.nz || !b.ne) && ne
    st := joinSt a.st b.st }
  if c.st = .finite then c.setPayload (a.payload + b.payload) else { c with payload := 0 }

/-- grnd (16 R267): the code, and whether it is the canonical NaN. -/
def Acc.round (a : Acc) (F : Fmt) (mode : Rm) (rnd : Nat) : Nat × Bool :=
  match a.st with
  | .finite =>
    if a.payload = 0 then (encodeFp F (a.ne && a.nz) 0 0, false)
    else ((roundTo F mode rnd (.num (a.payload < 0) a.payload.natAbs (-2148) false)).1, false)
  | .posInf => (F.infCode false, false)
  | .negInf => (F.infCode true, false)
  | _ => (F.nanCode, true)

/-- STATE (16 R268). -/
def AccState.code : AccState → Nat
  | .finite => 0
  | .posInf => 1
  | .negInf => 2
  | .nan => 3
  | .overflow => 4

/-- The state of a code 0 to 4. -/
def stateOf (n : Nat) : AccState :=
  if n = 0 then .finite else if n = 1 then .posInf else if n = 2 then .negInf else if n = 3 then .nan else .overflow

/-- The status word (16 R273). -/
def Acc.status (a : Acc) : Nat :=
  let low := a.st.code + 8 * a.ne.toNat + 16 * a.nz.toNat
  if a.st = .finite && a.payload != 0 then
    low + 2 ^ 32 * wrap 16 ((log2 a.payload.natAbs : Int) - 2148) + 2 ^ 48 * (decide (a.payload < 0)).toNat
  else low + 2 ^ 32 * 0x8000

/-! ### Images (16 R268, R269) -/

/-- The bytes of an image. -/
def imageLen : Nat := 544

/-- The image of an accumulator. -/
def Acc.image (a : Acc) : Rec :=
  leBytes 8 (a.st.code + 8 * a.ne.toNat + 16 * a.nz.toNat) ++ leBytes 536 (wrap 4288 a.payload)

/-- The image is legal (16 R269). -/
def imageOk (l : Rec) : Bool :=
  let h := recNat l 0 8
  let p := toSigned 4288 (recNat l 8 536)
  let ne := bitNat h 3 = 1
  let nz := bitNat h 4 = 1
  let fin := h % 8 = 0
  h < 32 && h % 8 ≤ 4 && (fin || p = 0) && (ne || (fin && p = 0 && !nz)) && (!nz || (ne && fin && p = 0))

/-- An image read; an illegal one is NAN with NE. -/
def readImage (l : Rec) : Acc :=
  let h := recNat l 0 8
  if imageOk l then
    { payload := toSigned 4288 (recNat l 8 536), st := stateOf (h % 8), ne := bitNat h 3 = 1, nz := bitNat h 4 = 1 }
  else { st := .nan, ne := true }

/-- What stands in an accumulator whose image was deferred (16 R274): free in its state, its bits and its payload, within
R262. -/
def Acc.unspecified (n m : Nat) (t : Option Tag) : Acc :=
  let c := Config.accAfterDefer n m
  let pay := toSigned 4288 (wrap 4288 (c / 32))
  let ne := bitNat c.toNat 3 = 1
  let st : AccState := if !ne then .finite else
    match c.toNat % 8 with | 1 => .posInf | 2 => .negInf | 3 => .nan | 4 => .overflow | _ => .finite
  let fin := st == .finite
  { payload := if fin && ne then pay else 0, st := st, ne := ne, nz := ne && fin && pay == 0 && bitNat c.toNat 4 = 1, tag := t }

/-! ### The accumulators of a group -/

/-- Accumulator k of member m. -/
def Regs.accAt (r : Regs) (m k : Nat) : Acc := vget r.acc (16 * m + k) {}
/-- Accumulator k of member m put in place. -/
def Regs.setAcc (r : Regs) (m k : Nat) (a : Acc) : Regs := { r with acc := r.acc.setIfInBounds (16 * m + k) a }
/-- The accumulator number. -/
def accK (f : Fields) : Nat := f.x.toNat % 16
/-- The accumulator is within the group's allocation (02 R34). -/
def accOk (g : Group) (f : Fields) : Bool := accK f < g.id.agates

/-- A change to accumulator k of each of some members. -/
def Group.mapAcc (g : Group) (k : Nat) (ms : List Nat) (h : Nat → Acc → Acc) : Group :=
  { g with regs := ms.foldl (fun r m => r.setAcc m k (h m (r.accAt m k))) g.regs }

/-- GCLR (16 R271). -/
def execGclr (f : Fields) (s : State) : Out :=
  runRegs (.gclr f) (fun f g => .ok (g.mapAcc (accK f) g.members fun _ _ => {})) s { ok5 := accOk }

/-- The addends of an instruction folded into the members' accumulators, lanes rising. -/
def foldAddends (f : Fields) (g : Group) (v : Nat → Exact × Option Tag) : Group :=
  let act := g.active f
  g.mapAcc (accK f) g.members fun m a =>
    (((List.range g.lanes).map (m * g.lanes + ·)).filter act).foldl (fun a e => let (x, t) := v e; a.add x t) a

/-- GADD (16 R271). -/
def execGadd (f : Fields) (s : State) : Out :=
  runRegs (.gadd f) (fun f g => .ok (foldAddends f g fun e =>
    let a := g.fsrc f f.a e
    ((decodeFp (fmtOf f.t) a.v.toNat).exact, a.tag))) s { ok5 := accOk }

/-- GDOT (16 R271). -/
def execGdot (f : Fields) (s : State) : Out :=
  runRegs (.gdot f) (fun f g => .ok (foldAddends f g fun e =>
    let a := g.fsrc f f.a e
    let b := g.fsrc f f.b e
    ((mulX (decodeFp (fmtOf f.t) a.v.toNat).exact (decodeFp (fmtOf f.t) b.v.toNat).exact).1, firstTag [a.tag, b.tag]))) s
    { ok5 := accOk }

/-- GRND (16 R272): under SR one draw for the member. -/
def execGrnd (f : Fields) (s : State) : Out :=
  runRegs (.grnd f) (fun f g =>
    let mode := g.rm f.m
    let act := g.active f
    let r := (List.range g.id.mcount).map fun m =>
      let a := g.regs.accAt m (accK f)
      (a.round (fmtOf f.t) mode (g.draw mode (m * g.lanes) 0), a.tag)
    let at_ (e : Nat) : (Nat × Bool) × Option Tag := r.getD (g.slotOf e) ((0, false), none)
    let g1 := g.vresult f (f.t == 1) (writesOf act fun e => { v := BitVec.ofNat 64 (at_ e).1.1, tag := (at_ e).2 })
    let pv := match f.c with | .v i => i.toNat | _ => 0
    .ok { g1 with regs := g1.regs.pbits pv act fun e => ((at_ e).1.2, (at_ e).2) }) s { ok5 := accOk }

/-- GSTAT (16 R273). -/
def execGstat (f : Fields) (s : State) : Out :=
  runRegs (.gstat f) (fun f g =>
    let word (m : Nat) : Word64 × Option Tag :=
      let a := g.regs.accAt m (accK f)
      (BitVec.ofNat 64 a.status, a.tag)
    if f.dScalar then
      let (v, t) := match g.lowest with | some m => word m | none => (0, none)
      .ok { g with regs := g.regs.sdst f.d { val := v, tag := t } }
    else
      let r := (List.range g.id.mcount).map word
      .ok (g.vresult f true (writesOf (g.active f) fun e =>
        let x := r.getD (g.slotOf e) (0, none)
        { v := x.1, tag := x.2 }))) s { ok5 := accOk }

/-! ### Images in memory (16 R274 to R276) -/

/-- img(m) and its checks, steps 2 to 4 of 10 R184, for the members set in mk: the place of each image. Every address is a
multiple of `align`. -/
def M.images (g : Group) (f : Fields) (align : Nat) (writes : Bool) : M (List (Nat × Place)) := do
  let a ← M.clean (g.ssrc f true f.a)
  let i ← M.inst g
  let base := a + sext32 f.i32
  let els : List El := g.members.map fun m =>
    { e := m, off := if f.m = spM then base else base + BitVec.ofNat 64 (1024 * m), gmi := (vget g.regs.gmi m 0).toNat }
  let ps : List (Nat × Nat × Place) ← M.lift (els.mapM fun x =>
    match placeOf g.segs i (g.pos i) f.m imageLen x.off x.gmi with
    | .ok (a, p) => .ok (x.e, a, p)
    | .error k => .error { cause := cSegment, xaddr := x.off.toNat, xinfo := k + x.e * 2 ^ 16 })
  match ps.find? fun x => x.2.1 % align != 0 with
  | some x => M.trap { cause := cMisaligned, xaddr := x.2.1, xinfo := imageLen % 2 ^ 8 + x.1 * 2 ^ 16 }
  | none =>
    let l : List (Nat × Place) := ps.map fun x => (x.1, x.2.2)
    match (writes && f.m == spK), l with
    | true, (e, .va a) :: _ => M.trap { cause := cProt, xaddr := a, xinfo := 1 + e * 2 ^ 16 }
    | _, _ => pure l

/-- The 17 sectors of images. -/
def imageSectors (l : List (Nat × Place)) : List (Nat × Place) :=
  l.flatMap fun x => (List.range 17).map fun j =>
    (x.1, match x.2 with | .pad p o => .pad p (o + 32 * j) | .va a => .va (a + 32 * j))

/-- The images of the members as a load gives them, one of them none where a sector was deferred, with its tag. -/
def M.loadImages (k : GKey) (g : Group) (f : Fields) : M (List (Nat × Option Acc) × Option Tag) := do
  let l ← M.images g f 32 false
  let (got, t) ← M.loadGot k f.m 32 (g.regs.pc - BitVec.ofNat 64 f.len) (imageSectors l)
  let image (m : Nat) : Option Acc :=
    let mine := got.filter fun x => x.1 = m
    if mine.any fun x => x.2.deferred then none
    else some (readImage (mine.flatMap fun x => match x.2 with | .val v => leBytes 32 v | .defer .. => []))
  pure (l.map fun x => (x.1, image x.1), t)

/-- The accumulators of a writing form: a poisoned one is consumed at step 1. -/
def M.accsClean (g : Group) (f : Fields) : M Unit :=
  match g.members.findSome? fun m => (g.regs.accAt m (accK f)).tag.map fun t => (m, t) with
  | some (m, t) => M.trap (poisonTrap t m)
  | none => pure ()

/-- GST (16 R275): every image is checked before one is written. -/
def execGst (f : Fields) (s : State) : Out :=
  runM (.gst f) (fun f k => do
    M.noSpec k
    M.noFence k
    let g ← M.group k
    M.accsClean g f
    let l ← M.images g f 32 true
    M.room k f.m
    let spots ← M.xlatPage g.ctx .write (imageSectors l)
    let bytes := g.members.flatMap fun m => (List.range 17).map fun j =>
      (((g.regs.accAt m (accK f)).image).drop (32 * j)).take 32
    M.modify fun s => (spots.zip bytes).foldl (fun s x => match x.1.2 with
      | .pad q o => (s.syncPad (.group k) g.id.inst q o 32).onPad g.id.inst q fun p => p.put (bytesAt o x.2)
      | .pa a =>
        let b := bytesAt a x.2
        s.storeBytes (.group k) b) s) s
    { ok5 := accOk }

/-- GLD (16 R275). -/
def execGld (f : Fields) (s : State) : Out :=
  runM (.gld f) (fun f k => do
    M.noFence k
    let g ← M.group k
    let (l, t) ← M.loadImages k g f
    let n ← M.nonce
    M.onGroup k fun g => l.foldl (fun g x =>
      g.mapAcc (accK f) [x.1] fun _ _ => match x.2 with | some a => a | none => .unspecified n x.1 t) g) s
    { ok5 := accOk }

/-- GMRG into a register (16 R276). -/
def execGmrg (f : Fields) (s : State) : Out :=
  runM (.gmrg f) (fun f k => do
    M.noFence k
    let g ← M.group k
    let (l, t) ← M.loadImages k g f
    let n ← M.nonce
    M.onGroup k fun g => l.foldl (fun g x =>
      g.mapAcc (accK f) [x.1] fun _ a => match x.2 with
        | some b => a.merge b
        | none => .unspecified n x.1 t) g) s
    { ok5 := accOk }

/-- One line of an image operated on at its home, with one timestamp (11 R221): recalled, its copies there and in the tower of the
group that asks invalidated, and written. -/
def State.homeLine (s : State) (a : Agent) (ln : Nat) (m : BitVec 128) : State :=
  let h := s.homeIn ln
  let op (l : Line) : Line :=
    let l1 := l.homeOp h (!l.uncached) m
    match a.tower? with
    | some t => if h.tower = some t then l1 else l1.delDir t
    | none => l1
  (s.onLine ln op).stamp a ln

/-- An accumulator merged into an image at its home as one read-modify-write over all its lines; a poisoned sector marks
all of them (16 R276). -/
def State.mergeImage (s : State) (by_ : Agent) (pa : Nat) (a : Acc) : State :=
  let lines := (List.range 5).map fun i => lineOf pa + i
  let ready (s : State) (ln : Nat) : State :=
    ((((s.ask by_ ln).mergeLine by_ ln).drainOwn by_ ln).ownOut by_ ln).remoteNews ln
  let (failed, s1) := (lines.foldl ready s).meets by_ pa
  let secs := (List.range 17).map fun j => pa + 32 * j
  let mask (ln : Nat) : BitVec 128 := if ln = lineOf pa + 4 then spanMask pa 32 else BitVec.allOnes 128
  if failed || secs.any s1.lostAt then s1
  else
    let s2 := lines.foldl (fun s ln => s.homeLine by_ ln (mask ln)) s1
    if secs.any s1.poisonAt then secs.foldl State.markPoison s2
    else
      let old := (List.range imageLen).map fun i => s1.byteAt (pa + i)
      let new := ((readImage old).merge { a with tag := none }).image
      s2.putBytes (bytesAt pa new)

/-- The same in a scratchpad, as one operation. -/
def State.mergePadImage (s0 : State) (k : GKey) (inst pos off : Nat) (a : Acc) : State :=
  let s := s0.syncPad (.group k) inst pos off imageLen
  let p := s.padAt inst pos
  let secs := (List.range 17).map fun j => off / 32 + j
  if secs.any (NSet.has p.poison) then s.onPad inst pos fun p => { p with poison := secs.foldl NSet.add p.poison }
  else
    let old := (List.range imageLen).map fun i => p.byteAt (off + i)
    let new := ((readImage old).merge { a with tag := none }).image
    s.onPad inst pos fun p => p.put (bytesAt off new)

/-- GMRG.MEM (16 R276): every image is checked before one is merged. -/
def execGmrgMem (f : Fields) (s : State) : Out :=
  runM (.gmrgMem f) (fun f k => do
    M.noSpec k
    M.noFence k
    let g ← M.group k
    M.accsClean g f
    let l ← M.images g f (if f.m = spG || f.m = spM then 1024 else 32) true
    let spots ← M.xlatPage g.ctx .rmw l
    M.modify fun s => spots.foldl (fun s x =>
      let a := g.regs.accAt x.1 (accK f)
      match x.2 with
      | .pad q o => s.mergePadImage k g.id.inst q o a
      | .pa pa => s.mergeImage (.group k) pa a) s) s
    { ok5 := accOk }

end Sys2Proof.Machine
end

