-- ==== Sys2Proof/Machine/Fetch.lean ====
section
/-!
DEFINITION. Instruction fetch (03 R45 to R49) and the first checks of the decode order (03 R65).
-/
namespace Sys2Proof.Machine
open Sys2Proof

/-- What a fetch gives. -/
inductive Fetched where
  | instr (i : Instr)
  | trap (t : Trap)
  | violation (code addr : Nat)
  | wait
deriving DecidableEq, Repr

/-- The bytes from an address to the end of its 32-byte fetch block. Where the block was written during the launch, the newest value
is fetched, partials included: the spec allows every value since the start of the launch (03 R49, log 66). -/
def State.blockBytes (s : State) (pa : Nat) : List Byte := (List.range (32 - pa % 32)).map fun i => s.valueAt (pa + i)

/-- A fetch is an access to its line, which ends P (08 R153). -/
def State.fetched (s : State) (g : Group) : State :=
  if s.lines.all fun x => x.2.pot.isNone then s
  else match s.translate g.ctx .fetch g.regs.pc.toNat with
    | .ok pa => s.mergeLine .ext (lineOf pa)
    | _ => s

/-- The first 64 bits of an instruction word for XINFO: zero when the fetch block is crossed (28 R428). -/
def firstWord (l : List Byte) (crossed : Bool) : Nat := if crossed || l.length < 8 then 0 else ofLeBytes (l.take 8)

/-- The instruction crosses its fetch block (03 R46). -/
def crosses (l : List Byte) : Bool :=
  match l with
  | [] => true
  | b :: _ => match lengthOf b with | some n => l.length < n | none => false

/-- Fetch and decode at the group's program counter: PAGE_FAULT, PROTECTION or POISON_CONSUMED (03 R48), then steps 1 to
4 of R65. -/
def State.fetch (s : State) (g : Group) : Fetched :=
  let pc := g.regs.pc.toNat
  let t := s.translate g.ctx .fetch pc
  match xlatTrap .fetch pc 0 false t, t with
  | some tr, _ => .trap tr
  | none, .ok pa =>
    if s.poisonAt pa then .trap { cause := cPoison, xaddr := pa / 32 * 32 }
    else
      let l := s.blockBytes pa
      match decode l with
      | .ok i => .instr i
      | .error .opcode => .trap { cause := cOpcode, xinfo := firstWord l false }
      | .error .encoding => .trap { cause := cEncoding, xinfo := firstWord l (crosses l) }
  | none, .violation c a => .violation c a
  | none, _ => .wait

/-- The group is suspended, frozen or preempted: it stands at a switch point. -/
def Group.stopped (g : Group) : Bool := g.run != .ready || g.frozen.isSome || g.preempted

/-- An instruction names a latch. -/
def latched (i : Instr) : Bool :=
  match row i, fields i with
  | some r, some f => namesLatch r f
  | _, _ => false

/-- A selector A, B or C of the first 64 bits of a word names a latch (03 R50, R52). -/
def rawLatch (w : Nat) : Bool := [22, 30, 38].any fun b => 0xE0 ≤ w / 2 ^ b % 256 && w / 2 ^ b % 256 ≤ 0xE3

/-- The group stands at a switch point: its next instruction names no latch; before a NOP, the last instruction that was
none was a switch point (03 R63). DESIGN CHOICE, log 66: R63 speaks of instructions, so a word that is none counts by what can be read of
it: one that fails step 4 of the decode order counts by its opcode NOP or by the latches that its selectors name; one that cannot be
fetched, or whose opcode is none, is a switch point. -/
def State.atSwitchPoint (s : State) (g : Group) : Bool :=
  match s.fetch g with
  | .instr (.nop _) => g.regs.chain.switchPt
  | .instr i => !latched i
  | .trap t =>
    if t.cause != cEncoding || t.xinfo = 0 then true
    else if t.xinfo / 4 % 256 = 1 then g.regs.chain.switchPt
    else !rawLatch t.xinfo
  | _ => true

/-- The group stands at a switch point and no renewal of a lease is in flight, whose return may take it back (08 R149). -/
def State.mayHalt (s : State) (g : Group) : Bool := g.spec.isNone && (g.stopped || s.atSwitchPoint g)

/-- The group may be given an issue slot, apart from its next instruction (20 R343). One that GCTL.STEP let run for one instruction, on
an expired copy, goes no further (26 R411). -/
def Group.mayIssue (g : Group) : Bool :=
  g.run == .ready && g.frozen.isNone && !g.preempted && (match g.ord with | some o => o.held.isNone | none => true) &&
  !(g.stepOnce && g.spec.isSome)

/-- A fetch leaves for the home of its line: it ends with error, or it brings what another device has written meanwhile to a line homed
there (03 R49, 01 R11, log 61). -/
def State.toFetch (s : State) (k : GKey) (g : Group) : Bool × State :=
  match s.translate g.ctx .fetch g.regs.pc.toNat with
  | .ok pa => match s.meets (.group k) pa with
    | (true, s1) => (true, s1)
    | (false, s1) => (false, s1.remoteNews (lineOf pa))
  | _ => (false, s)

/-- The trap of a fetch that ended with error. -/
def State.lostFetch (s : State) (g : Group) : Trap :=
  { cause := cPoison, xaddr := match s.translate g.ctx .fetch g.regs.pc.toNat with | .ok pa => pa / 32 * 32 | _ => 0 }

end Sys2Proof.Machine
end

