-- ==== Sys2Proof/Machine/Lifecycle.lean ====
section
/-!
DEFINITION. Fences as drains (09 R164), barriers (22 R364 to R368), and how groups end: by EXIT, by a kill (22 R361,
R368, 28 R429), and what takes effect at a switch point (03 R63, 28 R430, R431).
-/
namespace Sys2Proof.Machine
open Sys2Proof

/-! ### Releases (09 R164, R171) -/

/-- What a release of a scope drains (09 R164): write-combining lines under every scope; from device scope on the group's
copies and each cohort's copy that holds an atomic of it, as stores of the group (08 R143), and from domain scope on its
stores to memory homed elsewhere (09 R169); at cohort scope the group's copies go into the cohort's, or into the line. -/
def State.releaseDrain (s : State) (k : GKey) (inst scope : Nat) : State :=
  let s1 := s.departWhere fun w => w.g = k
  if scope = 0 then s1
  else if scope = 1 then
    (s1.ccopies.filter fun c => c.owner = .group k).foldl (fun s d =>
      let rest := s.ccopies.filter fun c => !isCopy (.group k) d.line c
      let into (c : CCopy) : CCopy := if isCopy (.cohort inst) d.line c then c.absorb d k else c
      if rest.any (isCopy (.cohort inst) d.line) then { s with ccopies := rest.map into }
      else s.drainWhere (isCopy (.group k) d.line) (some k)) s1
  else
    let s2 := s1.drainWhere (fun c => c.owner = .group k || (c.owner = .cohort inst && c.users.contains k)) (some k)
    if scope = 2 then s2 else s2.deliverOut fun o => o.g = k

/-! ### Barriers (22 R364 to R368) -/

namespace Inst
/-- The groups of the instance. -/
def size (i : Inst) : Nat := i.width * i.height
/-- The cohort straddles the dies (02 R22). -/
def straddles (i : Inst) : Bool := i.width = 16
/-- The die-half of a position. -/
def half (i : Inst) (pos : Nat) : Nat := if i.straddles && 8 ≤ pos % 16 then 1 else 0
/-- The positions of a half. -/
def halfPos (i : Inst) (h : Nat) : List Nat := (List.range i.size).filter fun p => i.half p = h
/-- The halves. -/
def halves (i : Inst) : List Nat := if i.straddles then [0, 1] else [0]
/-- Barrier n. -/
def bar (i : Inst) (n : Nat) : Barrier := vget i.bars n {}
/-- Barrier n put in place. -/
def setBar (i : Inst) (n : Nat) (b : Barrier) : Inst := { i with bars := i.bars.setIfInBounds n b }
end Inst

namespace Barrier
/-- LOCAL of a half. -/
def localOf (b : Barrier) (h : Nat) : Word32 := if h = 0 then b.local0 else b.local1
/-- The largest lt of the arrivals in the phases up to one, of a half (0, 1) or of the whole (2). -/
def histOf (b : Barrier) (h : Nat) (phase : Word32) : Nat :=
  Store.getD (if h = 0 then b.hist0 else if h = 1 then b.hist1 else b.hist) phase.toNat 0
/-- The local stage of a half completes (22 R365). A departure that follows it counts in the stages to come. -/
def completeLocal (b : Barrier) (h : Nat) : Barrier :=
  let p := b.phase + 1
  if h = 0 then
    { b with local0 := p, hist0 := Store.put b.hist0 p.toNat (max (b.histOf 0 b.phase) b.openLt0), openLt0 := 0 }
  else { b with local1 := p, hist1 := Store.put b.hist1 p.toNat (max (b.histOf 1 b.phase) b.openLt1), openLt1 := 0 }
/-- complete() of R365. -/
def complete (b : Barrier) (i : Inst) : Barrier :=
  let b1 := i.halves.foldl (fun b h => if b.localOf h = b.phase then b.completeLocal h else b) b
  let p := b1.phase + 1
  { b1 with
    phase := p
    arrived := i.departed
    arr := i.departed.length
    hist := Store.put b1.hist p.toNat (max (b1.histOf 2 b1.phase) b1.openLt)
    openLt := 0 }
/-- What follows an arrival of either kind (22 R365): local stages, then the phase. -/
def settle (b : Barrier) (i : Inst) : Barrier :=
  let b1 := i.halves.foldl (fun b h =>
    if (i.halfPos h).all (fun p => NSet.has b.arrived p) && b.localOf h = b.phase then b.completeLocal h else b) b
  if b1.exp ≤ b1.arr then b1.complete i else b1
/-- A group at a position arrives or departs; a position that has arrived already adds no arrival. -/
def arrive (b : Barrier) (i : Inst) (pos lt : Nat) : Barrier :=
  let h := i.half pos
  let b1 := if NSet.has b.arrived pos then b else { b with arrived := NSet.add b.arrived pos, arr := b.arr + 1 }
  { b1 with
    openLt := max b1.openLt lt
    openLt0 := if h = 0 then max b1.openLt0 lt else b1.openLt0
    openLt1 := if h = 1 then max b1.openLt1 lt else b1.openLt1 }.settle i
/-- A signal arrives. -/
def signal (b : Barrier) (i : Inst) (lt : Nat) : Barrier :=
  { b with arr := b.arr + 1, openLt := max b.openLt lt }.settle i
/-- EXP is set (22 R369): the phase completes at once if ARR reaches it. -/
def setExp (b : Barrier) (i : Inst) (n : Nat) : Barrier :=
  let b1 := { b with exp := n }
  if b1.exp ≤ b1.arr then b1.complete i else b1
/-- The wait test of R366. -/
def reached (x t : Word32) : Bool := (x - t).toNat < 2 ^ 31
end Barrier

/-- A barrier changes: a completed stage ends the SLEEP of the instance's groups (22 R363), a completed phase closes the
detector windows of its writers (09 R179). -/
def State.setBarrier (s : State) (inst n : Nat) (b : Barrier) : State :=
  match s.inst? inst with
  | none => s
  | some i =>
    let old := i.bar n
    let s1 := s.setInst inst (i.setBar n b)
    let s2 := if b.phase != old.phase || b.local0 != old.local0 || b.local1 != old.local1
      then s1.nudge fun g => g.id.inst = inst else s1
    if b.phase = old.phase then s2
    else s2.closeWindows fun w => w.launch = i.launch && w.lin / i.size = i.ci

/-! ### How a group ends -/

/-- A suspended group goes back to the instruction that it waits in. -/
def Group.rewind (g : Group) : Group :=
  match g.run with
  | .waiting w => { g with regs := { g.regs with pc := g.regs.pc - BitVec.ofNat 64 w.f.len }, run := .ready }
  | _ => g

/-- A trap precisely at the instruction that a group waits in (28 R436, 22 R368). -/
def State.trapWaiting (s : State) (k : GKey) (t : Trap) : State := (s.onGroup k Group.rewind).trapGroup k t false

/-- The BARRIER_ERROR of a barrier and a reason (28 R428). -/
def barrierTrap (bar reason : Nat) : Trap := { cause := cBarrier, xinfo := bar + reason * 16 }

/-- The groups of an instance that wait at MRG trap (21 R354), and under a kill those that wait on a barrier (22 R368). -/
def State.failWaiters (s : State) (inst : Nat) (kill : Bool) : State :=
  s.allGroups.foldl (fun s x =>
    if x.2.id.inst = inst then
      match x.2.run with
      | .waiting w => match w.op with
        | .mrg _ => s.trapWaiting x.1 (barrierTrap 0 4)
        | .barrier n _ _ => if kill then s.trapWaiting x.1 (barrierTrap n 1) else s
        | _ => s
      | _ => s
    else s) s

/-- A group that has ended: its issue stops, and its registers are free with the values that they hold (22 R361, log 62). -/
def Group.ended (g : Group) : Group :=
  { g with
    regs := g.regs.clearLanes
    run := .ended
    frozen := none
    preempted := false
    wantPreempt := false
    wantFreeze := false
    wantKill := false
    mcheck := none
    fence := none
    spec := none }

/-- The launch of a group counts its end and its logical time, which joins the device floor (08 R145). -/
def State.countEnd (s : State) (g : Group) (killed : Bool) (frec : Rec) : State :=
  { s with floor := maxLt s.floor g.regs.lt.toNat }.onLaunch g.id.launch fun l =>
    { l with
      endedGroups := l.endedGroups + 1
      lt := maxLt l.lt g.regs.lt.toNat
      nkill := l.nkill + killed.toNat
      frec := if killed && l.nkill = 0 then frec else l.frec
      faulted := l.faulted || killed }

/-- EXIT ends a group (22 R361): a device-scope release; departure on every barrier of its instance; the groups that wait
at MRG trap. -/
def State.finishExit (s : State) (k : GKey) : State :=
  match s.group? k with
  | none => s
  | some g0 =>
    let s1 := s.releaseDrain k g0.id.inst 4
    match s1.group? k, s1.inst? g0.id.inst with
    | some g, some i =>
      let pos := g.pos i
      let i1 := { i with departed := NSet.add i.departed pos, ended := NSet.add i.ended pos }
      let s2 := (s1.setInst g.id.inst i1).setGroup k g.ended
      let s3 := (List.range 16).foldl (fun s n =>
        match s.inst? g.id.inst with
        | some i => s.setBarrier g.id.inst n ((i.bar n).arrive i pos g.regs.lt.toNat)
        | none => s) s2
      ((s3.countEnd g false []).failWaiters g.id.inst false).reap k
    | _, _ => s1

/-- EXIT (22 R361): a group of an ordered launch that has not committed is eligible to commit, and ends when it does
(20 R345). -/
def State.exitGroup (s : State) (k : GKey) : State :=
  match s.ordOf (.group k) with
  | some _ => s.onGroup k fun g => { g with run := .ended }
  | none => s.finishExit k

/-- A kill takes effect (22 R361, R368): the group's own copies drain and its lines depart; every barrier of its instance
breaks; its record becomes FREC if it is the first (28 R429). Versions of an ordered group are dropped and the launch
goes on past it (log 14). -/
def State.killGroup (s : State) (k : GKey) (frec : Rec) : State :=
  match s.group? k with
  | none => s
  | some g0 =>
    let s0 := match g0.ord with
      | some o => { s with versions := s.versions.filter fun v => !(v.launch = g0.id.launch && v.ts = o.ts) }
      | none => s
    let s1 := ((s0.departWhere fun w => w.g = k).drainWhere (fun c => c.owner = .group k) (some k)).deliverOut fun o => o.g = k
    match s1.group? k, s1.inst? g0.id.inst with
    | some g, some i =>
      let bars := i.bars.map fun b => { b with broken := true }
      let s2 := s1.setInst g.id.inst { i with bars := bars, ended := NSet.add i.ended (g.pos i) }
      let s3 := s2.setGroup k { g.ended with killed := true }
      ((s3.countEnd g true frec).failWaiters g.id.inst true).reap k
    | _, _ => s1

/-- The record that a kill of a suspended master takes (28 R429): from its slot in the trap queue, as a load of the group that kills,
while the slot is not retired; else as it was written. A record that still waits for room will be written with HELD; of a slot that is
poisoned the record counts as it was written (log 39). -/
def State.recordFor (s : State) (by_ : Agent) (part : Nat) (t : Option (TrapRec × Option Nat)) : Rec × State :=
  match t with
  | none => ([], s)
  | some (r, none) => ({ r with held := true }.bytes, s)
  | some (r, some i) =>
    match s.part? part with
    | some p =>
      if p.tqr.toNat ≤ i then
        let at_ := p.tqBase + 64 * (i % p.tqSize)
        match s.loadBytes by_ false at_ 32 with
        | (some a, s1) => match s1.loadBytes by_ false (at_ + 32) 32 with
          | (some b, s2) => (a ++ b, s2)
          | (none, s2) => (r.bytes, s2)
        | (none, s1) => (r.bytes, s1)
      else (r.bytes, s)
    | none => (r.bytes, s)

/-- The record that a group is suspended on. -/
def Group.trapOf (g : Group) : Option (TrapRec × Option Nat) :=
  match g.run, g.frozen with
  | .trapped r i, _ => some (r, i)
  | _, some x => some x
  | _, none => none

/-- A kill of a group that an agent asks for (26 R411): at once where it stands at a switch point, else at the next. -/
def State.requestKill (s : State) (by_ : Agent) (k : GKey) : State :=
  match s.group? k with
  | none => s
  | some g =>
    if s.mayHalt g then
      let (frec, s1) := s.recordFor by_ g.id.part.toNat g.trapOf
      s1.killGroup k frec
    else s.setGroup k { g with wantKill := true }

/-! ### At a switch point -/

/-- A group is preempted: a switch, with no record (28 R430). -/
def State.preempt (s : State) (k : GKey) : State :=
  (s.departWhere fun w => w.g = k).onGroup k fun g =>
    { g with regs := g.regs.loseLatches, preempted := true, wantPreempt := false }

/-- A group is frozen where it stands, not for an access of its own but for the loss of a shootdown target (24 R388). -/
def State.freezeHere (s : State) (k : GKey) : State :=
  match s.group? k with
  | none => s
  | some g =>
    (s.setGroup k { g with wantFreeze := false }).deliver k (s.groupRec k g { cause := cFrozen } false g.regs.pc)

/-- A held kill, machine check, freeze or preemption takes effect (03 R63, 28 R430, R431); a machine check waits while the
group is suspended on a trap, and returns a waiting group to its instruction. -/
def State.switchEvent (s : State) (k : GKey) : State :=
  match s.group? k with
  | none => s
  | some g =>
    if g.wantKill then s.killGroup k []
    else
      let trapped := match g.run with | .trapped .. => true | _ => false
      match (if trapped then none else g.mcheck) with
      | some (u, r) =>
        (s.setGroup k { g with mcheck := none }).trapWaiting k { cause := cMachine, xinfo := u.toNat + r.toNat * 256 }
      | none =>
        if g.wantFreeze then s.freezeHere k
        else if g.wantPreempt then s.preempt k
        else s

/-- Something waits for the group's next switch point. -/
def Group.pending (g : Group) : Bool := g.wantKill || g.mcheck.isSome || g.wantFreeze || g.wantPreempt

end Sys2Proof.Machine
end

