-- ==== Sys2Proof/Machine/Arith.lean ====
section
/-!
DEFINITION. Integer arithmetic on values of w bits, given as numbers below 2^w: the code sets of 04 and the effects of
06 R101, R103, R108 and R110, each once for every width.
-/
namespace Sys2Proof.Machine

/-- The value of w bits, signed or unsigned. -/
def toInt (sg : Bool) (w a : Nat) : Int := if sg then toSigned w a else (a % 2 ^ w : Nat)

/-- The complement within w bits. -/
def notN (w a : Nat) : Nat := 2 ^ w - 1 - a % 2 ^ w

/-- The logic code set. -/
def logicN (w : Nat) (fn : BitVec 4) (a b : Nat) : Nat :=
  match fn.toNat with
  | 0 => a &&& b
  | 1 => a ||| b
  | 2 => a ^^^ b
  | 3 => a &&& notN w b
  | 4 => a ||| notN w b
  | _ => notN w (a ^^^ b)

/-- The shift code set by n below w. -/
def shiftN (w : Nat) (fn : BitVec 4) (a n : Nat) : Nat :=
  match fn.toNat with
  | 0 => a * 2 ^ n % 2 ^ w
  | 1 => a / 2 ^ n
  | 2 => wrap w (toSigned w a / (2 ^ n : Nat))
  | 3 => a * 2 ^ n % 2 ^ w + a / 2 ^ (w - n)
  | _ => a / 2 ^ n + a * 2 ^ (w - n) % 2 ^ w

/-- The number of ones among the low n bits. -/
def popN : Nat → Nat → Nat
  | 0, _ => 0
  | n + 1, a => a % 2 + popN n (a / 2)

/-- The zeros below the lowest one among n bits, or n. -/
def ctzN : Nat → Nat → Nat
  | 0, _ => 0
  | n + 1, a => if a % 2 = 1 then 0 else 1 + ctzN n (a / 2)

/-- The low n bits in reverse order. -/
def revN : Nat → Nat → Nat → Nat
  | 0, _, acc => acc
  | n + 1, a, acc => revN n (a / 2) (2 * acc + a % 2)

/-- The low n bytes in reverse order. -/
def swapN : Nat → Nat → Nat → Nat
  | 0, _, acc => acc
  | n + 1, a, acc => swapN n (a / 256) (256 * acc + a % 256)

/-- The bit-count code set. -/
def bitN (w : Nat) (fn : BitVec 4) (a : Nat) : Nat :=
  match fn.toNat with
  | 0 => popN w a
  | 1 => if a = 0 then w else w - 1 - log2 a
  | 2 => ctzN w a
  | 3 => revN w a 0
  | _ => swapN (w / 8) a 0

/-- The comparison code set on integers (0x0 to 0x5). -/
def cmpInt (fn : BitVec 4) (a b : Int) : Bool :=
  match fn.toNat with
  | 0 => a = b
  | 1 => a ≠ b
  | 2 => a < b
  | 3 => a ≤ b
  | 4 => b < a
  | _ => b ≤ a

/-- The comparison code set on values of w bits. -/
def cmpN (w : Nat) (sg : Bool) (fn : BitVec 4) (a b : Nat) : Bool := cmpInt fn (toInt sg w a) (toInt sg w b)

/-- MIN (0) or MAX. -/
def minMaxN (w : Nat) (sg : Bool) (fn : BitVec 4) (a b : Nat) : Nat :=
  let aLess := toInt sg w a ≤ toInt sg w b
  if fn = 0 then (if aLess then a else b) else (if aLess then b else a)

/-- The least value of a type. -/
def minInt (sg : Bool) (w : Nat) : Int := if sg then -(2 ^ (w - 1) : Nat) else 0
/-- The greatest value of a type. -/
def maxInt (sg : Bool) (w : Nat) : Int := if sg then (2 ^ (w - 1) : Nat) - 1 else (2 ^ w : Nat) - 1

/-- An exact result in w bits: wrapped, or clamped with a mark when clamping changes it (06 R108). -/
def narrow (sat sg : Bool) (w : Nat) (x : Int) : Nat × Bool :=
  if !sat then (wrap w x, false)
  else if x < minInt sg w then (wrap w (minInt sg w), true)
  else if maxInt sg w < x then (wrap w (maxInt sg w), true)
  else (wrap w x, false)

/-- The quotient rounded toward zero and its remainder (06 R102). -/
def quotRem (a b : Int) : Int × Int := (Int.tdiv a b, Int.tmod a b)

/-- The field of w bits from bit pos (06 R103). -/
def fieldN (a pos w : Nat) : Nat := a / 2 ^ pos % 2 ^ w

/-! ### Packed types (03 R57) -/

/-- The width of a part of an integer type. -/
def partW (t : BitVec 3) : Nat := if t < 2 then 32 else if t < 4 then 16 else if t < 6 then 8 else 64
/-- The parts of an element. -/
def partN (t : BitVec 3) : Nat := if t < 2 then 1 else if t < 4 then 2 else if t < 6 then 4 else 1
/-- The type is signed. -/
def isSigned (t : BitVec 3) : Bool := t &&& 1 == 0

/-- The parts combined, the lowest first, with a mark if one part carries a mark. -/
def joinParts (w : Nat) : List (Nat × Bool) → Nat × Bool
  | [] => (0, false)
  | (x, b) :: r => let y := joinParts w r; (x + 2 ^ w * y.1, b || y.2)

/-- An operation applied part by part. -/
def byParts (w n : Nat) (op : Nat → Nat → Nat → Nat × Bool) (a b c : Nat) : Nat × Bool :=
  joinParts w ((List.range n).map fun j => op (unpackNat w a j) (unpackNat w b j) (unpackNat w c j))

end Sys2Proof.Machine
end

