-- ==== Sys2Proof/Machine/ScalarFloat.lean ====
section
/-!
DEFINITION. Scalar floating-point instructions (17 R293, R294): the arithmetic of the vector family with no flags.
-/
namespace Sys2Proof.Machine
open Sys2Proof

/-- A scalar floating-point source: selector 0xF2 is one in the type of T, and I32 is sign-extended as for every scalar operand
but one of N64 (03 R53, log 20). -/
def Group.sfsrc (g : Group) (f : Fields) (t : BitVec 3) (s : Sel) : SReg :=
  match s with
  | .one => { val := (Ty.f t).one }
  | _ => g.ssrc f false s

/-- The code of a scalar operand: bits [31:0] under F32. -/
def scode (t : BitVec 3) (x : SReg) : Nat := x.val.toNat % 2 ^ fpW t

/-- A scalar floating-point instruction of up to three sources. -/
def sfloat (i : Instr) (n : Nat) (op : Fields → Fmt → Rm → Nat → Nat → Nat → Nat × Fl) (s : State) : Out :=
  runRegs i (fun f g =>
    let a := g.sfsrc f f.t f.a
    let b := if 2 ≤ n then g.sfsrc f f.t f.b else {}
    let c := if 3 ≤ n then g.sfsrc f f.t f.c else {}
    let r := op f (fmtOf f.t) (g.rmScalar f.m) (scode f.t a) (scode f.t b) (scode f.t c)
    .ok { g with regs := g.regs.sdst f.d { val := BitVec.ofNat 64 r.1, tag := firstTag [a.tag, b.tag, c.tag] } }) s

/-- SFADD (17 R293). -/
def execSfadd (f : Fields) (s : State) : Out := sfloat (.sfadd f) 2 (fun f F m a b _ => fpAdd (f.fn == 1) F m 0 a b) s
/-- SFMUL (17 R293). -/
def execSfmul (f : Fields) (s : State) : Out := sfloat (.sfmul f) 2 (fun _ F m a b _ => fpMul F m 0 a b) s
/-- SFFMA (17 R293). -/
def execSffma (f : Fields) (s : State) : Out := sfloat (.sffma f) 3 (fun f F m a b c => fpFma f.fn F m 0 a b c) s
/-- SFDIV (17 R293). -/
def execSfdiv (f : Fields) (s : State) : Out := sfloat (.sfdiv f) 2 (fun _ F m a b _ => fpDiv F m 0 a b) s
/-- SFSQRT (17 R293). -/
def execSfsqrt (f : Fields) (s : State) : Out := sfloat (.sfsqrt f) 1 (fun _ F m a _ _ => fpSqrt F m 0 a) s
/-- SFCMP (17 R293). -/
def execSfcmp (f : Fields) (s : State) : Out :=
  sfloat (.sfcmp f) 2 (fun f F _ a b _ => ((fpCmp f.fn F a b).1.toNat, 0)) s

/-- SFCVT (17 R294): a 32-bit integer result is extended by its sign. -/
def execSfcvt (f : Fields) (s : State) : Out :=
  runRegs (.sfcvt f) (fun f g =>
    let st := f.x.extractLsb' 0 3
    let kind := f.x.extractLsb' 3 2
    let mode := g.rmScalar f.m
    let a := if kind = 2 then g.ssrc f (st == 7) f.a else g.sfsrc f st f.a
    let v : Word64 :=
      if kind = 0 then BitVec.ofNat 64 (fpConv (fmtOf st) (fmtOf f.t) mode 0 (scode st a)).1
      else if kind = 1 then
        let r := (fpToInt (fmtOf st) (isSigned f.t) (partW f.t) mode 0 (scode st a)).1
        if f.t = 0 then sext32 (BitVec.ofNat 32 r) else BitVec.ofNat 64 r
      else BitVec.ofNat 64 (intToFp (fmtOf f.t) mode 0 (toInt (isSigned st) (partW st) (a.val.toNat % 2 ^ partW st))).1
    .ok { g with regs := g.regs.sdst f.d { val := v, tag := a.tag } }) s

end Sys2Proof.Machine
end

