-- ==== Sys2Proof/Machine/LoadStore.lean ====
section
/-!
DEFINITION. Loads, stores, atomics and Potluck contributions (10 R181 to R192), and the speculation of loads on expired
leased copies (08 R149).
-/
namespace Sys2Proof.Machine
open Sys2Proof

/-! ### Addresses (10 R182, R183) -/

/-- The offset of an instruction: I32, or its low 28 bits where the top four name the error predicate. -/
def offsetOf (atom : Bool) (f : Fields) : Word64 :=
  if atom then (f.i32.setWidth 28 : BitVec 28).signExtend 64 else sext32 f.i32

/-- The size of a scalar access. -/
def scalarSize (t : BitVec 3) : Nat := partW t / 8
/-- The size of an element of a vector access. -/
def vectorSize (t : BitVec 3) : Nat := if wideInt t then 8 else 4

/-- The element of a scalar access; in space M the member is the lowest slot set in mk, or slot 0. -/
def Group.scalarEl (g : Group) (off : Word64) : El :=
  { e := 0, off := off, gmi := (vget g.regs.gmi (g.lowest.getD 0) 0).toNat }

/-- elem_off of an element (10 R182); a stride or an index that carries poison is consumed before it is used. -/
def Group.elemOff (g : Group) (f : Fields) (base stride : Word64) (size e : Nat) : Word64 :=
  let k := BitVec.ofNat 64 (if f.m = spM then g.laneOf e else e)
  if f.mode = 0 then base + k * BitVec.ofNat 64 size
  else if f.mode = 1 then base + k * stride
  else base + sext32 ((g.vsrc f (.i 0) f.c e).v.setWidth 32)

/-- The bits of the governing predicate as elements: those of the members in mk. -/
def Group.maskEls (g : Group) (f : Fields) : List (Nat × Elem) :=
  let p := g.regs.pget f.p.toNat
  (p.tags.filter fun x => g.inMask (g.slotOf x.1)).map fun x => (x.1, { tag := some x.2 })

/-- The active elements of a vector access with their offsets: base, governing predicate (24 R390), stride, active indices and
data are consumed, the lowest poisoned element reported (28 R428). -/
def M.vectorEls (g : Group) (f : Fields) (atom : Bool) (size : Nat) (data : Nat → Option Tag := fun _ => none) :
    M (List El) := do
  let a ← M.clean (g.ssrc f true f.a)
  M.cleanEls (g.maskEls f)
  let act := allElems.filter (g.active f)
  let stride ← if f.mode = 1 then M.clean (g.ssrc f true f.c) else pure 0
  let index (e : Nat) : Option Tag := if f.mode = 2 then (g.vsrc f (.i 0) f.c e).tag else none
  M.cleanEls (act.map fun e => (e, { tag := firstTag [data e, index e] }))
  let base := a + offsetOf atom f
  pure (act.map fun e =>
    { e := e, off := g.elemOff f base stride size e, gmi := (vget g.regs.gmi (g.slotOf e) 0).toNat })

/-- The address of the instruction that a group is in. -/
def Group.at_ (g : Group) (f : Fields) : Word64 := g.regs.pc - BitVec.ofNat 64 f.len

/-- Values at some elements, rising, as the writes of a destination. -/
def writesFrom : Nat → Nat → List (Nat × Elem) → Writes
  | _, 0, _ => []
  | e, n + 1, [] => none :: writesFrom (e + 1) n []
  | e, n + 1, (i, x) :: r => if i = e then some x :: writesFrom (e + 1) n r else none :: writesFrom (e + 1) n ((i, x) :: r)

/-! ### Loads (10 R186 to R188) -/

/-- A loaded value of a scalar type, extended to 64 bits. -/
def extend (t : BitVec 3) (v : Word64) : Word64 :=
  BitVec.ofNat 64 (wrap 64 (toInt (isSigned t) (partW t) (v.toNat % 2 ^ partW t)))

/-- An expired copy of the line in the group's L1 or its tower's L2, which a load may use while its renewal is in flight (08 R149).
A load that would do more than read it is no such load: one of a line that the group's own copies or stores wait for, or of a
poisoned sector. -/
def State.expiredCopy (s : State) (k : GKey) (pa : Nat) : Option Leased :=
  let ln := lineOf pa
  let t := towerOf (keyCore k)
  let lt := s.ltOf (.group k)
  if s.direct t ln || !s.isLocal pa || s.restless k ln || (s.copyFor t (some (keyCore k)) lt ln).isSome then none
  else (s.lineAt ln).copies.find? fun c =>
    c.tower = t && (c.core.isNone || c.core = some (keyCore k)) && vget s.bases (homeOf pa) 0 ≤ c.rts &&
      !c.poison.getLsbD (pa % 128 / 32)

/-- A scalar load that speculates: its renewal is on the way (07 R130), the registers before it are kept, and the copy gives the value,
under the group's own
write-combining line for a load in S. -/
def State.speculate (s : State) (k : GKey) (before : Regs) (nt : Bool) (pa size : Nat) (c : Leased) : Nat × State :=
  let ln := lineOf pa
  let v := ofLeBytes ((List.range size).map fun i =>
    (s.ownWc (.group k) nt (pa + i)).getD (dataByte c.data (pa % 128 + i)))
  (v, (s.ask (.group k) ln).onGroup k fun g => { g with spec := some { line := ln, wts := c.wts, saved := before } })

/-- The registers of a group in a state. -/
def State.regsOf (s : State) (k : GKey) : Regs := match s.group? k with | some g => g.regs | none => {}

/-- SLD (10 R186). Whether a load with an expired copy at hand speculates is free (log 3). -/
def execSld (f : Fields) (s : State) : Out :=
  runM (.sld f) (fun f k => do
    M.noFence k
    let g ← M.group k
    let a ← M.clean (g.ssrc f true f.a)
    let size := scalarSize f.t
    let ps ← M.places g f.m size [g.scalarEl (a + offsetOf false f)] false
    let spot : Option Nat ← M.run' fun s => (match ps with
      | (_, .va va) :: _ =>
        (match s.translate g.ctx .read va with
        | .ok pa => if g.spec.isNone && (s.ordOf (.group k)).isNone && (s.expiredCopy k pa).isSome then some pa else none
        | _ => none)
      | _ => none, s)
    let go ← match spot with
      | some _ => do
        let n ← M.nonce
        pure (Config.freeBit n)
      | none => pure false
    let x : Elem ← match go, spot with
      | true, some pa => M.run' fun s1 => match s1.expiredCopy k pa with
        | some c =>
          let (v, s2) := s1.speculate k (s.regsOf k) (f.m = spS) pa size c
          ({ v := BitVec.ofNat 64 v }, s2)
        | none => ({}, s1)
      | _, _ => do
        let l ← M.load k f.m size (g.at_ f) ps
        pure (match l with | (_, x) :: _ => x | [] => {})
    M.onGroup k fun g => { g with regs := g.regs.sdst f.d { val := extend f.t x.v, tag := x.tag } }) s

/-- VLD (10 R187). -/
def execVld (f : Fields) (s : State) : Out :=
  runM (.vld f) (fun f k => do
    M.noFence k
    let g ← M.group k
    let size := vectorSize f.t
    let els ← M.vectorEls g f false size
    let ps ← M.places g f.m size els false
    let l ← M.load k f.m size (g.at_ f) ps
    M.onGroup k fun g => { g with regs := g.regs.vdst f.d (wideInt f.t) (writesFrom 0 1024 l) }) s

/-- WLD (10 R188): every lane, for every member at once. -/
def execWld (f : Fields) (s : State) : Out :=
  runM (.wld f) (fun f k => do
    M.noFence k
    let g ← M.group k
    let a ← M.clean (g.ssrc f true f.a)
    let size := vectorSize f.t
    let base := a + offsetOf false f
    let els : List El := (List.range g.lanes).map fun l => { e := l, off := base + BitVec.ofNat 64 (size * l), gmi := 0 }
    let ps ← M.places g f.m size els false
    let l ← M.load k f.m size (g.at_ f) ps
    M.onGroup k fun g => { g with regs := g.regs.vdst f.d (wideInt f.t) (writesFrom 0 1024 l) }) s

/-! ### Stores (10 R186, R187) -/

/-- SST (10 R186). -/
def execSst (f : Fields) (s : State) : Out :=
  runM (.sst f) (fun f k => do
    M.noSpec k
    M.noFence k
    let g ← M.group k
    let a ← M.clean (g.ssrc f true f.a)
    let b ← M.clean (g.ssrc f true f.b)
    let size := scalarSize f.t
    let ps ← M.places g f.m size [g.scalarEl (a + offsetOf false f)] true
    M.room k f.m
    let spots ← M.xlatPage g.ctx .write ps
    M.modify fun s => (s.storeSpots k g.id.inst f.m size (fun _ => b) spots).noteVas k ps spots) s

/-- VST (10 R187). -/
def execVst (f : Fields) (s : State) : Out :=
  runM (.vst f) (fun f k => do
    M.noSpec k
    M.noFence k
    let g ← M.group k
    let size := vectorSize f.t
    let els ← M.vectorEls g f false size fun e => (g.vsrc f (.i f.t) f.b e).tag
    let ps ← M.places g f.m size els true
    M.room k f.m
    let _ ← M.pages k g.ctx .write ps fun spots => do
      M.modify fun s => s.storeSpots k g.id.inst f.m size (fun e => (g.vsrc f (.i f.t) f.b e).v) spots
      pure []) s

/-! ### Atomics (10 R189 to R191) -/

/-- An atomic on a scratchpad: none where the sector is poisoned (10 R190). -/
def State.atomicPad (s : State) (k : GKey) (inst pos off size : Nat) (f : AtomF) : Option Nat × State :=
  let s1 := s.syncPad (.group k) inst pos off size
  let p := s1.padAt inst pos
  if NSet.has p.poison (off / 32) then (none, s1)
  else
    let x := ofLeBytes ((List.range size).map fun i => p.byteAt (off + i))
    match f x with
    | some y => (some x, s1.onPad inst pos fun p => p.put (bytesAt off (leBytes size y)))
    | none => (some x, s1)

/-- An atomic where it lies. -/
def State.atomicAt (s : State) (k : GKey) (inst : Nat) (scope : BitVec 3) (size : Nat) (f : AtomF) (tracked : Bool) :
    Spot → Option Nat × State
  | .pad q o => s.atomicPad k inst q o size f
  | .pa a => s.atomic k scope a size f tracked

/-- The scope in X[2:0]. -/
def scopeOf (f : Fields) : BitVec 3 := f.x.extractLsb' 0 3
/-- The error predicate of an atomic (10 R181). -/
def errPred (f : Fields) : Nat := bitsNat f.i32.toNat 31 28
/-- The type of an atomic's operand. -/
def atomTy (f : Fields) : Ty := if fnFp f.fn then .f f.t else .i f.t
/-- A scalar operand of an atomic. -/
def Group.atomSrc (g : Group) (f : Fields) (s : Sel) : SReg := if fnFp f.fn then g.sfsrc f f.t s else g.ssrc f true s
/-- The value that an atomic returns in a scalar register: sign-extended under I32, else zero-extended. -/
def atomResult (f : Fields) (fp : Bool) (x : Nat) : Word64 :=
  if !fp && f.t = 0 then sext32 (BitVec.ofNat 32 x) else BitVec.ofNat 64 x

/-- A scalar atomic: its place, its one read-modify-write, its result and its error predicate. -/
def scalarAtomic (f : Fields) (k : GKey) (fp : Bool) (size : Nat) (op : AtomF) (tracked : Bool) : M Unit := do
  let g ← M.group k
  let a ← M.clean (g.ssrc f true f.a)
  let ps ← M.places g f.m size [g.scalarEl (a + offsetOf true f)] true
  M.room k f.m
  let spots ← M.xlatPage g.ctx .rmw ps
  let r ← match spots with
    | (_, spot) :: _ => M.run' fun s => s.atomicAt k g.id.inst (scopeOf f) size op tracked spot
    | [] => M.stall
  M.modify fun s => (s.noteVas k ps spots).onGroup k fun g => { g with
    regs := (g.regs.sdst f.d { val := atomResult f fp (r.getD 0) }).pfill (errPred f) r.isNone }

/-- SATOM (10 R190). -/
def execSatom (f : Fields) (s : State) : Out :=
  runM (.satom f) (fun f k => do
    M.noSpec k
    M.noFence k
    let g ← M.group k
    let _ ← M.clean (g.ssrc f true f.a)
    let b ← M.clean (g.atomSrc f f.b)
    let size := atomSize f.fn f.t
    scalarAtomic f k (fnFp f.fn) size (fun x => some (atomOp f.fn f.t x (b.toNat % 2 ^ (8 * size)))) (f.fn == 6)) s

/-- SCAS (10 R190): a comparison that fails writes nothing. -/
def execScas (f : Fields) (s : State) : Out :=
  runM (.scas f) (fun f k => do
    M.noSpec k
    M.noFence k
    let g ← M.group k
    let _ ← M.clean (g.ssrc f true f.a)
    let b ← M.clean (g.ssrc f true f.b)
    let c ← M.clean (g.ssrc f true f.c)
    let size := scalarSize f.t
    let w := 2 ^ (8 * size)
    scalarAtomic f k false size (fun x => if x = b.toNat % w then some (c.toNat % w) else none) true) s

/-- The elements of one page of a VATOM, e rising: old values, or zero with the error mark. -/
def State.atomicEls (s : State) (k : GKey) (inst : Nat) (f : Fields) (size : Nat) (y : Nat → Nat) :
    List (Nat × Spot) → List (Nat × Option Nat) × State
  | [] => ([], s)
  | (e, spot) :: r =>
    let (x, s1) := s.atomicAt k inst (scopeOf f) size (fun x => some (atomOp f.fn f.t x (y e))) (f.fn == 6) spot
    let (l, s2) := s1.atomicEls k inst f size y r
    ((e, x) :: l, s2)

/-- The results of a VATOM for its latch: those of this pass, over what a register already holds; under N those noted with the
lane-progress mask come before them (02 R29, 10 R185). -/
def atomAll (d : Sel) (olds : List (Nat × Word64)) (l : List (Nat × Elem)) : List (Nat × Elem) :=
  let all := match d with | .v _ => l | .w _ => l | _ => olds.map (fun (x : Nat × Word64) => (x.1, ({ v := x.2 } : Elem))) ++ l
  all.mergeSort fun a b => a.1 ≤ b.1

/-- VATOM (10 R190): the destination elements and error bits of a page are written with it (24 R391). -/
def execVatom (f : Fields) (s : State) : Out :=
  runM (.vatom f) (fun f k => do
    M.noSpec k
    M.noFence k
    let g ← M.group k
    let size := atomSize f.fn f.t
    let wide := atomWide f
    let els ← M.vectorEls g f true size fun e => (g.vsrc f (atomTy f) f.b e).tag
    let ps ← M.places g f.m size els true
    M.room k f.m
    let y (e : Nat) : Nat := (g.vsrc f (atomTy f) f.b e).v.toNat
    let olds := g.regs.olds
    let l ← M.pages k g.ctx .rmw ps fun spots => do
      let l ← M.run' fun s => s.atomicEls k g.id.inst f size y spots
      let res : List (Nat × Elem) := l.map fun x => (x.1, { v := BitVec.ofNat 64 (x.2.getD 0) })
      let errs : Store Bool := l.map fun x => (x.1, x.2.isNone)
      M.onGroup k fun g =>
        let latch := g.regs.latch
        let r1 := (g.regs.vdst f.d wide (writesFrom 0 1024 res)).pbits (errPred f) (fun e => (Store.get? errs e).isSome)
          fun e => (Store.getD errs e false, none)
        { g with regs := { r1 with latch := latch } }
      pure res
    M.onGroup k fun g =>
      { g with regs := g.regs.vdst f.d wide (writesFrom 0 1024 (atomAll f.d olds l)) }) s

/-! ### Potluck contributions (10 R192) -/

/-- B of PLK is a vector. -/
def plkVector (f : Fields) : Bool := match f.b with | .v _ | .w _ => true | _ => false

/-- PLK (10 R192): any scope gives the same effect. -/
def execPlk (f : Fields) (s : State) : Out :=
  runM (.plk f) (fun f k => do
    M.noSpec k
    M.noFence k
    let g ← M.group k
    let size := atomSize f.fn f.t
    let give (y : Nat → Nat) (spots : List (Nat × Spot)) (s : State) : State :=
      spots.foldl (fun s x => match x.2 with
        | .pa a => s.contribute (.group k) f.fn f.t a (y x.1)
        | .pad .. => s) s
    if plkVector f then
      let els ← M.vectorEls g f false size fun e => (g.vsrc f (atomTy f) f.b e).tag
      let ps ← M.places g f.m size els true
      let _ ← M.pages k g.ctx .write ps fun spots => do
        M.modify (give (fun e => (g.vsrc f (atomTy f) f.b e).v.toNat) spots)
        pure []
    else
      let a ← M.clean (g.ssrc f true f.a)
      let b ← M.clean (g.atomSrc f f.b)
      let ps ← M.places g f.m size [g.scalarEl (a + offsetOf false f)] true
      let spots ← M.xlatPage g.ctx .write ps
      M.modify (give (fun _ => b.toNat % 2 ^ (8 * size)) spots)) s

end Sys2Proof.Machine
end

