-- ==== Sys2Proof/Machine/Waits.lean ====
section
/-!
DEFINITION. Waits (10 R193): the one shape of a wait, its waking and its timeout; then the full/empty instructions
(10 R194, 09 R175, R176).
-/
namespace Sys2Proof.Machine
open Sys2Proof

/-! ### The shape of a wait -/

/-- A wait: the condition is tested at issue; a timeout of zero has passed then; else the group is suspended. -/
def M.wait (k : GKey) (op : WaitOp) (f : Fields) (limit : Option Nat) (dest : Bool) (try_ : M Bool) (late : M Unit) :
    M Unit := do
  let met ← try_
  if met then pure ()
  else match limit with
    | some 0 => late
    | _ => M.modify fun s => s.suspend k op f limit dest

/-- The wait that a group is suspended in, where it may go on: not frozen, not preempted. -/
def Group.waitOf (g : Group) : Option Wait :=
  match g.run with
  | .waiting w => if g.frozen.isNone && !g.preempted then some w else none
  | _ => none

/-- The group of a wait goes on: the effect of its instruction is performed where the body answers true; a trap is
precise at the waiting instruction. -/
def State.finishWait (s : State) (k : GKey) (body : M Bool) : State :=
  match body (s.onGroup k fun g => { g with run := .ready }) with
  | .ok (true, s') => s'.stepped k
  | .ok (false, _) => s
  | .error .stall => s
  | .error (.trap t _) => s.trapWaiting k t
  | .error (.violation c a _) => (s.onGroup k Group.rewind).freezeGroup k c a

/-- The event that wakes a wait: its condition is tested again. -/
def State.wake (s : State) (k : GKey) (body : Wait → Option (M Bool)) : Out :=
  match s.group? k with
  | none => .next s
  | some g =>
    match g.waitOf with
    | none => .next s
    | some w =>
      match body w with
      | some b => .next (s.finishWait k b)
      | none => .next s

/-- A scalar result that is not written on a timeout: the destination keeps its value, which b0 takes (02 R29). -/
def Regs.keepS (r : Regs) (d : Sel) : Regs :=
  r.fillLatch (.scal (match d with | .s i => r.sget i.toNat | _ => {}))

/-- The timeout predicate of an instruction that names it in X[3:0]. -/
def ptOf (f : Fields) : Nat := f.x.toNat % 16

/-! ### Full/empty words (10 R194) -/

/-- The word that a full/empty instruction names: its position and offset in the instance. -/
def M.padWord (k : GKey) (f : Fields) (writes : Bool) : M (List (Nat × Place)) := do
  let g ← M.group k
  let a ← M.clean (g.ssrc f true f.a)
  M.places g f.m 4 [g.scalarEl (a + offsetOf false f)] writes

/-- LDF where its word is full: the word is read, emptied under TAKE, and acquired. -/
def tryLdf (f : Fields) (take : Bool) (k : GKey) : M Bool := do
  let g ← M.group k
  let ps ← M.padWord k f false
  match ps with
  | (_, .pad pos o) :: _ =>
    let pad ← M.run' fun s => (s.padAt g.id.inst pos, s)
    if !NSet.has pad.full (o / 4) then pure false
    else
      let l ← M.load k f.m 4 (g.at_ f) ps
      let x : Elem := match l with | (_, x) :: _ => x | [] => {}
      M.modify fun s => s.onPad g.id.inst pos fun p => if take then { p with full := NSet.rem p.full (o / 4) } else p
      M.acquire k (Store.getD pad.lts (o / 4) 0)
      M.onGroup k fun g =>
        { g with regs := (g.regs.sdst f.d { val := extend f.t x.v, tag := x.tag }).pfill (ptOf f) false }
      pure true
  | _ => pure false

/-- LDF, both functions. -/
def runLdf (f : Fields) (take : Bool) (i : Instr) (k : GKey) : M Unit := do
  M.gate k
  let g ← M.group k
  let _ ← M.clean (g.ssrc f true f.a)
  let limit ← M.timeout g f f.c
  M.wait k (.fullEmpty i) f limit true (tryLdf f take k)
    (M.onGroup k fun g => { g with regs := (g.regs.keepS f.d).pfill (ptOf f) true })

/-- LDF.KEEP (10 R194). -/
def execLdfKeep (f : Fields) (s : State) : Out := runM (.ldfKeep f) (fun f k => runLdf f false (.ldfKeep f) k) s
/-- LDF.TAKE (10 R194). -/
def execLdfTake (f : Fields) (s : State) : Out := runM (.ldfTake f) (fun f k => runLdf f true (.ldfTake f) k) s

/-- STE where its word is empty: a cohort-scope release, then the word is written and full (09 R176). -/
def trySte (f : Fields) (k : GKey) : M Bool := do
  let g ← M.group k
  let b ← M.clean (g.ssrc f true f.b)
  let ps ← M.padWord k f true
  match ps with
  | (_, .pad pos o) :: _ =>
    let pad ← M.run' fun s => (s.padAt g.id.inst pos, s)
    if NSet.has pad.full (o / 4) then pure false
    else
      M.modify fun s => s.releaseDrain k g.id.inst 1
      M.modify fun s => (s.syncPad (.group k) g.id.inst pos o 4).onPad g.id.inst pos fun p =>
        let bytes := bytesAt o (leBytes 4 b.toNat)
        (p.put bytes).fillWords bytes
      M.setPt k (ptOf f) false
      pure true
  | _ => pure false

/-- STE (10 R194). -/
def execSte (f : Fields) (s : State) : Out :=
  runM (.ste f) (fun f k => do
    M.gate k
    let g ← M.group k
    let _ ← M.clean (g.ssrc f true f.a)
    let _ ← M.clean (g.ssrc f true f.b)
    let limit ← M.timeout g f f.c
    M.wait k (.fullEmpty (.ste f)) f limit false (trySte f k) (M.setPt k (ptOf f) true)) s

/-- FESET: the bit of the word is set, the word keeps its value. -/
def runFeset (f : Fields) (k : GKey) (full : Bool) : M Unit := do
  M.noSpec k
  M.noFence k
  let g ← M.group k
  let ps ← M.padWord k f true
  match ps with
  | (_, .pad pos o) :: _ =>
    M.modify fun s => (s.syncPad (.group k) g.id.inst pos o 4).onPad g.id.inst pos fun p =>
      { p with full := NSet.set p.full (o / 4) full }
  | _ => pure ()

/-- FESET.EMPTY (10 R194). -/
def execFesetEmpty (f : Fields) (s : State) : Out := runM (.fesetEmpty f) (fun f k => runFeset f k false) s
/-- FESET.FULL (10 R194). -/
def execFesetFull (f : Fields) (s : State) : Out := runM (.fesetFull f) (fun f k => runFeset f k true) s

/-- A word that makes a waiting LDF or STE go on (09 R175). -/
def execFullEmptyWake (k : GKey) (s : State) : Out :=
  s.wake k fun w =>
    match w.op with
    | .fullEmpty (.ldfKeep f) => some (tryLdf f false k)
    | .fullEmpty (.ldfTake f) => some (tryLdf f true k)
    | .fullEmpty (.ste f) => some (trySte f k)
    | _ => none

end Sys2Proof.Machine
end

