-- ==== Sys2Proof/Machine/Fences.lean ====
section
/-!
DEFINITION. Fences (10 R195, R196, 09 R164), timelines (10 R197 to R199), and the wait on a chunk bitmap (10 R200).
-/
namespace Sys2Proof.Machine
open Sys2Proof

/-! ### Fences -/

/-- Before a fence: earlier fences are complete; from device scope on an ordered group is the oldest (20 R344). -/
def M.fenceGate (k : GKey) (scope : BitVec 3) : M Unit := do
  M.noSpec k
  M.noFence k
  if 2 ≤ scope then M.oldest k else pure ()

/-- A fence stands until its completion (10 R195). -/
def M.raiseFence (k : GKey) (fn : BitVec 4) (scope : BitVec 3) : M Unit :=
  M.onGroup k fun g => { g with fence := some { fn := fn, scope := scope } }

/-- FENCE under every function but PROMOTE: the group's write-combining lines depart (07 R128), a release drains its
copies, and an acquire of domain scope or wider drops its tower's copies of lines homed elsewhere (09 R169). -/
def runFence (f : Fields) (rel acq : Bool) (k : GKey) : M Unit := do
  M.fenceGate k (scopeOf f)
  let g ← M.group k
  M.modify fun s =>
    let s1 := s.releaseDrain k g.id.inst (if rel then (scopeOf f).toNat else 0)
    if acq && 3 ≤ scopeOf f then s1.dropRemote k else s1
  M.raiseFence k f.fn (scopeOf f)

/-- FENCE.ACQ (10 R195). -/
def execFenceAcq (f : Fields) (s : State) : Out := runM (.fenceAcq f) (fun f k => runFence f false true k) s
/-- FENCE.REL (10 R195). -/
def execFenceRel (f : Fields) (s : State) : Out := runM (.fenceRel f) (fun f k => runFence f true false k) s
/-- FENCE.FULL (10 R195). -/
def execFenceFull (f : Fields) (s : State) : Out := runM (.fenceFull f) (fun f k => runFence f true true k) s

/-- The group that a master word of a group names (26 R410). -/
def victimOf (w : Word64) : GKey := ⟨w.extractLsb' 0 5, w.extractLsb' 8 4, w.extractLsb' 32 3⟩

/-- FENCE.PROMOTE (08 R144, 10 R196); from domain scope on its acquire drops the tower's copies of lines homed elsewhere. DESIGN CHOICE,
log 24: a cohort's copy that holds atomics of the victim is not one that the victim holds. -/
def execFencePromote (f : Fields) (s : State) : Out :=
  runM (.fencePromote f) (fun f k => do
    M.fenceGate k (scopeOf f)
    let g ← M.group k
    let a ← M.clean (g.ssrc f true f.a)
    let v := victimOf a
    let owner ← M.run' fun s => (s.partOfCore (keyCore v), s)
    M.check (owner = some g.id.part.toNat) { cause := cProt }
    M.modify fun s =>
      let s1 := (s.departWhere fun w => w.g = k).drainWhere (fun c => c.owner = .group v)
      if 3 ≤ scopeOf f then s1.dropRemote k else s1
    let lt ← M.run' fun s => (s.ltOf (.group v), s)
    M.acquire k lt
    M.raiseFence k f.fn (scopeOf f)) s

/-- The group whose fence is complete: one that acquires takes up what the group's accesses have seen (18 R320, log 31). -/
def Group.fenceDone (g : Group) : Group :=
  let acquires := match g.fence with | some f => f.fn != 1 | none => false
  { g with fence := none, regs := if acquires then { g.regs with acq := max g.regs.acq g.regs.seen } else g.regs }

/-- A fence completes: its drains have reached the home (10 R195). -/
def execFenceComplete (k : GKey) (s : State) : Out := .next (s.onGroup k Group.fenceDone)

/-! ### Timelines -/

/-- The timeline in X[3:0]. -/
def tlOf (f : Fields) : Nat := f.x.toNat % 16
/-- The number of a predicate operand. -/
def predNo (s : Sel) : Nat := match s with | .v i => i.toNat % 16 | _ => 0

/-- A predicate destination with every bit the same. -/
def Regs.pall (r : Regs) (d : Sel) (b : Bool) : Regs := r.pdst d (fun _ => true) fun _ => (b, none)

/-- TLWAIT without its acquire: the error predicate zeros, the status predicate ones (10 R197). -/
def Regs.tlNot (r : Regs) (f : Fields) : Regs := (r.pall f.d false).pfill (predNo f.c) true

/-- TLWAIT on a count that the timeline may have reached: an acquire of the commands up to it (09 R172). -/
def tryTlwait (f : Fields) (k : GKey) : M Bool := do
  let g ← M.group k
  let n ← M.clean (g.ssrc f true f.a)
  let t := vget g.tl (tlOf f) {}
  if n.toNat ≤ t.done.toNat then do
    M.acquire k (t.ltOf n.toNat)
    M.onGroup k fun g => { g with regs := (g.regs.pall f.d t.err).pfill (predNo f.c) false }
    pure true
  else pure false

/-- A count that has not been issued. -/
def M.notIssued (k : GKey) (f : Fields) : M Bool := do
  let g ← M.group k
  let n ← M.clean (g.ssrc f true f.a)
  pure ((vget g.tl (tlOf f) {}).issued.toNat < n.toNat)

/-- TLWAIT ends with no acquire. -/
def M.tlEnd (k : GKey) (f : Fields) : M Unit := M.onGroup k fun g => { g with regs := g.regs.tlNot f }

/-- TLWAIT.WAIT (10 R197). -/
def execTlwaitWait (f : Fields) (s : State) : Out :=
  runM (.tlwaitWait f) (fun f k => do
    M.gate k
    let g ← M.group k
    let late ← M.notIssued k f
    let limit ← M.timeout g f f.b
    if late then M.tlEnd k f
    else M.wait k .timeline f limit true (tryTlwait f k) (M.tlEnd k f)) s

/-- TLWAIT.TEST (10 R197). -/
def execTlwaitTest (f : Fields) (s : State) : Out :=
  runM (.tlwaitTest f) (fun f k => do
    M.noSpec k
    M.noFence k
    let met ← tryTlwait f k
    if met then pure () else M.tlEnd k f) s

/-- A command whose finish a waiting TLWAIT waits for (10 R197). -/
def execTimelineWaitWake (k : GKey) (s : State) : Out :=
  s.wake k fun w => match w.op with | .timeline => some (tryTlwait w.f k) | _ => none

/-- TLRD of one value. -/
def runTlrd (f : Fields) (g : Group) (v : Timeline → Word64) : Group :=
  { g with regs := g.regs.sdst f.d { val := v (vget g.tl (tlOf f) {}) } }
/-- The error latch as a word. -/
def errWord (t : Timeline) : Word64 := if t.err then 1 else 0

/-- TLRD.DONE (10 R198). -/
def execTlrdDone (f : Fields) (s : State) : Out := runRegs (.tlrdDone f) (fun f g => .ok (runTlrd f g (·.done))) s
/-- TLRD.ISSUED (10 R198). -/
def execTlrdIssued (f : Fields) (s : State) : Out := runRegs (.tlrdIssued f) (fun f g => .ok (runTlrd f g (·.issued))) s
/-- TLRD.ERR (10 R198). -/
def execTlrdErr (f : Fields) (s : State) : Out := runRegs (.tlrdErr f) (fun f g => .ok (runTlrd f g errWord)) s
/-- TLRD.CLRERR (10 R198): the latch is read and cleared in one step; the clearing waits for a renewal (08 R149). -/
def execTlrdClrerr (f : Fields) (s : State) : Out :=
  runM (.tlrdClrerr f) (fun f k => do
    M.noSpec k
    M.onGroup k fun g =>
      let t := vget g.tl (tlOf f) {}
      { runTlrd f g errWord with tl := g.tl.setIfInBounds (tlOf f) { t with err := false } }) s

/-- TLINC (10 R199). -/
def execTlinc (f : Fields) (s : State) : Out :=
  runM (.tlinc f) (fun f k => do
    let n ← M.nullCmd k (tlOf f) 0xCF
    M.onGroup k fun g => { g with regs := g.regs.sdst f.d { val := n } }) s

/-! ### CHKW -/

/-- CHKW where every bit of the mask is set: an acquire of the writes of those chunks (09 R173). A poisoned word is
consumed (24 R390). -/
def tryChkw (f : Fields) (k : GKey) : M Bool := do
  let g ← M.group k
  let a ← M.clean (g.ssrc f true f.a)
  let b ← M.clean (g.ssrc f true f.b)
  let ps ← M.places g f.m 8 [g.scalarEl (a + offsetOf false f)] false
  match ps with
  | (_, .pad pos o) :: _ =>
    let pad ← M.run' fun s => (s.padAt g.id.inst pos, s.syncPad (.group k) g.id.inst pos o 8)
    M.check (!NSet.has pad.poison (o / 32)) { cause := cPoison, xaddr := o / 32 * 32 }
    let w := BitVec.ofNat 64 (ofLeBytes ((List.range 8).map fun i => pad.byteAt (o + i)))
    if w &&& b = b then do
      M.acquire k (if b = 0 then 0 else Store.getD pad.lts (o / 4) 0)
      M.setPt k (ptOf f) false
      pure true
    else pure false
  | _ => pure false

/-- CHKW.WAIT (10 R200). -/
def execChkwWait (f : Fields) (s : State) : Out :=
  runM (.chkwWait f) (fun f k => do
    M.gate k
    let g ← M.group k
    let _ ← M.clean (g.ssrc f true f.a)
    let _ ← M.clean (g.ssrc f true f.b)
    let limit ← M.timeout g f f.c
    M.wait k .chunk f limit false (tryChkw f k) (M.setPt k (ptOf f) true)) s

/-- CHKW.TEST (10 R200). -/
def execChkwTest (f : Fields) (s : State) : Out :=
  runM (.chkwTest f) (fun f k => do
    M.noSpec k
    M.noFence k
    let met ← tryChkw f k
    if met then pure () else M.setPt k (ptOf f) true) s

/-- A chunk that makes a waiting CHKW go on (10 R200). -/
def execChunkWaitWake (k : GKey) (s : State) : Out :=
  s.wake k fun w => match w.op with | .chunk => some (tryChkw w.f k) | _ => none

end Sys2Proof.Machine
end

