-- ==== Sys2Proof/Machine/Shapes.lean ====
section
/-!
DEFINITION. Shape-and-stride records (18 R305 to R308) and the addresses of their elements; the context in which an
engine command accesses memory and scratchpads (10 R205, R206, 24 R382), its reads and its sector writes (09 R173).
-/
namespace Sys2Proof.Machine
open Sys2Proof

/-! ### Shape records -/

namespace Shape
/-- BASE. -/
def base (r : Rec) : Word64 := BitVec.ofNat 64 (recNat r 0 8)
/-- STRIDEd. -/
def stride (r : Rec) (d : Nat) : Word64 := BitVec.ofNat 64 (recNat r (8 + 8 * d) 8)
/-- MSTRIDE. -/
def mstride (r : Rec) : Word64 := BitVec.ofNat 64 (recNat r 40 8)
/-- DIMS. -/
def dims (r : Rec) : Nat := recNat r 61 1
/-- ELEM. -/
def elem (r : Rec) : Nat := recNat r 60 1
/-- EXTd as it stands. -/
def rawExt (r : Rec) (d : Nat) : Nat := recNat r (48 + 3 * d) 3
/-- The indices of dimension d. -/
def ext (r : Rec) (d : Nat) : Nat := if d < dims r then rawExt r d else 1
/-- A size that an element may have. -/
def sizeOk (n : Nat) : Bool := n = 1 || n = 2 || n = 4 || n = 8

/-- The record is legal (18 R306). -/
def legal (r : Rec) : Bool :=
  1 ≤ dims r && dims r ≤ 4 && sizeOk (elem r) &&
  (List.range 4).all (fun d =>
    (if d < dims r then 1 ≤ rawExt r d else rawExt r d = 0 && stride r d = 0) && (stride r d).toNat % elem r = 0) &&
  (mstride r).toNat % elem r = 0 && recNat r 62 2 = 0

/-- BASE is a multiple of ELEM (18 R306). -/
def aligned (r : Rec) : Bool := (base r).toNat % elem r = 0

/-- The byte of dimension 0 at which an index stands: with 4-bit containers two codes share a byte (18 R308). -/
def index0 (half : Bool) (i : Nat) : Nat := if half then i / 2 else i

/-- The address of the element with the given indices (18 R307). -/
def addr (r : Rec) (g : Nat) (i0 i1 i2 i3 : Nat) : Word64 :=
  base r + BitVec.ofNat 64 g * mstride r + BitVec.ofNat 64 i0 * stride r 0 + BitVec.ofNat 64 i1 * stride r 1 +
    BitVec.ofNat 64 i2 * stride r 2 + BitVec.ofNat 64 i3 * stride r 3

/-- The first index tuple for which a test gives something, dimension 0 fastest. -/
def findIdx {α : Type} (r : Rec) (p : Nat → Nat → Nat → Nat → Option α) : Option α :=
  (List.range (ext r 3)).findSome? fun i3 => (List.range (ext r 2)).findSome? fun i2 =>
    (List.range (ext r 1)).findSome? fun i1 => (List.range (ext r 0)).findSome? fun i0 => p i0 i1 i2 i3

/-- Every index tuple, dimension 0 fastest. -/
def allIdx (r : Rec) : List (Nat × Nat × Nat × Nat) :=
  (List.range (ext r 3)).flatMap fun i3 => (List.range (ext r 2)).flatMap fun i2 =>
    (List.range (ext r 1)).flatMap fun i1 => (List.range (ext r 0)).map fun i0 => (i0, i1, i2, i3)
end Shape

/-- A space whose offsets are checked against a segment at issue. -/
def segSpace (sp : Space) : Bool := sp = spL || sp = spW || sp = spK

/-- The address multiple of a member (18 R307): the global member index, or the slot in L and W. -/
def memberOf (sp : Space) (gmi slot : Nat) : Nat := if sp = spL || sp = spW then slot else gmi

/-- Where the elements of a record lie, for one member: the first for which a test gives something. -/
def shapeFind {α : Type} (sg : Segs) (i : Inst) (pos : Nat) (sp : Space) (r : Rec) (g : Nat) (half : Bool)
    (p : Word64 → Except Nat (Nat × Place) → Option α) : Option α :=
  if !segSpace sp then none
  else Shape.findIdx r fun i0 i1 i2 i3 =>
    let off := Shape.addr r g (Shape.index0 half i0) i1 i2 i3
    p off (placeOf sg i pos sp (Shape.elem r) off 0)

/-- Every element's offset lies in its segment (18 R307, 10 R184 step 2). -/
def shapeSeg (sg : Segs) (i : Inst) (pos : Nat) (sp : Space) (r : Rec) (g : Nat) (half : Bool) : Except Trap Unit :=
  match shapeFind sg i pos sp r g half fun off x => match x with
    | .error k => some ({ cause := cSegment, xaddr := off.toNat, xinfo := k } : Trap)
    | .ok _ => none with
  | some t => .error t
  | none => .ok ()

/-- Every element's address is a multiple of its size (10 R184 step 3). -/
def shapeAlign (sg : Segs) (i : Inst) (pos : Nat) (sp : Space) (r : Rec) (g : Nat) (half : Bool) : Except Trap Unit :=
  match shapeFind sg i pos sp r g half fun _ x => match x with
    | .ok (a, _) =>
      if a % Shape.elem r = 0 then none else some ({ cause := cMisaligned, xaddr := a, xinfo := Shape.elem r } : Trap)
    | .error _ => none with
  | some t => .error t
  | none => .ok ()

/-- A record address is a multiple of 64 (18 R317 step 2). -/
def M.aligned64 (a : Word64) : M Unit := M.check (a.toNat % 64 = 0) { cause := cMisaligned, xaddr := a.toNat, xinfo := 64 }

/-- Records of 64 bytes read through G at issue: every address is checked before one is read (18 R317, 10 R184). -/
def M.recs64 (k : GKey) (l : List Word64) : M (List Rec) := do
  l.forM M.aligned64
  l.mapM fun a => M.readRec k a.toNat 64

/-- Record i of those read. -/
def recOf (l : List Rec) (i : Nat) : Rec := l[i]?.getD []

/-- A shape record, or any record of 64 bytes, read through G at issue (18 R317). -/
def M.rec64 (k : GKey) (a : Word64) : M Rec := do
  M.aligned64 a
  M.readRec k a.toNat 64

/-- An illegal record traps ILLEGAL_OPERAND (18 R306); its XINFO is the instruction word (28 R428). -/
def M.legal (w : BitVec 64) (b : Bool) : M Unit := M.check b { cause := cOperand, xinfo := w.toNat }

/-- A record whose BASE is not a multiple of its element size traps MISALIGNED (18 R306). -/
def M.alignedRec (r : Rec) : M Unit :=
  M.check (Shape.aligned r) { cause := cMisaligned, xaddr := (Shape.base r).toNat, xinfo := Shape.elem r }

/-- The instruction word of a group's instruction, for XINFO. -/
def wordOf (i : Instr) : BitVec 64 :=
  match row i, fields i with
  | some r, some f => baseWord r.op f
  | _, _ => 0

/-! ### The context of a command -/

/-- The engine that runs a kind of command (24 R382). -/
def CmdKind.eng : CmdKind → EngCtx
  | .tile _ => .copy
  | .layout _ => .layout
  | .row _ => .row
  | .ired _ => .ired
  | .coll _ => .coll
  | .matrix => .matrix
  | _ => .copy

/-- The walk-ahead TLB of a command's engine context: behind the compute die of its group, or behind the Hamper's I/O die for a
queue copy (24 R382, R388). -/
def Cmd.tlbId (c : Cmd) : TlbId :=
  match c.key with
  | .group k _ _ => { target := gdieOf (keyCore k), core := some (keyCore k), eng := some c.kind.eng }
  | .queue _ _ => { target := 12, eng := some .queueCopy }

/-- A command whose follow-on the matrix engine runs: it translates through that engine's TLB (18 R313). -/
def Cmd.asMatrix (c : Cmd) : Cmd := { c with kind := .matrix }

/-- The context of a command's accesses (10 R205, 24 R380). -/
def Cmd.ctx (c : Cmd) : Ctx := { part := c.part.toNat, asid := c.asid.toNat, sup := c.sup, tlb := c.tlbId }

/-- An instance of no group, for commands that name no scratchpad. -/
def noInst : Inst :=
  { launch := 0, part := 0, sup := false, ci := 0, ox := 0, oy := 0, width := 1, height := 1, spd := 0, fslot := 0, gen := 0,
    groups := [], bars := Vector.replicate 16 {} }

/-- The instance of a command's group. -/
def State.instOf (s : State) (c : Cmd) : Inst := (s.inst? c.inst).getD noInst
/-- The position of a command's group in its instance (02 R41). -/
def Cmd.pos (c : Cmd) (i : Inst) : Nat := c.lin % i.size

/-- How an access of a unit fails: a translation fault with its cause; a violation; it waits for a migration; or it
lies outside local HBM, where the command cannot resume (11 R214). -/
inductive EngStop where
  | fault (addr cause : Nat)
  | violation (code addr : Nat)
  | wait
  | dead (addr : Nat)
deriving DecidableEq, Repr

/-- The cause of a failed translation of an engine (10 R206). -/
def engXlat (va : Nat) : Xlat → Except EngStop Spot
  | .ok pa => .ok (.pa pa)
  | .page .. => .error (.fault va cPage)
  | .prot .. => .error (.fault va cProt)
  | .poison _ => .error (.fault va cPoison)
  | .violation c a => .error (.violation c a)
  | .wait => .error .wait

/-- Where an element of a command lies. Its segment was checked at issue. -/
def State.engSpot (s : State) (c : Cmd) (acc : Access) (sp : Space) (size : Nat) (off : Word64) : Except EngStop Spot :=
  let i := s.instOf c
  match placeOf c.segs i (c.pos i) sp size off 0 with
  | .ok (_, .pad q o) => .ok (.pad q o)
  | .ok (_, .va va) => engXlat va (s.translate c.ctx acc va)
  | .error _ => .error .wait

/-- The walk for an element of a command reads its entries as device-scope loads, which end P (24 R381, 08 R153). -/
def State.engWalked (s : State) (c : Cmd) (sp : Space) (size : Nat) (off : Word64) : State :=
  let i := s.instOf c
  match placeOf c.segs i (c.pos i) sp size off 0 with
  | .ok (_, .va va) => s.walked c.ctx va
  | _ => s

/-- The bytes of an element that a command reads, with its poison: the bytes under a poisoned sector, and those of a request that ends
with error, are read as they stand (10 R207, 01 R11). -/
def State.engRead (s : State) (c : Cmd) (n : Nat) : Spot → (List Byte × Bool) × State
  | .pad q o =>
    let p := s.padAt c.inst q
    (((List.range n).map fun i => p.byteAt (o + i), NSet.has p.poison (o / 32)), s.syncPad (.cmd c.key) c.inst q o n)
  | .pa a =>
    match s.meets (.cmd c.key) a with
    | (true, s1) => ((s1.seeBytes (.cmd c.key) false a n, true), s1)
    | (false, s0) =>
      let s1 := s0.loadLine (.cmd c.key) false a n
      ((s1.seeBytes (.cmd c.key) false a n, s1.seePoison (.cmd c.key) a), s1)

/-- A byte of a sector write: where it lies and its value. -/
structure SpotByte where
  at_ : Spot
  b : Byte
deriving DecidableEq, Repr

/-- The sector of a spot: the position of a scratchpad, or none for memory, with the sector number. -/
def Spot.sector : Spot → Option Nat × Nat
  | .pad q o => (some q, o / 32)
  | .pa a => (none, a / 32)

/-- What a kind of command does beside its sector writes: the copy and layout engines set the words of a scratchpad full
(02 R38), and the detector tracks the writes of the copy engine (09 R179). -/
structure EngWrites where
  full : Bool := false
  tracked : Bool := false

/-- The copy engine. -/
def engCopy : EngWrites := { full := true, tracked := true }
/-- The layout engine. -/
def engLayout : EngWrites := { full := true }
/-- The matrix, row, reduce and collective engines. -/
def engPlain : EngWrites := {}

/-- One sector write of a command, as one operation (09 R173): words that become full carry the command's logical time
(09 R176); `bad` marks the sector poisoned (10 R207, 28 R431). -/
def State.engWrite (s : State) (c : Cmd) (kd : EngWrites) (l : List SpotByte) (bad : Bool) : State :=
  match l with
  | [] => s
  | x :: _ =>
    match x.at_ with
    | .pad q o =>
      let bytes := l.filterMap fun y => match y.at_ with | .pad _ o => some (o, y.b) | .pa _ => none
      (s.syncPad (.cmd c.key) c.inst q (o / 32 * 32) 32).onPad c.inst q fun p =>
        let p1 := if kd.full then (p.put bytes).fillWords bytes else p.put bytes
        { p1 with poison := if bad then NSet.add p1.poison (o / 32) else p1.poison }
    | .pa a =>
      let bytes := l.filterMap fun y => match y.at_ with | .pa a => some (a, y.b) | .pad .. => none
      if s.lostAt a then s
      else match s.meets (.cmd c.key) a with
        | (true, s1) => s1
        | (false, s1) =>
          let s2 := s1.performOp (.cmd c.key) bytes kd.tracked
          if bad then s2.markPoison a else s2

/-- Sector writes of bytes in the order in which their sectors first stand. -/
def State.engWrites (s : State) (c : Cmd) (kd : EngWrites) (l : List SpotByte) (bad : Option Nat × Nat → Bool) : State :=
  ((l.map fun x => x.at_.sector).eraseDups).foldl
    (fun s k => s.engWrite c kd (l.filter fun x => x.at_.sector = k) (bad k)) s

/-- The bytes of an element at a spot. -/
def spotAt (p : Spot) (l : List Byte) : List SpotByte :=
  l.zipIdx.map fun x => { at_ := match p with | .pad q o => .pad q (o + x.2) | .pa a => .pa (a + x.2), b := x.1 }

/-! ### Units of a command -/

/-- The lowest unit that has not been performed. -/
def firstUnit (done : NSet) : Nat → Nat → Nat
  | 0, u => u
  | n + 1, u => if NSet.has done u then firstUnit done n (u + 1) else u

/-- The first unfinished unit of a command. -/
def Cmd.nextUnit (c : Cmd) : Nat := firstUnit c.units c.units.length 0

/-- A unit is performed. -/
def State.unitDone (s : State) (c : CKey) (u : Nat) : State := s.onCmd c fun x => { x with units := NSet.add x.units u }

end Sys2Proof.Machine
end

