-- ==== Sys2Proof/Machine/Copies.lean ====
section
/-!
DEFINITION. The copy engine: CPY and the units of a copy (10 R205 to R207, 20 R342), CPYT and the sectors of a tile copy
(10 R208, R209).
-/
namespace Sys2Proof.Machine
open Sys2Proof

/-! ### CPY at issue (10 R207) -/

/-- The first word of a range of n bytes that lies outside its segment, as segment number and offset. -/
def spanBad (sg : Segs) (i : Inst) (pos : Nat) (sp : Space) (off : Word64) (n : Nat) : Option (Nat × Nat) :=
  if n = 0 || !segSpace sp then none
  else
    let o := off.toNat
    let (k, lim) := if sp = spL then (0, sg.l.limit.toNat) else if sp = spW then (1, sg.w.limit.toNat) else (2, sg.k.limit.toNat)
    match placeOf sg i pos sp 4 off 0 with
    | .error _ => some (k, o)
    | .ok (_, p) =>
      let room := match sp == spW, p with
        | true, .pad _ a => min (lim - o) (i.spd * 32768 - a)
        | _, _ => lim - o
      if (n + 3) / 4 * 4 ≤ room then none else some (k, o + room / 4 * 4)

/-- The address that alignment is checked on. -/
def baseAddr (sg : Segs) (sp : Space) (off : Word64) : Nat :=
  (if sp = spL then sg.l.base + off else if sp = spW then sg.w.base + off else if sp = spK then sg.k.base + off else off).toNat

/-- The bytes of the bitmap of a copy: one word of 64 bits for 64 chunks. -/
def bitmapBytes (n : Nat) : Nat := 8 * (((n + 511) / 512 + 63) / 64)

/-- Steps 2 to 4 of R184 for a copy: every segment, every alignment, then a destination in space K. -/
def copyCheck (sg : Segs) (i : Inst) (pos : Nat) (c : Copy) : Except Trap Unit :=
  let seg (x : Nat × Nat) : Except Trap Unit := .error { cause := cSegment, xaddr := x.2, xinfo := x.1 }
  let mis (a size : Nat) : Except Trap Unit := .error { cause := cMisaligned, xaddr := a, xinfo := size }
  let srcIn := if c.fill.isSome then none else spanBad sg i pos c.ssp c.src c.len
  let da := baseAddr sg c.dsp c.dst
  let sa := baseAddr sg c.ssp c.src
  let bm := c.bitmap.getD 0
  if 2 ^ 32 < c.len then seg (0, c.dst.toNat)
  else match spanBad sg i pos c.dsp c.dst c.len, srcIn with
  | some x, _ => seg x
  | none, some x => seg x
  | none, none =>
    if c.bitmap.isSome && c.len != 0 && sg.l.limit.toNat < bm.toNat + bitmapBytes c.len then seg (0, bm.toNat)
    else if c.len % 4 != 0 || da % 4 != 0 then mis da 4
    else if c.fill.isNone && sa % 4 != 0 then mis sa 4
    else if c.bitmap.isSome && (sg.l.base + bm).toNat % 8 != 0 then mis (sg.l.base + bm).toNat 8
    else if c.dsp = spK then .error { cause := cProt, xaddr := da, xinfo := 1 }
    else .ok ()

/-- CPY, both functions: the checks, then the command; a length of zero finishes at once. -/
def runCpy (f : Fields) (k : GKey) (fill : Bool) : M Unit := do
  let g ← M.group k
  let a ← M.clean (g.ssrc f true f.a)
  let b ← M.clean (g.ssrc f true f.b)
  let n ← M.clean (g.ssrc f true f.c)
  let i ← M.inst g
  let c : Copy :=
    { dsp := f.m, ssp := f.t, dst := a, src := b, len := n.toNat,
      fill := if fill then some (b.setWidth 32) else none,
      bitmap := if f.is96 then some (sext32 f.i32) else none }
  M.lift (copyCheck g.segs i (g.pos i) c)
  if n = 0 then
    let _ ← M.nullCmd k (tlOf f) 0xE0
    pure ()
  else
    let _ ← M.issue k (tlOf f) 0xE0 (.copy c) ((n.toNat + 511) / 512)
    pure ()

/-- CPY.COPY (10 R207). -/
def execCpyCopy (f : Fields) (s : State) : Out := runM (.cpyCopy f) (fun f k => runCpy f k false) s
/-- CPY.FILL (10 R207). -/
def execCpyFill (f : Fields) (s : State) : Out := runM (.cpyFill f) (fun f k => runCpy f k true) s

/-! ### The units of a copy -/

/-- The byte offsets of the words of chunk u. -/
def chunkWords (len u : Nat) : List Nat := (List.range (min 128 ((len - 512 * u + 3) / 4))).map fun j => 512 * u + 4 * j

/-- Every word of a chunk translated, in order. -/
def State.engSpots (s : State) (c : Cmd) (acc : Access) (sp : Space) (base : Word64) :
    List Nat → Except EngStop (List (Nat × Spot))
  | [] => .ok []
  | o :: r =>
    match s.engSpot c acc sp 4 (base + BitVec.ofNat 64 o), s.engSpots c acc sp base r with
    | .error e, _ => .error e
    | .ok _, .error e => .error e
    | .ok p, .ok l => .ok ((o, p) :: l)

/-- The walks of the words of a chunk. -/
def State.engWalks (s : State) (c : Cmd) (sp : Space) (base : Word64) (words : List Nat) : State :=
  words.foldl (fun s o => s.engWalked c sp 4 (base + BitVec.ofNat 64 o)) s

/-- Words read one after another: bytes and poison by offset. -/
def State.engReadAll (s : State) (c : Cmd) : List (Nat × Spot) → List (Nat × List Byte × Bool) × State
  | [] => ([], s)
  | (o, p) :: r =>
    let (x, s1) := s.engRead c 4 p
    let (l, s2) := s1.engReadAll c r
    ((o, x.1, x.2) :: l, s2)

/-- Bit u of the bitmap at an L offset of the command's group is set, after the chunk's writes (10 R207); the words that this
writes become full (02 R38). -/
def State.setChunkBit (s : State) (c : Cmd) (bm : Word64) (u : Nat) : State :=
  let i := s.instOf c
  match placeOf c.segs i (c.pos i) spL 8 (bm + BitVec.ofNat 64 (8 * (u / 64))) 0 with
  | .ok (_, .pad q o) =>
    (s.syncPad (.cmd c.key) c.inst q o 8).onPad c.inst q fun p =>
      let w := ofLeBytes ((List.range 8).map fun j => p.byteAt (o + j))
      let bytes := bytesAt o (leBytes 8 (w ||| 2 ^ (u % 64)))
      (p.put bytes).fillWords bytes
  | _ => s

/-- Chunk u of a copy (10 R206, R207): its words are translated, read and written sector by sector; a destination sector
that draws on poison becomes poisoned; then its bitmap bit is set. -/
def State.copyUnit (s : State) (c : Cmd) (x : Copy) (u : Nat) : Except EngStop State :=
  let words := chunkWords x.len u
  match s.engSpots c .write x.dsp x.dst words with
  | .error e => .error e
  | .ok ds =>
    let fin (s1 : State) (src : Nat → List Byte × Bool) : State :=
      let bytes := ds.flatMap fun d => spotAt d.2 ((src d.1).1.take (x.len - d.1))
      let bad (k : Option Nat × Nat) : Bool := ds.any fun d => d.2.sector = k && (src d.1).2
      let s2 := s1.engWrites c engCopy bytes bad
      match x.bitmap with
      | some bm => s2.setChunkBit c bm u
      | none => s2
    match x.fill with
    | some w => .ok (fin (s.engWalks c x.dsp x.dst words) fun _ => (leBytes 4 w.toNat, false))
    | none =>
      match s.engSpots c .read x.ssp x.src words with
      | .error e => .error e
      | .ok ss =>
        let (l, s1) := ((s.engWalks c x.dsp x.dst words).engWalks c x.ssp x.src words).engReadAll c ss
        .ok (fin s1 fun o => match l.find? fun y => y.1 = o with | some y => y.2 | none => ([], false))

/-! ### CPYT (10 R208) -/

/-- The padding counts of a tile copy: lo0, hi0, lo1, hi1. -/
def padOf (w : Word64) (j : Nat) : Nat := bitsNat w.toNat (8 * j + 7) (8 * j)
/-- The pad value of an element. -/
def padValue (w : Word64) (size : Nat) : Nat := bitsNat w.toNat 63 32 % 2 ^ (8 * size)

/-- The records of a tile copy are consistent (10 R208). -/
def tileOk (d s : Rec) (pad : Word64) : Bool :=
  Shape.elem d = Shape.elem s && Shape.dims d = Shape.dims s &&
  Shape.ext d 0 = Shape.ext s 0 + padOf pad 0 + padOf pad 1 &&
  (if Shape.dims s = 1 then padOf pad 2 = 0 && padOf pad 3 = 0
    else Shape.ext d 1 = Shape.ext s 1 + padOf pad 2 + padOf pad 3) &&
  Shape.ext d 2 = Shape.ext s 2 && Shape.ext d 3 = Shape.ext s 3

/-- The repetitions of a tile copy: one for each slot set in mk where a record has a member stride, else one. -/
def tileReps (g : Group) (d s : Rec) : List (Nat × Nat) :=
  if Shape.mstride d = 0 && Shape.mstride s = 0 then [(0, 0)]
  else g.members.map fun m => ((vget g.regs.gmi m 0).toNat, m)

/-- An element of a tile copy: where it goes and where it comes from, none for a pad element. -/
structure TileEl where
  dst : Word64
  src : Option Word64
deriving DecidableEq, Repr

/-- The elements of one repetition, dimension 0 fastest. -/
def TileCopy.els (t : TileCopy) (rep : Nat × Nat) : List TileEl :=
  let gd := memberOf t.dsp rep.1 rep.2
  let gs := memberOf t.ssp rep.1 rep.2
  let lo0 := padOf t.pad 0
  let lo1 := padOf t.pad 2
  (Shape.allIdx t.drec).map fun (i0, i1, i2, i3) =>
    { dst := Shape.addr t.drec gd i0 i1 i2 i3
      src := if lo0 ≤ i0 && i0 - lo0 < Shape.ext t.srec 0 && lo1 ≤ i1 && i1 - lo1 < Shape.ext t.srec 1
        then some (Shape.addr t.srec gs (i0 - lo0) (i1 - lo1) i2 i3) else none }

/-- A place as a number that rises with its address: in space W the window address (02 R24). -/
def placeKey (i : Inst) : Place → Nat
  | .pad q o =>
    let col := q % i.width
    o + (if i.straddles then col % 8 * 2 ^ 20 + col / 8 * 2 ^ 26 else col * 2 ^ 20) + q / i.width * 2 ^ 23
  | .va a => a

/-- The sector of a destination, as a number that rises with its address. -/
def State.dstSector (s : State) (c : Cmd) (sp : Space) (size : Nat) (off : Word64) : Nat :=
  let i := s.instOf c
  match placeOf c.segs i (c.pos i) sp size off 0 with
  | .ok (_, p) => placeKey i p / 32
  | .error _ => 0

/-- The destination sectors of a command's elements, addresses rising (09 R173). -/
def State.sectorsOf (s : State) (c : Cmd) (sp : Space) (size : Nat) (l : List Word64) : List Nat :=
  ((l.map (s.dstSector c sp size)).eraseDups).mergeSort fun a b => a ≤ b

/-- The units of a tile copy: repetition and sector, in the order of their writing. -/
def State.tileUnits (s : State) (c : Cmd) (t : TileCopy) : List ((Nat × Nat) × Nat) :=
  t.reps.flatMap fun rep => (s.sectorsOf c t.dsp (Shape.elem t.drec) ((t.els rep).map (·.dst))).map fun k => (rep, k)

/-- Elements read and placed one after another: the bytes, and the sectors that draw on poison. -/
def State.tileFill (s : State) (c : Cmd) (t : TileCopy) : List TileEl →
    Except EngStop ((List SpotByte × List (Option Nat × Nat)) × State)
  | [] => .ok (([], []), s)
  | x :: r =>
    let size := Shape.elem t.drec
    match s.engSpot c .write t.dsp size x.dst with
    | .error e => .error e
    | .ok d =>
      let s0 := s.engWalked c t.dsp size x.dst
      let got : Except EngStop ((List Byte × Bool) × State) := match x.src with
        | none => .ok ((leBytes size (padValue t.pad size), false), s0)
        | some a =>
          match s.engSpot c .read t.ssp size a with
          | .error e => .error e
          | .ok p => .ok ((s0.engWalked c t.ssp size a).engRead c size p)
      match got with
      | .error e => .error e
      | .ok (y, s1) =>
        match s1.tileFill c t r with
        | .error e => .error e
        | .ok (l, s2) => .ok ((spotAt d y.1 ++ l.1, if y.2 then d.sector :: l.2 else l.2), s2)

/-- One sector of a tile copy (10 R208). -/
def State.tileUnit (s : State) (c : Cmd) (t : TileCopy) (u : Nat) : Except EngStop State :=
  match (s.tileUnits c t)[u]? with
  | none => .error .wait
  | some (rep, k) =>
    let size := Shape.elem t.drec
    let els := (t.els rep).filter fun x => s.dstSector c t.dsp size x.dst = k
    match s.tileFill c t els with
    | .error e => .error e
    | .ok ((bytes, bad), s1) => .ok (s1.engWrites c engCopy bytes fun k => bad.contains k)

end Sys2Proof.Machine
end

