-- ==== Sys2Proof/Machine/Matrix.lean ====
section
/-!
DEFINITION. The matrix and layout instructions at issue (18 R301 to R325): matrix command records, the queue of a
group's matrix context, window records; and CPYT, whose follow-on is one (10 R208, R209).
-/
namespace Sys2Proof.Machine
open Sys2Proof

/-! ### The matrix command record (18 R309 to R311) -/

namespace Mat
/-- AREC. -/
def arec (r : Rec) : Word64 := BitVec.ofNat 64 (recNat r 0 8)
/-- BREC. -/
def brec (r : Rec) : Word64 := BitVec.ofNat 64 (recNat r 8 8)
/-- ASCL for operand 0, BSCL for operand 1. -/
def scl (r : Rec) (b : Nat) : Word64 := BitVec.ofNat 64 (recNat r (16 + 8 * b) 8)
/-- KLO. -/
def klo (r : Rec) : Nat := recNat r 32 4
/-- KLEN. -/
def klen (r : Rec) : Nat := recNat r 36 4
/-- AFMT, BFMT. -/
def fmt (r : Rec) (b : Nat) : Nat := recNat r (40 + b) 1
/-- ASP, BSP. -/
def sp (r : Rec) (b : Nat) : Nat := recNat r (42 + b) 1
/-- TILE. -/
def tile (r : Rec) : Nat := recNat r 44 1
/-- ROW0. -/
def row0 (r : Rec) : Nat := recNat r 45 1
/-- COL0. -/
def col0 (r : Rec) : Nat := recNat r 46 1
/-- ASROW, BSROW. -/
def srow (r : Rec) (b : Nat) : Nat := recNat r (48 + 4 * b) 4
/-- The reserved bytes are zero. -/
def resv (r : Rec) : Bool := recNat r 47 1 = 0 && recNat r 56 8 = 0

/-- The slot word of a format code 8 + s. -/
def slotWord (fs : Vector Word32 8) (code : Nat) : Word32 := vget fs (code - 8) 0
/-- The format of a code. -/
def fmtOf (fs : Vector Word32 8) (code : Nat) : Fmt :=
  if code = 0 then f32 else if code = 1 then b16 else if code = 2 then h16 else slotFmt (slotWord fs code)
/-- The operand has block scales: their block size, or zero. -/
def blk (fs : Vector Word32 8) (code : Nat) : Nat := if 8 ≤ code then slotBlk (slotWord fs code) else 0
/-- Codes stand two to a byte (18 R308). -/
def half (fs : Vector Word32 8) (code : Nat) : Bool := 8 ≤ code && (slotFmt (slotWord fs code)).cont = 4
/-- The bytes of a scale. -/
def sclSize (fs : Vector Word32 8) (code : Nat) : Nat :=
  match slotScl (slotWord fs code) with | 0 => 1 | 1 => 2 | _ => 4
/-- The step width (15 R261). -/
def width (r : Rec) : Nat := if 8 ≤ fmt r 0 then 64 else 32
/-- The space of an operand. -/
def space (r : Rec) (b : Nat) : Space := BitVec.ofNat 3 (sp r b)

/-- A format code and the record and scale address that go with it (18 R310). -/
def operandOk (fs : Vector Word32 8) (r s : Rec) (b : Nat) : Bool :=
  let code := fmt r b
  Shape.legal s && Shape.dims s = 2 &&
  (if code = 0 then Shape.elem s = 4 else if code ≤ 2 then Shape.elem s = 2
    else 8 ≤ code && code < 16 && slotWord fs code != 0 && Shape.elem s = 1) &&
  (!half fs code || Shape.stride s 0 = 1) &&
  (if blk fs code = 0 then scl r b = 0 else scl r b != 0)

/-- Both formats are of one class. -/
def oneClass (r : Rec) : Bool :=
  let c (x : Nat) : Nat := if x = 0 then 0 else if x ≤ 2 then 1 else 2
  c (fmt r 0) = c (fmt r 1)

/-- The spaces that a record may name: G, L, W, K, S. -/
def spaceOk (n : Nat) : Bool := n ≤ 3 || n = 5

/-- The record is legal with its two shape records, in a group with a number of tiles (18 R310, R317). -/
def legal (fs : Vector Word32 8) (tiles : Nat) (r a b : Rec) : Bool :=
  operandOk fs r a 0 && operandOk fs r b 1 && oneClass r && resv r && spaceOk (sp r 0) && spaceOk (sp r 1) &&
  Shape.ext a 0 = Shape.ext b 1 && klo r + klen r ≤ Shape.ext a 0 && tile r < tiles &&
  row0 r + Shape.ext a 1 ≤ 128 && col0 r + Shape.ext b 0 ≤ 64

/-- The address of a scale: of row i of A or column i of B, and index k (18 R311). -/
def scaleAddr (fs : Vector Word32 8) (r : Rec) (b i k : Nat) : Word64 :=
  scl r b + BitVec.ofNat 64 (i * srow r b + k / blk fs (fmt r b) * sclSize fs (fmt r b))
end Mat

/-- Where the scales that an operand uses lie: the first for which a test gives something. -/
def scaleFind {α : Type} (fs : Vector Word32 8) (sg : Segs) (inst : Inst) (pos : Nat) (r : Rec) (b rows : Nat)
    (p : Word64 → Except Nat (Nat × Place) → Option α) : Option α :=
  let code := Mat.fmt r b
  let n := Mat.blk fs code
  let z := Mat.sclSize fs code
  if n = 0 || Mat.klen r = 0 then none
  else
    let first := Mat.klo r / n
    let count := (Mat.klo r + Mat.klen r - 1) / n + 1 - first
    (List.range rows).findSome? fun i => (List.range count).findSome? fun j =>
      let off := Mat.scaleAddr fs r b i ((first + j) * n)
      p off (placeOf sg inst pos (Mat.space r b) z off 0)

/-- The trap of an offset outside its segment, if any (10 R184 step 2). -/
def segTrap (off : Word64) (x : Except Nat (Nat × Place)) : Option Trap :=
  match x with
  | .error k => some { cause := cSegment, xaddr := off.toNat, xinfo := k }
  | .ok _ => none

/-- The trap of an address that is no multiple of its size, if any (10 R184 step 3). -/
def alignTrap (size : Nat) (x : Except Nat (Nat × Place)) : Option Trap :=
  match x with
  | .ok (a, _) => if a % size = 0 then none else some { cause := cMisaligned, xaddr := a, xinfo := size }
  | .error _ => none

/-- A matrix command record with its two shape records. -/
structure MatRecs where
  r : Rec
  a : Rec
  b : Rec
deriving DecidableEq, Repr

/-- The addresses of the shape records that a matrix command record names. -/
def Mat.recs (r : Rec) : List Word64 := [Mat.arec r, Mat.brec r]

/-- Step 4 of a matrix command's checks: its records (18 R310, R317). -/
def M.matLegal (k : GKey) (word : BitVec 64) (m : MatRecs) : M Unit := do
  let g ← M.group k
  M.check (Mat.sp m.r 0 != 4 && Mat.sp m.r 1 != 4) { cause := cEncoding, xinfo := word.toNat }
  M.legal word (Mat.legal g.id.fs g.id.tiles m.r m.a m.b)
  M.alignedRec m.a
  M.alignedRec m.b

/-- Operand b of a matrix command with its extent in scales: a check of its elements, then a test of its scales; with mk
clear there is nothing to check (18 R307). -/
def M.matScan (k : GKey) (m : MatRecs) (b : Nat)
    (chk : Segs → Inst → Nat → Space → Rec → Nat → Bool → Except Trap Unit)
    (t : Nat → Word64 → Except Nat (Nat × Place) → Option Trap) : M Unit := do
  let g ← M.group k
  let i ← M.inst g
  match g.lowest with
  | none => pure ()
  | some slot =>
    let sp := Mat.space m.r b
    let s := if b = 0 then m.a else m.b
    let fs := g.id.fs
    M.lift (chk g.segs i (g.pos i) sp s (memberOf sp (vget g.regs.gmi slot 0).toNat slot) (Mat.half fs (Mat.fmt m.r b)))
    match scaleFind fs g.segs i (g.pos i) m.r b (Shape.ext s (1 - b)) (t (Mat.sclSize fs (Mat.fmt m.r b))) with
    | some x => M.trap x
    | none => pure ()

/-- The offsets of every element and scale lie in their segments (18 R317 step 5, 10 R184 step 2). -/
def M.matSegs (k : GKey) (m : MatRecs) : M Unit := do
  M.matScan k m 0 shapeSeg fun _ => segTrap
  M.matScan k m 1 shapeSeg fun _ => segTrap

/-- The addresses of every element and scale are aligned (18 R317 step 5, 10 R184 step 3). -/
def M.matAligns (k : GKey) (m : MatRecs) : M Unit := do
  M.matScan k m 0 shapeAlign fun n _ => alignTrap n
  M.matScan k m 1 shapeAlign fun n _ => alignTrap n

/-- The checked command, with the member that its elements belong to (18 R307). -/
def M.matCmd (k : GKey) (m : MatRecs) : M MatCmd := do
  let g ← M.group k
  let slot := g.lowest.getD 0
  pure { mrec := m.r, arec := m.a, brec := m.b, gmi := (vget g.regs.gmi slot 0).toNat, slot := slot, none := g.lowest.isNone }

/-- A matrix command record at an address, with its shape records, checked for a group (18 R317). -/
def M.matRec (k : GKey) (word : BitVec 64) (at_ : Word64) : M MatCmd := do
  let r ← M.rec64 k at_
  let l ← M.recs64 k (Mat.recs r)
  let m : MatRecs := { r := r, a := recOf l 0, b := recOf l 1 }
  M.matLegal k word m
  M.matSegs k m
  M.matAligns k m
  M.matCmd k m

/-! ### The queue (18 R302) -/

/-- The entries that a matrix context holds. -/
def mqCap : Nat := 16

/-- The queue of a group with one more entry, which notes what the group has acquired; a queue that was empty begins to wait. -/
def Group.enqueue (g : Group) (e : MqEntry) (now : Nat) : Group :=
  { g with
    mq := g.mq ++ [{ e with acq := g.regs.acq }]
    mqAge := if g.mq.isEmpty then 0 else g.mqAge
    mqSince := if g.mq.isEmpty then now else g.mqSince }

/-- An entry without a command number: it waits for room. -/
def M.enqueue (k : GKey) (op : MqOp) : M Unit := do
  M.noSpec k
  let g ← M.group k
  if mqCap ≤ g.mq.length then M.stall
  else M.modify fun s => s.onGroup k fun g => g.enqueue { op := op } s.cyc.toNat

/-- A matrix command: it waits for room, takes its number, and stands in the queue under it; with mk clear it only takes
its number (18 R307). -/
def M.matIssue (k : GKey) (f : Fields) (code : BitVec 8) (none : Bool) (op : MqOp) : M Unit := do
  if none then
    let _ ← M.nullCmd k (tlOf f) code
    pure ()
  else
    let g ← M.group k
    if mqCap ≤ g.mq.length then M.stall
    else
      let n ← M.issue k (tlOf f) code .matrix 0
      M.modify fun s => s.onGroup k fun g =>
        g.enqueue { op := op, cmd := some (BitVec.ofNat 4 (tlOf f), n), pc := g.at_ f } s.cyc.toNat

/-! ### The instructions (18 R315 to R322) -/

/-- A tile that the group has (18 R317). -/
def tileChk (n : Fields → Nat) : Chk := { ok5 := fun g f => n f < g.id.tiles }

/-- MZERO (18 R318). -/
def execMzero (f : Fields) (s : State) : Out :=
  runM (.mzero f) (fun f k => M.enqueue k (.zero (f.x.setWidth 3))) s (tileChk fun f => f.x.toNat % 8)

/-- MMA (18 R312, R318). -/
def execMma (f : Fields) (s : State) : Out :=
  runM (.mma f) (fun f k => do
    let g ← M.group k
    let a ← M.clean (g.ssrc f true f.a)
    let m ← M.matRec k (wordOf (.mma f)) a
    M.matIssue k f 0xB1 m.none (.mma m)) s

/-- The tile, the row, the column, the slot and the rounding code of I32 (18 R316). -/
def mvTile (i : Word32) : Nat := bitsNat i.toNat 2 0
/-- COL0. -/
def mvCol (i : Word32) : Nat := bitsNat i.toNat 13 8
/-- ROW0. -/
def mvRow (i : Word32) : Nat := bitsNat i.toNat 22 16
/-- SLOT. -/
def mvSlot (i : Word32) : Bool := bitNat i.toNat 23 = 1
/-- SK. -/
def mvSk (i : Word32) : Nat := bitsNat i.toNat 26 24
/-- RM. -/
def mvRm (i : Word32) : BitVec 3 := i.extractLsb' 27 3

/-- The slot word of a transfer that names one. -/
def mvWord (fs : Vector Word32 8) (i : Word32) : Option Word32 := if mvSlot i then some (vget fs (mvSk i) 0) else none
/-- The format of a transfer. -/
def mvFmt (fs : Vector Word32 8) (t : BitVec 3) (i : Word32) : Fmt :=
  match mvWord fs i with | some w => slotFmt w | none => fmtOf t
/-- The transfer moves codes in 4-bit containers. -/
def mvHalf (fs : Vector Word32 8) (i : Word32) : Bool :=
  match mvWord fs i with | some w => (slotFmt w).cont = 4 | none => false

/-- The record of a tile transfer fits it (18 R319). -/
def mvOk (fs : Vector Word32 8) (t : BitVec 3) (i : Word32) (r : Rec) : Bool :=
  Shape.legal r && Shape.dims r = 2 && mvRow i + Shape.ext r 1 ≤ 128 && mvCol i + Shape.ext r 0 ≤ 64 &&
  (match mvWord fs i with
    | some w => Shape.elem r = 1 && slotBlk w = 0 && ((slotFmt w).cont = 8 || Shape.stride r 0 = 1)
    | none => Shape.elem r = (if t = 0 then 4 else 2))

/-- A tile transfer at issue (18 R317, R319). -/
def M.tileMove (k : GKey) (f : Fields) (word : BitVec 64) (writes : Bool) : M TileMove := do
  let g ← M.group k
  let a ← M.clean (g.ssrc f true f.a)
  let r ← M.rec64 k a
  M.legal word (mvOk g.id.fs f.t f.i32 r)
  M.alignedRec r
  let i ← M.inst g
  let slot := g.lowest.getD 0
  let gmi := (vget g.regs.gmi slot 0).toNat
  if g.lowest.isSome then do
    M.lift (shapeSeg g.segs i (g.pos i) f.m r (memberOf f.m gmi slot) (mvHalf g.id.fs f.i32))
    M.lift (shapeAlign g.segs i (g.pos i) f.m r (memberOf f.m gmi slot) (mvHalf g.id.fs f.i32))
  else pure ()
  M.check (!(writes && f.m = spK)) { cause := cProt, xaddr := baseAddr g.segs f.m (Shape.base r), xinfo := 1 }
  let rm := if mvRm f.i32 = 0 then g.regs.fcr.extractLsb' 0 3 else mvRm f.i32
  pure { sp := f.m, t := f.t, srec := r, i32 := f.i32, gmi := gmi, slot := slot, dic := vget g.regs.dic slot 0, rm := rm,
         none := g.lowest.isNone }

/-- The tile of I32. -/
def moveChk : Chk := tileChk fun f => mvTile f.i32

/-- MLDT (18 R319). -/
def execMldt (f : Fields) (s : State) : Out :=
  runM (.mldt f) (fun f k => do
    let m ← M.tileMove k f (wordOf (.mldt f)) false
    M.matIssue k f 0xB2 m.none (.load m)) s moveChk

/-- MSTT (18 R319). -/
def execMstt (f : Fields) (s : State) : Out :=
  runM (.mstt f) (fun f k => do
    let m ← M.tileMove k f (wordOf (.mstt f)) true
    M.matIssue k f 0xB3 m.none (.store m)) s moveChk

/-- MDRN.OWN names a slot that is set (15 R253). -/
def drainChk : Chk :=
  { ok5 := fun g f => mvTile f.i32 < g.id.tiles && (match mvWord g.id.fs f.i32 with | some w => w != 0 | none => true) }

/-- MDRN.OWN (18 R319). -/
def execMdrnOwn (f : Fields) (s : State) : Out :=
  runM (.mdrnOwn f) (fun f k => do
    let m ← M.tileMove k f (wordOf (.mdrnOwn f)) true
    M.matIssue k f 0xB4 m.none (.drain m)) s drainChk

/-- MDRN.PEER (18 R320). -/
def execMdrnPeer (f : Fields) (s : State) : Out :=
  runM (.mdrnPeer f) (fun f k => do
    let g ← M.group k
    let a ← M.clean (g.ssrc f true f.a)
    M.matIssue k f 0xB4 g.lowest.isNone (.peer (f.i32.setWidth 3) a)) s moveChk

/-- MRP (18 R321). -/
def execMrp (f : Fields) (s : State) : Out :=
  runM (.mrp f) (fun f k => do
    let g ← M.group k
    let a ← M.clean (g.ssrc f true f.a)
    M.legal (wordOf (.mrp f)) (bitsNat a.toNat 15 8 ≤ 128)
    M.enqueue k (.mrp a)) s

/-- MPRI (18 R322). -/
def execMpri (f : Fields) (s : State) : Out :=
  runM (.mpri f) (fun f k => do
    M.noSpec k
    let g ← M.group k
    let a ← M.clean (g.ssrc f true f.a)
    M.onGroup k fun g => { g with mcls := BitVec.ofNat 3 (min a.toNat g.prio.toNat) }) s

/-! ### Follow-on records (18 R323) -/

/-- The command that carries a follow-on: the record is checked with the others, and its entry stands blocked in the
queue under the command's number. -/
def M.carry (k : GKey) (f : Fields) (code : BitVec 8) (kind : CmdKind) (total : Nat) (follow : Option MatCmd) : M Unit := do
  let g ← M.group k
  if follow.isSome && mqCap ≤ g.mq.length then M.stall
  else
    let n ← M.issue k (tlOf f) code kind total
    match follow with
    | some m => M.modify fun s => s.onGroup k fun g =>
        g.enqueue { op := .follow m, cmd := some (BitVec.ofNat 4 (tlOf f), n), ready := false, pc := g.at_ f } s.cyc.toNat
    | none => pure ()

/-- The addresses of the shape records of the follow-on, when X[4] asks for one whose record has been read. -/
def followRecs (f : Fields) (r : Rec) : List Word64 := if f.x.getLsbD 4 then Mat.recs r else []

/-- The follow-on that X[4] asks for, its records read; step 4. -/
def M.followLegal (k : GKey) (f : Fields) (word : BitVec 64) (m : MatRecs) : M Unit :=
  if f.x.getLsbD 4 then M.matLegal k word m else pure ()

/-- Step 5 of a command that may carry a follow-on: every offset of the carrier and of the follow-on against its segment,
and only then the carrier's and the follow-on's alignment (18 R317, 10 R184 steps 2 and 3). -/
def M.followOffsets (k : GKey) (f : Fields) (m : MatRecs) (segs aligns : M Unit) : M (Option MatCmd) := do
  let fo := f.x.getLsbD 4
  segs
  if fo then M.matSegs k m else pure ()
  aligns
  if fo then do
    M.matAligns k m
    let c ← M.matCmd k m
    pure (some c)
  else pure none

/-- A command as its units will see it, for a count of them at issue. -/
def Group.draft (g : Group) : Cmd :=
  { key := .group g.id.key 0 0, kind := .null, part := g.id.part, asid := g.id.asid, sup := g.id.sup, inst := g.id.inst,
    lin := g.id.lin, segs := g.segs, spd := g.id.spd }

/-- CPYT (10 R208, R209). -/
def execCpyt (f : Fields) (s : State) : Out :=
  runM (.cpyt f) (fun f k => do
    let word := wordOf (.cpyt f)
    let g ← M.group k
    let a ← M.clean (g.ssrc f true f.a)
    let b ← M.clean (g.ssrc f true f.b)
    let l ← M.recs64 k ([a, b] ++ (if f.x.getLsbD 4 then [a + 64] else []))
    let n ← M.recs64 k (followRecs f (recOf l 2))
    let d := recOf l 0
    let src := recOf l 1
    let m : MatRecs := { r := recOf l 2, a := recOf n 0, b := recOf n 1 }
    M.legal word (Shape.legal d && Shape.legal src && tileOk d src f.i64)
    M.followLegal k f word m
    let i ← M.inst g
    let t : TileCopy :=
      { dsp := f.m, ssp := f.t, drec := d, srec := src, pad := f.i64, reps := tileReps g d src,
        follow := f.x.getLsbD 4 }
    let els (sp : Space) (r : Rec) (chk : Segs → Inst → Nat → Space → Rec → Nat → Bool → Except Trap Unit) : M Unit :=
      t.reps.forM fun rep => M.lift (chk g.segs i (g.pos i) sp r (memberOf sp rep.1 rep.2) false)
    let segs : M Unit := do
      els f.m d shapeSeg
      els f.t src shapeSeg
    let aligns : M Unit := do
      M.alignedRec d
      M.alignedRec src
      els f.m d shapeAlign
      els f.t src shapeAlign
    let fo ← M.followOffsets k f m segs aligns
    M.check (f.m != spK) { cause := cProt, xaddr := baseAddr g.segs f.m (Shape.base d), xinfo := 1 }
    let total ← M.run' fun s => ((s.tileUnits g.draft t).length, s)
    M.carry k f 0xE1 (.tile t) total fo) s

/-! ### LAYX (18 R324) -/

namespace Win
/-- INREC. -/
def inrec (r : Rec) : Word64 := BitVec.ofNat 64 (recNat r 0 8)
/-- OUTREC. -/
def outrec (r : Rec) : Word64 := BitVec.ofNat 64 (recNat r 8 8)
/-- A one-byte field: 16 KH, 17 KW, 18 SH, 19 SW, 20 DH, 21 DW, 22 PT, 23 PB, 24 PL, 25 PR, 26 INSP, 27 OUTSP. -/
def byte (r : Rec) (i : Nat) : Nat := recNat r i 1
/-- PADV. -/
def padv (r : Rec) : Nat := recNat r 28 4
/-- P0. -/
def p0 (r : Rec) : Nat := recNat r 32 4
/-- T0. -/
def t0 (r : Rec) : Nat := recNat r 36 2
/-- NT. -/
def nt (r : Rec) : Nat := recNat r 38 2
/-- Output positions along one axis. -/
def count (n pa pb d kn st : Nat) : Int := Int.fdiv ((n : Int) + pa + pb - d * ((kn : Int) - 1) - 1) st + 1
/-- ow. -/
def ow (r i : Rec) : Int := count (Shape.ext i 1) (byte r 24) (byte r 25) (byte r 21) (byte r 17) (byte r 19)
/-- oh. -/
def oh (r i : Rec) : Int := count (Shape.ext i 2) (byte r 22) (byte r 23) (byte r 20) (byte r 16) (byte r 18)

/-- The record is legal with its shape records (18 R324). -/
def legal (r i o : Rec) : Bool :=
  Shape.legal i && Shape.legal o && Shape.dims i = 3 && Shape.dims o = 2 && Shape.elem i = Shape.elem o &&
  (List.range 6).all (fun j => byte r (16 + j) != 0) && 1 ≤ nt r && 1 ≤ ow r i && 1 ≤ oh r i &&
  t0 r + nt r ≤ byte r 16 * byte r 17 && Shape.ext o 0 = nt r * Shape.ext i 0 && recNat r 40 24 = 0 &&
  Shape.mstride i = 0 && Shape.mstride o = 0 && Mat.spaceOk (byte r 26) && Mat.spaceOk (byte r 27)

/-- The input element of output element (k, r), none for a pad element (18 R325). -/
def source (r i : Rec) (k row : Nat) : Option (Nat × Nat × Nat) :=
  let w := (ow r i).toNat
  let c := Shape.ext i 0
  let kw := byte r 17
  let p := p0 r + row
  let tap := t0 r + k / c
  let y : Int := (p / w * byte r 18 : Nat) - (byte r 22 : Int) + (tap / kw * byte r 20 : Nat)
  let x : Int := (p % w * byte r 19 : Nat) - (byte r 24 : Int) + (tap % kw * byte r 21 : Nat)
  if p < (oh r i).toNat * w && 0 ≤ x && x < Shape.ext i 1 && 0 ≤ y && y < Shape.ext i 2
  then some (k % c, x.toNat, y.toNat) else none
end Win

/-- LAYX (18 R324, R325). -/
def execLayx (f : Fields) (s : State) : Out :=
  runM (.layx f) (fun f k => do
    let word := wordOf (.layx f)
    let g ← M.group k
    let a ← M.clean (g.ssrc f true f.a)
    let l ← M.recs64 k ([a] ++ (if f.x.getLsbD 4 then [a + 64] else []))
    let w := recOf l 0
    let n ← M.recs64 k ([Win.inrec w, Win.outrec w] ++ followRecs f (recOf l 1))
    let i := recOf n 0
    let o := recOf n 1
    let m : MatRecs := { r := recOf l 1, a := recOf n 2, b := recOf n 3 }
    M.check (Win.byte w 26 != 4 && Win.byte w 27 != 4) { cause := cEncoding, xinfo := word.toNat }
    M.legal word (Win.legal w i o)
    M.alignedRec i
    M.alignedRec o
    M.followLegal k f word m
    let inst ← M.inst g
    let isp := BitVec.ofNat 3 (Win.byte w 26)
    let osp := BitVec.ofNat 3 (Win.byte w 27)
    let els (chk : Segs → Inst → Nat → Space → Rec → Nat → Bool → Except Trap Unit) : M Unit := do
      M.lift (chk g.segs inst (g.pos inst) isp i 0 false)
      M.lift (chk g.segs inst (g.pos inst) osp o 0 false)
    let fo ← M.followOffsets k f m (els shapeSeg) (els shapeAlign)
    M.check (osp != spK) { cause := cProt, xaddr := baseAddr g.segs osp (Shape.base o), xinfo := 1 }
    M.carry k f 0xB7 (.layout { wrec := w, inrec := i, outrec := o, follow := fo.isSome }) (Shape.ext o 1) fo) s

/-- Output row r of a layout command: its elements translated and read one after another. -/
def State.layoutFill (s : State) (c : Cmd) (l : Layout) (row : Nat) : List Nat →
    Except EngStop ((List SpotByte × List (Option Nat × Nat)) × State)
  | [] => .ok (([], []), s)
  | k :: r =>
    let size := Shape.elem l.outrec
    match s.engSpot c .write (BitVec.ofNat 3 (Win.byte l.wrec 27)) size (Shape.addr l.outrec 0 k row 0 0) with
    | .error e => .error e
    | .ok d =>
      let s0 := s.engWalked c (BitVec.ofNat 3 (Win.byte l.wrec 27)) size (Shape.addr l.outrec 0 k row 0 0)
      let got : Except EngStop ((List Byte × Bool) × State) := match Win.source l.wrec l.inrec k row with
        | none => .ok ((leBytes size (Win.padv l.wrec), false), s0)
        | some (ch, x, y) =>
          let sp := BitVec.ofNat 3 (Win.byte l.wrec 26)
          let off := Shape.addr l.inrec 0 ch x y 0
          match s.engSpot c .read sp size off with
          | .error e => .error e
          | .ok p => .ok ((s0.engWalked c sp size off).engRead c size p)
      match got with
      | .error e => .error e
      | .ok (y, s1) =>
        match s1.layoutFill c l row r with
        | .error e => .error e
        | .ok (m, s2) => .ok ((spotAt d y.1 ++ m.1, if y.2 then d.sector :: m.2 else m.2), s2)

/-- One output row of a layout command (18 R325). -/
def State.layoutUnit (s : State) (c : Cmd) (l : Layout) (row : Nat) : Except EngStop State :=
  match s.layoutFill c l row (List.range (Shape.ext l.outrec 0)) with
  | .error e => .error e
  | .ok ((bytes, bad), s1) => .ok (s1.engWrites c engLayout bytes fun k => bad.contains k)

end Sys2Proof.Machine
end

