-- ==== Sys2Proof/Machine/MatrixEngine.lean ====
section
/-!
DEFINITION. The matrix engine of a core (18 R302, R304, R312 to R314, R318 to R323): which queue it serves, the rows of
an MMA, the rows and sectors of tile transfers, and how entries begin and finish.
-/
namespace Sys2Proof.Machine
open Sys2Proof

/-! ### Tiles (18 R301) -/

/-- The position of tile element (i, n). -/
def tilePos (i n : Nat) : Nat := 64 * i + n
/-- The FP32 code of a tile element. -/
def Tile.at_ (t : Tile) (i n : Nat) : Nat := (t.val.extractLsb' (32 * tilePos i n) 32).toNat
/-- The tag of a tile element. -/
def Tile.tagAt (t : Tile) (i n : Nat) : Option Tag := Store.get? t.tags (tilePos i n)
/-- A tile element written with its tag. -/
def Tile.put (t : Tile) (i n code : Nat) (tag : Option Tag) : Tile :=
  let sh := 32 * tilePos i n
  { val := (t.val &&& ~~~(BitVec.ofNat 262144 (2 ^ 32 - 1) <<< sh)) ||| (BitVec.ofNat 262144 (code % 2 ^ 32) <<< sh)
    tags := match tag with | some x => Store.put t.tags (tilePos i n) x | none => Store.del t.tags (tilePos i n) }
/-- Tile t of a group. -/
def Group.tile (g : Group) (t : Nat) : Tile := vget g.tiles t {}
/-- Tile t put in place. -/
def Group.setTile (g : Group) (t : Nat) (x : Tile) : Group := { g with tiles := g.tiles.setIfInBounds t x }

/-! ### Which queue the engine serves (18 R314) -/

/-- The effective class of a queue. -/
def Group.mqClass (g : Group) : Nat := min 7 (g.mcls.toNat + g.mqAge)

/-- The entry stands at a point where the engine may leave it: between the steps of an MMA, and between the units of a
transfer. -/
def MqEntry.atSwitch (e : MqEntry) : Bool :=
  match e.op with
  | .mma _ => e.row = 0
  | .follow _ => e.row = 0
  | _ => true

/-- The group's context is being exchanged: its matrix queue stops at the next switch point (26 R422). -/
def State.leavingCtx (s : State) (k : GKey) : Bool :=
  (s.group? k).any fun g => !g.id.sup && (s.part? g.id.part.toNat).any fun p => p.exchanging.isSome

/-- The command of an entry runs, or it has none. -/
def State.entryRuns (s : State) (k : GKey) (e : MqEntry) : Bool :=
  e.ready && !(e.atSwitch && s.leavingCtx k) && match e.cmd with
    | some (tl, n) => (match s.cmd? (.group k tl n) with | some c => c.state == .running | none => false)
    | none => true

/-- The queue of a group has work: its first entry may begin or go on. -/
def State.mqRuns (s : State) (k : GKey) : Bool :=
  match s.group? k with
  | some g => match g.mq with | e :: _ => s.entryRuns k e | [] => false
  | none => false

/-- The groups of a core whose queues have work, in the order of slots from one behind the slot served last. -/
def State.mqWaiting (s : State) (core : Nat) : List (GKey × Group) :=
  let last := match (s.coreAt core).mx with | some r => r.toNat + 1 | none => 0
  (List.range 8).filterMap fun j =>
    let k := keyOf (8 * core + (last + j) % 8)
    match s.group? k with
    | some g => if s.mqRuns k then some (k, g) else none
    | none => none

/-- The first of the queues of the highest class. -/
def bestQueue : List (GKey × Group) → Option (GKey × Group)
  | [] => none
  | x :: r =>
    match bestQueue r with
    | some y => if x.2.mqClass < y.2.mqClass then some y else some x
    | none => some x

/-- The queue that the engine of a core serves next: the one it is in, unless it stands at a switch point and a queue of
strictly higher class waits; else the best of those that wait. -/
def State.mxNext (s : State) (core : Nat) : Option GKey :=
  let waiting := s.mqWaiting core
  let best := bestQueue waiting
  let held : Option (GKey × Group) := match (s.coreAt core).mx with
    | some r => waiting.find? fun x => x.1.rs = r && (match x.2.mq with | e :: _ => e.begun | [] => false)
    | none => none
  match held, best with
  | some h, some b =>
    let leaves := (match h.2.mq with | e :: _ => e.atSwitch | [] => true) && h.2.mqClass < b.2.mqClass
    some (if leaves then b.1 else h.1)
  | some h, none => some h.1
  | none, b => b.map (·.1)

/-! ### Tiles that land (18 R320) -/

/-- The eight elements of a row that one operation of a drain writes. -/
def Tile.eight (t : Tile) (b : Nat) : BitVec 256 × Tags :=
  (t.val.extractLsb' (256 * b) 256, t.tags.filter fun x => x.1 / 8 = b)

/-- A tile with eight elements of another. -/
def Tile.takeEight (t x : Tile) (b : Nat) : Tile :=
  { val := (t.val &&& ~~~(BitVec.ofNat 262144 (2 ^ 256 - 1) <<< (256 * b))) |||
      ((x.val.extractLsb' (256 * b) 256).setWidth 262144 <<< (256 * b))
    tags := (t.tags.filter fun y => y.1 / 8 != b).foldl (fun l y => Store.put l y.1 y.2)
      (x.tags.filter fun y => y.1 / 8 = b) }

/-- A landing performed: eight elements that the peer's own commands have not changed since it was sent take the drained ones; those
that they have changed take them or stay, by the bits of a free value (18 R320, log 31). -/
def Group.land (g : Group) (pick : Nat) (l : Landing) : Group :=
  let t := g.tile l.tile
  let takes := (List.range 1024).filter fun b => t.eight b = l.old.eight b || pick.testBit b
  { g.setTile l.tile (takes.foldl (fun y b => y.takeEight l.new b) t) with
    lands := (g.lands.erase l).map fun m =>
      if m.tile = l.tile then { m with old := takes.foldl (fun y b => y.takeEight l.new b) m.old } else m }

/-- The landings that a command at the head of a queue follows, one after another. -/
def Group.landAll (acq : Nat) : Nat → Nat → Group → Group
  | 0, _, g => g
  | f + 1, n, g =>
    match g.lands.find? fun l => l.lt ≤ acq with
    | some l => Group.landAll acq f (n + 1) (g.land (Config.victim n) l)
    | none => g

/-- The tiles land that a group had acquired when it issued the command at the head of its queue. -/
def State.settle (s : State) (k : GKey) : State :=
  match s.group? k with
  | none => s
  | some g =>
    match g.mq with
    | e :: _ =>
      if g.lands.isEmpty then s
      else { s.setGroup k (Group.landAll e.acq g.lands.length s.nonce g) with nonce := s.nonce + g.lands.length }
    | [] => s

/-- The engine serves a group; its wait is over, and what its command follows has landed. -/
def State.serve (s0 : State) (k : GKey) : State :=
  let s := s0.settle k
  (s.setCore (keyCore k) { s.coreAt (keyCore k) with mx := some k.rs }).onGroup k fun g =>
    { g with mqAge := 0, mqSince := s.cyc.toNat }

/-! ### rp (18 R303, R304) -/

/-- A value of rp. -/
def rpWord (v f : Bool) (step row : Nat) : Word64 :=
  BitVec.ofNat 64 (v.toNat * 2 ^ 63 + f.toNat * 2 ^ 62 + step % 2 ^ 24 * 2 ^ 32 + row % 256 * 2 ^ 8)
/-- V of rp. -/
def rpV (w : Word64) : Bool := w.getLsbD 63
/-- STEP of rp. -/
def rpStep (w : Word64) : Nat := bitsNat w.toNat 55 32
/-- ROW of rp. -/
def rpRow (w : Word64) : Nat := bitsNat w.toNat 15 8

/-! ### Operands of an MMA (18 R311, R312) -/

/-- A poisoned sector that a command reads: which it is, and for the deferral record the space and the address of the
element that met it, a virtual address or a scratchpad offset (24 R389). -/
structure MxBad where
  sec : Option Nat × Nat
  sp : Space
  addr : Nat
deriving DecidableEq, Repr

/-- An operand element: its exact value with its scale, and its poisoned sector, if one is. -/
structure MxVal where
  x : Exact
  bad : Option MxBad

/-- A number of n bytes that a command reads, with the poison of its sector. -/
def State.engNum (s : State) (c : Cmd) (sp : Space) (n : Nat) (off : Word64) :
    Except EngStop ((Nat × Option MxBad) × State) :=
  match s.engSpot c .read sp n off with
  | .error e => .error e
  | .ok p =>
    let (x, s1) := (s.engWalked c sp n off).engRead c n p
    let bad : MxBad := { sec := p.sector, sp := sp, addr := baseAddr c.segs sp off }
    .ok ((ofLeBytes x.1, if x.2 then some bad else none), s1)

/-- Element (k, i) of A or (n, k) of B by record indices i0, i1, with the scale of its row and k. -/
def State.mxOperand (s : State) (c : Cmd) (m : MatCmd) (b i0 i1 row kk : Nat) : Except EngStop (MxVal × State) :=
  let code := Mat.fmt m.mrec b
  let F := Mat.fmtOf c.fs code
  let srec := if b = 0 then m.arec else m.brec
  let sp := Mat.space m.mrec b
  let half := Mat.half c.fs code
  match s.engNum c sp (Shape.elem srec)
      (Shape.addr srec (memberOf sp m.gmi m.slot) (Shape.index0 half i0) i1 0 0) with
  | .error e => .error e
  | .ok (w, s1) =>
    let v := decodeFp F ((if half then w.1 / 2 ^ (4 * (i0 % 2)) else w.1) % 2 ^ F.width)
    if Mat.blk c.fs code = 0 then .ok ({ x := v.exact, bad := w.2 }, s1)
    else
      match s1.engNum c sp (Mat.sclSize c.fs code) (Mat.scaleAddr c.fs m.mrec b row kk) with
      | .error e => .error e
      | .ok (z, s2) =>
        .ok ({ x := (scaleMul v (scaleOf (slotScl (Mat.slotWord c.fs code)) z.1)).1,
               bad := match w.2 with | some a => some a | none => z.2 }, s2)

/-- Operand elements read one after another. -/
def State.mxOperands (s : State) (c : Cmd) (m : MatCmd) (b : Nat) :
    List (Nat × Nat × Nat × Nat) → Except EngStop (List MxVal × State)
  | [] => .ok ([], s)
  | (i0, i1, row, kk) :: r =>
    match s.mxOperand c m b i0 i1 row kk with
    | .error e => .error e
    | .ok (x, s1) =>
      match s1.mxOperands c m b r with
      | .error e => .error e
      | .ok (l, s2) => .ok (x :: l, s2)

/-- The products of a row of A and a column of B: the exact sum with the tile element, and the sector of the first
poisoned operand; a poisoned product counts as +0 (18 R312, 15 R261). -/
def mxDot (t : Exact) : List MxVal → List MxVal → Exact × Option MxBad
  | a :: ra, b :: rb =>
    let bad := match a.bad with | some x => some x | none => b.bad
    let p : Exact := match bad with | some _ => .num false 0 0 false | none => (mulX a.x b.x).1
    let (y, bad1) := mxDot (addX t p false).1 ra rb
    (y, match bad with | some x => some x | none => bad1)
  | _, _ => (t, none)

/-- The k indices of step j within the operation. -/
def Mat.stepKs (r : Rec) (j : Nat) : List Nat :=
  let w := Mat.width r
  (List.range w).filterMap fun i =>
    let k := j * w + i
    if Mat.klo r ≤ k && k < Mat.klo r + Mat.klen r then some k else none

/-- The first entry of a group's queue changed. -/
def Group.onHead (g : Group) (f : MqEntry → MqEntry) : Group :=
  match g.mq with
  | e :: r => { g with mq := f e :: r }
  | [] => g

/-- The tag of a poisoned sector for the command at the head of a group's queue, and the group with its deferral entry: the
one that the command has taken for it, or the lowest that is free (24 R389). -/
def Group.engTag (g : Group) (e : MqEntry) (b : MxBad) : Option (Tag × Group) :=
  let tags := match g.mq with | h :: _ => h.tags | [] => []
  let ours (t : Tag) : Bool := g.tagUsed t &&
    match vget g.regs.defer t.toNat none with | some d => d.pc = e.pc && d.cause = .memory | none => false
  match tags.find? fun x => x.1 = b.sec && ours x.2 with
  | some x => some (x.2, g)
  | none =>
    match g.freeTag with
    | some t =>
      let d : Defer := { pc := e.pc, space := b.sp, cause := .memory, addr := BitVec.ofNat 64 b.addr }
      some (t, { g with regs := { g.regs with defer := g.regs.defer.setIfInBounds t.toNat (some d) } }.onHead fun h =>
        { h with tags := (b.sec, t) :: h.tags.filter fun x => x.1 != b.sec })
    | none => none

/-- One element of a tile written: with the tag of the sector that poisons it, or with the tag it has. -/
def Group.putEl (g : Group) (e : MqEntry) (t i n code : Nat) (bad : Option MxBad) : Except EngStop Group :=
  match bad with
  | none => .ok (g.setTile t ((g.tile t).put i n code ((g.tile t).tagAt i n)))
  | some b =>
    match g.engTag e b with
    | some (x, g1) => .ok (g1.setTile t ((g1.tile t).put i n code (some x)))
    | none => .error (.fault b.addr cPoison)

/-- Elements of a tile written one after another. -/
def Group.putEls (g : Group) (e : MqEntry) (t : Nat) :
    List (Nat × Nat × Nat × Option MxBad) → Except EngStop Group
  | [] => .ok g
  | (i, n, code, bad) :: r =>
    match g.putEl e t i n code bad with
    | .error x => .error x
    | .ok g1 => g1.putEls e t r

/-- Elements written into a tile, each with the sector that poisons it. A sector for which no deferral entry is free stops
the command with the cause of memory poison. -/
def State.putTile (s : State) (k : GKey) (e : MqEntry) (t : Nat) (l : List (Nat × Nat × Nat × Option MxBad)) :
    Except EngStop State :=
  match s.group? k with
  | none => .error .wait
  | some g =>
    match g.putEls e t l with
    | .error x => .error x
    | .ok g1 => .ok (s.setGroup k g1)

/-- One step of one row of an MMA (18 R312): each element of the row is rounded once. A follow-on too translates through the matrix
engine's TLB (18 R313). -/
def State.mmaRow (s : State) (k : GKey) (c0 : Cmd) (e : MqEntry) (m : MatCmd) : Except EngStop State :=
  let c := c0.asMatrix
  let ks := Mat.stepKs m.mrec e.step
  let i := e.row
  let cols := List.range (Shape.ext m.brec 0)
  match s.mxOperands c m 0 (ks.map fun kk => (kk, i, i, kk)) with
  | .error x => .error x
  | .ok (as, s1) =>
    match s1.mxOperands c m 1 (cols.flatMap fun n => ks.map fun kk => (n, kk, n, kk)) with
    | .error x => .error x
    | .ok (bs, s2) =>
      match s2.group? k with
      | none => .error .wait
      | some g =>
        let tl := g.tile (Mat.tile m.mrec)
        let row := Mat.row0 m.mrec + i
        let els := cols.map fun n =>
          let col := Mat.col0 m.mrec + n
          let (y, bad) := mxDot (decodeFp f32 (tl.at_ row col)).exact as ((bs.drop (n * ks.length)).take ks.length)
          (row, col, (roundTo f32 .rne 0 y).1, bad)
        s2.putTile k e (Mat.tile m.mrec) els

/-! ### Transfers (18 R319) -/

/-- The format of a transfer's elements. -/
def TileMove.fmt (c : Cmd) (m : TileMove) : Fmt := mvFmt c.fs m.t m.i32
/-- Codes of the transfer stand two to a byte. -/
def TileMove.half (c : Cmd) (m : TileMove) : Bool := mvHalf c.fs m.i32
/-- The address of record element (n, i). -/
def TileMove.addr (c : Cmd) (m : TileMove) (i n : Nat) : Word64 :=
  Shape.addr m.srec (memberOf m.sp m.gmi m.slot) (Shape.index0 (m.half c) n) i 0 0

/-- Elements of one row read one after another, as tile elements. -/
def State.loadEls (s : State) (c : Cmd) (m : TileMove) (i : Nat) :
    List Nat → Except EngStop (List (Nat × Nat × Nat × Option MxBad) × State)
  | [] => .ok ([], s)
  | n :: r =>
    match s.engNum c m.sp (Shape.elem m.srec) (m.addr c i n) with
    | .error e => .error e
    | .ok (w, s1) =>
      match s1.loadEls c m i r with
      | .error e => .error e
      | .ok (l, s2) =>
        let code := if w.2.isSome then 0 else if m.t = 0 then w.1 else (fpConv (m.fmt c) f32 .rne 0 w.1).1
        .ok ((mvRow m.i32 + i, mvCol m.i32 + n, code, w.2) :: l, s2)

/-- Row r of an MLDT: the elements replace the tile's with their tags. -/
def State.loadRow (s : State) (k : GKey) (c : Cmd) (e : MqEntry) (m : TileMove) (row : Nat) : Except EngStop State :=
  match s.loadEls c m row (List.range (Shape.ext m.srec 0)) with
  | .error x => .error x
  | .ok (l, s1) =>
    let t := mvTile m.i32
    let clear (g : Group) : Group := g.setTile t (l.foldl (fun x y => x.put y.1 y.2.1 0 none) (g.tile t))
    (s1.onGroup k clear).putTile k e t l

/-- The elements of a transfer, dimension 0 fastest: row and column in the record. -/
def TileMove.els (m : TileMove) : List (Nat × Nat) :=
  (Shape.allIdx m.srec).map fun x => (x.2.1, x.1)

/-- The sectors of a transfer that writes, addresses rising. -/
def State.moveSectors (s : State) (c : Cmd) (m : TileMove) : List Nat :=
  s.sectorsOf c m.sp (Shape.elem m.srec) (m.els.map fun x => m.addr c x.1 x.2)

/-- The code that a transfer writes for a tile element: its bits, or rounded into the format (18 R319). -/
def TileMove.code (c : Cmd) (m : TileMove) (drain : Bool) (t : Tile) (i n : Nat) : Nat :=
  let w := t.at_ (mvRow m.i32 + i) (mvCol m.i32 + n)
  if !drain then w
  else
    let mode := rmOf m.rm
    let rnd := if mode = .sr then srf c.seed (BitVec.ofNat 32 (memberOf m.sp m.gmi m.slot)) m.dic n i else 0
    (fpConv f32 (m.fmt c) mode rnd w).1

/-- Elements of one sector placed one after another: their bytes, codes of 4 bits joined two to a byte; and whether one of
them carries a tag. -/
def State.storeEls (s : State) (c : Cmd) (m : TileMove) (drain : Bool) (t : Tile) :
    List (Nat × Nat) → Except EngStop (List (Spot × Nat × Nat) × Bool)
  | [] => .ok ([], false)
  | (i, n) :: r =>
    match s.engSpot c .write m.sp (Shape.elem m.srec) (m.addr c i n), s.storeEls c m drain t r with
    | .error e, _ => .error e
    | .ok _, .error e => .error e
    | .ok p, .ok (l, bad) =>
      let sh := if m.half c then 4 * (n % 2) else 0
      .ok ((p, m.code c drain t i n, sh) :: l,
        bad || (t.tagAt (mvRow m.i32 + i) (mvCol m.i32 + n)).isSome)

/-- A byte that 4-bit codes are put into: the other code of the byte keeps its value. -/
def putNibble (old code sh : Nat) : Nat := old - old / 2 ^ sh % 16 * 2 ^ sh + code % 16 * 2 ^ sh

/-- The byte of a command's destination as it stands. -/
def State.oldByte (s : State) (c : Cmd) : Spot → Nat
  | .pad q o => ((s.padAt c.inst q).byteAt o).toNat
  | .pa a => (s.byteAt a).toNat

/-- The bytes of the elements of a sector. -/
def State.moveBytes (s : State) (c : Cmd) (m : TileMove) : List (Spot × Nat × Nat) → List SpotByte
  | l =>
    if m.half c then
      ((l.map (·.1)).eraseDups).map fun p =>
        { at_ := p
          b := BitVec.ofNat 8 ((l.filter fun x => x.1 = p).foldl (fun b x => putNibble b x.2.1 x.2.2) (s.oldByte c p)) }
    else l.flatMap fun x => spotAt x.1 (leBytes (Shape.elem m.srec) x.2.1)

/-- Sector u of an MSTT or MDRN.OWN; the last sector of a drain sets the region to +0 (18 R319). -/
def State.storeSector (s : State) (k : GKey) (c : Cmd) (m : TileMove) (drain : Bool) (u : Nat) : Except EngStop State :=
  let secs := s.moveSectors c m
  match secs[u]?, s.group? k with
  | some sec, some g =>
    let t := g.tile (mvTile m.i32)
    let els := m.els.filter fun x => s.dstSector c m.sp (Shape.elem m.srec) (m.addr c x.1 x.2) = sec
    match s.storeEls c m drain t els with
    | .error e => .error e
    | .ok (l, bad) =>
      let sw := els.foldl (fun s x => s.engWalked c m.sp (Shape.elem m.srec) (m.addr c x.1 x.2)) s
      let s0 := match l with
        | (.pa a, _, _) :: _ => sw.mergeLine (.cmd c.key) (lineOf a)
        | _ => sw
      let s1 := s0.engWrites c engPlain (s0.moveBytes c m l) fun _ => bad
      if drain && secs.length ≤ u + 1 then
        .ok (s1.onGroup k fun g => g.setTile (mvTile m.i32)
          (m.els.foldl (fun x y => x.put (mvRow m.i32 + y.1) (mvCol m.i32 + y.2) 0 none) (g.tile (mvTile m.i32))))
      else .ok s1
  | _, _ => .error .wait

/-! ### How entries finish -/

/-- The first entry finishes: it leaves the queue, and its command finishes. -/
def State.entryDone (s : State) (k : GKey) (failed : Bool) : State :=
  match s.group? k with
  | none => s
  | some g =>
    match g.mq with
    | [] => s
    | e :: r =>
      let s1 := s.setGroup k { g with mq := r }
      match e.cmd with
      | some (tl, n) => s1.finishCmd (.group k tl n) failed
      | none => s1.reap k

/-- The last step of an operation's k range, and its first. -/
def Mat.lastStep (r : Rec) : Nat := (Mat.klo r + Mat.klen r - 1) / Mat.width r
/-- j0. -/
def Mat.firstStep (r : Rec) : Nat := Mat.klo r / Mat.width r

/-- No row is left from a step and row on (18 R312). -/
def mmaOver (m : MatCmd) (step row : Nat) : Bool :=
  m.none || Mat.klen m.mrec = 0 || Mat.lastStep m.mrec < step ||
    (step = Mat.lastStep m.mrec && Shape.ext m.arec 1 ≤ row)

/-- The point behind a step and row. -/
def mmaNext (m : MatCmd) (step row : Nat) : Nat × Nat :=
  if Shape.ext m.arec 1 ≤ row + 1 then (step + 1, 0) else (step, row + 1)

/-- The point at which an MMA begins: the one that MRP armed, or its first step (18 R312). -/
def mmaStart (rp : Word64) (m : MatCmd) : Nat × Nat :=
  let j0 := Mat.firstStep m.mrec
  let (js, is) := if rpV rp then (rpStep rp, rpRow rp) else (j0, 0)
  if js < j0 then (j0, 0) else if Shape.ext m.arec 1 ≤ is then (js + 1, 0) else (js, is)

/-- An MMA begins; one with nothing left finishes and clears rp. -/
def State.mmaBegin (s : State) (k : GKey) (g : Group) (m : MatCmd) : State :=
  let (j, i) := mmaStart g.rp m
  if mmaOver m j i then (s.setGroup k { g with rp := 0 }).entryDone k false
  else s.setGroup k
    ({ g with rp := if rpV g.rp then rpWord false (g.rp.getLsbD 62) (rpStep g.rp) (rpRow g.rp) else g.rp }.onHead
      fun e => { e with begun := true, step := j, row := i })

/-- The command of the first entry of a group's queue. -/
def State.headCmd (s : State) (k : GKey) : Option Cmd :=
  match s.group? k with
  | some g => match g.mq with
    | e :: _ => match e.cmd with | some (tl, n) => s.cmd? (.group k tl n) | none => none
    | [] => none
  | none => none

/-- The MMA of an entry stops or finishes as failed: rp holds F and its stop point, where it stands or, before it has begun,
where it would begin (18 R304, R313). A follow-on that its carrier cancels is no MMA yet (18 R323). -/
def Group.rpAt (g : Group) (e : MqEntry) : Group :=
  let at_ (m : MatCmd) : Group :=
    let (j, i) := if e.begun then (e.step, e.row) else mmaStart g.rp m
    { g with rp := rpWord false true j i }
  match e.op with
  | .mma m => at_ m
  | .follow m => if e.ready then at_ m else g
  | _ => g

/-- The MMA at the head of a queue stands stopped at its point. -/
def Group.rpStop (g : Group) : Group :=
  match g.mq with
  | e :: _ => g.rpAt e
  | [] => g

/-- A logical time that no group has reached: an acquire of it is one of the drain that carries it (18 R320, log 31). -/
def State.newLt (s : State) : Nat := s.groups.foldl (fun m x => max m x.2.regs.lt.toNat) 0 + 1

/-- The command of an entry carries a logical time. -/
def State.entryLt (s : State) (k : GKey) (e : MqEntry) (lt : Nat) : State :=
  match e.cmd with
  | some (tl, n) => s.onCmd (.group k tl n) fun c => { c with lt := maxLt c.lt lt }
  | none => s

/-- MDRN.PEER (18 R320): the tile goes to the peer whole, with its tags, and lands for the commands that the peer issues from its
acquire of the drain on; the issuer's own tile becomes +0. -/
def State.drainPeer (s : State) (k : GKey) (g : Group) (t : Nat) (w : Word64) : State :=
  let cx := bitsNat w.toNat 3 0
  let cy := bitsNat w.toNat 6 4
  let pt := bitsNat w.toNat 10 8
  match s.inst? g.id.inst with
  | none => s.entryDone k true
  | some i =>
    let pos := cy * i.width + cx
    match (if cx < i.width && cy < i.height && pt < g.id.tiles && !NSet.has i.ended pos then i.groups[pos]? else none) with
    | some peer =>
      let x := g.tile t
      let s1 := if peer = k then s.onGroup k fun h => h.setTile pt x
        else
          let s0 := match g.mq with | e :: _ => s.entryLt k e s.newLt | [] => s
          s0.onGroup peer fun h => { h with lands := h.lands ++ [{ tile := pt, new := x, old := h.tile pt, lt := s.newLt }] }
      (s1.onGroup k fun h => h.setTile t {}).entryDone k false
    | none => s.entryDone k true

/-! ### The events -/

/-- MATRIX_ENTRY (18 R302): the engine begins the first entry of a queue; an entry without units is performed whole. -/
def execMatrixEntry (k : GKey) (s : State) : Out :=
  if s.mxNext (keyCore k) != some k then .next s
  else
    match s.group? k with
    | none => .next s
    | some g0 =>
      match g0.mq with
      | [] => .next s
      | e :: _ =>
        if e.begun then .next s
        else
          let s1 := s.serve k
          let g := (s1.group? k).getD g0
          .next (match e.op with
            | .zero t => (s1.setGroup k (g.setTile t.toNat {})).entryDone k false
            | .mrp v => (s1.setGroup k
                { g with rp := if v = 0 then 0 else rpWord true false (rpStep v) (rpRow v) }).entryDone k false
            | .peer t w => s1.drainPeer k g t.toNat w
            | .mma m => s1.mmaBegin k g m
            | .follow m => s1.mmaBegin k g m
            | _ => s1.setGroup k (g.onHead fun e => { e with begun := true }))

/-- The command record of an entry's operation. -/
def MqOp.mat? : MqOp → Option MatCmd
  | .mma m => some m
  | .follow m => some m
  | _ => none

/-- MATRIX_STEP (18 R312): one k-step of one tile row; a violation freezes the command (25 R398); after the last row rp is
zero and the command finishes. -/
def execMatrixStep (k : GKey) (s : State) : Out :=
  if s.mxNext (keyCore k) != some k then .next s
  else
    match s.group? k, s.headCmd k with
    | some g, some c =>
      match g.mq with
      | [] => .next s
      | e :: _ =>
        match (if e.begun then e.op.mat? else none) with
        | none => .next s
        | some m =>
          match (s.serve k).mmaRow k c e m with
          | .ok s1 =>
            let (j, i) := mmaNext m e.step e.row
            let s2 := s1.onGroup k fun g => g.onHead fun e => { e with step := j, row := i }
            .next (if mmaOver m j i then (s2.onGroup k fun g => { g with rp := 0 }).entryDone k false else s2)
          | .error (.violation code a) => .next ((s.onGroup k Group.rpStop).freezeCmd c code a)
          | .error _ => .next s
    | _, _ => .next s

/-- MATRIX_QUEUE_AGING (18 R314). -/
def execMatrixQueueAging (k : GKey) (s : State) : Out :=
  .next (s.onGroup k fun g =>
    if !g.mq.isEmpty && g.mqSince + 65536 * (g.mqAge + 1) ≤ s.cyc.toNat && g.mcls.toNat + g.mqAge < 7
    then { g with mqAge := g.mqAge + 1 } else g)

/-- Unit u of the transfer at the head of a queue. -/
def State.moveUnit (s : State) (k : GKey) (c : Cmd) (u : Nat) : Except EngStop State :=
  match s.group? k with
  | none => .error .wait
  | some g =>
    match g.mq with
    | [] => .error .wait
    | e :: _ =>
      if s.mxNext (keyCore k) != some k || !e.begun || e.row != u || s.headCmd k != some c then .error .wait
      else
        let s0 := s.serve k
        let fin (total : Nat) (r : Except EngStop State) : Except EngStop State :=
          match r with
          | .error x => .error x
          | .ok s1 =>
            let s2 := s1.onGroup k fun g => g.onHead fun e => { e with row := u + 1 }
            .ok (if total ≤ u + 1 then s2.entryDone k false else s2)
        match e.op with
        | .load m => fin (Shape.ext m.srec 1) (s0.loadRow k c e m u)
        | .store m => fin (s.moveSectors c m).length (s0.storeSector k c m false u)
        | .drain m => fin (s.moveSectors c m).length (s0.storeSector k c m true u)
        | _ => .error .wait

/-- The follow-on of a command whose last sector is written may run (18 R323). -/
def Group.release (g : Group) (tl : BitVec 4) (n : Word64) : Group :=
  { g with mq := g.mq.map fun e => if e.cmd = some (tl, n) then { e with ready := true } else e }

/-- A matrix command, or the carrier of a follow-on, ends as failed: its entry leaves the queue, and an MMA leaves its
stop point in rp (18 R313, R323). -/
def State.dropEntry (s : State) (c : CKey) : State :=
  match c with
  | .queue .. => s
  | .group k tl n => s.onGroup k fun g =>
    let g1 := match g.mq.find? fun e => e.cmd = some (tl, n) with
      | some e => g.rpAt e
      | none => g
    { g1 with mq := g1.mq.filter fun e => e.cmd != some (tl, n) }

end Sys2Proof.Machine
end

