-- ==== Sys2Proof/Machine/Collectives.lean ====
section
/-!
DEFINITION. Plane-first collectives (12): records, the issue of COLL (12 R236, R237), the sources and tiles of its commands
(12 R230 to R232, R238, R240), matching (12 R229), and the status records with CPREC, CWAITP and CCAN (12 R233, R241).
-/
namespace Sys2Proof.Machine
open Sys2Proof

/-! ### Records (12 R228, R236) -/

namespace Comm
/-- CID. -/
def cid (r : Rec) : Nat := recNat r 0 8
/-- NPART. -/
def npart (r : Rec) : Nat := recNat r 8 2
/-- SELF. -/
def self (r : Rec) : Nat := recNat r 10 2
/-- KIND. -/
def kind (r : Rec) : Nat := recNat r 12 1
/-- LIST. -/
def list (r : Rec) : Nat := recNat r 16 8
/-- The record is legal (12 R228). -/
def legal (r : Rec) : Bool :=
  1 ≤ npart r && self r < npart r && kind r ≤ 1 && (kind r = 1 || npart r ≤ 512) && recNat r 13 3 = 0 &&
  recNat r 28 36 = 0 && list r % 8 = 0
/-- An entry of the participant table. -/
def entry (t : Rec) (i : Nat) : Nat := recNat t (8 * i) 8
/-- DEV of an entry. -/
def dev (e : Nat) : Nat := bitsNat e 8 0
/-- OX of an entry. -/
def ox (e : Nat) : Nat := bitsNat e 20 16
/-- OY of an entry. -/
def oy (e : Nat) : Nat := bitsNat e 27 24
/-- An entry is legal. -/
def entryOk (kind e : Nat) : Bool :=
  if kind = 0 then e < 2 ^ 9 else e < 2 ^ 28 && bitsNat e 23 21 = 0 && bitsNat e 15 9 = 0
/-- The table is legal (12 R228, R229): entries legal and distinct, entry SELF naming the device and, for cohorts, the
instance. -/
def tableOk (r t : Rec) (devnum : Nat) (i : Inst) : Bool :=
  let es := (List.range (npart r)).map (entry t)
  let me := entry t (self r)
  es.all (entryOk (kind r)) && decide es.Nodup && dev me = devnum &&
  (kind r = 0 || (ox me = i.ox && oy me = i.oy))
end Comm

namespace Coll
/-- SRC. -/
def src (r : Rec) : Nat := recNat r 0 8
/-- DST. -/
def dst (r : Rec) : Nat := recNat r 8 8
/-- STATUS. -/
def status (r : Rec) : Nat := recNat r 16 8
/-- COUNT. -/
def count (r : Rec) : Nat := recNat r 24 4
/-- ETYPE. -/
def etype (r : Rec) : Nat := recNat r 28 1
/-- OP. -/
def op (r : Rec) : Nat := recNat r 29 1
/-- ROOT. -/
def root (r : Rec) : Nat := recNat r 30 2
/-- NMEM. -/
def nmem (r : Rec) : Nat := recNat r 32 4
/-- MSTRIDE. -/
def mstride (r : Rec) : Nat := recNat r 36 4
/-- AUX. -/
def auxAt (r : Rec) : Nat := recNat r 40 8
/-- NQ. -/
def nq (r : Rec) : Nat := recNat r 48 2
/-- The bytes of an element; an image stands in 1,024 bytes. -/
def size (r : Rec) : Nat := match etype r with | 0 => 4 | 1 => 2 | 2 => 8 | 3 => 4 | 4 => 8 | _ => 1024
/-- The multiple that SRC and DST are of. -/
def align (r : Rec) : Nat := if etype r = 5 then 64 else size r
/-- The format of a floating-point element. -/
def fmt (r : Rec) : Fmt := match etype r with | 0 => f32 | 1 => b16 | _ => f64
/-- Elements are floating-point. -/
def fp (r : Rec) : Bool := etype r ≤ 2
/-- KMAX (12 R230). -/
def kmax (r : Rec) : Nat := if etype r = 2 then 64 else 32
/-- The function takes members. -/
def stats (fn : BitVec 4) : Bool := 5 ≤ fn && fn ≤ 7

/-- The descriptor is legal (12 R236, R237). -/
def legal (fn : BitVec 4) (prog : Bool) (npart : Nat) (r : Rec) : Bool :=
  recNat r 50 14 = 0 && 1 ≤ count r && count r ≤ 2 ^ 28 && etype r ≤ 5 &&
  (if fn = 6 then 1 ≤ nq r && nq r ≤ 16 else nq r = 0) &&
  (fn = 6 || fn = 7 || auxAt r = 0) &&
  (if stats fn then 1 ≤ nmem r && count r * size r ≤ mstride r && mstride r % size r = 0
    else nmem r = 0 && mstride r = 0) &&
  (if fn = 1 || fn = 2 then root r < npart else root r = 0) &&
  (if fn ≤ 1 then op r ≤ 2 else if fn = 5 then op r ≤ 1 else op r = 0) &&
  (prog || status r = 0) &&
  (!prog || (fn ≤ 3 && etype r ≤ 2 && op r = 0 && count r % 1024 = 0 && status r % 64 = 0)) &&
  (etype r = 5) = (fn = 4) &&
  (!stats fn || etype r = 0 || etype r = 2) &&
  src r % align r = 0 && dst r % align r = 0

/-- A probability of QUANT lies in [0, 1] (12 R240). -/
def probOk (w : Nat) : Bool :=
  match decodeFp f64 w with
  | .fin neg m e => (!neg || m = 0) && cmpX (.num false m e false) (.num false 1 0 false) != .gt
  | _ => false

/-- The bytes of the array at AUX that a function reads. -/
def auxLen (fn : BitVec 4) (r : Rec) : Nat :=
  if fn = 6 && nq r ≤ 16 then 8 * nq r
  else if fn = 7 && count r ≤ 2 ^ 28 && etype r ≤ 2 then count r * size r
  else 0

/-- The destination elements of a participant (12 R237, R238); `n` is the number of members of the ensemble. -/
def dstCount (fn : BitVec 4) (r comm : Rec) (n : Nat) : Nat :=
  if fn = 1 then (if Comm.self comm = root r then count r else 0)
  else if fn = 3 then Comm.npart comm * count r
  else if fn = 5 then 2 * count r
  else if fn = 6 then nq r * count r
  else if fn = 7 then n + 2
  else count r
end Coll

/-- The destination tiles of a progressive command. -/
def CollCmd.tiles (x : CollCmd) : Nat := (Coll.dstCount x.fn x.desc x.comm 0 + 1023) / 1024
/-- The address of the status record of a tile. -/
def CollCmd.statusVa (x : CollCmd) (t : Nat) : Nat := (Coll.status x.desc + 64 * t) % 2 ^ 64

/-! ### Status records (12 R233) -/

/-- WAITING. -/
def stWaiting : Nat := 0
/-- REFINING. -/
def stRefining : Nat := 1
/-- COMPLETE. -/
def stComplete : Nat := 2
/-- CANCELLED. -/
def stCancelled : Nat := 3
/-- FAILED. -/
def stFailed : Nat := 4

/-- Bytes 0 to 7 of a status record. -/
def statusLow (k st kmax e : Nat) : Nat := k % 2 ^ 16 + st % 2 ^ 8 * 2 ^ 16 + kmax % 2 ^ 8 * 2 ^ 24 + e % 2 ^ 16 * 2 ^ 32

/-- A status record as COLL writes it at issue. -/
def statusFresh (kmax : Nat) : List Byte :=
  leBytes 8 (statusLow 0 stWaiting kmax 0) ++ leBytes 4 0xFFFFFFFF ++ List.replicate 52 0

/-- Where bytes of a command lie that must be homed on this device (12 R237). -/
def State.homedSpot (s : State) (c : Cmd) (acc : Access) (va : Nat) : Except EngStop Spot :=
  match s.engSpot c acc spG 1 (BitVec.ofNat 64 va) with
  | .ok (.pa pa) => if s.isLocal pa then .ok (.pa pa) else .error (.dead va)
  | .ok p => .ok p
  | .error e => .error e

/-- Where a status record lies, on this device. -/
def State.statusPa (s : State) (c : Cmd) (x : CollCmd) (t : Nat) : Option Nat :=
  match s.translate c.ctx .write (x.statusVa t) with
  | .ok pa => if s.isLocal pa then some pa else none
  | _ => none

/-- One write of a status record's bytes at an offset. -/
def State.statusWrite (s : State) (c : Cmd) (x : CollCmd) (t off : Nat) (l : List Byte) : State :=
  match s.statusPa c x t with
  | some pa => (s.engWalked c spG 1 (BitVec.ofNat 64 (x.statusVa t))).writeOp (.cmd c.key) (bytesAt (pa + off) l) false
  | none => s

/-- STATE of a record as it stands. -/
def State.statusState (s : State) (c : Cmd) (x : CollCmd) (t : Nat) : Nat :=
  match s.statusPa c x t with | some pa => (s.byteAt (pa + 2)).toNat | none => stFailed

/-- Bytes 0 to 11 of a record that shows a cancellation: STATE and CANCELLER, K as it stands (12 R235). -/
def statusCancelled (old who : Nat) : Nat :=
  old % 2 ^ 16 + stCancelled * 2 ^ 16 + bitsNat old 63 24 * 2 ^ 24 + who % 2 ^ 32 * 2 ^ 64

/-- A tile of a command is cancelled: no plane of it is applied any more (12 R235). -/
def State.noteCancel (s : State) (c : CKey) (t who : Nat) : State :=
  s.onCmd c fun y => match y.kind with
    | .coll z => { y with kind := .coll { z with cancelled := Store.put z.cancelled t who }, units := NSet.add y.units t }
    | _ => y

/-- A cancellation that arrives shows in its participant's record, as one write (12 R235). -/
def State.cancelTile (s : State) (c : Cmd) (x : CollCmd) (t who : Nat) : State :=
  match s.statusPa c x t with
  | none => s
  | some pa =>
    if stRefining < s.statusState c x t then s
    else
      let old := ofLeBytes ((List.range 12).map fun i => s.valueAt (pa + i))
      (s.statusWrite c x t 0 (leBytes 12 (statusCancelled old who))).noteCancel c.key t who

/-- The status records of a command that fails show FAILED: every one where the participants disagree (12 R229), else those
that are neither complete nor cancelled. -/
def State.failTiles (s : State) (c : Cmd) (x : CollCmd) (every : Bool) : State :=
  if !x.prog then s
  else (List.range x.tiles).foldl (fun s t =>
    if !every && stRefining < s.statusState c x t then s else s.statusWrite c x t 2 [BitVec.ofNat 8 stFailed]) s

/-- A page of the command's status records is under migration: a write to them waits (07 R135). -/
def State.tilesMove (s : State) (c : Cmd) (x : CollCmd) : Bool :=
  x.prog && (List.range x.tiles).any fun t =>
    match s.homedSpot c .write (x.statusVa t) with | .error .wait => true | _ => false

/-- The record of tile t is written as COLL writes it at issue (12 R233). -/
def State.openTile (s : State) (c : Cmd) (x : CollCmd) (t : Nat) : Except EngStop State :=
  match s.homedSpot c .write (x.statusVa t) with
  | .error e => .error e
  | .ok _ =>
    let l := statusFresh (Coll.kmax x.desc)
    .ok (((s.statusWrite c x t 0 (l.take 32)).statusWrite c x t 32 (l.drop 32)).onCmd c.key fun y => match y.kind with
      | .coll z => { y with kind := .coll { z with opened := t + 1 } }
      | _ => y)

/-- The records of a command are written in order; a fault stops it at the first tile whose record it meets, and memory
homed elsewhere for good (12 R237). -/
def State.openTiles (key : CKey) : Nat → State → State
  | 0, s => s
  | n + 1, s => match s.cmd? key with
    | none => s
    | some c => match c.kind with
      | .coll x =>
        if x.tiles ≤ x.opened then s
        else match s.openTile c x x.opened with
          | .ok s1 => s1.openTiles key n
          | .error (.fault a cause) => s.stopCmd c x.opened a cause true
          | .error (.dead a) => s.stopCmd c x.opened a cProt false
          | .error (.violation code a) => s.freezeCmd c code a
          | .error .wait => s
      | _ => s

/-! ### COLL at issue (12 R229, R237) -/

/-- SEQ of a communicator is increased as one atomic; its old value is the sequence number. -/
def M.nextSeq (k : GKey) (g : Group) (a : Word64) : M Nat := do
  let va := (a + 24).toNat
  let l ← M.xlatPage g.ctx .rmw [(0, .va va)]
  match l with
  | (_, .pa pa) :: _ => do
    let r ← M.run' fun s => s.atomicHome (.group k) pa 4 (fun x => some ((x + 1) % 2 ^ 32)) false
    match r with
    | some n => pure n
    | none => M.trap { cause := cPoison, xaddr := pa / 32 * 32 }
  | _ => M.stall

/-- COLL under each function (12 R229, R233, R236, R237). -/
def runColl (i : Instr) (f : Fields) (k : GKey) : M Unit := do
  M.gate k
  let g ← M.group k
  let a ← M.clean (g.ssrc f true f.a)
  let b ← M.clean (g.ssrc f true f.b)
  let mis (w : Word64) : M Unit := M.check (w.toNat % 64 = 0) { cause := cMisaligned, xaddr := w.toNat, xinfo := 64 }
  mis a
  mis b
  let prog := f.x.getLsbD 4
  let desc ← M.readRec k a.toNat 64
  let comm ← M.readRec k b.toNat 64
  let table ← M.readRec k (Comm.list comm) (8 * Comm.npart comm)
  let aux ← M.readRec k (Coll.auxAt desc) (Coll.auxLen f.fn desc)
  let inst ← M.inst g
  let devnum ← M.run' fun s => (s.devnum.toNat, s)
  M.legal (wordOf i) (Comm.legal comm && Comm.tableOk comm table devnum inst)
  M.legal (wordOf i) (Coll.legal f.fn prog (Comm.npart comm) desc)
  M.legal (wordOf i) (f.fn != 6 || (List.range (Coll.nq desc)).all fun j => Coll.probOk (recNat aux (8 * j) 8))
  let x : CollCmd := { fn := f.fn, prog := prog, desc := desc, comm := comm, table := table, aux := aux, seq := 0 }
  let seq ← M.nextSeq k g b
  let n ← M.issue k (tlOf f) 0xE4 (.coll { x with seq := seq }) 0
  if prog then M.modify (State.openTiles (.group k (BitVec.ofNat 4 (tlOf f)) n) x.tiles) else pure ()

/-- COLL.ALLRED (12 R236). -/
def execCollAllred (f : Fields) (s : State) : Out := runM (.collAllred f) (runColl (.collAllred f)) s
/-- COLL.REDUCE (12 R236). -/
def execCollReduce (f : Fields) (s : State) : Out := runM (.collReduce f) (runColl (.collReduce f)) s
/-- COLL.BCAST (12 R236). -/
def execCollBcast (f : Fields) (s : State) : Out := runM (.collBcast f) (runColl (.collBcast f)) s
/-- COLL.ALLGATH (12 R236). -/
def execCollAllgath (f : Fields) (s : State) : Out := runM (.collAllgath f) (runColl (.collAllgath f)) s
/-- COLL.XSUM (12 R236). -/
def execCollXsum (f : Fields) (s : State) : Out := runM (.collXsum f) (runColl (.collXsum f)) s
/-- COLL.SPREAD (12 R236). -/
def execCollSpread (f : Fields) (s : State) : Out := runM (.collSpread f) (runColl (.collSpread f)) s
/-- COLL.QUANT (12 R236). -/
def execCollQuant (f : Fields) (s : State) : Out := runM (.collQuant f) (runColl (.collQuant f)) s
/-- COLL.RANKH (12 R236). -/
def execCollRankh (f : Fields) (s : State) : Out := runM (.collRankh f) (runColl (.collRankh f)) s

/-! ### CPREC, CWAITP and CCAN (12 R241) -/

/-- The address of a status record: base and offset. -/
def M.recordBase (k : GKey) (f : Fields) : M (Group × Word64) := do
  let g ← M.group k
  let a ← M.clean (g.ssrc f true f.a)
  pure (g, a + offsetOf false f)

/-- It is a multiple of 64, once every operand has been read (10 R184 steps 1 and 3). -/
def M.recordOk (va : Word64) : M Unit :=
  M.check (va.toNat % 64 = 0) { cause := cMisaligned, xaddr := va.toNat, xinfo := 64 }

/-- Bytes 0 to 7 of a status record, read where the record is homed. -/
def M.readStatus (k : GKey) (g : Group) (va : Word64) : M Nat := do
  let l ← M.xlatPage g.ctx .read [(0, .va va.toNat)]
  match l with
  | (_, .pa pa) :: _ => do
    let r ← M.run' fun s => s.atomicHome (.group k) pa 8 (fun _ => none) false
    match r with
    | some w => pure w
    | none => M.trap { cause := cPoison, xaddr := pa / 32 * 32 }
  | _ => M.stall

/-- CPREC: one load and an acquire of the planes it reads. -/
def execCprec (f : Fields) (s : State) : Out :=
  runM (.cprec f) (fun f k => do
    M.noSpec k
    M.noFence k
    let (g, va) ← M.recordBase k f
    M.recordOk va
    let w ← M.readStatus k g va
    M.onGroup k fun g => { g with regs := g.regs.sdst f.d { val := BitVec.ofNat 64 w } }) s

/-- CWAITP on a record: met, stopped, or neither. -/
def tryCwaitp (f : Fields) (k : GKey) : M Bool := do
  let (g, va) ← M.recordBase k f
  let b ← M.clean (g.ssrc f true f.b)
  M.recordOk va
  let w ← M.readStatus k g va
  let n := min b.toNat (bitsNat w 31 24)
  let st := bitsNat w 23 16
  let met := n ≤ w % 2 ^ 16
  if met || st = stCancelled || st = stFailed then do
    M.onGroup k fun g => { g with regs := (g.regs.pall f.d met).pfill (ptOf f) false }
    pure true
  else pure false

/-- CWAITP ends by its timeout. -/
def M.cwaitpEnd (k : GKey) (f : Fields) : M Unit :=
  M.onGroup k fun g => { g with regs := (g.regs.pall f.d false).pfill (ptOf f) true }

/-- CWAITP (12 R241). -/
def execCwaitp (f : Fields) (s : State) : Out :=
  runM (.cwaitp f) (fun f k => do
    M.gate k
    let (g, va) ← M.recordBase k f
    let _ ← M.clean (g.ssrc f true f.b)
    let limit ← M.timeout g f f.c
    M.recordOk va
    M.wait k .plane f limit true (tryCwaitp f k) (M.cwaitpEnd k f)) s

/-- A plane that makes a waiting CWAITP go on (12 R241). -/
def execPlaneWaitWake (k : GKey) (s : State) : Out :=
  s.wake k fun w => match w.op with | .plane => some (tryCwaitp w.f k) | _ => none

/-- The running progressive command whose status record lies at an address, with the tile. -/
def State.ownerOf (s : State) (pa : Nat) : Option (Cmd × CollCmd × Nat) :=
  s.cmds.findSome? fun c => match c.kind with
    | .coll x =>
      if !x.prog || c.failed then none
      else ((List.range (min x.opened x.tiles)).find? fun t => s.statusPa c x t = some pa).map fun t => (c, x, t)
    | _ => none

/-- CCAN (12 R235, R241): one atomic of the group on bytes 0 to 11 of its record, a release of its earlier accesses. -/
def execCcan (f : Fields) (s : State) : Out :=
  runM (.ccan f) (fun f k => do
    M.gate k
    let (g, va) ← M.recordBase k f
    M.recordOk va
    let l ← M.xlatPage g.ctx .rmw [(0, .va va.toNat)]
    match l with
    | (_, .pa pa) :: _ => do
      let owner ← M.run' fun s => (s.ownerOf pa, s)
      let live (w : Nat) : Bool := owner.isSome && bitsNat w 23 16 ≤ stRefining
      let who := match owner with | some (_, x, _) => Comm.self x.comm | none => 0
      let old ← M.run' fun s =>
        s.atomicHome (.group k) pa 12 (fun w => if live w then some (statusCancelled w who) else none) false
      match old with
      | none => M.trap { cause := cPoison, xaddr := pa / 32 * 32 }
      | some w => do
        M.modify fun s => match owner with
          | some (c, _, t) => if live w then s.noteCancel c.key t who else s
          | none => s
        M.onGroup k fun g => { g with regs := g.regs.pall f.d (live w) }
    | _ => M.stall) s

/-! ### Participants (12 R229) -/

/-- A participant of a matched collective: a command of this device, or a remote one. -/
inductive CollPart where
  | here (c : Cmd) (x : CollCmd)
  | away (p : PeerPart)

namespace CollPart
/-- The index. -/
def self : CollPart → Nat
  | .here _ x => Comm.self x.comm
  | .away p => p.self
/-- NMEM. -/
def nmem : CollPart → Nat
  | .here _ x => Coll.nmem x.desc
  | .away p => p.nmem
/-- MSTRIDE. -/
def mstride : CollPart → Nat
  | .here _ x => Coll.mstride x.desc
  | .away p => p.mstride
end CollPart

/-- The commands of this device that belong to one collective: equal CID and sequence number, of one partition. -/
def State.collPeers (s : State) (c : Cmd) (x : CollCmd) : List (Cmd × CollCmd) :=
  s.cmds.filterMap fun d => match d.kind with
    | .coll y => if Comm.cid y.comm = Comm.cid x.comm && y.seq = x.seq && d.part = c.part then some (d, y) else none
    | _ => none

/-- The participants of a matched command. -/
def State.participants (s : State) (c : Cmd) (x : CollCmd) : List CollPart :=
  ((s.collPeers c x).map fun p => .here p.1 p.2) ++ x.remote.map .away

/-- The descriptor fields that matched collectives agree in (12 R229). -/
def CollCmd.shared (x : CollCmd) : List Nat :=
  [x.fn.toNat, x.prog.toNat, Coll.count x.desc, Coll.etype x.desc, Coll.op x.desc, Coll.root x.desc, Coll.nq x.desc]

/-- The members of an ensemble. -/
def ensemble (ps : List CollPart) : Nat := (ps.map CollPart.nmem).sum

/-- The members are within the limit (12 R240). -/
def ensembleOk (fn : BitVec 4) (n : Nat) : Bool := if fn = 5 then n < 2 ^ 32 else !Coll.stats fn || n ≤ 65536

/-- COLL_MATCH (12 R229): all participants of a communicator have issued the collective of one sequence number. If they
disagree, every one of this device fails, and every status record shows it; the match waits for the pages of the records. -/
def execCollMatch (c : CKey) (peers : List PeerPart) (s : State) : Out :=
  match s.cmd? c with
  | none => .next s
  | some d =>
    match d.kind with
    | .coll x =>
      let here := s.collPeers d x
      let selfs := (here.map fun p => Comm.self p.2.comm) ++ peers.map (·.self)
      let n := Comm.npart x.comm
      if x.matched || selfs.length != n || !(List.range n).all fun i => selfs.contains i then .next s
      else
        let total := ensemble ((here.map fun p => .here p.1 p.2) ++ peers.map .away)
        let ok := here.all (fun p => p.2.shared = x.shared && Comm.npart p.2.comm = n) && peers.all (·.agree) &&
          ensembleOk x.fn total
        let lt := here.foldl (fun m p => max m p.1.lt0.toNat) 0
        if !ok && here.any (fun p => s.tilesMove p.1 p.2) then .next s else
        let put (s : State) (p : Cmd × CollCmd) : State :=
          let y := { p.2 with matched := true, agree := ok, remote := peers }
          let s1 := s.onCmd p.1.key fun z =>
            { z with
              kind := .coll y
              failed := z.failed || !ok
              total := if ok then (Coll.dstCount y.fn y.desc y.comm total + 1023) / 1024 else 0
              lt := maxLt z.lt lt }
          if ok then s1 else s1.failTiles p.1 y true
        .next (here.foldl put s)
    | _ => .next s

/-! ### Sources -/

/-- A fault of another participant's source holds the command (12 R237). -/
def EngStop.of (own : Bool) (e : EngStop) : EngStop := if own then e else .wait

/-- Bytes at an address of a command, sector by sector: with whether a sector of them is poisoned. -/
def State.homedBytes (s : State) (c : Cmd) : Nat → Nat → Nat → Except EngStop ((List Byte × Bool) × State)
  | 0, _, _ => .ok (([], false), s)
  | n + 1, va, left =>
    if left = 0 then .ok (([], false), s)
    else
      let here := min left (32 - va % 32)
      match s.homedSpot c .read (va % 2 ^ 64) with
      | .error e => .error e
      | .ok p =>
        let (x, s1) := (s.engWalked c spG 1 (BitVec.ofNat 64 va)).engRead c here p
        match s1.homedBytes c n (va + here) (left - here) with
        | .error e => .error e
        | .ok (y, s2) => .ok ((x.1 ++ y.1, x.2 || y.2), s2)

/-- Bytes of a participant at an offset from its SRC. -/
def State.partBytes (s : State) (me : CKey) (p : CollPart) (off n : Nat) : Except EngStop ((List Byte × Bool) × State) :=
  match p with
  | .here c x =>
    match s.homedBytes c (n / 32 + 2) (Coll.src x.desc + off) n with
    | .error e => .error (e.of (c.key == me))
    | .ok r => .ok r
  | .away p =>
    .ok (((List.range n).map fun i => (p.data[off + i]?).getD 0,
      (List.range n).any fun i => p.bad.contains ((off + i) / 32)), s)

/-- One element of each of several participants. -/
def State.partEls (s : State) (me : CKey) (size off : Nat) : List CollPart → Except EngStop ((List Nat × Bool) × State)
  | [] => .ok (([], false), s)
  | p :: r =>
    match s.partBytes me p off size with
    | .error e => .error e
    | .ok (x, s1) =>
      match s1.partEls me size off r with
      | .error e => .error e
      | .ok (y, s2) => .ok ((ofLeBytes x.1 :: y.1, x.2 || y.2), s2)

/-- The members of a participant at an offset. -/
def State.memberEls (s : State) (me : CKey) (p : CollPart) (size off : Nat) :
    List Nat → Except EngStop ((List Nat × Bool) × State)
  | [] => .ok (([], false), s)
  | j :: r =>
    match s.partBytes me p (j * p.mstride + off) size with
    | .error e => .error e
    | .ok (x, s1) =>
      match s1.memberEls me p size off r with
      | .error e => .error e
      | .ok (y, s2) => .ok ((ofLeBytes x.1 :: y.1, x.2 || y.2), s2)

/-- The values of a column of the ensemble (12 R240). -/
def State.column (s : State) (me : CKey) (size c : Nat) : List CollPart → Except EngStop ((List Nat × Bool) × State)
  | [] => .ok (([], false), s)
  | p :: r =>
    match s.memberEls me p size (c * size) (List.range p.nmem) with
    | .error e => .error e
    | .ok (x, s1) =>
      match s1.column me size c r with
      | .error e => .error e
      | .ok (y, s2) => .ok ((x.1 ++ y.1, x.2 || y.2), s2)

/-! ### Combinations (12 R238, R240) -/

/-- The exact sum of terms, none where there is none: -0 only where every term is -0 (11 R225, 12 R232). -/
def sumTerms : List Exact → Option Exact
  | [] => none
  | x :: r => match sumTerms r with | none => some x | some y => some (addX x y false).1

/-- The sum, +0 of no terms. -/
def sumExact (l : List Exact) : Exact := (sumTerms l).getD (.num false 0 0 false)

/-- SUM, MIN or MAX of elements of a type. -/
def collCombine (r : Rec) (l : List Nat) : Nat :=
  let F := Coll.fmt r
  let bits := 8 * Coll.size r
  match Coll.fp r, Coll.op r with
  | true, 0 => (roundTo F .rne 0 (sumExact (l.map fun w => (decodeFp F w).exact))).1
  | true, o =>
    let v := match l with | [] => 0 | x :: t => t.foldl (fpMinMax F (o = 2)) x
    if (decodeFp F v).isNan then F.nanCode else v
  | false, 0 => l.foldl (fun a b => (a + b) % 2 ^ bits) 0
  | false, o =>
    let less (a b : Nat) : Bool := toSigned bits a < toSigned bits b
    match l with
    | [] => 0
    | x :: t => t.foldl (fun a b => if less b a == (o = 1) then b else a) x

/-- The mean of a column (12 R240). -/
def meanOf (F : Fmt) (l : List Nat) : Nat :=
  (roundTo F .rne 0 (divX (sumExact (l.map fun w => (decodeFp F w).exact)) (.num false l.length 0 false)).1).1

/-- A finite value as a signed multiple of 2^q. -/
def unitsAt (q : Int) : Fp → Int
  | .fin neg m e => signedM neg (m * 2 ^ (e - q).toNat)
  | _ => 0
/-- The exponent of a finite value. -/
def expOf : Fp → Int
  | .fin _ _ e => e
  | _ => 0

/-- The square root of a rational n / d in units of 2^q, to 200 bits or more. -/
def sqrtRatio (n d : Nat) (q : Int) : Exact :=
  if n = 0 then .num false 0 0 false
  else
    let h := log2 d + 220
    let r := isqrt (n * 2 ^ (2 * h) / d)
    .num false r (q - h) (decide (r * r * d ≠ n * 2 ^ (2 * h)))

/-- The standard deviation of a column (12 R240). -/
def deviationOf (F : Fmt) (op : Nat) (l : List Nat) : Nat :=
  let vs := l.map (decodeFp F)
  let fin := vs.all fun v => match v with | .fin .. => true | _ => false
  if !fin then F.nanCode
  else
    let q := (vs.map expOf).foldl min 0
    let us := vs.map (unitsAt q)
    let n := l.length
    let s1 := us.sum
    let s2 := (us.map fun u => u * u).sum
    let num := ((n : Int) * s2 - s1 * s1).toNat
    if n ≤ op then (roundTo F .rne 0 (.num false 0 0 false)).1
    else (roundTo F .rne 0 (sqrtRatio num (n * (n - op)) q)).1

/-- The order of values for QUANT (12 R240): -0 below +0, NaNs last. -/
def quantLe (F : Fmt) (x y : Nat) : Bool :=
  match decodeFp F x, decodeFp F y with
  | _, .nan _ => true
  | .nan _, _ => false
  | a, b => !ltSigned b.exact a.exact

/-- max(1, ceil(q * n)) of a probability. -/
def quantRank (q n : Nat) : Nat :=
  match decodeFp f64 q with
  | .fin _ m e => max 1 (if 0 ≤ e then m * 2 ^ e.toNat * n else (m * n + 2 ^ (-e).toNat - 1) / 2 ^ (-e).toNat)
  | _ => 1

/-- The value of a rank; a NaN as the canonical NaN. -/
def quantile (F : Fmt) (q : Nat) (l : List Nat) : Nat :=
  let v := ((l.mergeSort (quantLe F))[quantRank q l.length - 1]?).getD 0
  if (decodeFp F v).isNan then F.nanCode else v

/-- The bin of an observation among the values of its column (12 R240). -/
def rankBin (F : Fmt) (o : Nat) (l : List Nat) : Nat :=
  let x := decodeFp F o
  let vs := l.map (decodeFp F)
  if x.isNan || vs.any Fp.isNan then l.length + 1
  else
    let count (c : Ordering) : Nat := (vs.filter fun v => cmpX v.exact x.exact = c).length
    count .lt + count .eq / 2

/-! ### Destination tiles -/

/-- An image of each participant, with whether one is poisoned or illegal. -/
def State.partImages (s : State) (me : CKey) (off : Nat) : List CollPart → Except EngStop ((List Acc × Bool) × State)
  | [] => .ok (([], false), s)
  | p :: r =>
    match s.partBytes me p off imageLen with
    | .error e => .error e
    | .ok (x, s1) =>
      match s1.partImages me off r with
      | .error e => .error e
      | .ok (y, s2) => .ok ((readImage x.1 :: y.1, x.2 || !imageOk x.1 || y.2), s2)

/-- The bytes of destination element e outside the progressive form and RANKH, with whether poison feeds it. -/
def State.collElem (s : State) (c : Cmd) (x : CollCmd) (ps : List CollPart) (e : Nat) :
    Except EngStop ((List Byte × Bool) × State) :=
  let r := x.desc
  let n := Coll.size r
  let cnt := Coll.count r
  let F := Coll.fmt r
  let num (y : Except EngStop ((List Nat × Bool) × State)) (f : List Nat → Nat) : Except EngStop ((List Byte × Bool) × State) :=
    match y with
    | .error e => .error e
    | .ok (y, s1) => .ok ((leBytes n (f y.1), y.2), s1)
  let only (i off : Nat) : Except EngStop ((List Byte × Bool) × State) :=
    match ps.find? fun p => p.self = i with
    | some p => s.partBytes c.key p off n
    | none => .error .wait
  if x.fn ≤ 1 then num (s.partEls c.key n (n * e) ps) (collCombine r)
  else if x.fn = 2 then only (Coll.root r) (n * e)
  else if x.fn = 3 then only (e / cnt) (n * (e % cnt))
  else if x.fn = 4 then
    match s.partImages c.key (1024 * e) ps with
    | .error e => .error e
    | .ok (y, s1) => .ok (((y.1.foldl Acc.merge {}).image, y.2), s1)
  else if x.fn = 5 then num (s.column c.key n (e % cnt) ps) (if e < cnt then meanOf F else deviationOf F (Coll.op r))
  else num (s.column c.key n (e % cnt) ps) (quantile F (recNat x.aux (8 * (e / cnt)) 8))

/-- Bytes at an address in runs that lie in one sector each. -/
def sectorRuns : Nat → Nat → List Byte → List (Nat × List Byte)
  | 0, _, _ => []
  | n + 1, va, l =>
    if l.isEmpty then []
    else
      let m := 32 - va % 32
      (va, l.take m) :: sectorRuns n (va + m) (l.drop m)

/-- The destination elements of a tile one after another: bytes by address, and the sectors that poison feeds. -/
def State.collEls (s : State) (c : Cmd) (x : CollCmd) (get : State → Nat → Except EngStop ((List Byte × Bool) × State))
    (size : Nat) : List Nat → Except EngStop ((List SpotByte × List (Option Nat × Nat)) × State)
  | [] => .ok (([], []), s)
  | e :: rest =>
    match get s e with
    | .error z => .error z
    | .ok (y, s1) =>
      let runs := sectorRuns (y.1.length / 32 + 2) (Coll.dst x.desc + size * e) y.1
      match runs.mapM fun r => s1.homedSpot c .write (r.1 % 2 ^ 64) with
      | .error z => .error z
      | .ok spots =>
        let here := (spots.zip runs).flatMap fun p => spotAt p.1 p.2.2
        let s1 := runs.foldl (fun s r => s.engWalked c spG 1 (BitVec.ofNat 64 r.1)) s1
        match s1.collEls c x get size rest with
        | .error z => .error z
        | .ok (l, s2) => .ok ((here ++ l.1, if y.2 then spots.map Spot.sector ++ l.2 else l.2), s2)

/-- Bytes of AUX lie in memory homed on this device, each of them (12 R237). -/
def State.auxHome (s : State) (c : Cmd) (va n : Nat) : Except EngStop Unit :=
  match (List.range n).mapM fun i => s.homedSpot c .read ((va + i) % 2 ^ 64) with
  | .ok _ => .ok ()
  | .error e => .error e

/-- A participant of this device that is stopped by a fault: the others are held until it resumes (12 R237). -/
def State.heldPeer (s : State) (c : Cmd) (x : CollCmd) : Bool :=
  (s.collPeers c x).any fun p => p.1.key != c.key && match p.1.state with | .stopped .. => true | _ => false

/-- The bins of the observations of a list of columns, with whether poison feeds them. -/
def State.rankBins (s : State) (c : Cmd) (x : CollCmd) (ps : List CollPart) :
    List Nat → Except EngStop ((List Nat × Bool) × State)
  | [] => .ok (([], false), s)
  | col :: rest =>
    let n := Coll.size x.desc
    match s.auxHome c (Coll.auxAt x.desc + n * col) n, s.column c.key n col ps with
    | .error e, _ => .error e
    | _, .error e => .error e
    | .ok _, .ok (y, s1) =>
      match s1.rankBins c x ps rest with
      | .error e => .error e
      | .ok (z, s2) => .ok ((rankBin (Coll.fmt x.desc) (recNat x.aux (n * col) n) y.1 :: z.1, y.2 || z.2), s2)

/-- A participant of a REDUCE other than the root: it has sources only (12 R237). -/
def CollCmd.sourceOnly (x : CollCmd) : Bool := x.fn = 1 && Comm.self x.comm != Coll.root x.desc

/-- The elements of tile u. -/
def tileEls (total u : Nat) : List Nat := (List.range (min 1024 (total - 1024 * u))).map fun j => 1024 * u + j

/-- The sources that a participant without tiles gives to tile u of the root: where one faults it is stopped, and the
root waits (12 R237). -/
def State.sourceTry (s : State) (c : Cmd) (x : CollCmd) (u : Nat) : Except EngStop State := do
  if s.heldPeer c x then throw .wait else
  let n := Coll.size x.desc
  let _ ← (tileEls (Coll.count x.desc) u).mapM fun e => s.partBytes c.key (.here c x) (n * e) n
  pure s

/-- Tile u of a command outside the progressive form (12 R237, R238, R240). -/
def State.collUnit (s : State) (c : Cmd) (x : CollCmd) (u : Nat) : Except EngStop State := do
  let ps := s.participants c x
  let els := tileEls (Coll.dstCount x.fn x.desc x.comm (ensemble ps)) u
  if s.heldPeer c x then throw .wait else
  let _ ← if x.fn = 6 then s.auxHome c (Coll.auxAt x.desc) (8 * Coll.nq x.desc) else pure ()
  let ((l, bad), s1) ← if x.fn = 7 then do
      let ((bins, bad), s1) ← s.rankBins c x ps (List.range (Coll.count x.desc))
      s1.collEls c x (fun s e => .ok ((leBytes 8 (bins.filter fun b => b = e).length, bad), s)) 8 els
    else s.collEls c x (fun s e => s.collElem c x ps e) (Coll.size x.desc) els
  pure (s1.engWrites c engPlain l fun k => bad.contains k)

/-! ### Progressive tiles (12 R230 to R234) -/

/-- floor(log2 |x|) of a finite nonzero value. -/
def expTop : Fp → Option Int
  | .fin _ m e => if m = 0 then none else some ((log2 m : Int) + e)
  | _ => none

/-- E of the codes of a tile, none where it has no finite nonzero element. -/
def tileExp (F : Fmt) (l : List Nat) : Option Int :=
  l.foldl (fun m w => match m, expTop (decodeFp F w) with
    | none, y => y
    | some x, none => some x
    | some x, some y => some (max x y)) none

/-- What k of kmax planes give of one participant's element (12 R231, R232). -/
def planeTerm (F : Fmt) (e : Option Int) (kmax k w : Nat) : Exact :=
  match decodeFp F w, e with
  | .fin neg m x, some e =>
    let mag := (roundAt .rne 0 false m x false (e - kmax + 1)).1
    .num neg (mag / 2 ^ (kmax - k)) (e - k + 1) false
  | .fin neg _ _, none => .num neg 0 0 false
  | v, _ => v.exact

/-- v_k of an element from the participants' codes (12 R232). -/
def planeValue (F : Fmt) (e : Option Int) (kmax k : Nat) (l : List Nat) : Nat :=
  (roundTo F .rne 0 (sumExact (l.map (planeTerm F e kmax k)))).1

/-- The participants that feed destination tile t, and the first element of theirs. -/
def CollCmd.feeds (x : CollCmd) (ps : List CollPart) (t : Nat) : List CollPart × Nat :=
  let e := 1024 * t
  if x.fn = 2 then (ps.filter fun p => p.self = Coll.root x.desc, e)
  else if x.fn = 3 then (ps.filter fun p => p.self = e / Coll.count x.desc, e % Coll.count x.desc)
  else (ps, e)

/-- The codes of every element of a tile, each of every participant that feeds it. -/
def State.tileCodes (s : State) (c : Cmd) (x : CollCmd) (ps : List CollPart) (first : Nat) :
    List Nat → Except EngStop (List (List Nat × Bool) × State)
  | [] => .ok ([], s)
  | j :: rest =>
    let n := Coll.size x.desc
    match s.partEls c.key n (n * (first + j)) ps with
    | .error e => .error e
    | .ok (y, s1) =>
      match s1.tileCodes c x ps first rest with
      | .error e => .error e
      | .ok (l, s2) => .ok (y :: l, s2)

/-- The header of a tile, or its next plane, is applied (12 R234): the elements that change are written, then bytes 0 to 7
of its record. -/
def State.planeUnit (s : State) (c : Cmd) (x : CollCmd) (t : Nat) : Except EngStop State := do
  if x.opened ≤ t || s.heldPeer c x then throw .wait else
  let (ps, first) := x.feeds (s.participants c x) t
  let (codes, s1) ← s.tileCodes c x ps first (List.range 1024)
  let F := Coll.fmt x.desc
  let n := Coll.size x.desc
  let kmax := Coll.kmax x.desc
  let e := tileExp F (codes.flatMap (·.1))
  let k := Store.getD x.planes t 0
  let val (j : Nat) (l : List Nat × Bool) : Nat := planeValue F e kmax j l.1
  let changed := codes.zipIdx.filter fun y => k = 0 || val (k - 1) y.1 != val k y.1
  let get (s : State) (i : Nat) : Except EngStop ((List Byte × Bool) × State) :=
    match codes[i - 1024 * t]? with
    | some y => .ok ((leBytes n (val k y), y.2), s)
    | none => .error .wait
  let ((l, bad), s2) ← s1.collEls c x get n (changed.map fun y => 1024 * t + y.2)
  let _ ← s2.homedSpot c .write (x.statusVa t)
  let s3 := s2.engWrites c engPlain l fun k => bad.contains k
  let st := if k = kmax then stComplete else stRefining
  let s4 := s3.statusWrite c x t 0 (leBytes 8 (statusLow k st kmax (wrap 16 (e.getD (-32768)))))
  pure (s4.onCmd c.key fun y => match y.kind with
    | .coll z =>
      { y with
        kind := .coll { z with planes := Store.put z.planes t (k + 1) }
        units := if k = kmax then NSet.add y.units t else y.units }
    | _ => y)

/-- A command is at work: running, and if it is a collective matched in agreement. -/
def Cmd.works (c : Cmd) : Bool :=
  c.state == .running && !c.failed && match c.kind with | .coll x => x.matched && x.agree | _ => true

/-- COLL_PLANE_ARRIVAL (12 R234). A violation freezes the command (25 R398). -/
def execCollPlaneArrival (c : CKey) (tile : Nat) (s : State) : Out :=
  match s.cmd? c with
  | none => .next s
  | some d =>
    match d.kind with
    | .coll x =>
      if !x.prog || !d.works || d.total ≤ tile || NSet.has d.units tile then .next s
      else match s.planeUnit d x tile with
        | .ok s1 => .next s1
        | .error (.violation code a) => .next (s.freezeCmd d code a)
        | .error _ => .next s
    | _ => .next s

/-- A participant of a collective on another device: of the match, or before it of the participant table. -/
def CollCmd.awayHas (x : CollCmd) (devnum who : Nat) : Bool :=
  if x.matched then x.remote.any fun p => p.self = who
  else who < Comm.npart x.comm && Comm.dev (Comm.entry x.table who) != devnum

/-- CANCEL_PROPAGATION (12 R235): a cancellation by another participant reaches a destination of the tile. One of this
device must have cancelled; a remote one may have. -/
def execCancelPropagation (c : CKey) (tile : Nat) (who : Nat) (s : State) : Out :=
  match s.cmd? c with
  | none => .next s
  | some d =>
    match d.kind with
    | .coll x =>
      let here := (s.collPeers d x).any fun p => Comm.self p.2.comm = who && Store.get? p.2.cancelled tile = some who
      let away := x.awayHas s.devnum.toNat who
      if !x.prog || min x.opened x.tiles ≤ tile || d.failed || !(here || away) then .next s
      else .next (s.cancelTile d x tile who)
    | _ => .next s

end Sys2Proof.Machine
end

