-- ==== Sys2Proof/Machine/Directory.lean ====
section
/-!
DEFINITION. The requests that a directory serves for a line (08 R136 to R141, R155) and the evictions of a cache (08 R137, R138).
No value depends on them (08 R156).
-/
namespace Sys2Proof.Machine
open Sys2Proof

/-- The splits of a line end in every tower (08 R155). -/
def Line.endSplits (l : Line) : Line := { l with dirs := l.dirs.map fun x => (x.1, x.2.endSplit) }

/-- The line returns to the ordinary states: a P line is merged, splits end (08 R155). -/
def State.ordinary (s : State) (a : Agent) (ln : Nat) : State := (s.mergeLine a ln).onLine ln Line.endSplits

/-- A load miss of a core reaches the directory (08 R139): a P line is merged, then the copy is served; a copy that the core's L1
holds whole is no miss. -/
def State.fillLine (s : State) (ln core : Nat) (toL1 : Bool) : State :=
  let s1 := s.mergeLine .ext ln
  if toL1 && (s1.lineAt ln).hit (towerOf core) core (BitVec.allOnes 128) then s1 else s1.missLine ln core toL1

/-- A core asks for write ownership of bytes (08 R139, R140); the frame's dirty bit is set (24 R384). A line of another device is
held in leased copies alone (07 R126). -/
def State.ownLine (s : State) (ln core : Nat) (m : BitVec 128) : State :=
  if !s.isLocal (128 * ln) then s
  else
    let s1 := s.mergeLine .ext ln
    ((s1.setLine ln ((s1.lineAt ln).own (s1.homeIn ln) (towerOf core) core m s.cyc.toNat)).spillAll core ln).markDirty ln

/-- A contribution of a core reaches the directory (08 R139): a split ends, a P line of another tag is merged, and the line stands
in P under the tag with no cache copy. Contributions to another device leave no state here (08 R152). -/
def State.openPot (s : State) (ln core : Nat) (fn : BitVec 4) (t : BitVec 3) : State :=
  if !s.isLocal (128 * ln) then s
  else
    let (fn', t') := potTag fn t
    let same := match (s.lineAt ln).pot with | some p => p.fn = fn' && p.t = t' | none => false
    if same then s
    else
      let s1 := s.mergeLine .ext ln
      s1.onLine ln fun l => { l.wrote (s1.homeIn ln) (some (towerOf core)) with pot := some { fn := fn', t := t' } }

/-- The scoped copies that a cache holds (08 R142): an L1 those of its core's groups and of one-core cohorts there, an L2
those of its tower's larger cohorts. -/
def State.copyIn (s : State) (core : Nat) (l2 : Bool) (c : CCopy) : Bool :=
  match c.owner with
  | .group k => !l2 && keyCore k = core
  | .cohort i =>
    match s.inst? i with
    | some x =>
      let home := coreNo x.ox x.oy
      if x.width * x.height = 1 then !l2 && home = core else l2 && towerOf home = towerOf core
    | none => false

/-- A cache gives up a copy that it holds: its notice is in flight, and its leased copy is gone with what its L2 tracked of the
line (08 R137, 09 R179). -/
def Line.giveUp (l : Line) (t : Nat) (core : Option Nat) : Line :=
  match l.bitsIn t core with
  | none => l
  | some b =>
    { l with
      notices := l.notices ++ [{ tower := t, core := core, bits := b }]
      copies := l.copies.filter fun c => !(c.tower = t && c.core = core)
      tracks := if core.isNone then Store.del l.tracks t else l.tracks }

/-- An eviction from the L1 of a core or its tower's L2 (08 R137, R143, R151): a notice that is in flight arrives; else scoped copies
there drain, a partial there moves up, and a copy that the cache holds is given up. -/
def State.evictLine (s : State) (ln core : Nat) (l2 : Bool) : State :=
  let t := towerOf core
  let c : Option Nat := if l2 then none else some core
  let l := s.lineAt ln
  match l.notices.find? fun n => n.tower = t && n.core = c with
  | some n =>
    (s.setLine ln ({ l with notices := l.notices.filter fun n => !(n.tower = t && n.core = c) }.arrive (s.homeIn ln) n)).spillHome ln
  | none =>
    let s1 := s.drainWhere fun c => c.line = ln && s.copyIn core l2 c
    let s2 := if l2 then s1.movePart ln (.l2 t) .home else (s1.roomL2 t ln).movePart ln (.l1 core) (.l2 t)
    s2.onLine ln fun l => l.giveUp t c

end Sys2Proof.Machine
end

