-- ==== Sys2Proof/Machine/NearMemory.lean ====
section
/-!
DEFINITION. Row operations in DRAM and indexed reduce (11 R210 to R227).
-/
namespace Sys2Proof.Machine
open Sys2Proof

/-! ### Work at the home (11 R218, R221, R227) -/

/-- A read at a line's home brings the line's current value there: a P line is merged, splits end and dirty copies return, to the row
itself where the DRAM reads it (11 R218) and else as far as the MSC (11 R227). The read stands at the issue's logical time. It may end
with error, as poison (01 R11). -/
def State.homeRead (s : State) (c : Cmd) (pa : Nat) (toRow : Bool) : Bool × State :=
  match s.meets (.cmd c.key) pa with
  | (true, s0) => (true, s0)
  | (false, s0) =>
    let ln := lineOf pa
    let s1 := ((s0.ask (.cmd c.key) ln).mergeLine (.cmd c.key) ln).onLine ln fun l => l.brought (s.homeIn ln) toRow
    let l := s1.lineAt ln
    let rts := max l.rts (max c.lt0.toNat l.wts)
    (false, (((s1.setLine ln { l with rts := rts }).rebase ln rts).sweepLine ln).spillHome ln)

/-- One sector write at the home, after every copy that the directory records is cleared, with the timestamp that a write of the
issuing group at issue would take (11 R218); `bad` leaves the sector poisoned. -/
def State.homeWrite (s : State) (c : Cmd) (l : List (Nat × Byte)) (bad : Bool) : State :=
  match l with
  | [] => s
  | (pa, _) :: _ =>
    match s.meets (.cmd c.key) pa with
    | (true, s0) => s0
    | (false, s0) =>
      let ln := lineOf pa
      let s1 := ((s0.ask (.cmd c.key) ln).mergeLine (.cmd c.key) ln).onLine ln fun l => l.wrote (s.homeIn ln) none
      let s2 := (s1.stamp .ext ln c.lt0.toNat).putBytes l
      let s3 := s2.raiseLt (.cmd c.key) (s2.lineAt ln).wts
      if bad then s3.markPoison pa else s3

/-- The physical address of an element that must lie in local HBM. -/
def State.hbmAt (s : State) (c : Cmd) (acc : Access) (va : Nat) : Except EngStop Nat :=
  if s.migrating c.part.toNat c.asid.toNat va then .error .wait
  else match engXlat va (s.translate c.ctx acc va) with
  | .ok (.pa pa) => if s.isLocal pa && isHbm pa then .ok pa else .error (.dead va)
  | .ok (.pad ..) => .error .wait
  | .error e => .error e

/-! ### ROW (11 R213 to R217) -/

/-- The bytes of a row block. -/
def rowBlock : Nat := 1024

/-- Row operations of every function: the checks in order, then the command. -/
def runRow (f : Fields) (k : GKey) : M Unit := do
  let g ← M.group k
  let a ← M.clean (g.ssrc f true f.a)
  let b ← M.clean (g.ssrc f true f.b)
  let c ← M.clean (g.ssrc f true f.c)
  let n := f.i32.toNat
  let mis (w : Word64) : M Unit :=
    M.check (w.toNat % rowBlock = 0) { cause := cMisaligned, xaddr := w.toNat, xinfo := rowBlock % 256 }
  mis a
  mis b
  mis c
  M.check (n ≤ 2 ^ 22) { cause := cSegment, xaddr := a.toNat }
  if n = 0 then
    let _ ← M.nullCmd k (tlOf f) 0xE2
    pure ()
  else
    let _ ← M.issue k (tlOf f) 0xE2 (.row { fn := f.fn, d := a, b := b, c := c, n := n }) n
    pure ()

/-- ROW.COPY (11 R213). -/
def execRowCopy (f : Fields) (s : State) : Out := runM (.rowCopy f) runRow s
/-- ROW.FILL0 (11 R213). -/
def execRowFill0 (f : Fields) (s : State) : Out := runM (.rowFill0 f) runRow s
/-- ROW.FILL1 (11 R213). -/
def execRowFill1 (f : Fields) (s : State) : Out := runM (.rowFill1 f) runRow s
/-- ROW.AND (11 R213). -/
def execRowAnd (f : Fields) (s : State) : Out := runM (.rowAnd f) runRow s
/-- ROW.OR (11 R213). -/
def execRowOr (f : Fields) (s : State) : Out := runM (.rowOr f) runRow s
/-- ROW.XOR (11 R213). -/
def execRowXor (f : Fields) (s : State) : Out := runM (.rowXor f) runRow s
/-- ROW.NOT (11 R213). -/
def execRowNot (f : Fields) (s : State) : Out := runM (.rowNot f) runRow s

/-- The source blocks of a function. -/
def rowSources (fn : BitVec 4) : Nat := if fn = 1 || fn = 2 then 0 else if 3 ≤ fn && fn ≤ 5 then 2 else 1

/-- A destination byte from its source bytes. -/
def rowByte (fn : BitVec 4) (x y : Byte) : Byte :=
  if fn = 0 then x else if fn = 1 then 0 else if fn = 2 then 0xFF else if fn = 3 then x &&& y
  else if fn = 4 then x ||| y else if fn = 5 then x ^^^ y else ~~~x

/-- The bytes and poison of a source block, its lines brought to their homes first. -/
def State.rowSource (s : State) (c : Cmd) (pa : Nat) : (Nat → Byte) × (Nat → Bool) × State :=
  let (lost, s1) := (List.range 8).foldl (fun (l, s) j =>
    let (e, s1) := s.homeRead c (pa + 128 * j) true
    (if e then NSet.add l j else l, s1)) (([] : NSet), s)
  (fun o => s1.byteAt (pa + o), fun k => s1.poisonAt (pa + 32 * k) || NSet.has lost (k / 4), s1)

/-- The walks of an address that a row or reduce command uses (24 R381). -/
def State.hbmWalked (s : State) (c : Cmd) (va : Nat) : State := s.walked c.ctx va

/-- Block i of a ROW command (11 R215, R218). -/
def State.rowUnit (s : State) (c : Cmd) (x : RowCmd) (i : Nat) : Except EngStop State := do
  let at_ (w : Word64) : Nat := (w + BitVec.ofNat 64 (rowBlock * i)).toNat
  let n := rowSources x.fn
  let d ← s.hbmAt c .write (at_ x.d)
  let b ← if 1 ≤ n then s.hbmAt c .read (at_ x.b) else pure d
  let e ← if 2 ≤ n then s.hbmAt c .read (at_ x.c) else pure b
  let s0 := s.hbmWalked c (at_ x.d)
  let (b1, p1, s1) := if 1 ≤ n then (s0.hbmWalked c (at_ x.b)).rowSource c b else (fun _ => 0, fun _ => false, s0)
  let (b2, p2, s2) := if 2 ≤ n then (s1.hbmWalked c (at_ x.c)).rowSource c e else (fun _ => 0, fun _ => false, s1)
  pure ((List.range 32).foldl (fun s k =>
    s.homeWrite c ((List.range 32).map fun o => (d + 32 * k + o, rowByte x.fn (b1 (32 * k + o)) (b2 (32 * k + o))))
      (p1 k || p2 k)) s2)

/-! ### IRED (11 R222 to R227) -/

namespace Ired
/-- TBASE. -/
def tbase (r : Rec) : Nat := recNat r 0 8
/-- DBASE. -/
def dbase (r : Rec) : Nat := recNat r 8 8
/-- TSTRIDE. -/
def tstride (r : Rec) : Nat := recNat r 16 4
/-- DSTRIDE. -/
def dstride (r : Rec) : Nat := recNat r 20 4
/-- RLEN. -/
def rlen (r : Rec) : Nat := recNat r 24 4
/-- NROWS. -/
def nrows (r : Rec) : Nat := recNat r 28 4
/-- ETYPE. -/
def etype (r : Rec) : Nat := recNat r 32 1
/-- FLAGS. -/
def flags (r : Rec) : Nat := recNat r 33 1
/-- WEN. -/
def wen (r : Rec) : Bool := bitNat (flags r) 4 = 1
/-- WSLOT. -/
def wslot (r : Rec) : Nat := bitsNat (flags r) 3 1
/-- ACC. -/
def acc (r : Rec) : Bool := bitNat (flags r) 0 = 1
/-- The bytes of an element. -/
def size (r : Rec) : Nat := match etype r with | 0 => 4 | 1 => 2 | 2 => 8 | _ => 4
/-- The format of a floating-point element. -/
def fmt (r : Rec) : Fmt := match etype r with | 0 => f32 | 1 => b16 | _ => f64

/-- The descriptor is legal for a group's format slots (11 R223). -/
def legal (fs : Vector Word32 8) (r : Rec) : Bool :=
  let sz := size r
  let w := vget fs (wslot r) 0
  let strideOk (x : Nat) : Bool := rlen r * sz ≤ x && x % sz = 0
  recNat r 34 30 = 0 && flags r < 32 && etype r ≤ 3 && 1 ≤ nrows r && 1 ≤ rlen r && rlen r ≤ 4096 &&
  strideOk (tstride r) && strideOk (dstride r) && tbase r % sz = 0 && dbase r % sz = 0 &&
  (!wen r || etype r = 3 || (w != 0 && slotBlk w = 0))

/-- BAG of an entry. -/
def bag (e : Rec) : Nat := recNat e 0 4 / 256
/-- N of an entry. -/
def count (e : Rec) : Nat := recNat e 0 4 % 16
/-- The entry is malformed (11 R224). -/
def malformed (e : Rec) : Bool := recNat e 0 4 / 16 % 16 != 0 || 12 < count e
/-- IDXj. -/
def idx (e : Rec) (j : Nat) : Nat := recNat e (16 + 4 * j) 4
/-- WTj. -/
def wt (e : Rec) (j : Nat) : Nat := recNat e (4 + j) 1
/-- An index names no row, or the entry is malformed (11 R226). -/
def bad (r e : Rec) : Bool := malformed e || (List.range (count e)).any fun j => nrows r ≤ idx e j
end Ired

/-- IRED (11 R222, R223). -/
def execIred (f : Fields) (s : State) : Out :=
  runM (.ired f) (fun f k => do
    let g ← M.group k
    let a ← M.clean (g.ssrc f true f.a)
    let b ← M.clean (g.ssrc f true f.b)
    let n ← M.clean (g.ssrc f true f.c)
    let mis (w : Word64) : M Unit := M.check (w.toNat % 64 = 0) { cause := cMisaligned, xaddr := w.toNat, xinfo := 64 }
    mis a
    mis b
    M.check (n.toNat ≤ 2 ^ 26) { cause := cSegment, xaddr := b.toNat }
    let r ← M.readRec k a.toNat 64
    M.legal (wordOf (.ired f)) (Ired.legal g.id.fs r)
    if n = 0 then
      let _ ← M.nullCmd k (tlOf f) 0xE3
      pure ()
    else
      let _ ← M.issue k (tlOf f) 0xE3 (.ired { desc := r, entries := b, n := n.toNat }) n.toNat
      pure ()) s

/-- An entry as a command reads it: its bytes, and whether poison reaches what counts of it: its second sector holds only indices
from the fifth on (11 R224). -/
def State.iredEntry (s : State) (c : Cmd) (x : IredCmd) (i : Nat) : Except EngStop ((Rec × Bool) × State) := do
  let va := x.entries + BitVec.ofNat 64 (64 * i)
  let p ← s.engSpot c .read spG 32 va
  let (lo, s1) := (s.engWalked c spG 32 va).engRead c 32 p
  let q ← s1.engSpot c .read spG 32 (va + 32)
  let (hi, s2) := (s1.engWalked c spG 32 (va + 32)).engRead c 32 q
  pure ((lo.1 ++ hi.1, lo.2 || (hi.2 && 4 < Ired.count lo.1)), s2)

/-- The entries of the run that begins at an entry: consecutive entries of one bag that are not done. -/
def State.iredEntries (s : State) (c : Cmd) (x : IredCmd) (bag : Option Nat) :
    Nat → Nat → Except EngStop (List (Nat × Rec × Bool) × State)
  | 0, _ => .ok ([], s)
  | n + 1, i =>
    if x.n ≤ i || NSet.has c.units i then .ok ([], s)
    else do
      let ((e, bad), s1) ← s.iredEntry c x i
      match bag with
      | some b =>
        if Ired.bag e != b then pure ([], s)
        else
          let (l, s2) ← s1.iredEntries c x bag n (i + 1)
          pure ((i, e, bad) :: l, s2)
      | none =>
        let (l, s2) ← s1.iredEntries c x (some (Ired.bag e)) n (i + 1)
        pure ((i, e, bad) :: l, s2)

/-- A run may begin at an entry: it is not done, and the one before it is done or of another bag. -/
def State.iredStarts (s : State) (c : Cmd) (x : IredCmd) (i : Nat) : Bool :=
  i < x.n && !NSet.has c.units i &&
  (i = 0 || NSet.has c.units (i - 1) ||
    match s.iredEntry c x (i - 1), s.iredEntry c x i with
    | .ok ((e, _), _), .ok ((d, _), _) => Ired.bag e != Ired.bag d
    | _, _ => false)

/-- A weight as an exact value (11 R224). -/
def iredWeight (fs : Vector Word32 8) (r e : Rec) (j : Nat) : Exact :=
  if Ired.wen r then
    let F := slotFmt (vget fs (Ired.wslot r) 0)
    (decodeFp F (Ired.wt e j % 2 ^ F.width)).exact
  else .num false 1 0 false

/-- A weight under I32. -/
def iredInt (r e : Rec) (j : Nat) : Int := if Ired.wen r then toSigned 8 (Ired.wt e j) else 1

/-- The elements at an address of local HBM read at their home: the bits, and whether the sector is poisoned. -/
def State.iredRead (s : State) (c : Cmd) (size : Nat) (acc : Access) (va : Nat) : Except EngStop ((Nat × Bool) × State) := do
  let pa ← s.hbmAt c acc va
  let (e, s1) := (s.hbmWalked c va).homeRead c pa false
  pure ((ofLeBytes ((List.range size).map fun i => s1.byteAt (pa + i)), e || s1.poisonAt pa), s1)

/-- The terms of one column: bits with the entry and index they come from. -/
def State.iredTerms (s : State) (c : Cmd) (r : Rec) (col : Nat) :
    List (Rec × Nat) → Except EngStop ((List (Rec × Nat × Nat) × Bool) × State)
  | [] => .ok (([], false), s)
  | (e, j) :: rest => do
    let va := (Ired.tbase r + Ired.idx e j * Ired.tstride r + col * Ired.size r) % 2 ^ 64
    let ((w, bad), s1) ← s.iredRead c (Ired.size r) .read va
    let ((l, bad1), s2) ← s1.iredTerms c r col rest
    pure (((e, j, w) :: l, bad || bad1), s2)

/-- The element of a column from its terms and, under ACC, the old value of the destination: a zero is -0 only when every term was -0
(11 R225). -/
def iredResult (fs : Vector Word32 8) (r : Rec) (terms : List (Rec × Nat × Nat)) (old : Option Nat) : Nat :=
  if Ired.etype r = 3 then
    wrap 32 ((terms.map fun (e, j, w) => iredInt r e j * toSigned 32 w).sum + (match old with | some w => (w : Int) | none => 0))
  else
    let F := Ired.fmt r
    let ps := terms.map fun (e, j, w) => (mulX (iredWeight fs r e j) (decodeFp F w).exact).1
    match ps, old with
    | [], some w => w
    | _, _ =>
      let all := match old with | some w => (decodeFp F w).exact :: ps | none => ps
      let sum := (sumTerms all).getD (.num false 0 0 false)
      let r := (roundTo F .rne 0 sum).1
      match sum with
      | .num true m _ _ => if m != 0 && r = 2 ^ (F.eb + F.mb) then 0 else r
      | _ => r

/-- The columns of a bag one after another: their addresses, bits, and whether poison was drawn on. -/
def State.iredCols (s : State) (c : Cmd) (r : Rec) (bag : Nat) (terms : List (Rec × Nat)) :
    List Nat → Except EngStop ((List (Nat × Nat) × Bool) × State)
  | [] => .ok (([], false), s)
  | col :: rest => do
    let va := (Ired.dbase r + bag * Ired.dstride r + col * Ired.size r) % 2 ^ 64
    let d ← s.hbmAt c .write va
    let s0 := s.hbmWalked c va
    let ((old, bad0), s1) ← if Ired.acc r then do
        let ((w, b), s1) ← s0.iredRead c (Ired.size r) .read va
        pure ((some w, b), s1)
      else pure (((none, false) : Option Nat × Bool), s0)
    let ((ts, bad1), s2) ← s1.iredTerms c r col terms
    let ((l, bad2), s3) ← s2.iredCols c r bag terms rest
    pure (((d, iredResult c.fs r ts old) :: l, bad0 || bad1 || bad2), s3)

/-- The run that begins at an entry (11 R225 to R227): its bag is summed and written; poison and bad entries poison the
whole bag, whose bits are then free values; the entries are done. Under ACC a run with no terms writes nothing. -/
def State.iredUnit (s : State) (c : Cmd) (x : IredCmd) (i : Nat) : Except EngStop State := do
  let r := x.desc
  let (es, s1) ← s.iredEntries c x none x.n i
  match es with
  | [] => .error .wait
  | (_, e0, _) :: _ =>
    let bad := es.any fun y => Ired.bad r y.2.1
    let terms := if bad then [] else es.flatMap fun y => (List.range (Ired.count y.2.1)).map fun j => (y.2.1, j)
    let done (k : Cmd) : Cmd :=
      { k with units := es.foldl (fun u y => NSet.add u y.1) k.units, failed := k.failed || bad }
    if Ired.acc r && !bad && terms.isEmpty && es.all fun y => !y.2.2 then pure (s1.onCmd c.key done)
    else do
      let ((cols, drew), s2) ← s1.iredCols c r (Ired.bag e0) terms (List.range (Ired.rlen r))
      let poison := bad || drew || es.any fun y => y.2.2
      let word (col v : Nat) : Nat := if poison then (Config.poisonWord s2.nonce col).toNat else v
      let bytes := cols.zipIdx.flatMap fun y => numBytes y.1.1 (Ired.size r) (word y.2 y.1.2)
      let s3 := (bySector bytes).foldl (fun s l => s.homeWrite c l poison)
        (if poison then { s2 with nonce := s2.nonce + 1 } else s2)
      pure (s3.onCmd c.key done)

/-- The number of the run that an entry belongs to, for the record of a fault (28 R428). -/
def State.iredOrdinal (s : State) (c : Cmd) (x : IredCmd) (i : Nat) : Nat :=
  ((List.range i).filter fun j =>
    match s.iredEntry c x j, s.iredEntry c x (j + 1) with
    | .ok ((e, _), _), .ok ((d, _), _) => Ired.bag e != Ired.bag d
    | _, _ => false).length

end Sys2Proof.Machine
end

