-- ==== Sys2Proof/Machine/Engines.lean ====
section
/-!
DEFINITION. The steps of engine commands: their units (09 R173), row blocks and runs (11 R218, R225), stops (10 R206, 18 R313,
28 R435), failure and finish (09 R172, 12 R235), and the release of a follow-on (18 R323).
-/
namespace Sys2Proof.Machine
open Sys2Proof

/-! ### Units -/

/-- The next status record of a progressive command that has not written all of them. -/
def State.openUnit (s : State) (d : Cmd) (u : Nat) : Option (Except EngStop State) :=
  match d.kind with
  | .coll x =>
    if x.prog && x.opened < x.tiles && !d.failed then
      some (if d.state == .running && u = x.opened then s.openTile d x u else .error .wait)
    else none
  | _ => none

/-- Unit u of a command, of the kinds whose units ENGINE_UNIT performs; a tile copy's sectors and a transfer's units come
in order. -/
def State.cmdUnit (s : State) (d : Cmd) (u : Nat) : Except EngStop State :=
  if let some r := s.openUnit d u then r
  else if !d.works then .error .wait
  else match d.kind with
  | .matrix => match d.key with
    | .group k _ _ => s.moveUnit k d u
    | .queue .. => .error .wait
  | k =>
    if d.total ≤ u || NSet.has d.units u then .error .wait
    else
      let r : Except EngStop State := match k with
        | .copy x => s.copyUnit d x u
        | .tile t => if u = d.nextUnit then s.tileUnit d t u else .error .wait
        | .layout l => s.layoutUnit d l u
        | .coll x => if x.prog then .error .wait else s.collUnit d x u
        | _ => .error .wait
      match r with
      | .error e => .error e
      | .ok s1 => .ok (s1.unitDone d.key u)

/-- The outcome of a unit: a violation freezes the command (25 R398); a fault waits for ENGINE_FAULT. -/
def State.unitOr (s : State) (d : Cmd) : Except EngStop State → Out
  | .ok s1 => .next s1
  | .error (.violation code a) => .next (s.freezeCmd d code a)
  | .error _ => .next s

/-- ENGINE_UNIT (09 R173). -/
def execEngineUnit (c : CKey) (u : Nat) (s : State) : Out :=
  match s.cmd? c with
  | some d => s.unitOr d (s.cmdUnit d u)
  | none => .next s

/-- A row command's block. -/
def State.rowStep (s : State) (d : Cmd) (u : Nat) : Except EngStop State :=
  match d.kind with
  | .row x =>
    if !d.works || d.total ≤ u || NSet.has d.units u then .error .wait
    else match s.rowUnit d x u with
      | .ok s1 => .ok (s1.unitDone d.key u)
      | .error e => .error e
  | _ => .error .wait

/-- ROW_BLOCK_WRITE (11 R218). -/
def execRowBlockWrite (c : CKey) (block : Nat) (s : State) : Out :=
  match s.cmd? c with
  | some d => s.unitOr d (s.rowStep d block)
  | none => .next s

/-- A run of an indexed reduce, named by its first entry. -/
def State.iredStep (s : State) (d : Cmd) (i : Nat) : Except EngStop State :=
  match d.kind with
  | .ired x => if d.state != .running || !s.iredStarts d x i then .error .wait else s.iredUnit d x i
  | _ => .error .wait

/-- IRED_RUN (11 R225). -/
def execIredRun (c : CKey) (run : Nat) (s : State) : Out :=
  match s.cmd? c with
  | some d => s.unitOr d (s.iredStep d run)
  | none => .next s

/-! ### Stops -/

/-- The row of an MMA that the engine would perform next. -/
def State.mmaTry (s : State) (k : GKey) (d : Cmd) : Except EngStop State :=
  match s.group? k with
  | some g =>
    match g.mq with
    | e :: _ =>
      match e.op.mat? with
      | some m =>
        if e.begun && d.state == .running && e.cmd == (match d.key with | .group _ tl n => some (tl, n) | _ => none) &&
          s.mxNext (keyCore k) == some k then s.mmaRow k d e m
        else .error .wait
      | none => .error .wait
    | [] => .error .wait
  | none => .error .wait

/-- The row of the MMA at the head of a group's queue. -/
def State.mmaAt (s : State) (k : GKey) : Option Nat :=
  match s.group? k with
  | some g => match g.mq with
    | e :: _ => if e.op.mat?.isSome then some e.row else none
    | [] => none
  | none => none

/-- What a unit of a command of any kind meets, and the index of the unit at which a fault of it stops the command: the
first that is unfinished. -/
def State.unitTry (s : State) (d : Cmd) (u : Nat) : Except EngStop State × Nat :=
  match d.kind with
  | .row _ => (s.rowStep d u, d.nextUnit)
  | .ired x => (s.iredStep d u, s.iredOrdinal d x d.nextUnit)
  | .coll x =>
    if x.sourceOnly then (if d.works then s.sourceTry d x u else .error .wait, u)
    else if let some r := s.openUnit d u then (r, u)
    else if x.prog then (if d.works && u < d.total && !NSet.has d.units u then s.planeUnit d x u else .error .wait, d.nextUnit)
    else (s.cmdUnit d u, d.nextUnit)
  | .matrix => match d.key with
    | .group k _ _ => match s.mmaAt k with
      | some row => (if u = row then s.mmaTry k d else .error .wait, row)
      | none => (s.cmdUnit d u, u)
    | .queue .. => (.error .wait, 0)
  | _ => (s.cmdUnit d u, d.nextUnit)

/-- A follow-on that runs under its carrier's number. -/
def State.followTry (s : State) (d : Cmd) (u : Nat) : Except EngStop State × Nat :=
  match d.key with
  | .group k _ _ =>
    if d.units.length < d.total then s.unitTry d u
    else match s.mmaAt k with
      | some row => (if u = row then s.mmaTry k d else .error .wait, row)
      | none => (.error .wait, 0)
  | .queue .. => s.unitTry d u

/-- An MMA stands stopped at its point (18 R313). -/
def State.rpNote (s : State) (d : Cmd) : State :=
  match d.key with
  | .group k tl n => s.onGroup k fun g =>
      match g.mq with
      | e :: _ => if e.begun && e.cmd = some (tl, n) then g.rpStop else g
      | [] => g
  | .queue .. => s

/-- ENGINE_FAULT (10 R206, 11 R214, R227, 12 R237, 18 R313): a unit meets a fault, and its command stops at its first
unfinished unit; outside the memory that it must lie in the command cannot resume. -/
def execEngineFault (c : CKey) (u : Nat) (s : State) : Out :=
  match s.cmd? c with
  | none => .next s
  | some d =>
    let (r, at_) := match d.kind with
      | .tile t => if t.follow then s.followTry d u else s.unitTry d u
      | .layout l => if l.follow then s.followTry d u else s.unitTry d u
      | _ => s.unitTry d u
    match r with
    | .error (.fault a cause) => .next ((s.rpNote d).stopCmd d at_ a cause true)
    | .error (.dead a) => .next (s.stopCmd d at_ a cProt false)
    | _ => .next s

/-! ### Finish -/

/-- A command finishes as failed (10 R206): its status records show it, every one where the participants disagreed (12 R229), its queue entry is dropped (18 R313,
R323). -/
def State.failCmd (s : State) (d : Cmd) : State :=
  let s1 := match d.kind with | .coll x => s.failTiles d x (x.matched && !x.agree) | _ => s
  (s1.dropEntry d.key).finishCmd d.key true

/-- Every unit has been performed. -/
def Cmd.allDone (d : Cmd) : Bool := d.total ≤ d.units.length

/-- The command carries a follow-on, under which it finishes (18 R323). -/
def Cmd.carries (d : Cmd) : Bool :=
  match d.kind with
  | .tile t => t.follow
  | .layout l => l.follow
  | _ => false

/-- The group of a command has ended, by EXIT or by a kill. -/
def State.orphan (s : State) (d : Cmd) : Bool :=
  match d.key with
  | .group k _ _ => match s.group? k with | some g => g.run == .ended | none => true
  | .queue .. => false

/-- A progressive command has been cancelled in all its tiles, or has failed. -/
def stoppedAll (p : Cmd × CollCmd) : Bool := p.1.failed || (0 < p.2.tiles && p.2.tiles ≤ p.1.units.length)

/-- A command that is not matched is released by cancellation (12 R229, R235): all its tiles are cancelled, and the
cancellations have reached the other participants of this device; one without tiles is released with the root. -/
def State.releasedEarly (s : State) (d : Cmd) (x : CollCmd) : Bool :=
  let peers := (s.collPeers d x).filter fun p => p.2.prog
  x.prog && if x.tiles = 0 then peers.any stoppedAll else stoppedAll (d, x) && peers.all stoppedAll

/-- A collective finishes (12 R229, R235): once its tiles are done and those of the participants that draw on it; as
failed where the participants disagree, where one of this device has failed, or where it is cancelled before it is
matched. -/
def State.collFinish (s : State) (d : Cmd) (x : CollCmd) : Option Bool :=
  let peers := s.collPeers d x
  if !x.matched then (if s.releasedEarly d x then some true else none)
  else if d.failed || !x.agree then some true
  else if d.allDone then (if peers.all fun p => p.1.allDone || p.1.failed then some false else none)
  else if peers.length + x.remote.length < Comm.npart x.comm || peers.any fun p => p.1.failed then some true
  else none

/-- Whether a command may finish now, and as failed. -/
def State.mayFinish (s : State) (d : Cmd) : Option Bool :=
  match d.state with
  | .stopped _ _ _ resumable => if !resumable || s.orphan d then some true else none
  | .running =>
    match d.kind with
    | .null => some d.failed
    | .signal _ => none
    | .matrix => none
    | .coll x => s.collFinish d x
    | _ => if d.allDone && !d.carries then some d.failed else none
  | _ => none

/-- A page that shows the failure of a command is under migration (07 R135). -/
def State.failWaits (s : State) (d : Cmd) : Bool :=
  match d.kind with
  | .coll x => s.tilesMove d x
  | _ => false

/-- ENGINE_COMMAND_FINISH (09 R172) of a group's command. -/
def execEngineCommandFinish (c : CKey) (s : State) : Out :=
  match c, s.cmd? c with
  | .group .., some d =>
    match s.mayFinish d with
    | some true => .next (if s.failWaits d then s else s.failCmd d)
    | some false => .next (s.finishCmd c false)
    | none => .next s
  | _, _ => .next s

/-- FOLLOW_ON_SUBMIT (18 R323): the carrier has written its last sector. -/
def execFollowOnSubmit (c : CKey) (s : State) : Out :=
  match c, s.cmd? c with
  | .group k tl n, some d =>
    if d.carries && d.allDone && d.state == .running then .next (s.onGroup k fun g => g.release tl n) else .next s
  | _, _ => .next s

end Sys2Proof.Machine
end

