-- ==== Sys2Proof/Machine/Ahead.lean ====
section
/-!
DEFINITION. What a command translates ahead of its use (24 R382): the addresses of its next units, and the engine that runs them.
-/
namespace Sys2Proof.Machine
open Sys2Proof

/-- An access of a unit: its space, its size and its offset. -/
abbrev EngEl := Space × Nat × Word64

/-- The units that a command may translate ahead of the first that it has not finished (24 R382). -/
def walkAhead : Nat := 64

/-- The unfinished units of a command within its reach. -/
def Cmd.ahead (c : Cmd) (total : Nat) : List Nat :=
  ((List.range walkAhead).map (c.nextUnit + ·)).filter fun u => u < total && !NSet.has c.units u

/-- The accesses of chunk u of a copy. -/
def Copy.elsOf (x : Copy) (u : Nat) : List EngEl :=
  (chunkWords x.len u).flatMap fun o =>
    (x.dsp, 4, x.dst + BitVec.ofNat 64 o) :: (if x.fill.isSome then [] else [(x.ssp, 4, x.src + BitVec.ofNat 64 o)])

/-- The accesses of the units of a tile copy. -/
def State.tileElsOf (s : State) (c : Cmd) (t : TileCopy) : List EngEl :=
  let size := Shape.elem t.drec
  ((s.tileUnits c t).drop c.nextUnit |>.take walkAhead).flatMap fun u =>
    ((t.els u.1).filter fun x => s.dstSector c t.dsp size x.dst = u.2).flatMap fun x =>
      (t.dsp, size, x.dst) :: (match x.src with | some a => [(t.ssp, size, a)] | none => [])

/-- The accesses of an output row of a layout command. -/
def Layout.elsOf (l : Layout) (row : Nat) : List EngEl :=
  let size := Shape.elem l.outrec
  (List.range (Shape.ext l.outrec 0)).flatMap fun k =>
    (BitVec.ofNat 3 (Win.byte l.wrec 27), size, Shape.addr l.outrec 0 k row 0 0) :: match Win.source l.wrec l.inrec k row with
      | some (ch, x, y) => [(BitVec.ofNat 3 (Win.byte l.wrec 26), size, Shape.addr l.inrec 0 ch x y 0)]
      | none => []

/-- The accesses of a row block. -/
def RowCmd.elsOf (x : RowCmd) (i : Nat) : List EngEl :=
  ([x.d, x.b, x.c].take (1 + rowSources x.fn)).map fun w => (spG, 1, w + BitVec.ofNat 64 (rowBlock * i))

/-- The accesses of an entry of an indexed reduce: the entry, and once it can be read the rows and the bag that it names. -/
def State.iredElsOf (s : State) (c : Cmd) (x : IredCmd) (i : Nat) : List EngEl :=
  let va := x.entries + BitVec.ofNat 64 (64 * i)
  let r := x.desc
  let cols (base : Nat) : List EngEl := (List.range (Ired.rlen r)).map fun j => (spG, 1, BitVec.ofNat 64 (base + j * Ired.size r))
  (spG, 32, va) :: (spG, 32, va + 32) :: match s.iredEntry c x i with
    | .ok ((e, _), _) => cols (Ired.dbase r + Ired.bag e * Ired.dstride r) ++
        (List.range (Ired.count e)).flatMap fun j => cols (Ired.tbase r + Ired.idx e j * Ired.tstride r)
    | .error _ => []

/-- The accesses of a command for destination tile u of a collective: its status record, its destination and its sources. -/
def CollCmd.elsOf (x : CollCmd) (u : Nat) : List EngEl :=
  let n := Coll.size x.desc
  let at_ (a : Nat) : EngEl := (spG, 1, BitVec.ofNat 64 a)
  let cols := tileEls (Coll.count x.desc) (if x.fn = 3 then u % ((Coll.count x.desc + 1023) / 1024) else u)
  (if x.prog then [at_ (x.statusVa u)] else []) ++
  (if x.sourceOnly then [] else (List.range 1024).map fun j => at_ (Coll.dst x.desc + n * (1024 * u + j))) ++
  (List.range (max 1 (Coll.nmem x.desc))).flatMap fun m => cols.map fun e => at_ (Coll.src x.desc + m * Coll.mstride x.desc + n * e)

/-- The tile at which the root of a collective stands, for a participant without tiles. -/
def State.rootAt (s : State) (c : Cmd) (x : CollCmd) : Cmd :=
  match (s.collPeers c x).find? fun p => Comm.self p.2.comm = Coll.root x.desc with
  | some p => { c with units := p.1.units }
  | none => c

/-- One operand of an MMA at record indices, with its scale. -/
def MatCmd.elOf (fs : Vector Word32 8) (m : MatCmd) (b i0 i1 row kk : Nat) : List EngEl :=
  let code := Mat.fmt m.mrec b
  let srec := if b = 0 then m.arec else m.brec
  let sp := Mat.space m.mrec b
  (sp, Shape.elem srec, Shape.addr srec (memberOf sp m.gmi m.slot) (Shape.index0 (Mat.half fs code) i0) i1 0 0) ::
    (if Mat.blk fs code = 0 then [] else [(sp, Mat.sclSize fs code, Mat.scaleAddr fs m.mrec b row kk)])

/-- The accesses of the rows of an MMA from a step and row on. -/
def MatCmd.elsOf (fs : Vector Word32 8) (m : MatCmd) (step row : Nat) : List EngEl :=
  let ks := Mat.stepKs m.mrec step
  let rows := ((List.range walkAhead).map (row + ·)).filter (· < Shape.ext m.arec 1)
  (rows.flatMap fun i => ks.flatMap fun kk => m.elOf fs 0 kk i i kk) ++
  (List.range (Shape.ext m.brec 0)).flatMap fun n => ks.flatMap fun kk => m.elOf fs 1 n kk n kk

/-- The accesses of the command at the head of a group's matrix queue. -/
def State.queueElsOf (s : State) (c : Cmd) (e : MqEntry) : List EngEl :=
  let moved (m : TileMove) (p : Nat × Nat → Bool) : List EngEl :=
    (m.els.filter p).map fun x => (m.sp, Shape.elem m.srec, m.addr c x.1 x.2)
  let near (u : Nat) : Bool := e.row ≤ u && u < e.row + walkAhead
  let out (m : TileMove) : List EngEl :=
    let secs := ((s.moveSectors c m).drop e.row).take walkAhead
    moved m fun x => secs.contains (s.dstSector c m.sp (Shape.elem m.srec) (m.addr c x.1 x.2))
  match e.op with
  | .mma m | .follow m => m.elsOf c.fs e.step e.row
  | .load m => moved m fun x => near x.1
  | .store m | .drain m => out m
  | .zero _ | .peer .. | .mrp _ => []

/-- The entry of the matrix queue that runs under a command's number, at the head. -/
def State.headEntry (s : State) (c : Cmd) : Option MqEntry :=
  match c.key with
  | .group k tl n => match s.group? k with
    | some g => g.mq.head?.filter fun e => e.ready && e.cmd = some (tl, n)
    | none => none
  | .queue .. => none

/-- A command as its engine runs its next units: one that carries a follow-on runs it in the matrix engine (18 R323). -/
def State.runningAs (s : State) (c : Cmd) : Cmd := if (s.headEntry c).isSome then c.asMatrix else c

/-- The accesses that a command may translate now (24 R382). -/
def State.elsAhead (s : State) (c : Cmd) : List EngEl :=
  match s.headEntry c with
  | some e => s.queueElsOf c e
  | none => match c.kind with
    | .copy x => (c.ahead c.total).flatMap x.elsOf
    | .tile t => s.tileElsOf c t
    | .layout l => (c.ahead c.total).flatMap l.elsOf
    | .row x => (c.ahead c.total).flatMap x.elsOf
    | .ired x => (c.ahead c.total).flatMap (s.iredElsOf c x)
    | .coll x =>
      let d := if x.sourceOnly then s.rootAt c x else c
      (d.ahead (if x.sourceOnly then (Coll.count x.desc + 1023) / 1024 else c.total)).flatMap x.elsOf
    | .matrix | .null | .signal _ => []

/-- The command may translate an address: it lies in the page of an access of one of its next units. -/
def State.walksAhead (s : State) (c : Cmd) (va : Nat) : Bool :=
  let i := s.instOf c
  (s.elsAhead c).any fun x => match placeOf c.segs i (c.pos i) x.1 x.2.1 x.2.2 0 with
    | .ok (_, .va a) => a / 4096 = va / 4096
    | _ => false

end Sys2Proof.Machine
end

