-- ==== Sys2Proof/Machine/Issue.lean ====
section
/-!
DEFINITION. What the machine does next: the instruction of a group that holds an issue slot, or the step of another
agent (09 R161); and the placing of one instruction as the next, which stands for the loading of a program (log 7).
-/
namespace Sys2Proof.Machine
open Sys2Proof

/-- The instruction that a group issues, or what happens in its place. -/
inductive Issued where
  | next (s : State)
  | run (i : Instr) (s : State)

/-- A fetch or decode trap; while a renewal is in flight it waits (08 R149). A word that fails a later check than the opcode and
names a latch counts as raised inside its chain; one that crosses its block or whose opcode is none does not, since its operand
fields are not read (03 R64, R65, log 66). -/
def State.fetchTrap (s : State) (k : GKey) (g : Group) (t : Trap) : State :=
  match s.trapOrWait k g t (t.cause = cEncoding && rawLatch t.xinfo) with
  | .trapped s' => s'
  | _ => s

/-- A group uses an issue slot: what waits for its next switch point comes first (03 R63), then fetch and decode. -/
def State.issueNext (s : State) (k : GKey) : Issued :=
  match s.group? k with
  | none => .next s
  | some g =>
    if !g.mayIssue then .next s
    else if g.pending && s.mayHalt g then .next (s.switchEvent k)
    else match s.toFetch k g with
      | (true, s1) => .next (s1.fetchTrap k g (s.lostFetch g))
      | (false, s1) => match s1.fetch g with
        | .instr i => .run i { s1.fetched g with cur := some k }
        | .trap t => .next (s1.fetchTrap k g t)
        | .violation c a => if g.spec.isSome then .next s1 else .next (s1.freezeGroup k c a)
        | .wait => .next s1

/-- Answers that no DRAM queue gives arrive, by a free choice each (07 R131). -/
def State.answered (s : State) : State :=
  s.served.foldl (fun s r =>
    match s.flip with
    | (true, s1) => if s1.served.contains r then { s1 with served := s1.served.erase r }.arrived r else s1
    | (false, s1) => s1) s

/-- Other devices perform stores that wait on the way, by a free choice each, those of one group to one line in their order
(09 R169, log 61). -/
def State.delivered (s : State) : State :=
  ((s.outbox.map fun o => (o.g, o.line)).eraseDups).foldl (fun s x =>
    match s.flip with
    | (true, s1) => match s1.outbox.find? fun o => o.g = x.1 && o.line = x.2 with
      | some o => { s1 with outbox := s1.outbox.erase o }.writeOp (.group o.g) o.bytes o.tracked o.alloc o.req
      | none => s1
    | (false, s1) => s1) s

/-- Answers reach host functions and peers, by a free choice each (25 R397). -/
def State.returned (s : State) : State :=
  s.asking.foldl (fun s x =>
    match s.flip with
    | (true, s1) => { s1 with asking := if x.2 ≤ 1 then Store.del s1.asking x.1 else Store.put s1.asking x.1 (x.2 - 1) }
    | (false, s1) => s1) s

/-- The mailbox runs a checkpoint (28 R437). -/
def State.checkpointing (s : State) : Bool := s.mbox.running && bitsNat s.mbox.cmd.toNat 11 0 = 7

/-- A step of a master that a checkpoint stops once the groups have halted: an engine command, the Hamper, the host or a peer (28 R437). -/
def stopsForImage : Instr → Bool
  | .engineUnit .. | .rowBlockWrite .. | .iredRun .. | .collMatch .. | .collPlaneArrival .. | .cancelPropagation .. => true
  | .engineCommandFinish .. | .engineFault .. | .followOnSubmit .. | .matrixEntry .. | .matrixStep .. => true
  | .signalArrival .. | .signalQueued .. | .signalStaleDrop .. | .packetLaunch .. | .packetNode .. | .packetCopy .. => true
  | .packetSignal .. | .rejectedPacket .. | .launchEnd .. | .copyPacketDone .. | .tierPromotion .. | .pageMigration .. => true
  | .peerRequest .. | .peerUnknownPartition .. | .hostBar2Access .. | .hostAtomic .. | .homeAtomic .. => true
  | _ => false

/-- The step may happen now: while a checkpoint runs nothing is placed, and while its image is written every master but firmware is
still (28 R437). -/
def State.mayHappen (s : State) (i : Instr) : Bool :=
  match i with
  | .placement _ => !s.checkpointing
  | _ => !(s.mbox.written && stopsForImage i)

/-- Clocks pass, and some agent may take a step of its own; which and when is free (log 1, log 3). -/
def State.idle (s : State) : State × Option Instr :=
  (({ s with
      cyc := if s.bstate = 5 then s.cyc + BitVec.ofNat 64 (Config.elapsed s.nonce) else s.cyc
      time := if s.bstate = 5 then s.time + Config.elapsed s.nonce * clockUnits s.throttle else s.time
      nonce := s.nonce + 1 }.answered).delivered.returned, (Config.nextEvent s.nonce).filter s.mayHappen)

/-- A hardware or host step, no instruction of a group. -/
def isEvent (i : Instr) : Bool := (row i).isNone

/-! ### The placing of an instruction (log 7) -/

/-- The group that runs the placed instruction: core (0, 0), slot 0. -/
def placedKey : GKey := ⟨0, 0, 0⟩

/-- A partition descriptor: id 0, cores (0, 0) to (15, 7), ASID 0, 256 MiB of HBM from address 0, the root table at
0x1000, the trap queue at 0x100000, the trace region at 0x200000, one ENG unit. -/
def placedDesc : Rec :=
  leBytes 8 0x1000 ++ leBytes 8 0x100000 ++ leBytes 8 0x200000 ++ leBytes 4 1 ++ leBytes 4 0 ++ leBytes 2 0 ++
  leBytes 2 1 ++ [0, 0, 0x34, 8, 1, 1, 0, 0] ++ List.replicate 20 0 ++ leBytes 8 (128 * 2 ^ 35) ++ List.replicate 56 0

/-- The tables that map the first 2 MiB of virtual addresses to the same physical addresses, for every access. -/
def placedTables : List (Nat × Byte) :=
  numBytes 0x1000 8 0x2001 ++ numBytes 0x2000 8 0x3001 ++ numBytes 0x3000 8 0x4001 ++ numBytes 0x4000 8 0x5001 ++
  numBytes 0x5000 8 0x6001 ++ numBytes 0x6000 8 0x1F

/-- Where the placed instruction stands. -/
def placedPc : Nat := 0x10000

/-- The bytes of an instruction whose bits the opcode table numbers from the first word up, zeros above. -/
def wordBytes (nbits w : Nat) : List Byte := leBytes 16 (w % 2 ^ nbits)

/-- A supervisor group of one member, with every register of the pool, at the placed instruction. -/
def placedGroup : Group :=
  let id : Ident :=
    { key := placedKey, sup := true, spd := 1, tiles := 8, agates := 16, entry := BitVec.ofNat 64 placedPc }
  freshGroup id { l := { limit := 0x8000 }, w := { limit := 0x8000 } } 0 0 0 none

/-- The cohort instance of that group. -/
def placedInst : Inst :=
  { launch := 0, part := 0, sup := true, ci := 0, ox := 0, oy := 0, width := 1, height := 1, spd := 1, fslot := 0, gen := 0,
    groups := [placedKey], bars := Vector.replicate 16 {} }

/-- The launch of that group. -/
def placedLaunch : Launch :=
  { part := 0, q := 0, asid := 0, sup := true, rec256 := leBytes 8 placedPc ++ List.replicate 248 0, serial := 0,
    dispatched := true, nextCi := 1, started := 1 }

/-- The machine READY, with a partition, its tables, a group that holds the issue slot, and an instruction where it
fetches. -/
def State.placeWord (s : State) (nbits w : Nat) : State :=
  let code := bytesAt placedPc (wordBytes nbits w)
  { s with
    powered := true
    bstate := 5
    halt := false
    devnum := 0
    mem := putAll (putAll s.mem placedTables) code
    poison := NSet.rem ([0x1000, 0x2000, 0x3000, 0x4000, 0x5000, 0x6000].foldl (fun p a => NSet.rem p (sectorOf a)) s.poison)
      (sectorOf placedPc)
    lines := ([0x1000, 0x2000, 0x3000, 0x4000, 0x5000, 0x6000, placedPc].foldl (fun p a => Store.del p (lineOf a)) s.lines)
    tlb := []
    astray := NSet.rem s.astray 0
    migrations := []
    parts := Store.put s.parts 0 { desc := placedDesc }
    launches := Store.put s.launches 0 placedLaunch
    insts := Store.put s.insts 0 placedInst
    groups := Store.put s.groups (keyCode placedKey) placedGroup
    nextId := max s.nextId 1
    agenda := []
    grant := [placedKey] }

end Sys2Proof.Machine
end

