-- ==== Sys2Proof/Machine/Control.lean ====
section
/-!
DEFINITION. Plain control flow (06 R94 to R100), BRM (22 R359), EXIT, YIELD and SLEEP (22 R361 to R363).
-/
namespace Sys2Proof.Machine
open Sys2Proof

/-! ### Shared -/

/-- The relative target of an instruction whose group has its program counter behind it (06 R94). -/
def relTarget (f : Fields) (g : Group) : Word64 := g.regs.pc - BitVec.ofNat 64 f.len + sext32 f.i32

/-- A scalar that a control instruction consumes (06 R92). -/
def consume (r : SReg) : Except Trap Word64 :=
  match r.tag with
  | some t => .error (poisonTrap t)
  | none => .ok r.val

/-- The trap of a misaligned control target (03 R47, 28 R428). -/
def targetTrap (a : Word64) : Trap := { cause := cMisaligned, xaddr := a.toNat, xinfo := 4 + 2 ^ 8 }

/-- The group goes on at a target, unless it is misaligned (03 R47). -/
def checkTarget (a : Word64) : Except Trap Unit := if a.toNat % 4 = 0 then .ok () else .error (targetTrap a)

/-- The program counter set. -/
def Group.goto (g : Group) (a : Word64) : Group := { g with regs := { g.regs with pc := a } }

/-- Where the counted bits of a predicate lie in a member: r(m) of 22 R357 for a reduction code. -/
def Group.reduce (g : Group) (f : Fields) (a : PReg) (m : Nat) : Bool :=
  let act := g.active f
  let els := (List.range g.lanes).map (m * g.lanes + ·)
  let counted := els.filter act
  if f.fn = 0 then counted.any a.val.getLsbD
  else if f.fn = 1 then counted.all a.val.getLsbD
  else !counted.any a.val.getLsbD

/-- The tag of the lowest counted bit of a member that carries one (22 R357). -/
def Group.reduceTag (g : Group) (f : Fields) (a : PReg) (m : Nat) : Option Tag :=
  let act := g.active f
  firstTag (((List.range g.lanes).map (m * g.lanes + ·)).filterMap fun e => if act e then some (Store.get? a.tags e) else none)

/-- The Trail record of a control instruction (25 R405): taken or not, and its address. -/
def State.ctlTrail (s : State) (k : GKey) (taken : Bool) (pc : Word64) : State :=
  s.trail (keyCore k) k.rs.toNat 1 taken.toNat pc.toNat

/-- A control instruction that works on its group: its result, and whether it is taken. -/
def runCtl (i : Instr) (body : Fields → Group → Except Trap (Group × Bool)) (s : State) : Out :=
  runM i (fun f k => do
    let g ← M.group k
    let (g', taken) ← M.lift (body f g)
    M.setGroup k g'
    M.modify fun s => s.ctlTrail k taken (g.regs.pc - BitVec.ofNat 64 f.len)) s

/-- The record of a control instruction that never branches. -/
def M.ctlTrail (f : Fields) (k : GKey) : M Unit := do
  let g ← M.group k
  M.modify fun s => s.ctlTrail k false (g.regs.pc - BitVec.ofNat 64 f.len)

/-! ### Plain control flow -/

/-- NOP (06 R95). -/
def execNop (f : Fields) (s : State) : Out := runCtl (.nop f) (fun _ g => .ok (g, false)) s

/-- BR (06 R96). -/
def execBr (f : Fields) (s : State) : Out :=
  runCtl (.br f) (fun f g => do
    let a := relTarget f g
    checkTarget a
    pure (g.goto a, true)) s

/-- BRC (06 R97). -/
def execBrc (f : Fields) (s : State) : Out :=
  runCtl (.brc f) (fun f g => do
    let a ← consume (g.ssrc f (f.t == 7) f.a)
    let b ← consume (g.ssrc f (f.t == 7) f.b)
    let dst := relTarget f g
    checkTarget dst
    let take := cmpN 64 (isSigned f.t) f.fn a.toNat b.toNat
    pure (if take then g.goto dst else g, take)) s

/-- JMP (06 R98). -/
def execJmp (f : Fields) (s : State) : Out :=
  runCtl (.jmp f) (fun f g => do
    let a ← consume (g.ssrc f true f.a)
    checkTarget a
    pure (g.goto a, true)) s

/-- CALL (06 R98): the target is read before s63 is written; the latches stay. -/
def execCall (f : Fields) (s : State) : Out :=
  runCtl (.call f) (fun f g => do
    let a ← if f.is96 then .ok (relTarget f g) else consume (g.ssrc f true f.a)
    checkTarget a
    pure ({ g with regs := g.regs.sset 63 { val := g.regs.pc } }.goto a, true)) s

/-- RET (06 R98). -/
def execRet (f : Fields) (s : State) : Out :=
  runCtl (.ret f) (fun _ g => do
    let a ← consume (g.regs.sget 63)
    checkTarget a
    pure (g.goto a, true)) s

/-- LOOP (06 R99). -/
def execLoop (f : Fields) (s : State) : Out :=
  runCtl (.loop f) (fun f g => do
    let c ← consume (g.ssrc f true f.d)
    let dst := relTarget f g
    checkTarget dst
    let n := c - 1
    let g1 := { g with regs := g.regs.sdst f.d { val := n } }
    pure (if n = 0 then g1 else g1.goto dst, n != 0)) s

/-- CLK (06 R100): its Trail record carries the clock. -/
def execClk (f : Fields) (s : State) : Out :=
  runM (.clk f) (fun f k => do
    let c ← M.run' fun s => (s.cyc, s)
    M.onGroup k fun g => { g with regs := g.regs.sdst f.d { val := c } }
    M.ctlTrail f k) s

/-- BRM (22 R359): a counted bit that carries a tag is consumed. -/
def execBrm (f : Fields) (s : State) : Out :=
  runCtl (.brm f) (fun f g => do
    let a := g.psrc f.a
    match (allElems.filter (g.active f)).findSome? fun e => (Store.get? a.tags e).map fun t => (e, t) with
    | some (e, t) => .error (poisonTrap t e)
    | none =>
      let dst := relTarget f g
      checkTarget dst
      let r := fun m => g.reduce f a m
      let take := if f.fn = 0 then g.members.any r else g.members.all r
      pure (if take then g.goto dst else g, take)) s

/-! ### Ending, yielding and sleeping -/

/-- EXIT (22 R361). -/
def execExit (f : Fields) (s : State) : Out :=
  runM (.exit f) (fun f k => do
    M.noSpec k
    M.noFence k
    M.ctlTrail f k
    M.modify fun s => s.exitGroup k) s

/-- YIELD (22 R362): a switch at which what is pending takes effect. -/
def execYield (f : Fields) (s : State) : Out :=
  runM (.yield f) (fun f k => do
    M.noSpec k
    M.ctlTrail f k
    M.modify fun s =>
      ((s.departWhere fun w => w.g = k).onGroup k fun g =>
        { g with
          regs := g.regs.loseLatches
          readyScalar := 0
          readyVector := 0 }).switchEvent k) s

/-- SLEEP (22 R363): a speculative group of an ordered launch may sleep, since becoming the oldest wakes it. -/
def execSleep (f : Fields) (s : State) : Out :=
  runM (.sleep f) (fun f k => do
    let g ← M.group k
    let a ← M.clean (g.ssrc f true f.a)
    M.noSpec k
    M.ctlTrail f k
    if a = 0 then pure ()
    else M.modify fun s => s.suspend k .sleep f (some a.toNat) false) s

end Sys2Proof.Machine
end

