-- ==== Sys2Proof/Machine/Sync.lean ====
section
/-!
DEFINITION. Barriers (22 R364 to R369), signals (22 R370, R371), the commit point of ordered launches (22 R375), and the ends
of SLEEP (22 R363).
-/
namespace Sys2Proof.Machine
open Sys2Proof

/-! ### BAR (22 R366) -/

/-- The barrier that X[3:0] names. -/
def barNo (f : Fields) : Nat := f.x.toNat % 16

/-- The group, its instance and the barrier it names, which a kill has not broken (22 R368). -/
def M.barrier (k : GKey) (n : Nat) : M (Group × Inst × Barrier) := do
  let g ← M.group k
  let i ← M.inst g
  let b := i.bar n
  M.check (!b.broken) (barrierTrap n 1)
  pure (g, i, b)

/-- An arrival of the group (22 R365, R367): a cohort-scope release; its target. -/
def M.arrive (k : GKey) (n : Nat) : M Word32 := do
  let (g, i, b) ← M.barrier k n
  M.check (!NSet.has b.arrived (g.pos i)) (barrierTrap n 0)
  M.modify fun s => s.releaseDrain k g.id.inst 1
  M.modify fun s => match s.inst? g.id.inst with
    | some i => s.setBarrier g.id.inst n ((i.bar n).arrive i (g.pos i) (s.ltOf (.group k)))
    | none => s
  pure (b.phase + 1)

/-- The wait test on a phase, or on the local stage of the group's half: an acquire of the arrivals it covers (22 R367). -/
def tryBarrier (k : GKey) (n : Nat) (t : Word32) (half : Bool) : M Bool := do
  let (g, i, b) ← M.barrier k n
  let h := i.half (g.pos i)
  if Barrier.reached (if half then b.localOf h else b.phase) t then do
    M.acquire k (b.histOf (if half then h else 2) t)
    pure true
  else pure false

/-- The end of a BAR that waits: the target in the destination of ARRIVE_WAIT, and pt. -/
def M.barEnd (k : GKey) (f : Fields) (t : Word32) (late : Bool) : M Unit :=
  M.onGroup k fun g =>
    let r := if f.fn = 1 then g.regs.sdst f.d { val := t.setWidth 64 } else g.regs
    { g with regs := r.pfill (predNo f.b) late }

/-- A BAR wait that is met. -/
def tryBar (k : GKey) (f : Fields) (n : Nat) (t : Word32) (half : Bool) : M Bool := do
  let met ← tryBarrier k n t half
  if met then do
    M.barEnd k f t false
    pure true
  else pure false

/-- A wait on a barrier. -/
def M.barWait (k : GKey) (f : Fields) (limit : Option Nat) (t : Word32) (half : Bool) : M Unit :=
  M.wait k (.barrier (barNo f) t half) f limit (f.fn = 1) (tryBar k f (barNo f) t half) (M.barEnd k f t true)

/-- BAR.ARRIVE (22 R366). -/
def execBarArrive (f : Fields) (s : State) : Out :=
  runM (.barArrive f) (fun f k => do
    M.noSpec k
    M.noFence k
    let t ← M.arrive k (barNo f)
    M.onGroup k fun g => { g with regs := g.regs.sdst f.d { val := t.setWidth 64 } }) s

/-- BAR.ARRIVE_WAIT (22 R366), which writes its target as the wait ends: after a watchdog trap at it, a resume enters the
wait again and arrives no second time (28 R436). -/
def execBarArriveWait (f : Fields) (s : State) : Out :=
  runM (.barArriveWait f) (fun f k => do
    M.gate k
    let g ← M.group k
    let limit ← M.timeout g f f.c
    let t ← match g.armed with
      | some (a, t) => if a = g.at_ f then pure t else M.arrive k (barNo f)
      | none => M.arrive k (barNo f)
    M.onGroup k fun g => { g with armed := none }
    M.barWait k f limit t false) s

/-- BAR.WAIT and BAR.WAIT_LOCAL. -/
def runBarWait (half : Bool) (f : Fields) (k : GKey) : M Unit := do
  M.gate k
  let g ← M.group k
  let a ← M.clean (g.ssrc f true f.a)
  let limit ← M.timeout g f f.c
  M.barWait k f limit (a.setWidth 32) half

/-- BAR.WAIT (22 R366). -/
def execBarWait (f : Fields) (s : State) : Out := runM (.barWait f) (runBarWait false) s
/-- BAR.WAIT_LOCAL (22 R366). -/
def execBarWaitLocal (f : Fields) (s : State) : Out := runM (.barWaitLocal f) (runBarWait true) s

/-- A barrier that makes a waiting BAR go on (22 R366). -/
def execBarrierWaitWake (k : GKey) (s : State) : Out :=
  s.wake k fun w => match w.op with | .barrier n t h => some (tryBar k w.f n t h) | _ => none

/-! ### BARQ (22 R369, R370) -/

/-- The tower whose base die holds an instance's barrier file (02 R25). -/
def Inst.tower (i : Inst) : Nat := towerOf (coreNo i.ox i.oy)

/-- The cohort id. -/
def Inst.cid (i : Inst) (devnum : Nat) : Word64 :=
  BitVec.ofNat 64 (devnum % 2 ^ 9 * 2 ^ 55 + i.part.toNat * 2 ^ 51 + i.tower % 4 * 2 ^ 49 + i.fslot % 1024)

/-- The barrier status word for a group at a position. -/
def Barrier.status (b : Barrier) (i : Inst) (pos : Nat) : Word64 :=
  BitVec.ofNat 64 (b.phase.toNat * 2 ^ 32 + b.arr % 2 ^ 12 * 2 ^ 20 + b.exp % 2 ^ 12 * 2 ^ 8 +
    (decide (b.localOf (i.half pos) = b.phase + 1)).toNat)

/-- A value read by BARQ. -/
def M.barq (k : GKey) (f : Fields) (v : Word64) : M Unit :=
  M.onGroup k fun g => { g with regs := g.regs.sdst f.d { val := v } }

/-- BARQ.STATUS (22 R369): the status is read, and EXP set where b names a count, in one operation. -/
def execBarqStatus (f : Fields) (s : State) : Out :=
  runM (.barqStatus f) (fun f k => do
    M.noSpec k
    let g ← M.group k
    let i ← M.inst g
    let b := i.bar (barNo f)
    let n ← if f.b = .zero then pure none else do
      let w ← M.clean (g.ssrc f true f.b)
      M.check (1 ≤ w.toNat && w.toNat ≤ 4095) { cause := cOperand, xinfo := (wordOf (.barqStatus f)).toNat }
      pure (some w.toNat)
    M.barq k f (b.status i (g.pos i))
    match n with
    | some n => M.modify fun s => s.setBarrier g.id.inst (barNo f) (b.setExp i n)
    | none => pure ()) s

/-- BARQ.CID (22 R370). -/
def execBarqCid (f : Fields) (s : State) : Out :=
  runM (.barqCid f) (fun f k => do
    let g ← M.group k
    let i ← M.inst g
    let d ← M.run' fun s => (s.devnum.toNat, s)
    M.barq k f (i.cid d)) s

/-- BARQ.GEN (22 R370). -/
def execBarqGen (f : Fields) (s : State) : Out :=
  runM (.barqGen f) (fun f k => do
    let g ← M.group k
    let i ← M.inst g
    M.barq k f (i.gen.setWidth 64)) s

/-! ### SIG (22 R371) -/

/-- DEV of a cohort id. -/
def cidDev (c : Word64) : Nat := bitsNat c.toNat 63 55
/-- PART of a cohort id. -/
def cidPart (c : Word64) : Nat := bitsNat c.toNat 54 51

/-- A name of a cohort instance: cohort id and generation name this instance. A cohort id with a nonzero reserved bit names none
(00 R6, log 63). -/
def Inst.named (i : Inst) (c : Word64) (gen : Word32) : Bool :=
  bitsNat c.toNat 48 10 = 0 && i.part.toNat = cidPart c && i.tower = bitsNat c.toNat 50 49 && i.fslot = bitsNat c.toNat 9 0 && i.gen = gen

/-- Where the instance of a signal for this device is: running, in a context that is swapped out, or nowhere. -/
inductive SigSpot where
  | running (inst : Nat)
  | away
  | stale
deriving DecidableEq, Repr

/-- The place of a signal's target on this device. -/
def State.sigSpot (s : State) (x : Signal) : SigSpot :=
  match s.insts.find? fun y => y.2.named x.cid x.gen with
  | some y => .running y.1
  | none =>
    match s.part? (cidPart x.cid) with
    | some p => if p.shadow.insts.any fun y => y.2.named x.cid x.gen then .away else .stale
    | none => .stale

/-- A signal arrives at its barrier (22 R365). -/
def State.signalIn (s : State) (inst : Nat) (x : Signal) : State :=
  match s.inst? inst with
  | some i => s.setBarrier inst x.bar.toNat ((i.bar x.bar.toNat).signal i x.lt.toNat)
  | none => s

/-- A stale signal is dropped and counted (22 R371). -/
def State.signalStale (s : State) (x : Signal) : State :=
  s.onPart (cidPart x.cid) fun p => { p with stale := p.stale + 1 }

/-- What becomes of a signal for this device: it lands, it is queued, or it is dropped; none while the queue is full. -/
def State.land (s : State) (x : Signal) : Option (State × Bool) :=
  match s.sigSpot x with
  | .running n => some (s.signalIn n x, true)
  | .away =>
    match s.part? (cidPart x.cid) with
    | some p => if p.inbound.length < 256 then some (s.onPart (cidPart x.cid) fun p => { p with inbound := p.inbound ++ [x] }, true)
      else none
    | none => none
  | .stale => some (s.signalStale x, false)

/-- SIG (22 R371). -/
def execSig (f : Fields) (s : State) : Out :=
  runM (.sig f) (fun f k => do
    let g ← M.group k
    let a ← M.clean (g.ssrc f true f.a)
    let b ← M.clean (g.ssrc f true f.b)
    let known ← M.run' fun s => (s.isLocal (cidDev a * 2 ^ 47) || NSet.has s.domain (cidDev a), s)
    M.check (cidPart a = g.id.part.toNat) { cause := cProt }
    M.check known { cause := cProt }
    M.gate k
    let lt ← M.run' fun s => (s.ltOf (.group k), s)
    let _ ← M.issue k (tlOf f) 0xEA
      (.signal { cid := a, gen := b.setWidth 32, bar := f.i32.setWidth 4, lt := BitVec.ofNat 64 lt }) 0
    pure ()) s

/-- The signal of a running command. -/
def Cmd.signal? (d : Cmd) : Option Signal :=
  match d.kind with
  | .signal x => if d.state == .running then some x else none
  | _ => none

/-- SIGNAL_ARRIVAL (22 R371): the signal is counted at its target, here or at another device that can be reached. -/
def execSignalArrival (c : CKey) (s : State) : Out :=
  match s.cmd? c with
  | none => .next s
  | some d =>
    match d.signal? with
    | none => .next s
    | some x =>
      if s.isLocal (cidDev x.cid * 2 ^ 47) then
        match s.sigSpot x with
        | .running n => .next ((s.signalIn n x).finishCmd c false)
        | _ => .next s
      else if s.lostAt (cidDev x.cid * 2 ^ 47) then .next s
      else .next (s.finishCmd c false)

/-- SIGNAL_QUEUED (22 R371): the target's context is swapped out, and its partition's queue accepts the signal. -/
def execSignalQueued (c : CKey) (s : State) : Out :=
  match s.cmd? c with
  | none => .next s
  | some d =>
    match d.signal? with
    | none => .next s
    | some x =>
      if s.isLocal (cidDev x.cid * 2 ^ 47) then
        match s.sigSpot x, s.land x with
        | .away, some (s1, _) => .next (s1.finishCmd c false)
        | _, _ => .next s
      else if s.lostAt (cidDev x.cid * 2 ^ 47) then .next s
      else .next (s.finishCmd c false)

/-- SIGNAL_STALE_DROP (22 R371): the name is stale, or the device cannot be reached; another device may find it stale. -/
def execSignalStaleDrop (c : CKey) (s : State) : Out :=
  match s.cmd? c with
  | none => .next s
  | some d =>
    match d.signal? with
    | none => .next s
    | some x =>
      if s.isLocal (cidDev x.cid * 2 ^ 47) then
        match s.sigSpot x with
        | .stale => .next ((s.signalStale x).finishCmd c true)
        | _ => .next s
      else .next (s.finishCmd c true)

/-! ### ORDC (22 R375) -/

/-- ORDC: the timestamp once the group is the oldest uncommitted one; at once outside ordered launches. -/
def tryOrdc (f : Fields) (k : GKey) : M Bool := do
  let g ← M.group k
  let old ← M.run' fun s => ((match s.ordOf (.group k) with | some (la, o) => s.isOldest la o | none => true), s)
  if old then do
    M.oldest k
    let v : Word64 := match g.ord with | some o => BitVec.ofNat 64 o.ts | none => BitVec.allOnes 64
    M.onGroup k fun g => { g with regs := (g.regs.sdst f.d { val := v }).pfill (ptOf f) false }
    pure true
  else pure false

/-- A wait with a scalar destination ends by its timeout: the destination keeps its value. -/
def M.keepEnd (k : GKey) (f : Fields) : M Unit :=
  M.onGroup k fun g => { g with regs := (g.regs.keepS f.d).pfill (ptOf f) true }

/-- ORDC (22 R375). -/
def execOrdc (f : Fields) (s : State) : Out :=
  runM (.ordc f) (fun f k => do
    M.noSpec k
    M.noFence k
    let g ← M.group k
    let limit ← M.timeout g f f.c
    M.wait k .ordc f limit true (tryOrdc f k) (M.keepEnd k f)) s

/-- A commit that makes a waiting ORDC go on (22 R375). -/
def execOrdcWake (k : GKey) (s : State) : Out :=
  s.wake k fun w => match w.op with | .ordc => some (tryOrdc w.f k) | _ => none

/-! ### The ends of SLEEP (22 R363) -/

/-- SLEEP_WAKE (22 R363): an event that ends the sleep has come. -/
def execSleepWake (k : GKey) (s : State) : Out :=
  s.wake k fun w => match w.op with | .sleep => some (pure w.hit) | _ => none

/-- The timeout of a wait has passed. -/
def Wait.over (w : Wait) (cyc : Word64) : Bool :=
  match w.limit with
  | some n => w.start.toNat + n ≤ cyc.toNat
  | none => false

/-- SLEEP_EXPIRY (22 R363). -/
def execSleepExpiry (k : GKey) (s : State) : Out :=
  s.wake k fun w => match w.op with | .sleep => some (pure (w.over s.cyc)) | _ => none

end Sys2Proof.Machine
end

