-- ==== Sys2Proof/Machine/Hamper.lean ====
section
/-!
DEFINITION. The Hamper (20 R329 to R342): packets of device queues, the checks of launch records, graph nodes, completion, and
the instructions LNCH and JOIN (22 R372, R373).
-/
namespace Sys2Proof.Machine
open Sys2Proof

/-! ### Access by the Hamper (20 R450) -/

/-- A write of an agent that is no group, with a timestamp at or above a logical time. -/
def State.extWrite (s : State) (lt : Nat) (l : List (Nat × Byte)) : State := s.writeSectors .ext l false false none lt

/-- The context of a queue: its ASID and privilege; the Hamper's walks go through its I/O die. -/
def Queue.ctx (q : Queue) (part : BitVec 4) : Ctx :=
  { part := part.toNat, asid := q.asid.toNat, sup := q.sup, tlb := { target := 12 } }

/-- Bytes at a virtual address, sector by sector: none on a fault or poison. -/
def State.ctxRead (s : State) (x : Ctx) : Nat → Nat → Nat → Option (List Byte) × State
  | 0, _, _ => (some [], s)
  | n + 1, va, left =>
    if left = 0 then (some [], s)
    else
      let here := min left (32 - va % 32)
      match s.translate x .read (va % 2 ^ 64) with
      | .ok pa =>
        match (s.walked x va).loadBytes .ext false pa here with
        | (none, s1) => (none, s1)
        | (some b, s1) =>
          match s1.ctxRead x n (va + here) (left - here) with
          | (some l, s2) => (some (b ++ l), s2)
          | (none, s2) => (none, s2)
      | _ => (none, s)

/-- A record at a virtual address. -/
def State.recAt (s : State) (x : Ctx) (va len : Nat) : Option Rec × State := s.ctxRead x (len / 32 + 2) va len

/-- A page that an access to n bytes names is migrating: the access waits (07 R135). -/
def State.ctxWaits (s : State) (x : Ctx) (acc : Access) (va n : Nat) : Bool :=
  (List.range ((va % 32 + n + 31) / 32)).any fun j => s.translate x acc ((va / 32 * 32 + 32 * j) % 2 ^ 64) == .wait

/-- Bytes written at a virtual address; where it does not translate nothing is written (log 16). -/
def State.ctxWrite (s : State) (x : Ctx) (lt va : Nat) (l : List Byte) : State :=
  let at_ := l.zipIdx.map fun b => ((va + b.2) % 2 ^ 64, b.1)
  let groups := ((at_.map fun b => b.1 / 32).eraseDups).map fun k => at_.filter fun b => b.1 / 32 = k
  groups.foldl (fun s g =>
    match g with
    | [] => s
    | (a, _) :: _ =>
      match s.translate x .write a with
      | .ok pa => (s.walked x a).extWrite lt (g.map fun b => (pa + (b.1 - a), b.2))
      | _ => s.walked x a) s

/-- A number at a physical address of the device. -/
def State.numAt (s : State) (pa n : Nat) : Nat := ofLeBytes ((List.range n).map fun i => s.byteAt (pa + i))

/-! ### Queues and packets (20 R332 to R334) -/

/-- The packet at the head of a queue that is ready to be consumed: the queue, its index, the slot's address, and its 64
bytes, none where its read meets a fault or poison. -/
structure Head where
  q : Queue
  ridx : Nat
  va : Nat
  pkt : Option Rec

/-- The reserved bytes of a queue descriptor are zero (00 R6, 20 R332, log 63). -/
def State.queueOk (s : State) (desc : Nat) : Bool := s.numAt (desc + 9) 7 = 0 && s.numAt (desc + 32) 32 = 0

/-- The head of a queue (20 R334): TYPE is read first, and while it is zero the Hamper waits. A descriptor with a nonzero reserved
byte serves no packet (log 63). -/
def State.head (s : State) (k : QKey) : Option (Head × State) :=
  match s.part? k.part.toNat with
  | none => none
  | some p =>
    match Store.get? p.queues k.q.toNat with
    | none => none
    | some q =>
      let s1 := s.mergeLine .ext (lineOf q.desc)
      let ridx := s1.numAt (q.desc + 24) 8
      if s1.numAt (q.desc + 16) 8 ≤ ridx || !s1.queueOk q.desc then none
      else
        let va := (s1.numAt q.desc 8 + 64 * (ridx % 2 ^ s1.numAt (q.desc + 8) 1)) % 2 ^ 64
        let at_ (pkt : Option Rec) (s2 : State) : Option (Head × State) :=
          some ({ q := q, ridx := ridx, va := va, pkt := pkt }, s2)
        if s1.ctxWaits (q.ctx k.part) .write va 64 then none
        else match s1.recAt (q.ctx k.part) va 1 with
        | (none, s2) => at_ none s2
        | (some t, s2) =>
          if recNat t 0 1 = 0 then none
          else
            let (r, s3) := s2.recAt (q.ctx k.part) va 64
            at_ r s3

/-- The packet is consumed (20 R334, 08 R145): its logical time joins the device floor; TYPE becomes 0, then RIDX goes up. -/
def State.consume (s : State) (k : QKey) (h : Head) : State :=
  let x := h.q.ctx k.part
  let lt := match s.translate x .read h.va with | .ok pa => (s.lineAt (lineOf pa)).wts | _ => 0
  let s1 := { s with floor := maxLt s.floor lt }
  (s1.ctxWrite x 0 h.va [0]).extWrite 0 (numBytes (h.q.desc + 24) 8 (h.ridx + 1))

/-- The child that a packet was appended as (22 R372). -/
def State.childOf (s : State) (k : QKey) (h : Head) : Option Child :=
  s.children.find? fun c => c.part = k.part && c.q = k.q && c.idx = h.ridx

/-- Bytes i to i + n - 1 are zero. -/
def zeros (r : Rec) (i n : Nat) : Bool := recNat r i n = 0

namespace Pkt
/-- RECORD. -/
def record (r : Rec) : Nat := recNat r 8 8
/-- NID of a NODE. -/
def nid (r : Rec) : Word32 := BitVec.ofNat 32 (recNat r 16 4)
/-- NDEP. -/
def ndep (r : Rec) : Nat := recNat r 20 2
/-- NSUCC. -/
def nsucc (r : Rec) : Nat := recNat r 22 2
/-- SUCC. -/
def succAt (r : Rec) : Nat := recNat r 24 8
/-- NOPS. -/
def nops (r : Rec) : Nat := recNat r 32 2
/-- NCLS. -/
def ncls (r : Rec) : Nat := recNat r 34 1
/-- BUDGET. -/
def budget (r : Rec) : Nat := recNat r 36 4
/-- OPS. -/
def opsAt (r : Rec) : Nat := recNat r 40 8
/-- A LAUNCH packet is legal. -/
def launchOk (r : Rec) : Bool := zeros r 1 7 && zeros r 16 48
/-- A NODE packet is legal, but for its lists. -/
def nodeOk (r : Rec) : Bool :=
  zeros r 1 7 && nid r != 0xFFFFFFFF && nsucc r ≤ 1024 && succAt r % 4 = 0 && nops r ≤ 64 && ncls r ≤ 7 && zeros r 35 1 &&
  opsAt r % 16 = 0 && zeros r 48 16
/-- A COPY packet is legal: as CPY takes it, its addresses are multiples of 4 (log 17). -/
def copyOk (r : Rec) : Bool :=
  zeros r 1 7 && zeros r 44 20 && recNat r 24 8 % 4 = 0 && recNat r 24 8 ≤ 2 ^ 32 && recNat r 8 8 % 4 = 0 && recNat r 16 8 % 4 = 0
/-- The signal of a SIGNAL packet of KIND BARRIER. -/
def signal (r : Rec) (lt : Word64) : Signal :=
  { cid := BitVec.ofNat 64 (recNat r 16 8), gen := BitVec.ofNat 32 (recNat r 24 4), bar := BitVec.ofNat 4 (recNat r 28 1), lt := lt }
/-- A SIGNAL packet is legal for a queue of a partition. -/
def signalOk (s : State) (part : BitVec 4) (r : Rec) : Bool :=
  zeros r 1 7 && zeros r 9 7 &&
  (if recNat r 8 1 = 0 then
    let c := BitVec.ofNat 64 (recNat r 16 8)
    zeros r 29 35 && recNat r 28 1 < 16 && bitsNat c.toNat 48 10 = 0 && cidPart c = part.toNat && (cidDev c = s.devnum.toNat || NSet.has s.domain (cidDev c))
  else recNat r 8 1 = 1 && zeros r 20 44)
end Pkt

/-- An operand entry of a NODE is legal, and what it says. -/
def opRange (r : Rec) (i : Nat) : Option OpRange :=
  let w := recNat r (16 * i + 8) 8
  if bitsNat w 62 48 != 0 then none
  else some { base := recNat r (16 * i) 8, len := bitsNat w 47 0, write := bitNat w 63 = 1 }

/-! ### Nodes (20 R335) -/

/-- A live node of a partition. -/
def State.node? (s : State) (part : BitVec 4) (nid : Word32) : Option (Nat × Launch) :=
  s.launches.find? fun x => x.2.part = part && x.2.nid = some nid

/-- A release of an identity (20 R335): it is held where the node is not live; none where no more can be held. A count that
would fall below zero ends the node with LAUNCH_ERROR, detail 0x0C. -/
def State.releaseNode (s : State) (part : BitVec 4) (nid : Word32) : Option State :=
  match s.node? part nid with
  | some (n, l) =>
    some (if l.count = 0 then s.onLaunch n fun l => { l with detail := 0x0C }
      else s.onLaunch n fun l => { l with count := l.count - 1, pooled := if l.count = 1 then some s.time else none })
  | none =>
    match s.part? part.toNat with
    | some p => if p.released.length < 4096 then some (s.onPart part.toNat fun p => { p with released := p.released ++ [nid] }) else none
    | none => some s

/-- Releases one after another. -/
def State.releaseAll (s : State) (part : BitVec 4) : List Word32 → Option State
  | [] => some s
  | n :: r => match s.releaseNode part n with | some s1 => s1.releaseAll part r | none => none

/-! ### Kills of launches (20 R338, R339) -/

/-- A launch with its live descendants. -/
def State.descendants (s : State) : Nat → List Nat → List Nat
  | 0, l => l
  | n + 1, l =>
    let more := s.launches.filterMap fun x => match x.2.parent with
      | some p => if l.contains p && !l.contains x.1 then some x.1 else none
      | none => none
    if more.isEmpty then l else s.descendants n (l ++ more)

/-- A launch is killed with its live descendants: their groups at their next switch points; what is not placed never is. -/
def State.killLaunch (s : State) (n : Nat) : State :=
  (s.descendants (s.launches.length + 1) [n]).foldl (fun s m =>
    let s1 := s.onLaunch m fun l => { l with killed := true }
    s1.allGroups.foldl (fun s x => if x.2.id.launch = m && x.2.run != .ended then s.requestKill .ext x.1 else s) s1) s

/-- A successor is killed: now, or when its node arrives. -/
def State.killNode (s : State) (part : BitVec 4) (nid : Word32) : State :=
  match s.node? part nid with
  | some (n, _) => s.killLaunch n
  | none => s.onPart part.toNat fun p => { p with doomed := p.doomed ++ [nid] }

/-! ### Completion (20 R338 to R341) -/

/-- OUTCOME. -/
def LaunchEnd.code : LaunchEnd → Nat
  | .completed => 1
  | .faulted => 2
  | .killed => 3
  | .error => 4

/-- The completion record (20 R340). -/
def completion (o : LaunchEnd) (lt detail nkill serial : Nat) (frec : Rec) : List Byte :=
  leBytes 8 o.code ++ leBytes 8 lt ++ leBytes 4 detail ++ leBytes 4 nkill ++ leBytes 4 (serial % 2 ^ 24) ++ List.replicate 36 0 ++
    (if frec.isEmpty then List.replicate 64 0 else frec)

/-- A completion record is written: bytes 8 to 127, then bytes 0 to 7 as a system-scope release (20 R340). -/
def State.writeDone (s : State) (x : Ctx) (at_ lt : Nat) (l : List Byte) : State :=
  if at_ = 0 then s else (s.ctxWrite x lt (at_ + 8) (l.drop 8)).ctxWrite x lt at_ (l.take 8)

/-- The trap record of a LAUNCH_ERROR (28 R428, 20 R341). -/
def State.launchError (s : State) (k : QKey) (slot detail : Nat) : State :=
  s.pushRec k.part.toNat { r := { cyc := s.cyc, cause := BitVec.ofNat 8 cLaunch, xaddr := BitVec.ofNat 64 slot,
                                  xinfo := BitVec.ofNat 64 (detail + k.q.toNat * 2 ^ 16) } }

/-- The context that a launch's addresses translate in. -/
def Launch.ctxOf (l : Launch) : Ctx := 
  { part := l.part.toNat, asid := l.asid.toNat, sup := l.sup, tlb := { target := 12 } }

/-- A child ends: its parent group learns of it at JOIN, and its SLEEP ends, in shadow storage too (22 R363). -/
def State.childEnd (s : State) (p : Child → Bool) (o : LaunchEnd) (done : Nat) (lt : Word64) : State :=
  let hit := s.children.filter p
  let s1 := { s with
    order := s.order + 1
    children := s.children.map fun c =>
      if p c then { c with outcome := some o, doneAt := BitVec.ofNat 64 done, endOrder := s.order, lt := lt } else c }
  let asked (g : Group) : Bool := hit.any fun c => g.id.key = c.group && g.id.launch = c.parent && g.kids.contains c.id
  (s1.nudge asked).nudgeAway asked

/-- A completion record would have to wait for a migration. -/
def State.doneWaits (s : State) (x : Ctx) (at_ : Nat) : Bool := at_ != 0 && s.ctxWaits x .write at_ 128

/-- A launch ends (20 R338 to R341): its completion record, its trap record, its successors released or killed; none where
the record or a release must wait. -/
def State.endLaunch (s : State) (n : Nat) (l : Launch) (o : LaunchEnd) : Option State :=
  if s.doneWaits l.ctxOf l.doneAddr then none else
  let k : QKey := ⟨l.part, l.q⟩
  let lt := maxLt l.lt 0
  let s0 := s.writeDone l.ctxOf l.doneAddr lt.toNat (completion o lt.toNat l.detail l.nkill l.serial l.frec)
  let s1 := match o with
    | .error => s0.launchError k l.slotAt l.detail
    | .killed => s0.pushRec l.part.toNat { r := { cyc := s.cyc, cause := BitVec.ofNat 8 cKilled, xaddr := BitVec.ofNat 64 l.doneAddr,
                                                  xinfo := BitVec.ofNat 64 l.nkill } }
    | _ => s0
  let s2 := s1.childEnd (fun c => c.launch = some n) o l.doneAddr lt
  let s3 := { s2 with
    floor := maxLt s2.floor lt.toNat
    launches := Store.del s2.launches n
    children := s2.children.filter fun c => c.parent != n }
  let s4 := s3.closeWindows fun w => w.launch = n
  match o with
  | .completed => s4.releaseAll l.part l.succ
  | _ => some (l.succ.foldl (fun s i => s.killNode l.part i) s4)

/-! ### The checks of a launch record (20 R330) -/

/-- The reserved fields of a record are zero (detail 0x02). -/
def recReserved (r : Rec) : Bool :=
  zeros r 176 80 && zeros r 70 10 && recNat r 69 1 < 64 && recNat r 68 1 < 8 && recNat r 67 1 < 64 && bitNat (recNat r 67 1) 3 = 0 &&
  recNat r 66 1 < 128 && bitNat (recNat r 66 1) 3 = 0 && recNat r 65 1 < 16 && recNat r 64 1 < 32

/-- A segment image is legal for an allocation (02 R37). -/
def segLegal (k : Nat) (sg : Seg) (spd : Nat) : Bool :=
  (k = 3 || sg.stride = 0) &&
  (k != 0 || (sg.base.toNat < 2 ^ 20 && sg.base.toNat + sg.limit.toNat ≤ spd * 32768)) &&
  (k != 1 || sg.base.toNat < 2 ^ 27)

/-- A partition word is legal and fits the pool (02 R32, R33). -/
def pwOk (w m : Nat) : Bool :=
  w < 2 ^ 16 && pwSpd w ≤ 16 && w / 4 % 4 != 3 && pwCharge w m * pwGroups w ≤ 1048576

/-- The first check that a record fails, as its detail code; zero for none. `own` is the DONE of the issuing launch where
the packet comes from LNCH (22 R372). DESIGN CHOICE, log 63: a nonzero reserved bit within PWORD or a slot word is tested with that
word, under 0x07 (02 R33) or 0x09 (15 R253), not under 0x02, which names reserved fields first. -/
def State.recDetail (s : State) (p : Part) (part : BitVec 4) (l : Launch) (own : Option Nat) : Nat :=
  let r := l.rec256
  let done (a : Nat) : Bool := s.launches.any fun x => x.2.part = part && x.2.doneAddr = a
  let parent := l.parentAddr
  if !recReserved r then 0x02
  else if l.entry % 4 != 0 then 0x03
  else if !(l.rw ≤ 32 && l.rh ≤ 16 && l.rx % l.rw = 0 && l.ry % l.rh = 0 && p.rx ≤ l.rx && l.rx + l.rw ≤ p.rx + p.width &&
    p.ry ≤ l.ry && l.ry + l.rh ≤ p.ry + p.height) then 0x04
  else if !(l.cw ≤ 16 && l.ch ≤ 8 && l.cw ≤ l.rw && l.ch ≤ l.rh) then 0x05
  else if !(1 ≤ l.countCi && l.countCi ≤ 2 ^ 24) then 0x0D
  else if !(l.members ≤ 16 && l.mbase + l.countCi * l.cw * l.ch * l.members ≤ 2 ^ 32) then 0x06
  else if !pwOk l.pword l.members then 0x07
  else if !(List.range 4).all (fun k => segLegal k (l.seg k) (pwSpd l.pword)) then 0x08
  else if !(List.range 8).all (fun j => l.fmt j = 0 || slotLegal (l.fmt j)) then 0x09
  else if l.ordered && !(l.cw = 1 && l.ch = 1 && l.countCi ≤ 2 ^ 20 && l.tsbase < 2 ^ 44 && parent = 0) then 0x0A
  else if !((parent = 0 || (match own with | some d => parent = d | none => done parent)) && (l.doneAddr = 0 || !done l.doneAddr))
    then 0x0B
  else 0

/-- A launch enters from a packet that has been consumed: its record is read and checked; one that fails ends at once with
LAUNCH_ERROR. Its parent is the launch that appended it, else the one that PARENT names; a child of a killed launch is
killed. -/
def State.enterLaunch (s : State) (k : QKey) (h : Head) (at_ : Nat) (child : Option Child) (node : Launch) : State :=
  match s.part? k.part.toNat with
  | none => s
  | some p =>
    let n := s.nextId
    let base := { node with
      part := k.part, q := k.q, asid := h.q.asid, sup := h.q.sup, serial := p.serial % 2 ^ 24, slotAt := h.va, consumed := s.cyc.toNat }
    let (r, s1) := if at_ % 64 = 0 then s.recAt (h.q.ctx k.part) at_ 256 else (none, s)
    let (l, s2) := match r with
      | none => ({ base with detail := 0x01 }, s1)
      | some r =>
        let l0 := { base with rec256 := r }
        let own := match child with
          | some c => (s1.launch? c.parent).map Launch.doneAddr
          | none => none
        ({ l0 with detail := s1.recDetail p k.part l0 own }, s1)
    let parent : Option Nat := match child with
      | some c => some c.parent
      | none => if l.detail != 0 || l.parentAddr = 0 then none
        else (s2.launches.find? fun x => x.2.part = k.part && x.2.doneAddr = l.parentAddr).map (·.1)
    let held := (p.released.filter fun i => l.nid = some i).length
    let under := l.nid.isSome && l.count < held
    let count := l.count - held
    let dead := (match parent with | some m => (match s2.launch? m with | some x => x.killed | none => false) | none => false) ||
      (match l.nid with | some i => p.doomed.contains i | none => false)
    let l1 := { l with
      cls := if l.nid.isSome then l.cls else l.prio
      count := count
      detail := if l.detail != 0 then l.detail else if under then 0x0C else 0
      pooled := if count = 0 then some s.time else none
      parent := parent
      killed := dead }
    let s3 := ({ s2 with nextId := n + 1 }.setLaunch n l1).setPart k.part.toNat { p with
      serial := p.serial + 1
      released := p.released.filter fun i => l.nid != some i
      doomed := p.doomed.filter fun i => l.nid != some i }
    let s4 := match child with
      | some c => { s3 with children := s3.children.map fun x => if x.id = c.id then { x with launch := some n } else x }
      | none => s3
    if l1.detail != 0 then (s4.endLaunch n l1 .error).getD s4 else s4

/-! ### Packets -/

/-- The DONE address of a COPY packet, which its rejection writes. -/
def Pkt.copyDone (r : Rec) : Nat := if recNat r 0 1 = 3 then recNat r 32 8 else 0

/-- A packet is rejected (20 R333, R341): the trap record, the DONE record of a COPY, the end of a child. -/
def State.reject (s : State) (k : QKey) (h : Head) : State :=
  let c := s.childOf k h
  let s1 := (s.consume k h).launchError k h.va 0x0C
  let s2 := match h.pkt with
    | some r => s1.writeDone (h.q.ctx k.part) (Pkt.copyDone r) 0 (completion .error 0 0x0C 0 0 [])
    | none => s1
  match c with
  | some c => s2.childEnd (fun x => x.id = c.id) .error 0 0
  | none => s2

/-- The lists of a NODE packet: its successors and operand ranges, none on a fault, poison or an illegal entry. -/
def State.nodeLists (s : State) (x : Ctx) (r : Rec) : Option (List Word32 × List OpRange) × State :=
  match s.recAt x (Pkt.succAt r) (4 * Pkt.nsucc r) with
  | (none, s1) => (none, s1)
  | (some a, s1) =>
    match s1.recAt x (Pkt.opsAt r) (16 * Pkt.nops r) with
    | (none, s2) => (none, s2)
    | (some b, s2) =>
      match (List.range (Pkt.nops r)).mapM (opRange b) with
      | some ops => (some ((List.range (Pkt.nsucc r)).map (fun i => BitVec.ofNat 32 (recNat a (4 * i) 4)), ops), s2)
      | none => (none, s2)

/-- What the packet at the head of a queue is, once its form and lists are checked (20 R333). -/
inductive PktKind where
  | launch
  | node (succ : List Word32) (ops : List OpRange)
  | copy
  | signal
  | bad
deriving DecidableEq, Repr

/-- The kind of a packet. -/
def State.pktKind (s : State) (k : QKey) (h : Head) : PktKind :=
  match h.pkt with
  | none => .bad
  | some r =>
    match recNat r 0 1 with
    | 1 => if Pkt.launchOk r then .launch else .bad
    | 2 =>
      if !Pkt.nodeOk r || (s.node? k.part (Pkt.nid r)).isSome then .bad
      else match s.nodeLists (h.q.ctx k.part) r with
        | (some (a, b), _) => .node a b
        | (none, _) => .bad
    | 3 => if Pkt.copyOk r then .copy else .bad
    | 4 => if Pkt.signalOk s k.part r then .signal else .bad
    | _ => .bad

/-- A step of the Hamper on the head of a queue; where the record of a rejected COPY would have to wait, the packet waits. -/
def State.onHeadPkt (s : State) (k : QKey) (f : State → Head → PktKind → Rec → State) : Out :=
  match s.head k with
  | none => .next s
  | some (h, s1) =>
    let r := h.pkt.getD []
    let kind := s1.pktKind k h
    .next (if kind == .bad && s1.doneWaits (h.q.ctx k.part) (Pkt.copyDone r) then s else f s1 h kind r)

/-- PACKET_LAUNCH (20 R330). -/
def execPacketLaunch (q : QKey) (s : State) : Out :=
  s.onHeadPkt q fun s h kind r =>
    match kind with
    | .launch => (s.consume q h).enterLaunch q h (Pkt.record r) (s.childOf q h)
        { part := q.part, q := q.q, asid := h.q.asid, sup := h.q.sup, rec256 := List.replicate 256 0, serial := 0 }
    | _ => s

/-- PACKET_NODE (20 R335): at the limit of live nodes the queue stalls. -/
def execPacketNode (q : QKey) (s : State) : Out :=
  s.onHeadPkt q fun s h kind r =>
    match kind with
    | .node succ ops =>
      if 4096 ≤ (s.launches.filter fun x => x.2.part = q.part && x.2.nid.isSome).length then s
      else (s.consume q h).enterLaunch q h (Pkt.record r) (s.childOf q h)
        { part := q.part, q := q.q, asid := h.q.asid, sup := h.q.sup, rec256 := List.replicate 256 0, serial := 0,
          nid := some (Pkt.nid r), count := Pkt.ndep r, succ := succ, ops := ops, cls := Pkt.ncls r,
          stamp := if Pkt.budget r = 0 then none else some (s.time + usUnits (Pkt.budget r)) }
    | _ => s

/-- PACKET_COPY (20 R342): the copy runs in the queue's copy context, within the partition's quota (25 R395). -/
def execPacketCopy (q : QKey) (s : State) : Out :=
  s.onHeadPkt q fun s h kind r =>
    match kind with
    | .copy =>
      let quota := match s.part? q.part.toNat with | some p => p.engQuota | none => 0
      let key : CKey := .queue q.part q.q
      if (s.cmd? key).isSome || quota ≤ s.cmdsOfPart q.part.toNat then s
      else
        let len := recNat r 24 8
        let s1 := s.consume q h
        let c : Cmd :=
          { key := key, part := q.part, asid := h.q.asid, sup := h.q.sup, total := (len + 511) / 512,
            kind := .copy { dsp := spG, ssp := spG, dst := BitVec.ofNat 64 (recNat r 8 8), src := BitVec.ofNat 64 (recNat r 16 8),
                            len := len, done := BitVec.ofNat 64 (recNat r 32 8), snid := BitVec.ofNat 32 (recNat r 40 4) },
            stamp := stampOf s.cyc 0, lt := s1.floor, lt0 := s1.floor, op := 0xE0 }
        { s1 with cmds := s1.cmds ++ [c] }
    | _ => s

/-- PACKET_SIGNAL (20 R333): a barrier's signal is delivered as SIG delivers it, or a node is released. While it can be
neither, the queue stalls. -/
def execPacketSignal (q : QKey) (s : State) : Out :=
  s.onHeadPkt q fun s h kind r =>
    match kind with
    | .signal =>
      let s1 := s.consume q h
      if recNat r 8 1 = 0 then
        let x := Pkt.signal r s1.floor
        if cidDev x.cid = s.devnum.toNat then (match s1.land x with | some (s2, _) => s2 | none => s) else s1
      else (s1.releaseNode q.part (BitVec.ofNat 32 (recNat r 16 4))).getD s
    | _ => s

/-- REJECTED_PACKET (20 R333, R341). -/
def execRejectedPacket (q : QKey) (s : State) : Out :=
  s.onHeadPkt q fun s h kind _ =>
    match kind with
    | .bad => s.reject q h
    | _ => s

/-- COPY_PACKET_DONE (20 R342): the DONE record with COMPLETED, or FAULTED where the copy could not resume or was killed;
the node of SNID is released. -/
def execCopyPacketDone (q : QKey) (s : State) : Out :=
  match s.cmd? (.queue q.part q.q) with
  | none => .next s
  | some d =>
    match d.kind with
    | .copy x =>
      let dead := d.killed || match d.state with | .stopped _ _ _ r => !r | _ => false
      if (dead || (d.state == .running && d.total ≤ d.units.length)) && !s.doneWaits d.ctx x.done.toNat then
        let o : LaunchEnd := if dead then .faulted else .completed
        let c : Ctx := d.ctx
        let s1 := s.finishCmd d.key dead
        let s2 := s1.writeDone c x.done.toNat d.lt.toNat (completion o d.lt.toNat 0 d.killed.toNat 0 d.frec)
        .next (if x.snid = 0xFFFFFFFF then s2 else (s2.releaseNode q.part x.snid).getD s)
      else .next s
    | _ => .next s

/-! ### LNCH and JOIN (22 R372, R373) -/

/-- LNCH where the queue has room and the group few enough unjoined children: room and index are read at the home, the slot is
translated, and then the index is claimed and the slot written, all as one operation; a launch's packet becomes a child. -/
def tryLnch (f : Fields) (k : GKey) : M Bool := do
  let g ← M.group k
  let a ← M.clean (g.ssrc f true f.a)
  let b ← M.clean (g.ssrc f true f.b)
  let mis (w : Word64) : M Unit := M.check (w.toNat % 64 = 0) { cause := cMisaligned, xaddr := w.toNat, xinfo := 64 }
  mis a
  mis b
  let desc ← M.readRec k a.toNat 64
  let image ← M.readRec k b.toNat 64
  let l ← M.xlatPage g.ctx .rmw [(0, .va a.toNat)]
  match l with
  | (_, .pa pa) :: _ => do
    let queues ← M.run' fun s => ((match s.part? g.id.part.toNat with | some p => p.queues | none => []), s)
    match queues.find? fun q => q.2.desc = pa with
    | none => M.trap { cause := cProt, xaddr := a.toNat }
    | some (qn, q) =>
      M.check (g.id.sup || !q.sup) { cause := cProt, xaddr := a.toNat }
      let ty := recNat image 0 1
      M.legal (wordOf (.lnch f)) (ty != 0)
      M.legal (wordOf (.lnch f)) (zeros desc 9 7 && zeros desc 32 32)
      let size := 2 ^ recNat desc 8 1
      let home ← M.run' fun s => s.loadBytes .ext false pa 32
      M.check home.isSome { cause := cPoison, xaddr := pa }
      let now := home.getD []
      let i := recNat now 16 8
      if size ≤ i - recNat now 24 8 || 256 ≤ g.kids.length then pure false
      else
        let slot := (recNat desc 0 8 + 64 * (i % size)) % 2 ^ 64
        let x : Ctx := { g.ctx with asid := q.asid.toNat }
        let spots ← M.xlatPage x .write [(0, .va slot)]
        match spots with
        | (_, .pa sp) :: _ => do
          let _ ← M.run' fun s => s.atomicHome (.group k) (pa + 16) 8 (fun x => some ((x + 1) % 2 ^ 64)) false
          M.modify fun s =>
            let s1 := (s.drainOwn (.group k) (lineOf sp)).writeSectors (.group k) (bytesAt (sp + 1) (image.drop 1))
            (s1.releaseDrain k g.id.inst 2).writeSectors (.group k) (bytesAt sp (image.take 1))
        | _ => M.stall
        M.onGroup k fun g => { g with regs := (g.regs.sdst f.d { val := BitVec.ofNat 64 i }).pfill (ptOf f) false }
        if ty = 1 || ty = 2 then
          M.modify fun s =>
            let c : Child :=
              { id := s.nextId, part := g.id.part, q := BitVec.ofNat 4 qn, idx := i, parent := g.id.launch, group := k }
            { s with nextId := s.nextId + 1, children := s.children ++ [c] }.onGroup k fun g => { g with kids := g.kids ++ [s.nextId] }
        else pure ()
        pure true
  | _ => M.stall

/-- LNCH (22 R372). -/
def execLnch (f : Fields) (s : State) : Out :=
  runM (.lnch f) (fun f k => do
    M.gate k
    let g ← M.group k
    let _ ← M.clean (g.ssrc f true f.a)
    let _ ← M.clean (g.ssrc f true f.b)
    let limit ← M.timeout g f f.c
    M.wait k .lnch f limit true (tryLnch f k) (M.keepEnd k f)) s

/-- LNCH_ROOM_WAKE (22 R372). -/
def execLnchRoomWake (k : GKey) (s : State) : Out :=
  s.wake k fun w => match w.op with | .lnch => some (tryLnch w.f k) | _ => none

/-- A count of the JOIN counts word. -/
def joinCount (l : List Child) (p : LaunchEnd → Bool) : Nat :=
  min 65535 (l.filter fun c => match c.outcome with | some o => p o | none => false).length

/-- The JOIN counts word (22 R373). -/
def joinWord (l : List Child) : Word64 :=
  BitVec.ofNat 64 (joinCount l (· == .completed) + joinCount l (fun o => o == .faulted || o == .error) * 2 ^ 16 +
    joinCount l (· == .killed) * 2 ^ 32 + joinCount l (fun _ => true) * 2 ^ 48)

/-- The first of some children to end other than COMPLETED. -/
def firstBad : List Child → Option Child
  | [] => none
  | c :: r =>
    let bad := match c.outcome with | some o => o != .completed | none => false
    match firstBad r with
    | some d => if bad && c.endOrder < d.endOrder then some c else some d
    | none => if bad then some c else none

/-- JOIN once every child has ended (22 R373). -/
def tryJoin (f : Fields) (k : GKey) : M Bool := do
  let g ← M.group k
  let kids ← M.run' fun s => (s.children.filter fun c => g.kids.contains c.id, s)
  if kids.all fun c => c.outcome.isSome then do
    let bad := firstBad kids
    M.acquire k (kids.foldl (fun m c => max m c.lt.toNat) 0)
    M.modify fun s => { s with children := s.children.filter fun c => !g.kids.contains c.id }
    M.onGroup k fun g =>
      let r := g.regs.sdst f.d { val := joinWord kids }
      let r1 := match f.d with
        | .s d => r.sset (d.toNat + 1) { val := match bad with | some c => c.doneAt | none => 0 }
        | _ => r
      { g with kids := [], regs := (r1.pfill (predNo f.b) bad.isSome).pfill (ptOf f) false }
    pure true
  else pure false

/-- JOIN (22 R373). -/
def execJoin (f : Fields) (s : State) : Out :=
  runM (.join f) (fun f k => do
    M.gate k
    let g ← M.group k
    let limit ← M.timeout g f f.c
    M.wait k .join f limit true (tryJoin f k) (M.keepEnd k f)) s

/-- JOIN_WAKE (22 R373). -/
def execJoinWake (k : GKey) (s : State) : Out :=
  s.wake k fun w => match w.op with | .join => some (tryJoin w.f k) | _ => none

end Sys2Proof.Machine
end

