-- ==== Sys2Proof/Machine/Placement.lean ====
section
/-!
DEFINITION. Placement (20 R336, R337), the ends of cohort instances (02 R449) and of launches (20 R338), and the commit of
ordered groups (20 R345).
-/
namespace Sys2Proof.Machine
open Sys2Proof

/-! ### The ready pool (20 R336) -/

/-- The steps by which the time that a launch has spent in the pool raises its class: one for every 4,096 µs. -/
def State.poolSteps (s : State) (l : Launch) : Nat :=
  match l.pooled with
  | some t => max l.raised ((s.time - t) / usUnits 4096)
  | none => l.raised

/-- Effective class. -/
def State.eff (s : State) (l : Launch) : Nat := min 7 (l.cls + s.poolSteps l)

/-- One launch stands before another in the ready pool: effective class, deadline stamp, time of consumption. -/
def poolBefore (s : State) (a b : Nat × Launch) : Bool :=
  let x := a.2
  let y := b.2
  let stampLt : Bool := match x.stamp, y.stamp with
    | some m, some n => m < n
    | some _, none => true
    | none, _ => false
  s.eff y < s.eff x || (s.eff x == s.eff y && (stampLt || (x.stamp == y.stamp &&
    (x.consumed < y.consumed || (x.consumed == y.consumed && a.1 ≤ b.1)))))

/-- Two ranges overlap: an empty one overlaps none. -/
def OpRange.meets (a b : OpRange) : Bool := a.len != 0 && b.len != 0 && a.base < b.base + b.len && b.base < a.base + a.len

/-- Two nodes conflict: a write range of either overlaps a range of the other. -/
def Launch.conflicts (a b : Launch) : Bool :=
  a.ops.any fun x => b.ops.any fun y => (x.write || y.write) && x.meets y

/-- A launch of a partition that may place its next instance, apart from a free position: it is in the pool, no part of
the partition's exchange is under way, and it belongs to the resident context or has not begun (26 R421). -/
def Launch.eligible (l : Launch) (p : Part) : Bool :=
  l.pooled.isSome && !l.killed && l.detail == 0 && l.nextCi < l.countCi && p.exchanging.isNone &&
  (l.sup || (match l.ctx with | some c => c == p.ctx | none => true))

/-- Some other dispatched, unfinished node conflicts with a launch. -/
def State.blocked (s : State) (n : Nat) (l : Launch) : Bool :=
  s.launches.any fun x => x.1 != n && x.2.part = l.part && x.2.dispatched && x.2.conflicts l

/-! ### Positions (20 R337) -/

/-- The origin of position j of a launch. -/
def Launch.origin (l : Launch) (j : Nat) : Nat × Nat :=
  let cols := l.rw / l.cw
  (l.rx + j % cols * l.cw, l.ry + j / cols * l.ch)

/-- The cores of a cohort from an origin, row-major. -/
def cohortCores (o : Nat × Nat) (w h : Nat) : List Nat :=
  (List.range h).flatMap fun j => (List.range w).map fun i => coreNo (o.1 + i) (o.2 + j)

/-- The pool charge of a group apart from its scratchpad (02 R33). -/
def Ident.charge (i : Ident) : Nat :=
  i.vregs * 4096 + i.wregs * (1024 / i.mcount) * 4 + 2048 + i.tiles * 32768 + i.agates * 544 * i.mcount

/-- The groups, shadow ones included, that take a slot and a part of the pool of a core for a placement: a user launch
finds the shadow context's in shadow storage. -/
def State.groupsOn (s : State) (core : Nat) (sup : Bool) : List Group :=
  let on (m : Store Group) : List Group := (m.filter fun x => x.1 / 8 = core).map (·.2)
  on s.groups ++ (if sup then s.parts.flatMap fun p => on p.2.shadow.groups else [])

/-- The instances whose scratchpads take a part of the pool of a core. -/
def State.instsOn (s : State) (core : Nat) (sup : Bool) : List Inst :=
  let on (m : Store Inst) : List Inst :=
    (m.filter fun x => (cohortCores (x.2.ox, x.2.oy) x.2.width x.2.height).contains core).map (·.2)
  on s.insts ++ (if sup then s.parts.flatMap fun p => on p.2.shadow.insts else [])

/-- The allocated bytes of a core's pool. -/
def State.charged (s : State) (core : Nat) (sup : Bool) : Nat :=
  ((s.groupsOn core sup).map fun g => g.id.charge).sum + ((s.instsOn core sup).map fun i => i.spd * 32768).sum

/-- The lowest free resident slot of a core. -/
def State.freeSlot (s : State) (core : Nat) (sup : Bool) : Option Nat :=
  (List.range 8).find? fun r => !(s.groupsOn core sup).any fun g => g.id.key.rs.toNat = r

/-- A core has room for one more group of a launch: the slot that it takes. -/
def State.coreRoom (s : State) (n : Nat) (l : Launch) (core : Nat) : Option Nat :=
  if pwGroups l.pword ≤ ((s.groupsOn core l.sup).filter fun g => g.id.launch = n).length ||
    1048576 < s.charged core l.sup + pwCharge l.pword l.members then none
  else s.freeSlot core l.sup

/-- The lowest free barrier-file slot of a tower. -/
def State.freeFile (s : State) (tower : Nat) : Option Nat :=
  let uses (m : Store Inst) (k : Nat) : Bool := m.any fun x => x.2.tower = tower && x.2.fslot = k
  (List.range 1024).find? fun k => !uses s.insts k && !s.parts.any fun p => uses p.2.shadow.insts k

/-- Where an instance goes: its origin, the slot that each of its groups takes, and its barrier-file slot. -/
structure Spot2 where
  o : Nat × Nat
  slots : List (Nat × Nat)
  file : Nat
deriving DecidableEq, Repr

/-- A position as the place of a launch's next instance, if it is free. -/
def State.positionAt (s : State) (n : Nat) (l : Launch) (j : Nat) : Option Spot2 :=
  let o := l.origin j
  match (cohortCores o l.cw l.ch).mapM fun c => (s.coreRoom n l c).map fun r => (c, r) with
  | none => none
  | some sl => (s.freeFile (towerOf (coreNo o.1 o.2))).map fun f => { o := o, slots := sl, file := f }

/-- The free position of the lowest index. -/
def State.position (s : State) (n : Nat) (l : Launch) : Option Spot2 :=
  (List.range (l.rw / l.cw * (l.rh / l.ch))).findSome? fun j => s.positionAt n l j

/-! ### Placing an instance -/

/-- The group at position j of instance ci of a launch (20 R331, R344, 08 R145). -/
def Launch.groupAt (l : Launch) (n inst j : Nat) (k : GKey) (s : State) : Group :=
  let g := l.cw * l.ch
  let id : Ident :=
    { key := k, launch := n, inst := inst, ci := l.nextCi, cx := j % l.cw, cy := j / l.cw, lin := l.nextCi * g + j,
      part := l.part, asid := l.asid, sup := l.sup, mcount := l.members, vregs := pwVregs l.pword, wregs := pwWregs l.pword,
      spd := pwSpd l.pword, tiles := pwTiles l.pword, agates := pwAgates l.pword, mbase := BitVec.ofNat 32 l.mbase,
      seed := BitVec.ofNat 64 l.seed, svcMax := BitVec.ofNat 2 l.svc,
      fs := Vector.ofFn fun i : Fin 8 => l.fmt i.val, entry := BitVec.ofNat 64 l.entry, args := BitVec.ofNat 64 l.args }
  let ord : Option Ordered := if l.ordered then some { ts := l.tsbase * 2 ^ 20 + id.lin } else none
  { freshGroup id l.segs l.prio l.deadline s.floor ord with ticked := s.cyc.toNat }

/-- The next instance of a launch is placed with all of its groups. -/
def State.place (s : State) (n : Nat) (l : Launch) (x : Spot2) (ctx : Bool) : State :=
  let id := s.nextId
  let keys := x.slots.map fun y => keyOf (8 * y.1 + y.2)
  let file := towerOf (coreNo x.o.1 x.o.2) * 1024 + x.file
  let gen := Store.getD s.fslots file 0 + 1
  let size := l.cw * l.ch
  let inst : Inst :=
    { launch := n, part := l.part, sup := l.sup, ci := l.nextCi, ox := x.o.1, oy := x.o.2, width := l.cw, height := l.ch,
      mcount := l.members, spd := pwSpd l.pword, fslot := x.file, gen := gen, groups := keys,
      bars := Vector.replicate 16 { exp := size } }
  let s1 := { s with nextId := id + 1, fslots := Store.put s.fslots file gen }.setInst id inst
  let s2 := keys.zipIdx.foldl (fun t k =>
    { t.setGroup k.1 (l.groupAt n id k.2 k.1 s) with left := Store.del t.left (keyCode k.1) }) s1
  s2.setLaunch n { l with
    dispatched := true
    nextCi := l.nextCi + 1
    started := l.started + size
    ctx := if l.sup then none else some ctx }

/-- The first of some launches in the order of the pool. -/
def poolFirst (s : State) : List (Nat × Launch) → Option (Nat × Launch)
  | [] => none
  | x :: r => match poolFirst s r with
    | some y => some (if poolBefore s x y then x else y)
    | none => some x

/-- PLACEMENT (20 R336, R337): the first node of the pool that conflicts with no running one and for which a position is
free places its next instance. -/
def execPlacement (part : BitVec 4) (s : State) : Out :=
  match s.part? part.toNat with
  | none => .next s
  | some p =>
    let fit (x : Nat × Launch) : Bool :=
      x.2.part = part && x.2.eligible p && !s.blocked x.1 x.2 && (s.position x.1 x.2).isSome
    match poolFirst s (s.launches.filter fit) with
    | none => .next s
    | some (n, l) =>
      match s.position n l with
      | some x => .next (s.place n l x p.ctx)
      | none => .next s

/-- READY_POOL_AGING (20 R336): the class of a node rises by one step for every 4,096 µs in the pool. The rise is counted from the
time itself wherever the class is used; this event notes it with the launch. -/
def execReadyPoolAging (launch : Nat) (s : State) : Out :=
  .next (s.onLaunch launch fun l => { l with raised := s.poolSteps l })

/-! ### Ends -/

/-- The unfinished commands of the groups of an instance. -/
def State.instBusy (s : State) (inst : Nat) : Bool :=
  s.cmds.any fun c => match c.key with | .group .. => c.inst = inst | .queue .. => false

/-- COHORT_INSTANCE_END (02 R449): its cohort-scope copies drain, and its scratchpads, its file slot and its name go. -/
def execCohortInstanceEnd (inst : Nat) (s : State) : Out :=
  match s.inst? inst with
  | none => .next s
  | some i =>
    if (List.range i.size).all (NSet.has i.ended) && !s.instBusy inst then
      let s1 := s.drainWhere fun c => c.owner = .cohort inst
      .next { s1 with insts := Store.del s1.insts inst }
    else .next s

/-- Some group of a launch has an unfinished command, in either context. -/
def State.launchBusy (s : State) (n : Nat) : Bool :=
  let busy (insts : Store Inst) (cmds : List Cmd) : Bool := cmds.any fun c =>
    match c.key with
    | .group .. => (Store.get? insts c.inst).any fun i => i.launch = n
    | .queue .. => false
  busy s.insts s.cmds || s.parts.any fun p => busy p.2.shadow.insts p.2.shadow.cmds

/-- Some child of a launch has not ended. -/
def State.hasChild (s : State) (n : Nat) : Bool :=
  s.launches.any (fun x => x.2.parent = some n) || s.children.any fun c => c.parent = n && c.outcome.isNone

/-- The outcome of a launch (20 R338). -/
def Launch.outcome (l : Launch) : LaunchEnd :=
  if l.detail != 0 then .error else if l.killed then .killed else if l.faulted then .faulted else .completed

/-- A launch has ended (20 R338): one that is killed or in error before its first placement; else every instance that is
to be placed has been, and every group, command and child has ended. One killed or in error later places no more instances. -/
def State.launchOver (s : State) (n : Nat) (l : Launch) : Bool :=
  (!l.dispatched && (l.killed || l.detail != 0) && !s.hasChild n) ||
  ((l.killed || l.detail != 0 || l.nextCi == l.countCi) && l.dispatched && l.started == l.endedGroups && !s.launchBusy n && !s.hasChild n)

/-- LAUNCH_END (20 R338, R340). -/
def execLaunchEnd (launch : Nat) (s : State) : Out :=
  match s.launch? launch with
  | none => .next s
  | some l =>
    if s.launchOver launch l then .next ((s.endLaunch launch l l.outcome).getD s) else .next s

/-! ### Ordered launches (20 R345) -/

/-- The oldest uncommitted group of an ordered launch, if it is resident. -/
def State.oldestGroup (s : State) (n : Nat) : Option (GKey × Group × Ordered) :=
  s.allGroups.findSome? fun x =>
    match x.2.ord with
    | some o => if x.2.id.launch = n && !o.committed && s.isOldest n o then some (x.1, x.2, o) else none
    | none => none

/-- The oldest group is not speculative: a trap it held is delivered (28 R427), and its SLEEP ends (22 R363). -/
def State.becomeOldest (s : State) (n : Nat) : State :=
  match s.oldestGroup n with
  | none => s
  | some (k, g, o) =>
    match o.held with
    | some r => (s.setGroup k { g with ord := some { o with held := none } }).deliver k r
    | none => s.nudge fun x => x.id.key = k

/-- ORDERED_COMMIT: the buffered lines and the versions of the oldest group, which has exited, enter the single order, and abort the
later groups that read too early (20 R345); a killed one is passed over (log 14). -/
def execOrderedCommit (launch : Nat) (s : State) : Out :=
  match s.oldestGroup launch with
  | none => .next s
  | some (k, g, o) =>
    let next (t : State) : State := t.onLaunch launch fun l => { l with committed := l.committed + 1 }
    let mark (t : State) : State := t.onGroup k fun g => { g with ord := some { o with committed := true } }
    if g.killed then .next ((next ((mark s).reap k)).becomeOldest launch)
    else if g.run == .ended then
      let s1 := (s.departWhere fun w => w.g = k).flushVersions (.group k) launch o.ts
      .next ((next ((mark s1).finishExit k)).becomeOldest launch)
    else if o.held.isSome then .next (s.becomeOldest launch)
    else .next s

end Sys2Proof.Machine
end

