-- ==== Sys2Proof/Machine/Service.lean ====
section
/-!
DEFINITION. Cache, tiering and service controls (10 R201 to R204).
-/
namespace Sys2Proof.Machine
open Sys2Proof

/-! ### The mapped pages of a range -/

/-- A mapped page: its virtual address, level, entry, and where the entry stands. -/
structure Leaf where
  va : Nat
  level : Nat
  pte : Nat
  pteAt : Nat
deriving DecidableEq, Repr

/-- The bytes of a page. -/
def Leaf.size (l : Leaf) : Nat := 2 ^ spanLog l.level
/-- The physical address of a virtual address of the page. -/
def Leaf.pa (l : Leaf) (va : Nat) : Nat := ptePfn l.pte + (va - l.va)

/-- The leaves below a table that overlap [lo, hi), addresses rising: entries that a walk faults on are skipped. -/
def State.leavesFrom (s : State) (p : Part) (lo hi : Nat) : Nat → Nat → Nat → Nat → List Leaf
  | 0, _, _, _ => []
  | n + 1, table, level, base =>
    let span := 2 ^ spanLog level
    let count := if level = 0 then 8 else 512
    let first := (lo - base) / span
    let last := min count ((hi - base + span - 1) / span)
    (List.range (last - first)).flatMap fun j =>
      let i := first + j
      let va := base + i * span
      let pa := table + 8 * i
      if !(s.isLocal pa && p.owns pa 8) || s.poisonAt pa then []
      else
        let e := s.walkWord pa
        if bitNat e 0 = 0 || s.malformed e level then []
        else if bitNat e 1 = 1 then [{ va := va, level := level, pte := e, pteAt := pa }]
        else s.leavesFrom p lo hi n (ptePfn e) (level + 1) va

/-- The mapped pages of an ASID that overlap [lo, hi) (24 R377 to R380). -/
def State.leaves (s : State) (p : Part) (asid lo hi : Nat) : List Leaf :=
  let pa := p.root + 8 * (asid - p.asid0)
  if hi ≤ lo || !(p.hasAsid asid && s.isLocal pa && p.owns pa 8) || s.poisonAt pa then []
  else
    let e := s.walkWord pa
    let top := bitsNat e 55 6 * 64
    if bitNat e 0 = 0 || bitsNat e 63 56 != 0 || bitsNat e 5 2 != 0 || !(s.isLocal top && s.backed top) then []
    else s.leavesFrom p lo (min hi (2 ^ 60)) 6 top 0 0

/-- The lines of [lo, hi) within a page. -/
def Leaf.lines (l : Leaf) (lo hi : Nat) : Nat × Nat :=
  let a := max lo l.va
  let b := min hi (l.va + l.size)
  (lineOf (l.pa a), lineOf (l.pa (b - 1)))

/-- The lines of pages for which the machine keeps some state, scoped copies included. -/
def State.linesOf (s : State) (ls : List Leaf) (lo hi : Nat) : List Nat :=
  let in_ (ln : Nat) : Bool := ls.any fun l => (l.lines lo hi).1 ≤ ln && ln ≤ (l.lines lo hi).2
  ((s.lines.map (·.1)) ++ (s.ccopies.map (·.line))).eraseDups.filter in_

/-! ### CMO (10 R201) -/

/-- Dirty copies of a line are written back and stay valid; P lines are merged and splits end. -/
def State.cleanLine (s : State) (a : Agent) (ln : Nat) : State :=
  (s.ordinary a ln).onLine ln fun l => l.cleaned (s.homeIn ln)

/-- The copies of a line in a core's L1 and its tower's L2 are removed, with the tower's leased copy, and the group's
own scoped copies are drained. -/
def State.invalLine (s : State) (k : GKey) (ln : Nat) : State :=
  let t := towerOf (keyCore k)
  (s.drainWhere (fun c => c.line = ln && c.owner = .group k) (some k)).onLine ln fun l =>
    let l1 := l.purge (s.homeIn ln) t (keyCore k)
    { l1 with copies := l1.copies.filter fun c => !(c.tower = t && (c.core.isNone || c.core = some (keyCore k))) }

/-- Every copy of a line in the caches of the device is removed once it is clean, the leased copies of the issuing core's tower
among them; those of other towers are not recalled. -/
def State.flushLine (s : State) (a : Agent) (ln : Nat) : State :=
  (s.cleanLine a ln).onLine ln fun l =>
    let dirs := l.dirs.filter fun x => a.tower? != some x.1 && x.2.st == .s && l.copies.any fun c => c.tower = x.1
    { l with
      dirs := dirs
      tracks := l.tracks.filter fun x => (Store.get? dirs x.1).isSome
      msc := none
      copies := l.copies.filter fun c => a.tower? != some c.tower }

/-- The range of a CMO or LIFE instruction: its first address and the address behind it. -/
def M.range (k : GKey) (f : Fields) : M (Nat × Nat) := do
  let g ← M.group k
  let a ← M.clean (g.ssrc f true f.a)
  let b ← M.clean (g.ssrc f true f.b)
  let lo := (a + offsetOf false f).toNat
  pure (lo, lo + b.toNat)

/-- The mapped pages of a range in the group's ASID. -/
def M.leaves (k : GKey) (r : Nat × Nat) : M (List Leaf) := do
  let g ← M.group k
  M.run' fun s => (match s.part? g.id.part.toNat with | some p => s.leaves p g.id.asid.toNat r.1 r.2 | none => [], s)

/-- CMO on the lines of a range. -/
def runCmo (f : Fields) (k : GKey) (op : State → Nat → State) : M Unit := do
  M.noSpec k
  M.noFence k
  let r ← M.range k f
  let ls ← M.leaves k r
  M.modify fun s => (s.linesOf ls r.1 r.2).foldl op s

/-- CMO.CLEAN (10 R201). -/
def execCmoClean (f : Fields) (s : State) : Out :=
  runM (.cmoClean f) (fun f k => runCmo f k fun s ln => s.cleanLine (.group k) ln) s
/-- CMO.INVAL (10 R201). -/
def execCmoInval (f : Fields) (s : State) : Out :=
  runM (.cmoInval f) (fun f k => runCmo f k fun s ln => s.invalLine k ln) s
/-- CMO.FLUSH (10 R201). -/
def execCmoFlush (f : Fields) (s : State) : Out :=
  runM (.cmoFlush f) (fun f k => runCmo f k fun s ln => s.flushLine (.group k) ln) s

/-- The PIN bit of an entry set or cleared as one atomic write of the entry (24 R379). -/
def State.setPin (s : State) (l : Leaf) (on : Bool) : State :=
  let e := s.walkWord l.pteAt
  let e1 := if on then (if bitNat e 58 = 1 then e else e + 2 ^ 58) else (if bitNat e 58 = 1 then e - 2 ^ 58 else e)
  if e1 = e then s else s.writeOp .ext (numBytes l.pteAt 8 e1) false

/-- The pages of a range pinned in order, up to the first address that is not mapped. -/
def State.pinFrom (s : State) : List Leaf → Nat → Nat → Nat × State
  | [], va, _ => (va, s)
  | l :: r, va, hi =>
    if hi ≤ va || va < l.va then (va, s)
    else (s.setPin l true).pinFrom r (l.va + l.size) hi

/-- A page of some leaves is under migration. -/
def State.anyMoving (s : State) (g : Group) (ls : List Leaf) : Bool :=
  ls.any fun l => s.migrating g.id.part.toNat g.id.asid.toNat l.va

/-- CMO.PIN (10 R201): a precise PAGE_FAULT at the first unmapped page keeps the pins before it. A page that is being moved is pinned
once it stands in its new frame (07 R133, R135). -/
def execCmoPin (f : Fields) (s : State) : Out :=
  runM (.cmoPin f) (fun f k => do
    M.noSpec k
    M.noFence k
    let r ← M.range k f
    let g ← M.group k
    let ls ← M.leaves k r
    fun s => if s.anyMoving g ls then .error .stall else .ok ((), s)
    let va ← M.run' fun s => s.pinFrom ls r.1 r.2
    if r.2 ≤ va then pure ()
    else fun s =>
      let t := s.translate g.ctx .read va
      match t with
      | .violation c a => M.violateKeep c a s
      | _ => match xlatTrap .read va 0 false t with
        | some tr => M.trapKeep tr s
        | none => M.trapKeep { cause := cPage, xaddr := va } s) s

/-- CMO.UNPIN (10 R201): unmapped pages are skipped. -/
def execCmoUnpin (f : Fields) (s : State) : Out :=
  runM (.cmoUnpin f) (fun f k => do
    M.noSpec k
    M.noFence k
    let r ← M.range k f
    let ls ← M.leaves k r
    M.modify fun s => ls.foldl (fun s l => s.setPin l false) s) s

/-! ### PREF, LIFE, SVC -/

/-- PREF (10 R202): it does nothing where a load would not get its value. -/
def execPref (f : Fields) (s : State) : Out :=
  runM (.pref f) (fun f k => do
    M.noFence k
    let g ← M.group k
    let i ← M.inst g
    let base := g.ssrc f true f.a
    M.modify fun s =>
      match base.tag, placesOf g.segs i (g.pos i) f.m 1 [g.scalarEl (base.val + offsetOf false f)] with
      | none, .ok ((_, .va va) :: _) =>
        match s.translate g.ctx .read va with
        | .ok pa =>
          if s.poisonAt pa || f.m = spS || (g.spec.isSome && s.restless k (lineOf pa)) then s
          else (s.ask (.group k) (lineOf pa)).fillLine (lineOf pa) (keyCore k) (f.x &&& 1 == 0)
        | _ => s
      | _, _ => s) s

/-- The hint of a page of an ASID stands under this key. -/
def hintKey (asid va : Nat) : Nat := asid * 2 ^ 60 + va

/-- A page lies in a tiered region (07 R133): the tiered bit of a 4-KiB or 2-MiB leaf. -/
def Leaf.tiered (l : Leaf) : Bool := bitNat l.pte 59 = 1 && 4 ≤ l.level

/-- LIFE.MARK (10 R203). -/
def execLifeMark (f : Fields) (s : State) : Out :=
  runM (.lifeMark f) (fun f k => do
    M.noSpec k
    M.noFence k
    let r ← M.range k f
    let g ← M.group k
    let c ← M.clean (g.ssrc f true f.c)
    let ls ← M.leaves k r
    let h : Hint := { prio := bitsNat c.toNat 2 0, next := bitsNat c.toNat 63 8 }
    M.modify fun s => s.onPart g.id.part.toNat fun p =>
      { p with hints := (ls.filter Leaf.tiered).foldl (fun m l => Store.put m (hintKey g.id.asid.toNat l.va) h) p.hints }) s

/-- LIFE.STEP (10 R203). That its operand a is an N64 operand, so that an I32 is zero-extended, is a DESIGN CHOICE (log 21): neither
R203 nor the table of fields gives it a type. -/
def execLifeStep (f : Fields) (s : State) : Out :=
  runM (.lifeStep f) (fun f k => do
    M.noSpec k
    M.noFence k
    let g ← M.group k
    let a ← M.clean (g.ssrc f true f.a)
    M.modify fun s => s.onPart g.id.part.toNat fun p =>
      { p with steps := Store.put p.steps g.id.asid.toNat (max (Store.getD p.steps g.id.asid.toNat 0) a.toNat) }) s

/-- At most one selector of SVC is 0xF0 (10 R181). -/
def svcChk : Chk := { ok5 := fun _ f => !(f.a == .imm && f.b == .imm) }

/-- SVC (10 R204). -/
def execSvc (f : Fields) (s : State) : Out :=
  runM (.svc f) (fun f k => do
    M.noSpec k
    let g ← M.group k
    let a ← M.clean (g.ssrc f true f.a)
    let b ← M.clean (g.ssrc f true f.b)
    M.onGroup k fun g =>
      { g with svc := BitVec.ofNat 64 (min a.toNat g.id.svcMax.toNat + 4 * min b.toNat (2 ^ 32 - 1)) }) s svcChk

end Sys2Proof.Machine
end

