-- ==== Sys2Proof/Machine/System.lean ====
section
/-!
DEFINITION. The system and trap instructions (26 R408 to R423).
-/
namespace Sys2Proof.Machine
open Sys2Proof

/-- TRAP (26 R409). -/
def execTrap (f : Fields) (s : State) : Out :=
  runM (.trap f) (fun f _ => M.trap { cause := cSoftware, xinfo := f.i32.toNat + f.len * 2 ^ 32 }) s

/-! ### Masters (26 R410) -/

/-- What a master word names. -/
inductive Master where
  | group (k : GKey)
  | cmd (k : GKey) (tl num : Nat)
  | copy (q : BitVec 4)
  | host (fn : Nat)
  | peer (dev : Nat)
deriving DecidableEq, Repr

/-- The master that a word names. -/
def masterOf (w : Word64) : Master :=
  let n := w.toNat
  let kind := bitsNat n 63 62
  if kind = 0 then .group (victimOf w)
  else if kind = 1 then
    if bitNat n 61 = 1 then .copy (w.setWidth 4) else .cmd (victimOf w) (bitsNat n 39 36) (bitsNat n 55 40)
  else if kind = 2 then .host (n % 256)
  else .peer (n % 512)

/-- The reserved bits of a master word are zero. -/
def masterClear (w : Word64) : Bool := bitsNat w.toNat 60 56 = 0 && bitNat w.toNat 35 = 0 && bitsNat w.toNat 31 12 = 0

/-- The master belongs to a partition. -/
def State.masterIn (s : State) (part : BitVec 4) : Master → Bool
  | .group k => s.partOfCore (keyCore k) == some part.toNat
  | .cmd k _ _ => s.partOfCore (keyCore k) == some part.toNat
  | .copy _ => true
  | .host fn => Store.get? s.vfs fn == some part
  | .peer d => NSet.has s.domain d

/-- Statuses of GCTL and FRZ (26 R411). -/
def stDone : Nat := 0
/-- NOT_STOPPED. -/
def stNotStopped : Nat := 1
/-- NO_MASTER. -/
def stNoMaster : Nat := 2
/-- NOT_RESIDENT. -/
def stAway : Nat := 3
/-- WRONG_KIND. -/
def stWrongKind : Nat := 4

/-- A command named by its group, timeline and the low bits of its number. -/
def numbered (k : GKey) (tl num : Nat) (c : Cmd) : Bool :=
  match c.key with
  | .group k' t n => k' = k && t.toNat = tl && n.toNat % 2 ^ 16 = num
  | .queue .. => false

/-- A master as the machine finds it. -/
inductive Found where
  | group (k : GKey) (g : Group)
  | cmd (c : Cmd)
  | away
  | none
  | host (fn : Nat)
  | peer (id : Nat)

/-- The master of a partition; one in its shadow context is away. -/
def State.find (s : State) (part : BitVec 4) (m : Master) : Found :=
  let sh : Shadow := match s.part? part.toNat with | some p => p.shadow | none => {}
  match m with
  | .group k =>
    match s.group? k with
    | some g => if g.run == .ended then .none else .group k g
    | none => match Store.get? sh.groups (keyCode k) with
      | some g => if g.run == .ended then .none else .away
      | none => .none
  | .cmd k tl num =>
    match s.cmds.find? (numbered k tl num) with
    | some c => .cmd c
    | none => if sh.cmds.any (numbered k tl num) then .away else .none
  | .copy q => match s.cmd? (.queue part q) with | some c => .cmd c | none => .none
  | .host fn => .host fn
  | .peer d => .peer (d * 16 + part.toNat)

/-! ### The actions (26 R411, R412) -/

/-- A kill asked for by a group: its own takes effect before its next instruction. -/
def State.killBy (s : State) (issuer k : GKey) : State :=
  if k = issuer then s.onGroup k fun g => { g with wantKill := true } else s.requestKill (.group issuer) k

/-- A command is ended as failed; its launch, or for a queue copy the command, keeps the record it was suspended on (20 R338, R342,
28 R429). -/
def State.killCmd (s : State) (issuer : GKey) (c : Cmd) : State :=
  match c.key with
  | .queue .. =>
    let (frec, s0) := s.recordFor (.group issuer) c.part.toNat c.trap
    s0.onCmd c.key fun x => { x with killed := true, frec := frec }
  | .group .. =>
    let (frec, s0) := s.recordFor (.group issuer) c.part.toNat c.trap
    let s1 := match s0.inst? c.inst with
      | some i => s0.onLaunch i.launch fun l =>
        { l with nkill := l.nkill + 1, faulted := true, frec := if l.nkill = 0 then frec else l.frec }
      | none => s0
    s1.failCmd c

/-- A command goes on from its stop point, after what its supervisor released. -/
def State.rerun (s : State) (c : Cmd) (lt : Nat) : State :=
  s.onCmd c.key fun x => { x with state := .running, trap := none, lt := maxLt x.lt lt }

/-- GCTL RESUME and STEP of a group suspended on a trap. -/
def State.restartGroup (s : State) (k : GKey) (g : Group) (pc : Option Word64) (lt : Nat) (once : Bool) : State × Nat :=
  match g.run with
  | .trapped .. => (s.setGroup k (g.resume (pc.getD g.xpc) (BitVec.ofNat 64 lt) once), stDone)
  | _ => (s, stNotStopped)

/-- RESUME or STEP of a master: the new state and the status. -/
def State.gctlRun (s : State) (fd : Found) (pc : Option Word64) (lt : Nat) (once : Bool) : State × Nat :=
  match fd with
  | .group k g => s.restartGroup k g pc lt once
  | .cmd c =>
    if once then (s, stWrongKind)
    else match c.state with
      | .stopped _ _ _ true => (s.rerun c lt, stDone)
      | _ => (s, stNotStopped)
  | .away => (s, stAway)
  | .none => (s, stNoMaster)
  | .host _ => (s, stWrongKind)
  | .peer i => (s, if NSet.has s.peerFrozen i then stWrongKind else stNotStopped)

/-- KILL of a master. -/
def State.gctlKill (s : State) (issuer : GKey) (fd : Found) : State × Nat :=
  match fd with
  | .group k _ => (s.killBy issuer k, stDone)
  | .cmd c => (s.killCmd issuer c, stDone)
  | .away => (s, stAway)
  | .none => (s, stNoMaster)
  | .host _ => (s, stWrongKind)
  | .peer i => (s, if NSet.has s.peerFrozen i then stWrongKind else stNotStopped)

/-- FRZ of a master (25 R399): thaw, or kill. -/
def State.frz (s : State) (issuer : GKey) (fd : Found) (kill : Bool) (lt : Nat) : State × Nat :=
  match fd with
  | .group k g =>
    if g.frozen.isNone then (s, stNotStopped)
    else if kill then (s.killBy issuer k, stDone)
    else (s.setGroup k (g.thaw (BitVec.ofNat 64 lt)), stDone)
  | .cmd c =>
    if c.state != .frozen then (s, stNotStopped)
    else if kill then (s.killCmd issuer c, stDone)
    else (s.rerun c lt, stDone)
  | .away => (s, stAway)
  | .none => (s, stNoMaster)
  | .host fn =>
    if !NSet.has s.vfFrozen fn then (s, stNotStopped)
    else ({ s with
      vfFrozen := NSet.rem s.vfFrozen fn
      vfRefused := if kill then NSet.add s.vfRefused fn else s.vfRefused }, stDone)
  | .peer i =>
    if !NSet.has s.peerFrozen i then (s, stNotStopped)
    else ({ s with
      peerFrozen := NSet.rem s.peerFrozen i
      peerRefused := if kill then NSet.add s.peerRefused i else s.peerRefused }, stDone)

/-- The master that s[a] names, after the checks of R410. -/
def M.master (i : Instr) (f : Fields) (k : GKey) : M Master := do
  let g ← M.group k
  let w ← M.clean (g.ssrc f true f.a)
  M.legal (wordOf i) (masterClear w)
  let m := masterOf w
  let ok ← M.run' fun s => (s.masterIn g.id.part m, s)
  M.check ok { cause := cProt }
  pure m

/-- The action on a master: a device-scope release of the group's earlier accesses where `rel`; then the status in s[d]. -/
def M.act (f : Fields) (k : GKey) (m : Master) (rel : Bool) (go : State → Found → Nat → State × Nat) : M Unit := do
  M.gate k
  let g ← M.group k
  M.modify fun s => if rel then s.releaseDrain k g.id.inst 2 else s
  let st ← M.run' fun s =>
    let (s1, st) := go s (s.find g.id.part m) (s.ltOf (.group k))
    (st, s1)
  M.onGroup k fun g => { g with regs := g.regs.sdst f.d { val := BitVec.ofNat 64 st } }

/-- The address at which RESUME and STEP restart a group: none for xpc. -/
def M.restartAt (f : Fields) (k : GKey) (m : Master) : M (Option Word64) := do
  let g ← M.group k
  if f.b = .zero then pure none
  else do
    let b ← M.clean (g.ssrc f true f.b)
    match m with
    | .group _ => M.check (b.toNat % 4 = 0) (targetTrap b)
    | _ => pure ()
    pure (some b)

/-- GCTL.RESUME (26 R411, R413). -/
def execGctlResume (f : Fields) (s : State) : Out :=
  runM (.gctlResume f) (fun f k => do
    let m ← M.master (.gctlResume f) f k
    let pc ← M.restartAt f k m
    M.act f k m true fun s fd lt => s.gctlRun fd pc lt false) s

/-- GCTL.STEP (26 R411, R413). -/
def execGctlStep (f : Fields) (s : State) : Out :=
  runM (.gctlStep f) (fun f k => do
    let m ← M.master (.gctlStep f) f k
    let pc ← M.restartAt f k m
    M.act f k m true fun s fd lt => s.gctlRun fd pc lt true) s

/-- GCTL.KILL (26 R411, R413). -/
def execGctlKill (f : Fields) (s : State) : Out :=
  runM (.gctlKill f) (fun f k => do
    let m ← M.master (.gctlKill f) f k
    M.act f k m false fun s fd _ => s.gctlKill k fd) s

/-- FRZ.THAW (26 R412, R413). -/
def execFrzThaw (f : Fields) (s : State) : Out :=
  runM (.frzThaw f) (fun f k => do
    let m ← M.master (.frzThaw f) f k
    M.act f k m true fun s fd lt => s.frz k fd false lt) s

/-- FRZ.KILL (26 R412). -/
def execFrzKill (f : Fields) (s : State) : Out :=
  runM (.frzKill f) (fun f k => do
    let m ← M.master (.frzKill f) f k
    M.act f k m false fun s fd lt => s.frz k fd true lt) s

/-! ### MFS and MTS (26 R416, 02 R39, R40) -/

/-- The register number in the B field. -/
def regNo (f : Fields) : Nat := (selCode f.b).toNat

/-- Registers of 02 R39 that MFS and MTS may write. -/
def writable (n : Nat) : Bool := n ≤ 0x03 || n = 0x0B || n = 0x0D || n = 0x0E || n = 0x0F
/-- The numbers that 02 R39 assigns. -/
def assigned (n : Nat) : Bool := n ≤ 0x03 || (0x08 ≤ n && n ≤ 0x15) || (0x20 ≤ n && n ≤ 0x27)
/-- The privileged registers. -/
def privReg (n : Nat) : Bool := n ≤ 0x03 || n = 0x0D || n = 0x0E || n = 0x0F

/-- gid (02 R40). -/
def Ident.gid (i : Ident) : Word64 := BitVec.ofNat 64 (i.key.rs.toNat * 2 ^ 32 + i.ci % 2 ^ 24 * 2 ^ 8 + i.cy % 8 * 2 ^ 4 + i.cx % 16)
/-- cid (02 R40). -/
def Ident.cid (i : Ident) : Word64 :=
  let c := keyCore i.key
  BitVec.ofNat 64 (gdieOf c * 2 ^ 16 + dieOf c * 2 ^ 14 + towerOf c * 2 ^ 12 + coreY c * 2 ^ 8 + coreX c)

/-- The value of a system register; dic is that of the lowest slot set in mk. -/
def Group.sysReg (g : Group) (cyc : Word64) (n : Nat) : Word64 :=
  match n with
  | 0x00 => g.xcause.setWidth 64
  | 0x01 => g.xpc
  | 0x02 => g.xaddr
  | 0x03 => g.xinfo
  | 0x08 => match g.lowest with | some m => vget g.regs.dic m 0 | none => 0
  | 0x09 => g.regs.lt
  | 0x0A => cyc
  | 0x0B => g.regs.fcr.setWidth 64
  | 0x0C => g.id.seed
  | 0x0D => g.prio.setWidth 64
  | 0x0E => g.svc
  | 0x0F => g.dlm.setWidth 64
  | 0x10 => g.id.asid.setWidth 64
  | 0x11 => g.id.part.setWidth 64
  | 0x12 => g.id.gid
  | 0x13 => g.id.cid
  | 0x14 => g.id.mbase.setWidth 64
  | 0x15 => g.rp
  | n => (vget g.id.fs (n - 0x20) 0).setWidth 64

/-- MFS names an assigned register, and a vector pair only for dic. -/
def mfsOk (f : Fields) : Bool :=
  assigned (regNo f) && (match f.d with | .v _ => regNo f = 0x08 | _ => true)

/-- MFS (26 R416). -/
def execMfs (f : Fields) (s : State) : Out :=
  runM (.mfs f) (fun f k => do
    let c ← M.run' fun s => (s.cyc, s)
    M.onGroup k fun g =>
      match f.d with
      | .v _ =>
        let col (e : Nat) : Elem := { v := vget g.regs.dic (g.slotOf e) 0 }
        { g with regs := g.regs.vdst f.d true (writesOf (fun e => g.inMask (g.slotOf e)) col) }
      | _ => { g with regs := g.regs.sdst f.d { val := g.sysReg c (regNo f) } }) s
    { ok5 := fun _ f => mfsOk f, priv := fun f => privReg (regNo f) }

/-- fcr after a write: QD, and RM unless it is 000 or 111 (02 R40). -/
def fcrWrite (old : Word32) (v : Word64) : Word32 :=
  let rm : BitVec 3 := v.extractLsb' 0 3
  let rm1 : BitVec 3 := if rm = 0 || rm = 7 then old.extractLsb' 0 3 else rm
  (v.extractLsb' 3 1 ++ rm1).setWidth 32

/-- A system register written: bits above its width and reserved bits are ignored. -/
def Group.sysWrite (g : Group) (n : Nat) (v : Word64) : Group :=
  match n with
  | 0x00 => { g with xcause := v.setWidth 8 }
  | 0x01 => { g with xpc := v }
  | 0x02 => { g with xaddr := v }
  | 0x03 => { g with xinfo := v }
  | 0x0B => { g with regs := { g.regs with fcr := fcrWrite g.regs.fcr v } }
  | 0x0D => { g with prio := v.setWidth 3 }
  | 0x0E => { g with svc := (v.setWidth 34 : BitVec 34).setWidth 64 }
  | 0x0F => { g with dlm := v.setWidth 32 }
  | _ => g

/-- MTS (26 R416). -/
def execMts (f : Fields) (s : State) : Out :=
  runM (.mts f) (fun f k => do
    M.noSpec k
    let g ← M.group k
    let a ← M.clean (g.ssrc f true f.a)
    M.onGroup k fun g => g.sysWrite (regNo f) a) s
    { ok5 := fun _ f => writable (regNo f), priv := fun f => privReg (regNo f) }

/-! ### SEGLD (26 R417) -/

/-- A segment image of 16 bytes. -/
def segOf (r : Rec) : Seg :=
  { base := BitVec.ofNat 64 (recNat r 0 8), limit := BitVec.ofNat 32 (recNat r 8 4), stride := BitVec.ofNat 32 (recNat r 12 4) }

/-- A segment register replaced: 0 L, 1 W, 2 K, 3 M. -/
def Segs.put (x : Segs) (k : Nat) (sg : Seg) : Segs :=
  match k with
  | 0 => { x with l := sg }
  | 1 => { x with w := sg }
  | 2 => { x with k := sg }
  | _ => { x with m := sg }

/-- SEGLD (26 R417). -/
def execSegld (f : Fields) (s : State) : Out :=
  runM (.segld f) (fun f k => do
    M.noSpec k
    M.noFence k
    let g ← M.group k
    let a ← M.clean (g.ssrc f true f.a)
    let at_ := (a + offsetOf false f).toNat
    M.check (at_ % 16 = 0) { cause := cMisaligned, xaddr := at_, xinfo := 16 }
    let r ← M.readRec k at_ 16
    let n := f.x.toNat % 4
    M.legal (wordOf (.segld f)) (segLegal n (segOf r) g.id.spd)
    M.onGroup k fun g => { g with segs := g.segs.put n (segOf r) }) s

/-! ### TLBI and TLBSYNC (26 R418, R419, 24 R385 to R388) -/

/-- The targets of an invalidation: the dies and towers of the partition's cores, the I/O dies, and the domain's devices
where a root entry shares its ASID. -/
def State.tlbiTargets (s : State) (p : Part) (asid : Option (BitVec 16)) : NSet :=
  let dies := p.coreList.foldl (fun m c => NSet.add (NSet.add m (gdieOf c)) (8 + towerOf c)) ([] : NSet)
  let shared (i : Nat) : Bool := bitNat (s.walkWord (p.root + 8 * i)) 1 = 1
  let dom := match asid with
    | some a => shared (a.toNat - p.asid0)
    | none => (List.range p.nasid).any shared
  NSet.set (NSet.add (NSet.add dies 12) 13) 14 dom

/-- An invalidation is posted. -/
def M.tlbi (k : GKey) (asid : Option (BitVec 16)) (lo hi : Nat) : M Unit := do
  M.gate k
  let g ← M.group k
  M.modify fun s =>
    match s.part? g.id.part.toNat with
    | none => s
    | some p =>
      let t : Tlbi := { g := some k, part := g.id.part, asid := asid, lo := lo, hi := hi, targets := s.tlbiTargets p asid }
      { s with tlbis := s.tlbis ++ [t] }

/-- The ASID operand, which belongs to the partition. -/
def M.asidOf (f : Fields) (k : GKey) : M (BitVec 16) := do
  let g ← M.group k
  let a ← M.clean (g.ssrc f true f.a)
  let p ← M.run' fun s => (s.part? g.id.part.toNat, s)
  M.check (p.any fun p => p.hasAsid (a.toNat % 2 ^ 16)) { cause := cProt }
  pure (a.setWidth 16)

/-- TLBI.RANGE (26 R418): every 4-KiB page that overlaps the range; an empty one covers nothing. -/
def execTlbiRange (f : Fields) (s : State) : Out :=
  runM (.tlbiRange f) (fun f k => do
    let g ← M.group k
    let _ ← M.clean (g.ssrc f true f.a)
    let b ← M.clean (g.ssrc f true f.b)
    let c ← M.clean (g.ssrc f true f.c)
    let a ← M.asidOf f k
    if c = 0 then pure ()
    else M.tlbi k (some a) (b.toNat / 4096 * 4096) ((b.toNat + c.toNat + 4095) / 4096 * 4096)) s

/-- TLBI.ASID (26 R418). -/
def execTlbiAsid (f : Fields) (s : State) : Out :=
  runM (.tlbiAsid f) (fun f k => do
    let a ← M.asidOf f k
    M.tlbi k (some a) 0 (2 ^ 64)) s

/-- TLBI.ALL (26 R418). -/
def execTlbiAll (f : Fields) (s : State) : Out := runM (.tlbiAll f) (fun _ k => M.tlbi k none 0 (2 ^ 64)) s

/-- A target is done with an invalidation, or lost. -/
def Tlbi.over (t : Tlbi) : Bool := t.targets.all fun x => NSet.has t.acked x.1 || NSet.has t.lost x.1

/-- The largest write timestamp of the lines that a partition may have written: those of its memory, and of other devices'. -/
def State.linesLt (s : State) (p : Part) : Nat :=
  s.lines.foldl (fun m x => if !s.isLocal (128 * x.1) || p.owns (128 * x.1) 1 then max m x.2.wts else m) 0

/-- The largest logical time of a partition's groups, the ended and the swapped-out ones too, of its engine commands, and of the lines
that it may have written: every access that it has performed has one no later (24 R386). -/
def State.partLt (s : State) (part : BitVec 4) : Nat :=
  let groups (m : Nat) (l : Store Group) : Nat := l.foldl (fun m x => if x.2.id.part = part then max m x.2.regs.lt.toNat else m) m
  let cmds (m : Nat) (l : List Cmd) : Nat := l.foldl (fun m c => if c.part = part then max m (max c.lt.toNat c.lt0.toNat) else m) m
  let away : Shadow := match s.part? part.toNat with | some p => p.shadow | none => {}
  let lines := match s.part? part.toNat with | some p => s.linesLt p | none => 0
  cmds (cmds (groups (groups (groups lines s.groups) s.left) away.groups) s.cmds) away.cmds

/-- TLBSYNC once every invalidation of the group is over: the lost targets; an acquire of what they drained (24 R386). -/
def trySync (f : Fields) (k : GKey) : M Bool := do
  let g ← M.group k
  let mine ← M.run' fun s => (s.tlbis.filter fun t => t.g = some k, s)
  if mine.all Tlbi.over then do
    let lost := mine.foldl (fun m t => t.lost.foldl (fun m x => NSet.add m x.1) m) ([] : NSet)
    let bits := (lost.map fun x => 2 ^ x.1).sum
    let lt ← M.run' fun s => (s.partLt g.id.part, { s with tlbis := s.tlbis.filter fun t => t.g != some k })
    M.acquire k lt
    M.onGroup k fun g => { g with regs := g.regs.sdst f.d { val := BitVec.ofNat 64 bits } }
    pure true
  else pure false

/-- TLBSYNC (26 R419). -/
def execTlbsync (f : Fields) (s : State) : Out :=
  runM (.tlbsync f) (fun f k => do
    M.gate k
    M.wait k .tlbsync f none true (trySync f k) (pure ())) s

/-- Groups that wait in TLBSYNC and whose invalidations are over go on. -/
def State.wakeSync (s : State) : State :=
  s.allGroups.foldl (fun s x =>
    match x.2.waitOf with
    | some w => match w.op with
      | .tlbsync => s.finishWait x.1 (trySync w.f x.1)
      | _ => s
    | none => s) s

/-! ### ADHV (26 R420, 24 R384) -/

/-- An E, M or X entry returns to S, and its dirty sectors go home. -/
def DirEntry.toS (e : DirEntry) : DirEntry × BitVec 4 :=
  let x := e.endSplit
  match x.st with
  | .s => (e, 0)
  | _ => ({ x.clean with st := .s, owner := none }, x.dirtyBits)

/-- Every E, M or X copy of a line returns to S. -/
def Line.toS (l : Line) (h : Home) : Line :=
  ({ l with dirs := l.dirs.map fun y => (y.1, y.2.toS.1) } : Line).takeDirty h (l.dirs.foldl (fun d y => d ||| y.2.toS.2) 0)

/-- The dirty bit of a frame is read and cleared, with the recall of its lines, as one operation. -/
def State.harvest (s : State) (frame : Nat) : Bool × State :=
  let d := NSet.has s.dirty frame
  let here := if d then (s.lines.map (·.1)).filter fun ln => ln / 32 = frame else []
  (d, here.foldl (fun s ln => (s.onLine ln fun l => l.toS (s.homeIn ln)).spillHome ln) { s with dirty := NSet.rem s.dirty frame })

/-- The bits of n frames from one on, frames rising. -/
def State.harvestFrom (s : State) (frame : Nat) : Nat → List Bool × State
  | 0 => ([], s)
  | n + 1 =>
    let (b, s1) := s.harvest frame
    let (l, s2) := s1.harvestFrom (frame + 1) n
    (b :: l, s2)

/-- ADHV (26 R420). -/
def execAdhv (f : Fields) (s : State) : Out :=
  runM (.adhv f) (fun f k => do
    M.gate k
    let g ← M.group k
    let a ← M.clean (g.ssrc f true f.a)
    let b ← M.clean (g.ssrc f true f.b)
    let c ← M.clean (g.ssrc f true f.c)
    let i ← M.inst g
    let n := c.toNat
    if n = 0 then pure ()
    else do
      M.check (b.toNat % 4096 = 0) { cause := cMisaligned, xaddr := b.toNat, xinfo := 4096 % 256 }
      M.legal (wordOf (.adhv f)) (n ≤ 65536)
      let owned ← M.run' fun s => (match s.part? g.id.part.toNat with
        | some p => (List.range n).all fun j => s.isLocal (b.toNat + 4096 * j) && p.owns (b.toNat + 4096 * j) 4096
        | none => false, s)
      M.check owned { cause := cProt, xaddr := b.toNat }
      let off := a + offsetOf false f
      let len := 8 * ((n + 63) / 64)
      M.check (off.toNat + len ≤ g.segs.l.limit.toNat) { cause := cSegment, xaddr := off.toNat }
      M.check (off.toNat % 8 = 0) { cause := cMisaligned, xaddr := off.toNat, xinfo := 8 }
      let bits ← M.run' fun s => s.harvestFrom (b.toNat / 4096) n
      M.modify fun s => s.onPad g.id.inst (g.pos i) fun p =>
        p.put (bytesAt (g.segs.l.base + off).toNat (leBytes len (packBits 1 (bits.map Bool.toNat))))) s

/-! ### CTXS (26 R421, R422) -/

/-- A group of the user launches of a partition. -/
def Group.userOf (g : Group) (part : Nat) : Bool := g.id.part.toNat = part && !g.id.sup
/-- A cohort instance of the user launches of a partition. -/
def Inst.userOf (i : Inst) (part : Nat) : Bool := i.part.toNat = part && !i.sup
/-- A command of a group of the user launches of a partition. -/
def Cmd.userOf (c : Cmd) (part : Nat) : Bool :=
  c.part.toNat = part && !c.sup && match c.key with | .group .. => true | .queue .. => false

/-- Steps 1 to 3: placement stops, every user group is preempted at its next switch point, and commands stop at their next
unit; a matrix queue stops by itself at its next switch point (18 R314). -/
def State.startExchange (s : State) (part : Nat) (k : GKey) : State :=
  let s1 := s.onPart part fun p => { p with exchanging := some k }
  let stop (c : Cmd) : Cmd := if c.userOf part && c.state == .running && (s.headEntry c).isNone then { c with state := .halted } else c
  let s2 : State := { s1 with cmds := s1.cmds.map stop }
  s2.allGroups.foldl (fun s x =>
    if x.2.userOf part && x.2.run != .ended then
      if s.mayHalt x.2 then s.preempt x.1
      else s.onGroup x.1 fun g => { g with wantPreempt := true }
    else s) s2

/-- The matrix queue of a group stands still: at a switch point, or stopped (18 R313, R314). -/
def State.mqStill (s : State) (g : Group) : Bool :=
  match g.mq with
  | e :: _ => !e.begun || e.atSwitch || !s.entryRuns g.id.key e
  | [] => true

/-- The resident context has halted. -/
def State.halted (s : State) (part : Nat) : Bool :=
  s.allGroups.all fun x => !x.2.userOf part ||
    ((x.2.run == .ended || (x.2.preempted && x.2.spec.isNone)) && s.mqStill x.2)

/-- A group of a context that comes in; a kill of its launch that found it in shadow storage takes effect now. -/
def Group.comeIn (g : Group) (s : State) : Group :=
  { g with
    preempted := false
    ticked := s.cyc.toNat
    wantKill := g.wantKill || (g.run != .ended && (s.launch? g.id.launch).any fun l => l.killed) }

/-- Signals one after another: those whose target is here are counted, stale ones dropped, the others kept. -/
def State.applyInbound (s : State) : List Signal → State
  | [] => s
  | x :: r =>
    let s1 := match s.sigSpot x with
      | .running n => s.signalIn n x
      | .stale => s.signalStale x
      | .away => s.onPart (cidPart x.cid) fun p => { p with inbound := p.inbound ++ [x] }
    s1.applyInbound r

/-- Steps 4 to 7: lines return to the ordinary states and copies drain (08 R155), the contexts are exchanged, the signals
for the incoming context are applied, and what comes in goes on. -/
def State.exchange (s : State) (part : Nat) : State :=
  match s.part? part with
  | none => s
  | some p0 =>
    let user (k : GKey) : Bool := (s.group? k).any fun g => g.userOf part
    let s1 := ((s.departWhere fun w => user w.g).drainWhere fun c => match c.owner with
      | .group k => user k
      | .cohort i => (s.inst? i).any fun x => x.userOf part).deliverOut fun o => user o.g
    let s2 := ((s1.lines.map (·.1)).filter fun ln => s1.isLocal (128 * ln) && p0.owns (128 * ln) 128).foldl
      (fun s ln => s.ordinary .ext ln) s1
    let p := (s2.part? part).getD p0
    let out : Shadow :=
      { groups := s2.groups.filter fun x => x.2.userOf part
        insts := s2.insts.filter fun x => x.2.userOf part
        cmds := s2.cmds.filter fun c => c.userOf part }
    let groups : Store Group := p.shadow.groups.foldl (fun m x => Store.put m x.1 (x.2.comeIn s2))
      (s2.groups.filter fun x => !x.2.userOf part)
    let insts : Store Inst := p.shadow.insts.foldl (fun m x => Store.put m x.1 x.2) (s2.insts.filter fun x => !x.2.userOf part)
    let go (c : Cmd) : Cmd := if c.state == .halted then { c with state := .running } else c
    let s3 : State := { s2 with
      groups := groups
      left := s2.left.filter fun x => (Store.get? groups x.1).isNone
      insts := insts
      cmds := (s2.cmds.filter fun c => !c.userOf part) ++ p.shadow.cmds.map go }
    (s3.setPart part { p with ctx := !p.ctx, shadow := out, exchanging := none, inbound := [] }).applyInbound p.inbound

/-- The next CTXS of a partition that waits begins. -/
def State.nextExchange (s : State) (part : Nat) : State :=
  match s.allGroups.find? fun x => x.2.id.part.toNat = part && (match x.2.waitOf with | some w => w.op == .ctxs | none => false) with
  | some (k, _) => s.startExchange part k
  | none => s

/-- The number of the resident context goes to the destination of a CTXS, which acquires what the CTXS of its partition before it have
released (26 R422). -/
def M.ctxEnd (f : Fields) (k : GKey) (part : Nat) : M Unit := do
  let lt ← M.run' fun s => ((match s.part? part with | some p => p.ctxLt | none => 0), s)
  M.acquire k lt
  M.modify fun s => s.onPart part fun p => { p with ctxLt := max p.ctxLt (s.ltOf (.group k)) }
  let c ← M.run' fun s => ((match s.part? part with | some p => p.ctx | none => false), s)
  M.onGroup k fun g => { g with regs := g.regs.sdst f.d { val := if c then 1 else 0 } }

/-- An exchange completes once the resident context has halted; the group whose CTXS asked for it goes on, and the next
CTXS of the partition begins. -/
def State.completeExchange (s : State) (part : Nat) : State :=
  match s.part? part with
  | none => s
  | some p =>
    match p.exchanging with
    | none => s
    | some k =>
      if !s.halted part then s
      else
        let s1 := s.exchange part
        let s2 := match (s1.group? k).bind Group.waitOf with
          | some w => match w.op with
            | .ctxs => s1.finishWait k (do
                M.ctxEnd w.f k part
                pure true)
            | _ => s1
          | none => s1
        s2.nextExchange part

/-- CTXS (26 R422). -/
def execCtxs (f : Fields) (s : State) : Out :=
  runM (.ctxs f) (fun f k => do
    M.gate k
    let g ← M.group k
    let part := g.id.part.toNat
    M.modify fun s => s.releaseDrain k g.id.inst 2
    let busy ← M.run' fun s => ((match s.part? part with | some p => p.exchanging.isSome | none => false), s)
    if busy then M.modify fun s => s.suspend k .ctxs f none true
    else do
      M.modify fun s => s.startExchange part k
      let ready ← M.run' fun s => (s.halted part, s)
      if ready then do
        M.modify fun s => s.exchange part
        M.ctxEnd f k part
      else M.modify fun s => s.suspend k .ctxs f none true) s

/-! ### TRM (26 R423) -/

/-- TRM with a predicate destination: the elements that carry a tag, in the members set in mk. -/
def execTrmPredicate (f : Fields) (s : State) : Out :=
  runRegs (.trmPredicate f) (fun f g =>
    let x (e : Nat) : Elem := g.vsrc f (.i f.t) f.a e
    .ok { g with regs := g.regs.pdst f.d (fun e => g.inMask (g.slotOf e)) fun e => ((x e).tag.isSome, none) }) s

/-- TRM with a scalar destination: the entries of the deferral table in use. -/
def execTrmScalar (f : Fields) (s : State) : Out :=
  runRegs (.trmScalar f) (fun f g =>
    let bits := ((List.range 16).map fun i => if g.tagUsed (BitVec.ofNat 4 i) then 2 ^ i else 0).sum
    .ok { g with regs := g.regs.sdst f.d { val := BitVec.ofNat 64 bits } }) s

/-! ### PWAIT (26 R414, R415) -/

/-- The largest write timestamp of the records that have been written: what PWAIT acquires (26 R415). -/
def State.recordsLt (s : State) (p : Part) : Nat :=
  (List.range (min p.tqw.toNat p.tqSize)).foldl (fun m j => max m (s.lineAt (lineOf (p.tqBase + 64 * j))).wts) 0

/-- PWAIT once records are there. -/
def tryPwait (f : Fields) (k : GKey) : M Bool := do
  let g ← M.group k
  let part ← M.run' fun s => (s.part? g.id.part.toNat, s)
  match part with
  | none => pure false
  | some p =>
    if p.tqr.toNat < p.tqw.toNat then do
      let lt ← M.run' fun s => (s.recordsLt p, s)
      M.acquire k lt
      M.onGroup k fun g => { g with regs := (g.regs.sdst f.d { val := p.tqw }).pfill (ptOf f) false }
      pure true
    else pure false

/-- PWAIT (26 R415): the read index first, which stands also when the wait times out. -/
def execPwait (f : Fields) (s : State) : Out :=
  runM (.pwait f) (fun f k => do
    M.gate k
    let g ← M.group k
    let a ← M.clean (g.ssrc f true f.a)
    let limit ← M.timeout g f f.c
    if f.a = .zero then pure ()
    else M.modify fun s => s.onPart g.id.part.toNat fun p =>
      { p with tqr := BitVec.ofNat 64 (max p.tqr.toNat (min a.toNat p.tqw.toNat)) }
    M.wait k .pwait f limit true (tryPwait f k) (M.keepEnd k f)) s

/-- PWAIT_WAKE (26 R415). -/
def execPwaitWake (k : GKey) (s : State) : Out :=
  s.wake k fun w => match w.op with | .pwait => some (tryPwait w.f k) | _ => none

end Sys2Proof.Machine
end

