-- ==== Sys2Proof/Machine/Arbiter.lean ====
section
/-!
DEFINITION. Issue arbitration (20 R343), the ticks of logical time (08 R145), what happens at switch points (03 R63), the ends
of waits by timeout and watchdog (10 R193, 28 R436), the writing of trap records (26 R414), and the return of a lease
renewal (08 R149).
-/
namespace Sys2Proof.Machine
open Sys2Proof

/-! ### Issue arbitration (20 R343) -/

/-- An opcode lies in one of several ranges. -/
def opIn (op : BitVec 8) (l : List (BitVec 8 × BitVec 8)) : Bool := l.any fun x => x.1 ≤ op && op ≤ x.2

/-- Instructions that a fence of the group holds until it is complete (10 R195). -/
def fenced (op : BitVec 8) : Bool :=
  opIn op [(0x09, 0x09), (0xA4, 0xA6), (0xB1, 0xB4), (0xB7, 0xB7), (0xC0, 0xCD), (0xCF, 0xD2), (0xD4, 0xD4), (0xE0, 0xE8),
    (0xEA, 0xEE), (0xF1, 0xF1), (0xF4, 0xF9), (0xFB, 0xFB)]

/-- Instructions that a speculation of the group on an expired lease holds: all that could not be undone (08 R149). -/
def settled (op : BitVec 8) (f : Fields) : Bool :=
  (fenced op && !(op = 0xA5 || (op = 0xA6 && f.x < 16) || op = 0xC0 || op = 0xC2 || op = 0xC4 || op = 0xD1)) ||
  opIn op [(0x0A, 0x0B), (0xB0, 0xB0), (0xB5, 0xB6), (0xD3, 0xD3), (0xF3, 0xF3)] ||
  (op = 0xCE && f.fn = 3) || (op = 0xE9 && f.m = 0)

/-- Engine commands, LNCH, SIG, fences from device scope on, and waits, which a speculative group of an ordered launch does
not perform (20 R344). -/
def ordered (op : BitVec 8) (f : Fields) : Bool :=
  opIn op [(0xB1, 0xB4), (0xB7, 0xB7), (0xC9, 0xCA), (0xCF, 0xCF), (0xE0, 0xE4), (0xE6, 0xE7), (0xEA, 0xEE), (0xF1, 0xF1),
    (0xF5, 0xF9), (0xFB, 0xFB)] ||
  (op = 0xCC && 2 ≤ scopeOf f) || ((op = 0xCD || op = 0xD4) && f.fn = 0) || (op = 0xE8 && f.fn != 0)

/-- Stores and atomics to memory, which the version storage of a speculative group has to hold (20 R344). -/
def versioned (op : BitVec 8) (f : Fields) : Bool :=
  (op = 0xA4 || op = 0xC1 || op = 0xC3 || (0xC5 ≤ op && op ≤ 0xC7)) && f.m != spL && f.m != spW

/-- Instructions that take a place in the engine window (10 R205). -/
def windowed (op : BitVec 8) : Bool :=
  opIn op [(0xB1, 0xB4), (0xB7, 0xB7), (0xCF, 0xCF), (0xE0, 0xE4), (0xEA, 0xEA)]

/-- Instructions that take a place in the matrix queue: a command with mk clear takes none (18 R307). -/
def queued (op : BitVec 8) (g : Group) (f : Fields) : Bool :=
  op = 0xB0 || op = 0xB5 || (opIn op [(0xB1, 0xB4)] && g.lowest.isSome) || ((op = 0xE1 || op = 0xB7) && f.x.getLsbD 4)

/-- The unit that an instruction needs will accept it (20 R343). -/
def State.accepts (s : State) (g : Group) (op : BitVec 8) (f : Fields) : Bool :=
  let late := match s.ordOf (.group g.id.key) with
    | some (la, o) =>
      !s.isOldest la o && (ordered op f || (versioned op f && Config.versionRoom ≤ (s.versionLines la o.ts).length))
    | none => false
  let quota := match s.part? g.id.part.toNat with | some p => p.engQuota | none => 0
  !(fenced op && g.fence.isSome) && !(settled op f && g.spec.isSome) && !late &&
  !(windowed op && (64 ≤ (s.cmdsOf g.id.key).length || quota ≤ s.cmdsOfPart g.id.part.toNat)) &&
  !(queued op g f && mqCap ≤ g.mq.length)

/-- A group that is ready, with whether its next instruction is a vector instruction. -/
def State.readyFor (s : State) (g : Group) : Option Bool :=
  if !g.mayIssue then none
  else match s.fetch g with
    | .instr i => match row i, fields i with
      | some r, some f => if s.accepts g r.op f then some r.vec else none
      | _, _ => some false
    | .wait => none
    | _ => some false

/-- A group inside a latch chain. -/
def Group.inChain (g : Group) : Bool := g.regs.chain.length != 0 && !g.regs.chain.closed

/-- The clocks for which a group has been ready for a kind of slot. -/
def Group.readyCount (g : Group) (vec : Bool) : Nat := if vec then g.readyVector else g.readyScalar
/-- The group issued in the previous clock of a kind of slot. -/
def Group.wonSlot (g : Group) (vec : Bool) : Bool := if vec then g.wonVector else g.wonScalar

/-- The candidates that a rule leaves, or all where it leaves none. -/
def narrowTo (p : Group → Bool) (l : List (GKey × Group)) : List (GKey × Group) :=
  let l1 := l.filter fun x => p x.2
  if l1.isEmpty then l else l1

/-- The largest value among candidates. -/
def largest (f : Group → Nat) (l : List (GKey × Group)) : Nat := l.foldl (fun m x => max m (f x.2)) 0

/-- The candidate that is given a slot, by the rules of R343; `rr` is the slot served last. -/
def award (vec : Bool) (rr : Nat) (l : List (GKey × Group)) : Option GKey :=
  let count (g : Group) : Nat := g.readyCount vec
  let best (f : Group → Nat) (l : List (GKey × Group)) : List (GKey × Group) := l.filter fun x => f x.2 = largest f l
  let late := l.filter fun x => 56 ≤ count x.2
  let l0 := if late.isEmpty then l else best count late
  let l1 := best count (narrowTo (fun g => g.inChain && g.wonSlot vec) (best (fun g => g.prio.toNat) l0))
  match l1.find? fun x => rr < x.1.rs.toNat with
  | some x => some x.1
  | none => l1.head?.map (·.1)

/-- A group's counts after a slot of one kind was given. -/
def Group.countReady (g : Group) (vec ready won count : Bool) : Group :=
  let n := if !ready || won then 0 else if count then g.readyCount vec + 1 else g.readyCount vec
  if vec then { g with readyVector := n, wonVector := won } else { g with readyScalar := n, wonScalar := won }

/-- A slot of one kind is given on a core. -/
def State.giveSlot (s : State) (core : Nat) (vec count : Bool) : State :=
  let here := s.allGroups.filter fun x => keyCore x.1 = core
  let cands := here.filter fun x => s.readyFor x.2 == some vec
  let c := s.coreAt core
  let w := award vec (if vec then c.rrVector else c.rrScalar) cands
  let s1 := here.foldl (fun s x =>
    s.setGroup x.1 (x.2.countReady vec (cands.any fun y => y.1 = x.1) (w == some x.1) count)) s
  match w with
  | none => s1
  | some k =>
    { s1 with grant := s1.grant ++ [k] }.setCore core
      (if vec then { c with rrVector := k.rs.toNat } else { c with rrScalar := k.rs.toNat })

/-- ISSUE_ARBITRATION: the first front-end cycle of a clock gives a vector slot and a scalar slot, the second a scalar
slot. -/
def execIssueArbitration (core : CoreId) (second : Bool) (s : State) : Out :=
  let c := coreNo core.x.toNat core.y.toNat
  if second then .next (s.giveSlot c false false) else .next ((s.giveSlot c true true).giveSlot c false true)

/-- LT_TICK (08 R145): lt rises by one for every 16 clocks of residence. -/
def execLtTick (k : GKey) (s : State) : Out :=
  .next (s.onGroup k fun g =>
    if g.run != .ended && g.ticked + 16 ≤ s.cyc.toNat then
      { g with regs := { g.regs with lt := g.regs.lt + 1 }, ticked := g.ticked + 16 }
    else g)

/-! ### Trap records and switch points -/

/-- TRAP_RECORD_WRITE (26 R414). -/
def execTrapRecordWrite (part : BitVec 4) (s : State) : Out := .next (s.flushRec part.toNat)

/-- SWITCH_POINT_EVENT (03 R63): a held event takes effect; an exchange that waited for the group goes on (26 R422). -/
def execSwitchPointEvent (k : GKey) (s : State) : Out :=
  match s.group? k with
  | none => .next s
  | some g =>
    let s1 := if g.pending && s.mayHalt g then s.switchEvent k else s
    .next (s1.completeExchange g.id.part.toNat)

/-! ### Waits that end without their condition -/

/-- A wait ends by its timeout, with what the instruction writes then. -/
def lateEnd (k : GKey) (w : Wait) : Option (M Unit) :=
  match w.op with
  | .fullEmpty (.ste _) => some (M.setPt k (ptOf w.f) true)
  | .fullEmpty _ => some (M.keepEnd k w.f)
  | .timeline => some (M.tlEnd k w.f)
  | .chunk => some (M.setPt k (ptOf w.f) true)
  | .plane => some (M.cwaitpEnd k w.f)
  | .barrier _ t _ => some (M.barEnd k w.f t true)
  | .join => some (M.keepEnd k w.f)
  | .lnch => some (M.keepEnd k w.f)
  | .ordc => some (M.keepEnd k w.f)
  | .pwait => some (M.keepEnd k w.f)
  | .sleep => none
  | .mrg _ => none
  | .tlbsync => none
  | .ctxs => none

/-- WAIT_TIMEOUT (10 R193): nothing is acquired. -/
def execWaitTimeout (k : GKey) (s : State) : Out :=
  s.wake k fun w =>
    match w.over s.cyc, lateEnd k w with
    | true, some m => some (do
        m
        pure true)
    | _, _ => none

/-- A watchdog period (28 R436). -/
def wdogUnits (ms : Word32) : Nat := usUnits (1000 * ms.toNat)

/-- The watchdog ends a wait of this kind. -/
def WaitOp.watched : WaitOp → Bool
  | .sleep => false
  | .mrg _ => false
  | .tlbsync => false
  | .ctxs => false
  | _ => true

/-- A group whose BAR.ARRIVE_WAIT the watchdog traps: its arrival stands. -/
def Group.armFor (g : Group) (w : Wait) : Group :=
  match w.op with
  | .barrier _ t _ => if w.f.fn = 1 then { g with armed := some (g.regs.pc - BitVec.ofNat 64 w.f.len, t) } else g
  | _ => g

/-- WATCHDOG (28 R436). -/
def execWatchdog (k : GKey) (s : State) : Out :=
  match s.group? k with
  | none => .next s
  | some g =>
    match g.waitOf, s.part? g.id.part.toNat with
    | some w, some p =>
      let t := s.cyc.toNat - w.start.toNat
      if p.wdog != 0 && w.limit.isNone && w.op.watched && wdogUnits p.wdog < s.time - w.since then
        .next ((s.setGroup k (g.armFor w)).trapWaiting k { cause := cWatchdog, xinfo := t })
      else .next s
    | _, _ => .next s

/-! ### The return of a renewal (08 R149) -/

/-- LEASE_RENEWAL_RETURN: the same write timestamp lets the speculation stand; another makes the group replay from its
load, which then reads the renewed copy: the discarded state leaves only the renewal behind. DESIGN CHOICE, log 44: the ticks that lt
took meanwhile (08 R145) go with it, as R149 restores lt, and their clocks are not counted again. -/
def execLeaseRenewalReturn (k : GKey) (s : State) : Out :=
  match s.group? k with
  | none => .next s
  | some g =>
    match g.spec with
    | none => .next s
    | some x =>
      let s1 := (s.mergeLine (.group k) x.line).touch (.group k) x.line
      if (s.lineAt x.line).wts = x.wts && (s.lineAt x.line).pot.isNone then
        .next ((s1.onGroup k fun g => { g with spec := none }).stepped k)
      else
        .next (s1.onGroup k fun g => { g with spec := none, regs := x.saved })

end Sys2Proof.Machine
end

