-- ==== Sys2Proof/Machine/Convert.lean ====
section
/-!
DEFINITION. Conversions and block scales (17 R295 to R300).
-/
namespace Sys2Proof.Machine
open Sys2Proof

/-- The source code of VCVT. -/
def srcT (f : Fields) : BitVec 3 := f.x.extractLsb' 0 3

/-- VCVT.FPFP (17 R296): a packed side and an unpacked side meet in part X[3], and a packed destination keeps its other
part. -/
def execVcvtFpfp (f : Fields) (s : State) : Out :=
  runRegs (.vcvtFpfp f) (fun f g =>
    let st := srcT f
    let part := bitNat f.x.toNat 3
    let mode := g.rm f.m
    let conv (e pos a : Nat) : Nat × Fl := fpConv (fmtOf st) (fmtOf f.t) mode (g.draw mode e pos) a
    let res (e : Nat) : Elem :=
      let a := g.vsrc f (.f st) f.a e
      if fpN st = 2 && fpN f.t = 2 then
        felem (joinFl 16 ((List.range 2).map fun j => conv e j (unpackNat 16 a.v.toNat j))) [a.tag]
      else if fpN st = 2 then felem (conv e 0 (unpackNat 16 a.v.toNat part)) [a.tag]
      else if fpN f.t = 2 then
        let d := g.regs.dstAt f.d false e
        let (c, fl) := conv e part (a.v.toNat % 2 ^ fpW st)
        let keep := unpackNat 16 d.v.toNat (1 - part) * 2 ^ (16 * (1 - part))
        felem (keep + c * 2 ^ (16 * part), fl) [a.tag, d.tag]
      else felem (conv e 0 (a.v.toNat % 2 ^ fpW st)) [a.tag]
    .ok (g.vresult f (f.t == 1) (writesOf (g.active f) res))) s

/-- VCVT.FPINT (17 R297). -/
def execVcvtFpint (f : Fields) (s : State) : Out :=
  runRegs (.vcvtFpint f) (fun f g =>
    let st := srcT f
    let mode := g.rm f.m
    let res (e : Nat) : Elem :=
      let a := g.vsrc f (.f st) f.a e
      let part (j : Nat) : Nat × Fl :=
        fpToInt (fmtOf st) (isSigned f.t) (partW f.t) mode (g.draw mode e j) (unpackNat (fpW st) a.v.toNat j)
      felem (joinFl (partW f.t) ((List.range (fpN st)).map part)) [a.tag]
    .ok (g.vresult f (wideInt f.t) (writesOf (g.active f) res))) s

/-- VCVT.INTFP (17 R297). -/
def execVcvtIntfp (f : Fields) (s : State) : Out :=
  runRegs (.vcvtIntfp f) (fun f g =>
    let st := srcT f
    let mode := g.rm f.m
    let res (e : Nat) : Elem :=
      let a := g.vsrc f (.i st) f.a e
      let part (j : Nat) : Nat × Fl :=
        intToFp (fmtOf f.t) mode (g.draw mode e j) (toInt (isSigned st) (partW st) (unpackNat (partW st) a.v.toNat j))
      felem (joinFl (fpW f.t) ((List.range (fpN f.t)).map part)) [a.tag]
    .ok (g.vresult f (f.t == 1) (writesOf (g.active f) res))) s

/-! ### Slots -/

/-- The slot index in I32. -/
def slotK (f : Fields) : Nat := bitsNat f.i32.toNat 2 0
/-- The container position in I32. -/
def slotQ (f : Fields) : Nat := bitsNat f.i32.toNat 10 8

/-- FPSLOT and SLOTFP name a set slot, a container within the element, and B as 0x00 where the slot has no blocks. -/
def slotOk (g : Group) (f : Fields) : Bool :=
  let w := g.slot (slotK f)
  w != 0 && slotQ f < (slotFmt w).per && (slotBlk w != 0 || f.b == .v 0)

/-- VRQ and VBSC name a set slot with blocks. -/
def blockOk (g : Group) (f : Fields) : Bool := let w := g.slot (slotK f); w != 0 && slotBlk w != 0

/-- A 32-bit element of a source that holds codes or scales. -/
def Group.bits32 (g : Group) (f : Fields) (s : Sel) (e : Nat) : Elem := g.vsrc f (.i 1) s e

/-- The scale of an element: one where the slot has no blocks. -/
def Group.scaleAt (g : Group) (f : Fields) (w : Word32) (s : Sel) (e : Nat) : Fp × Option Tag :=
  if slotBlk w = 0 then (.fin false 1 0, none)
  else let b := g.bits32 f s e; (scaleOf (slotScl w) b.v.toNat, b.tag)

/-- A value divided by a scale and rounded into a slot format; a scale that is zero, infinite or NaN gives the NaN row
and NV (17 R298, R299). -/
def toSlot (F : Fmt) (mode : Rm) (rnd : Nat) (x : Exact × Fl) (s : Fp) : Nat × Fl :=
  if !s.divisor then let (c, fl) := nanInto F; (c, fl ||| flNV)
  else
    let q := scaleDiv x.1 s
    let (c, fl) := roundTo F mode rnd q.1
    (c, fl ||| x.2 ||| q.2)

/-- VCVT.FPSLOT (17 R298). -/
def execVcvtFpslot (f : Fields) (s : State) : Out :=
  runRegs (.vcvtFpslot f) (fun f g =>
    let w := g.slot (slotK f)
    let F := slotFmt w
    let q := slotQ f
    let mode := g.rm f.m
    let res (e : Nat) : Elem :=
      let a := g.fsrc f f.a e
      let (sc, st) := g.scaleAt f w f.b e
      let d := g.regs.dstAt f.d false e
      let x := decodeFp (fmtOf f.t) a.v.toNat
      let (c, fl) := toSlot F mode (g.draw mode e q) (x.exact, x.sigFl) sc
      felem (F.putCode d.v.toNat q c, fl) [a.tag, st, d.tag]
    .ok (g.vresult f false (writesOf (g.active f) res))) s { ok5 := slotOk }

/-- VCVT.SLOTFP (17 R298). -/
def execVcvtSlotfp (f : Fields) (s : State) : Out :=
  runRegs (.vcvtSlotfp f) (fun f g =>
    let w := g.slot (slotK f)
    let F := slotFmt w
    let q := slotQ f
    let mode := g.rm f.m
    let res (e : Nat) : Elem :=
      let a := g.bits32 f f.a e
      let (sc, st) := g.scaleAt f w f.b e
      let v := scaleMul (decodeFp F (F.codeAt a.v.toNat q)) sc
      felem (roundRes (fmtOf f.t) mode (g.draw mode e q) [] v) [a.tag, st]
    .ok (g.vresult f (f.t == 1) (writesOf (g.active f) res))) s { ok5 := slotOk }

/-- VRQ (17 R299). -/
def execVrq (f : Fields) (s : State) : Out :=
  runRegs (.vrq f) (fun f g =>
    let w := g.slot (slotK f)
    let F := slotFmt w
    let mode := g.rm f.m
    let res (e : Nat) : Elem :=
      let a := g.bits32 f f.a e
      let (sb, tb) := g.scaleAt f w f.b e
      let (sc, tc) := g.scaleAt f w f.c e
      let part (j : Nat) : Nat × Fl :=
        toSlot F mode (g.draw mode e j) (scaleMul (decodeFp F (F.codeAt a.v.toNat j)) sb) sc
      felem (joinFl F.cont ((List.range F.per).map part)) [a.tag, tb, tc]
    .ok (g.vresult f false (writesOf (g.active f) res))) s { ok5 := blockOk }

/-- The larger of two magnitudes. -/
def maxMag (x y : Nat × Int) : Nat × Int := if gtScaled x.1 x.2 y.1 y.2 then x else y

/-- What a block offers to VBSC: the largest finite magnitude of its unpoisoned values, whether one of them is a NaN, and
the first tag. -/
structure BlockSum where
  amax : Nat × Int := (0, 0)
  nan : Bool := false
  tag : Option Tag := none

/-- A lane's values enter the block. -/
def BlockSum.take (b : BlockSum) (t : BitVec 3) (a : Elem) : BlockSum :=
  match a.tag with
  | some x => { b with tag := firstTag [b.tag, some x] }
  | none => (List.range (fpN t)).foldl (fun b j =>
      match decodeFp (fmtOf t) (unpackNat (fpW t) a.v.toNat j) with
      | .nan _ => { b with nan := true }
      | .inf _ => b
      | .fin _ m e => { b with amax := maxMag b.amax (m, e) }) b

/-- The scale exponent of a largest magnitude (17 R300), clamped; where the slot's largest finite value is zero no exponent
satisfies the rule (log 6). -/
def scaleExp (w : Word32) (amax : Nat × Int) : Int :=
  let (k, q) := (slotFmt w).maxFin false
  let lo : Int := if slotScl w = 0 then -127 else -126
  let kk : Int :=
    if amax.1 = 0 then 0
    else if k = 0 then Config.noScale w
    else
      let k0 : Int := (log2 amax.1 : Int) + amax.2 - ((log2 k : Int) + q)
      if gtScaled amax.1 amax.2 k (q + k0) then k0 + 1 else k0
  if kk < lo then lo else if 127 < kk then 127 else kk

/-- The scale code of a block. -/
def BlockSum.code (b : BlockSum) (w : Word32) : Elem :=
  { v := BitVec.ofNat 64 (scaleCode (slotScl w) (if b.nan then none else some (scaleExp w b.amax))), tag := b.tag }

/-- VBSC (17 R300). -/
def execVbsc (f : Fields) (s : State) : Out :=
  runRegs (.vbsc f) (fun f g =>
    let w := g.slot (slotK f)
    let blk := slotBlk w
    let act := g.active f
    let codes := (List.range (1024 / blk)).map fun b =>
      ((((List.range blk).map (b * blk + ·)).filter act).foldl (fun x e => x.take f.t (g.fsrc f f.a e)) {} : BlockSum).code w
    .ok (g.vresult f false (writesOf act fun e => codes.getD (e / blk) {}))) s { ok5 := blockOk }

end Sys2Proof.Machine
end

