-- ==== Sys2Proof/Machine/Crypto.lean ====
section
/-!
DEFINITION. The functions of other standards that the spec names: SHA-512 (25 R401, R402, 28 R437), AES-256 in XTS (25 R400) and in
GCM with HKDF-SHA-512 and X25519 (25 R403), and Ed25519 (25 R402, 29 R441). PRESUMED, log 5: the spec names them and the standards
define them (FIPS 180-4 and 197, IEEE 1619, NIST SP 800-38D, RFC 5869, 7748 and 8032).
-/
namespace Sys2Proof.Machine
open Sys2Proof

/-! ### SHA-512 (FIPS 180-4) -/

namespace Sha
/-- The constants of the 80 rounds. -/
def consts : List Word64 :=
  [0x428a2f98d728ae22, 0x7137449123ef65cd, 0xb5c0fbcfec4d3b2f, 0xe9b5dba58189dbbc,
    0x3956c25bf348b538, 0x59f111f1b605d019, 0x923f82a4af194f9b, 0xab1c5ed5da6d8118,
    0xd807aa98a3030242, 0x12835b0145706fbe, 0x243185be4ee4b28c, 0x550c7dc3d5ffb4e2,
    0x72be5d74f27b896f, 0x80deb1fe3b1696b1, 0x9bdc06a725c71235, 0xc19bf174cf692694,
    0xe49b69c19ef14ad2, 0xefbe4786384f25e3, 0x0fc19dc68b8cd5b5, 0x240ca1cc77ac9c65] ++
  [0x2de92c6f592b0275, 0x4a7484aa6ea6e483, 0x5cb0a9dcbd41fbd4, 0x76f988da831153b5,
    0x983e5152ee66dfab, 0xa831c66d2db43210, 0xb00327c898fb213f, 0xbf597fc7beef0ee4,
    0xc6e00bf33da88fc2, 0xd5a79147930aa725, 0x06ca6351e003826f, 0x142929670a0e6e70,
    0x27b70a8546d22ffc, 0x2e1b21385c26c926, 0x4d2c6dfc5ac42aed, 0x53380d139d95b3df,
    0x650a73548baf63de, 0x766a0abb3c77b2a8, 0x81c2c92e47edaee6, 0x92722c851482353b] ++
  [0xa2bfe8a14cf10364, 0xa81a664bbc423001, 0xc24b8b70d0f89791, 0xc76c51a30654be30,
    0xd192e819d6ef5218, 0xd69906245565a910, 0xf40e35855771202a, 0x106aa07032bbd1b8,
    0x19a4c116b8d2d0c8, 0x1e376c085141ab53, 0x2748774cdf8eeb99, 0x34b0bcb5e19b48a8,
    0x391c0cb3c5c95a63, 0x4ed8aa4ae3418acb, 0x5b9cca4f7763e373, 0x682e6ff3d6b2b8a3,
    0x748f82ee5defb2fc, 0x78a5636f43172f60, 0x84c87814a1f0ab72, 0x8cc702081a6439ec] ++
  [0x90befffa23631e28, 0xa4506cebde82bde9, 0xbef9a3f7b2c67915, 0xc67178f2e372532b,
    0xca273eceea26619c, 0xd186b8c721c0c207, 0xeada7dd6cde0eb1e, 0xf57d4f7fee6ed178,
    0x06f067aa72176fba, 0x0a637dc5a2c898a6, 0x113f9804bef90dae, 0x1b710b35131c471b,
    0x28db77f523047d84, 0x32caab7b40c72493, 0x3c9ebe0a15c9bebc, 0x431d67c49c100d4c,
    0x4cc5d4becb3e42b6, 0x597f299cfc657e2a, 0x5fcb6fab3ad6faec, 0x6c44198c4a475817]

/-- The first hash value. -/
def init : List Word64 :=
  [0x6a09e667f3bcc908, 0xbb67ae8584caa73b, 0x3c6ef372fe94f82b, 0xa54ff53a5f1d36f1,
    0x510e527fade682d1, 0x9b05688c2b3e6c1f, 0x1f83d9abfb41bd6b, 0x5be0cd19137e2179]

/-- A word from eight bytes, the most significant first. -/
def word (l : List Byte) : Word64 := l.foldl (fun w b => w <<< 8 ||| b.setWidth 64) 0
/-- The eight bytes of a word, the most significant first. -/
def bytes (w : Word64) : List Byte := (leBytes 8 w.toNat).reverse

/-- The words of a block of 128 bytes. -/
def blockWords (l : List Byte) : List Word64 := (List.range 16).map fun i => word ((l.drop (8 * i)).take 8)

/-- The small sigma functions. -/
def s0 (x : Word64) : Word64 := x.rotateRight 1 ^^^ x.rotateRight 8 ^^^ x >>> 7
/-- See `s0`. -/
def s1 (x : Word64) : Word64 := x.rotateRight 19 ^^^ x.rotateRight 61 ^^^ x >>> 6

/-- The message schedule: the newest of the last 16 words stands first; n words are still to come. -/
def schedule : Nat → List Word64 → List Word64
  | 0, l => l.reverse
  | n + 1, l => schedule n ((s1 (l.getD 1 0) + l.getD 6 0 + s0 (l.getD 14 0) + l.getD 15 0) :: l)

/-- The eight working variables. -/
structure Vars where
  a : Word64
  b : Word64
  c : Word64
  d : Word64
  e : Word64
  f : Word64
  g : Word64
  h : Word64

/-- One round, with its constant and its word of the schedule. -/
def round (v : Vars) (k : Word64 × Word64) : Vars :=
  let t1 := v.h + (v.e.rotateRight 14 ^^^ v.e.rotateRight 18 ^^^ v.e.rotateRight 41) + (v.e &&& v.f ^^^ ~~~v.e &&& v.g) + k.1 + k.2
  let t2 := (v.a.rotateRight 28 ^^^ v.a.rotateRight 34 ^^^ v.a.rotateRight 39) + (v.a &&& v.b ^^^ v.a &&& v.c ^^^ v.b &&& v.c)
  { a := t1 + t2, b := v.a, c := v.b, d := v.c, e := v.d + t1, f := v.e, g := v.f, h := v.g }

/-- The hash value after one more block. -/
def block (h : List Word64) (l : List Byte) : List Word64 :=
  let w := schedule 64 (blockWords l).reverse
  let x (i : Nat) : Word64 := h.getD i 0
  let v := (consts.zip w).foldl round ⟨x 0, x 1, x 2, x 3, x 4, x 5, x 6, x 7⟩
  [x 0 + v.a, x 1 + v.b, x 2 + v.c, x 3 + v.d, x 4 + v.e, x 5 + v.f, x 6 + v.g, x 7 + v.h]

/-- The padded message. -/
def pad (l : List Byte) : List Byte :=
  l ++ [0x80] ++ List.replicate ((239 - l.length % 128) % 128) 0 ++ (leBytes 16 (8 * l.length)).reverse
end Sha

/-- The SHA-512 digest of bytes. -/
def sha512 (l : List Byte) : List Byte :=
  let p := Sha.pad l
  ((List.range (p.length / 128)).foldl (fun h i => Sha.block h ((p.drop (128 * i)).take 128)) Sha.init).flatMap Sha.bytes

/-- HMAC-SHA-512 (RFC 2104). -/
def hmac (key msg : List Byte) : List Byte :=
  let k0 := if 128 < key.length then sha512 key else key
  let k := k0 ++ List.replicate (128 - k0.length) 0
  sha512 (k.map (· ^^^ 0x5C) ++ sha512 (k.map (· ^^^ 0x36) ++ msg))

/-- 32 bytes of HKDF-SHA-512 (RFC 5869). -/
def hkdf (salt ikm info : List Byte) : List Byte := (hmac (hmac salt ikm) (info ++ [1])).take 32

/-! ### AES-256 (FIPS 197) -/

namespace Aes
/-- A byte times x in GF(2^8). -/
def xtime (b : Byte) : Byte := b <<< 1 ^^^ if b.getLsbD 7 then 0x1B else 0
/-- The product of two bytes in GF(2^8), from the top bit of the second down. -/
def mul (a b : Byte) : Byte :=
  (List.range 8).foldl (fun r i => xtime r ^^^ if b.getLsbD (7 - i) then a else 0) 0
/-- The inverse of a byte, its power 254; of zero, zero. -/
def inv (a : Byte) : Byte := (List.range 6).foldl (fun r _ => mul (mul r r) a) a |> fun r => mul r r
/-- The S-box. -/
def sbox (a : Byte) : Byte :=
  let b := inv a
  b ^^^ b.rotateLeft 1 ^^^ b.rotateLeft 2 ^^^ b.rotateLeft 3 ^^^ b.rotateLeft 4 ^^^ 0x63
/-- The inverse S-box. -/
def sboxInv (a : Byte) : Byte := inv (a.rotateLeft 1 ^^^ a.rotateLeft 3 ^^^ a.rotateLeft 6 ^^^ 0x05)

/-- Bytes added in GF(2^8). -/
def xor (a b : List Byte) : List Byte := List.zipWith (· ^^^ ·) a b

/-- The words of the key schedule, the newest first: n are still to come, i is the index of the next. -/
def expand : Nat → Nat → List (List Byte) → List (List Byte)
  | 0, _, l => l.reverse
  | n + 1, i, l =>
    let t := l.getD 0 []
    let rcon : Byte := (List.range (i / 8 - 1)).foldl (fun r _ => xtime r) 1
    let t' := if i % 8 = 0 then xor ((t.drop 1 ++ t.take 1).map sbox) [rcon, 0, 0, 0] else if i % 8 = 4 then t.map sbox else t
    expand n (i + 1) (xor (l.getD 7 []) t' :: l)

/-- The 15 round keys of a key of 32 bytes. -/
def roundKeys (key : List Byte) : List (List Byte) :=
  let ws := expand 52 8 ((List.range 8).map fun i => (key.drop (4 * i)).take 4).reverse
  (List.range 15).map fun r => ((ws.drop (4 * r)).take 4).flatten

/-- The rows of a state shifted: byte r of column c comes from column c + r·s. -/
def shiftRows (s : Nat) (l : List Byte) : List Byte := (List.range 16).map fun i => l.getD ((i + 4 * (i % 4) * s) % 16) 0
/-- A matrix with first row m over each column. -/
def mixColumns (m : List Byte) (l : List Byte) : List Byte :=
  (List.range 16).map fun i =>
    (List.range 4).foldl (fun x j => x ^^^ mul (l.getD (4 * (i / 4) + j) 0) (m.getD ((j + 4 - i % 4) % 4) 0)) 0

/-- The cipher on one block. -/
def encrypt (key b : List Byte) : List Byte :=
  let ks := roundKeys key
  let mid := (List.range 13).foldl (fun x r => xor (mixColumns [2, 3, 1, 1] (shiftRows 1 (x.map sbox))) (ks.getD (r + 1) []))
    (xor b (ks.getD 0 []))
  xor (shiftRows 1 (mid.map sbox)) (ks.getD 14 [])

/-- The inverse cipher on one block. -/
def decrypt (key b : List Byte) : List Byte :=
  let ks := roundKeys key
  let mid := (List.range 13).foldl (fun x r =>
    mixColumns [14, 11, 13, 9] (xor ((shiftRows 3 x).map sboxInv) (ks.getD (13 - r) []))) (xor b (ks.getD 14 []))
  xor ((shiftRows 3 mid).map sboxInv) (ks.getD 0 [])
end Aes

/-! ### XTS-AES-256 (IEEE 1619) -/

/-- A tweak times x: a number of 128 bits, little-endian. -/
def xtsNext (t : List Byte) : List Byte :=
  let n := 2 * ofLeBytes t
  leBytes 16 (if n < 2 ^ 128 then n else (n - 2 ^ 128) ^^^ 0x87)

/-- Blocks of 16 bytes under a tweak that moves on with each. -/
def xtsBlocks (f : List Byte → List Byte) : Nat → List Byte → List Byte → List Byte
  | 0, _, _ => []
  | n + 1, t, l => Aes.xor (f (Aes.xor (l.take 16) t)) t ++ xtsBlocks f n (xtsNext t) (l.drop 16)

/-- A data unit of n blocks under two keys and a tweak of 128 bits. -/
def xts (f : List Byte → List Byte → List Byte) (key1 key2 : List Byte) (tweak n : Nat) (l : List Byte) : List Byte :=
  xtsBlocks (f key1) n (Aes.encrypt key2 (leBytes 16 tweak)) l

/-! ### AES-256-GCM (NIST SP 800-38D) -/

namespace Gcm
/-- The product of two blocks in GF(2^128), as numbers whose most significant bit comes first. -/
def mul (x y : Nat) : Nat :=
  ((List.range 128).foldl (fun (z, v) i =>
    (if x.testBit (127 - i) then z ^^^ v else z, if v % 2 = 1 then v / 2 ^^^ 0xE1 * 2 ^ 120 else v / 2)) (0, y)).1

/-- The number of a block, the most significant byte first. -/
def num (l : List Byte) : Nat := ofLeBytes l.reverse
/-- A block of a number. -/
def block (n : Nat) : List Byte := (leBytes 16 n).reverse
/-- The blocks of bytes, the last filled with zeros. -/
def blocks (l : List Byte) : List (List Byte) :=
  (List.range ((l.length + 15) / 16)).map fun i => let b := (l.drop (16 * i)).take 16; b ++ List.replicate (16 - b.length) 0

/-- GHASH under a hash key. -/
def ghash (h : Nat) (l : List (List Byte)) : Nat := l.foldl (fun y b => mul (y ^^^ num b) h) 0

/-- The counter block i of a nonce of 12 bytes. -/
def counter (nonce : List Byte) (i : Nat) : List Byte := nonce ++ (leBytes 4 i).reverse

/-- The tag of a ciphertext with no further data. -/
def tag (key nonce ct : List Byte) : List Byte :=
  let h := num (Aes.encrypt key (List.replicate 16 0))
  Aes.xor (block (ghash h (blocks ct ++ [List.replicate 8 0 ++ (leBytes 8 (8 * ct.length)).reverse])))
    (Aes.encrypt key (counter nonce 1))

/-- Bytes under the stream of the counter blocks from the second on: the cipher and its inverse. -/
def stream (key nonce l : List Byte) : List Byte :=
  (List.range ((l.length + 15) / 16)).flatMap fun i =>
    Aes.xor ((l.drop (16 * i)).take 16) (Aes.encrypt key (counter nonce (i + 2)))

/-- The plaintext, none where the tag does not verify. -/
def open_ (key nonce ct t : List Byte) : Option (List Byte) := if tag key nonce ct = t then some (stream key nonce ct) else none
end Gcm

/-! ### Curve25519 (RFC 7748, RFC 8032) -/

namespace Curve
/-- The prime of the field. -/
def p : Nat := 2 ^ 255 - 19
/-- A power modulo the prime, over the n low bits of the exponent. -/
def pow (b : Nat) (n e : Nat) : Nat :=
  (List.range n).foldl (fun r i => let r2 := r * r % p; if e.testBit (n - 1 - i) then r2 * b % p else r2) 1
/-- The inverse in the field. -/
def inv (x : Nat) : Nat := pow x 255 (p - 2)
/-- A difference in the field. -/
def sub (x y : Nat) : Nat := (x + (p - y % p)) % p
/-- The scalar of a private key. -/
def clamp (k : Nat) : Nat := k % 2 ^ 254 / 8 * 8 + 2 ^ 254

/-- A pair of points of the Montgomery ladder, in projective coordinates. -/
structure Ladder where
  x2 : Nat
  z2 : Nat
  x3 : Nat
  z3 : Nat

/-- Two points exchanged where a bit says so. -/
def Ladder.swap (s : Ladder) (b : Bool) : Ladder := if b then ⟨s.x3, s.z3, s.x2, s.z2⟩ else s

/-- A step of the ladder. -/
def Ladder.step (u : Nat) (s : Ladder) : Ladder :=
  let a := (s.x2 + s.z2) % p
  let b := sub s.x2 s.z2
  let aa := a * a % p
  let bb := b * b % p
  let e := sub aa bb
  let da := sub s.x3 s.z3 * a % p
  let cb := (s.x3 + s.z3) * b % p
  { x2 := aa * bb % p
    z2 := e * (aa + 121665 * e) % p
    x3 := (da + cb) * (da + cb) % p
    z3 := u * (sub da cb * sub da cb % p) % p }

/-- X25519: a scalar times the point with a u coordinate. -/
def x25519 (k u : Nat) : Nat :=
  let n := clamp k
  let u := u % 2 ^ 255 % p
  let s := (List.range 255).foldl (fun (s : Ladder) i =>
    let b := n.testBit (254 - i)
    ((s.swap b).step u).swap b) ⟨1, 0, u, 1⟩
  s.x2 * inv s.z2 % p

/-- The constant d of the Edwards curve. -/
def d : Nat := sub 0 (121665 * inv 121666)
/-- A square root of -1. -/
def i : Nat := pow 2 253 ((p - 1) / 4)

/-- The x coordinate with even parity of a point with a y coordinate on the Edwards curve. -/
def xOf (y : Nat) : Nat :=
  let xx := sub (y * y) 1 * inv (d * (y * y % p) + 1) % p
  let r := pow xx 253 ((p + 3) / 8)
  let x := if r * r % p = xx then r else r * i % p
  if x % 2 = 0 then x else p - x

/-- A point of the Edwards curve in projective coordinates. -/
structure Pt where
  x : Nat
  y : Nat
  z : Nat

/-- The base point. -/
def base : Pt :=
  let y := 4 * inv 5 % p
  ⟨xOf y, y, 1⟩

/-- The sum of two points. -/
def Pt.add (a b : Pt) : Pt :=
  let aa := a.z * b.z % p
  let bb := aa * aa % p
  let c := a.x * b.x % p
  let dd := a.y * b.y % p
  let e := d * (c * dd % p) % p
  let f := sub bb e
  let g := (bb + e) % p
  { x := aa * (f * sub (sub ((a.x + a.y) * (b.x + b.y)) c) dd % p) % p
    y := aa * (g * (dd + c) % p) % p
    z := f * g % p }

/-- A scalar times a point, over 256 bits. -/
def Pt.times (a : Pt) (k : Nat) : Pt :=
  (List.range 256).foldl (fun r i => let r2 := r.add r; if k.testBit (255 - i) then r2.add a else r2) ⟨0, 1, 1⟩

/-- The encoding of a point as a number of 256 bits. -/
def Pt.code (a : Pt) : Nat :=
  let z := inv a.z
  a.y * z % p + a.x * z % p % 2 * 2 ^ 255

/-- The order of the base point. -/
def order : Nat := 2 ^ 252 + 27742317777372353535851937790883648493
end Curve

/-- The Ed25519 public key of a private key of 32 bytes. -/
def edPublic (sk : Nat) : Nat := (Curve.base.times (Curve.clamp (ofLeBytes ((sha512 (leBytes 32 sk)).take 32)))).code

/-- The Ed25519 signature of a message under a private key: 64 bytes. -/
def edSign (sk : Nat) (msg : List Byte) : List Byte :=
  let h := sha512 (leBytes 32 sk)
  let a := Curve.clamp (ofLeBytes (h.take 32))
  let r := ofLeBytes (sha512 (h.drop 32 ++ msg)) % Curve.order
  let rb := leBytes 32 (Curve.base.times r).code
  let k := ofLeBytes (sha512 (rb ++ leBytes 32 (edPublic sk) ++ msg)) % Curve.order
  rb ++ leBytes 32 ((r + k * a) % Curve.order)

/-! ### The keys of the device -/

/-- IDKEY: the identity public key (29 R441). -/
def identityKey : BitVec 256 := BitVec.ofNat 256 (edPublic Config.idSecret.toNat)

/-- The signature under the identity key of the digest of bytes (25 R402). -/
def identitySign (l : List Byte) : List Byte := edSign Config.idSecret.toNat (sha512 l)

/-- IMPK of a key pair: its X25519 public key (25 R401). -/
def importKey (keys : Nat) : BitVec 256 := BitVec.ofNat 256 (Curve.x25519 (Config.importSecret keys).toNat 9)

/-- The plaintext of an import envelope, none where the tag does not verify (25 R403): the key comes from the shared secret, with MEAS as
the salt and IMPK as the info. -/
def openEnvelope (keys : Nat) (meas : BitVec 512) (eph : BitVec 256) (nonce ct tag : List Byte) : Option (List Byte) :=
  let shared := leBytes 32 (Curve.x25519 (Config.importSecret keys).toNat eph.toNat)
  Gcm.open_ (hkdf (leBytes 64 meas.toNat) shared (leBytes 32 (importKey keys).toNat)) nonce ct tag

/-- A sector as the HBM base dies and root ports store it under the keys of a partition (25 R400). -/
def sealSector (keys tweak : Nat) (l : List Byte) : List Byte :=
  let k := leBytes 64 (Config.memoryKeys keys).toNat
  xts Aes.encrypt (k.take 32) (k.drop 32) tweak 2 l

/-- A stored sector as they give it (25 R400). -/
def openSector (keys tweak : Nat) (l : List Byte) : List Byte :=
  let k := leBytes 64 (Config.memoryKeys keys).toNat
  xts Aes.decrypt (k.take 32) (k.drop 32) tweak 2 l

end Sys2Proof.Machine
end

