-- ==== Sys2Proof/Machine/MemoryEvents.lean ====
section
/-!
DEFINITION. The steps of the memory system: directories (08 R136 to R142), DRAM schedulers (07 R130, R131), tiering and
migration (07 R133 to R135), walks and shootdowns (24 R381 to R388), the sweep after a rebase (08 R146).
-/
namespace Sys2Proof.Machine
open Sys2Proof

/-! ### Directories -/

/-- A line that this device can ask for. -/
def State.askable (s : State) (pa : Nat) : Bool := s.powered && s.backed pa && !s.lostAt pa

/-- DIRECTORY_LOAD_MISS (08 R139). -/
def execDirectoryLoadMiss (pa : Nat) (core : CoreId) (s : State) : Out :=
  .next (if s.askable pa then s.fillLine (lineOf pa) (coreNo core.x.toNat core.y.toNat) true else s)

/-- DIRECTORY_WRITE_OWNERSHIP (08 R139, R140). -/
def execDirectoryWriteOwnership (pa : Nat) (core : CoreId) (mask : BitVec 128) (s : State) : Out :=
  .next (if s.askable pa then s.ownLine (lineOf pa) (coreNo core.x.toNat core.y.toNat) mask else s)

/-- An operator and type that a contribution may have (10 R192). -/
def plkOk (fn : BitVec 4) (t : BitVec 3) : Bool := if fn < 6 then !packedInt t else 7 ≤ fn && fn ≤ 9 && t < 2

/-- DIRECTORY_PLK (08 R139, R150). -/
def execDirectoryPlk (pa : Nat) (core : CoreId) (fn : BitVec 4) (t : BitVec 3) (s : State) : Out :=
  .next (if s.askable pa && plkOk fn t then s.openPot (lineOf pa) (coreNo core.x.toNat core.y.toNat) fn t else s)

/-- The elements of a scalar or vector atomic with its size, or none for another instruction. -/
def nextAtomicEls (g : Group) (i : Instr) : Option (Fields × Nat × M (List El)) :=
  let one (f : Fields) : M (List El) := do
    let a ← M.clean (g.ssrc f true f.a)
    pure [g.scalarEl (a + offsetOf true f)]
  match i with
  | .satom f => some (f, atomSize f.fn f.t, one f)
  | .scas f => some (f, scalarSize f.t, one f)
  | .vatom f => some (f, atomSize f.fn f.t, M.vectorEls g f true (atomSize f.fn f.t))
  | _ => none

/-- The lines that a group's next instruction reaches as an atomic of group or cohort scope. -/
def State.scopedLines (s : State) (k : GKey) (cohort : Bool) : List Nat :=
  match s.group? k with
  | none => []
  | some g =>
    match s.fetch g with
    | .instr i =>
      match nextAtomicEls g i with
      | some (f, size, els) =>
        let walk : M (List (Nat × Spot)) := do
          let l ← els
          let ps ← M.places g f.m size l true
          M.xlatPage g.ctx .rmw ps
        if scopeOf f != (if cohort then 1 else 0) then []
        else match walk s with
          | .ok (l, _) => l.filterMap fun x => match x.2 with | .pa a => some (lineOf a) | .pad .. => none
          | .error _ => []
      | none => []
    | _ => []

/-- DIRECTORY_SCOPED_ATOMIC (08 R142): the copy that the next atomic of a group which may issue asks for is granted; one suspended in
MRG first meets the others (21 R353). -/
def execDirectoryScopedAtomic (pa : Nat) (k : GKey) (cohort : Bool) (s : State) : Out :=
  match s.group? k with
  | none => .next s
  | some g =>
    if g.mayIssue && (s.scopedLines k cohort).contains (lineOf pa) && (s.ordOf (.group k)).isNone then
      match s.meets (.group k) pa with
      | (true, s1) => .next s1
      | (false, s1) => .next (s1.fillCopy k (if cohort then .cohort g.id.inst else .group k) pa)
    else .next s

/-- EVICTION_NOTICE (08 R137, R143). -/
def execEvictionNotice (pa : Nat) (core : CoreId) (l2 : Bool) (s : State) : Out :=
  .next (s.evictLine (lineOf pa) (coreNo core.x.toNat core.y.toNat) l2)

/-- TIMESTAMP_SWEEP (08 R146). -/
def execTimestampSweep (line : Nat) (s : State) : Out := .next (s.sweepLine line)

/-! ### DRAM schedulers (07 R130, R131) -/

/-- The class of a slot of the rotation of 16: 8 of class 3, 4 of class 2, 2 of class 1, 1 of class 0; none for the
sixteenth, which takes the oldest request. -/
def slotClass (slot : Nat) : Option Nat :=
  if slot < 8 then some 3 else if slot < 12 then some 2 else if slot < 14 then some 1 else if slot < 15 then some 0 else none

/-- The class served in a slot: its own, else the next lower with a request, else the next higher. -/
def servedClass (reqs : List DramReq) (c : Nat) : Option Nat :=
  let has (n : Nat) : Bool := reqs.any fun r => r.cls.toNat = n
  match ((List.range (c + 1)).reverse).find? has with
  | some n => some n
  | none => ((List.range 4).filter fun n => c < n).find? has

/-- The request of the earliest stamp, the earlier arrival first. -/
def earliest : List DramReq → Option DramReq
  | [] => none
  | r :: l => match earliest l with
    | some y => some (if r.stamp ≤ y.stamp then r else y)
    | none => some r

/-- Of several waiting requests the one that a slot of the rotation takes. -/
def pickOf (slot : Nat) (reqs : List DramReq) : Option DramReq :=
  match slotClass slot with
  | none => reqs.head?
  | some c => match servedClass reqs c with
    | some n => earliest (reqs.filter fun r => r.cls.toNat = n)
    | none => none

/-- The request that a queue serves next. -/
def DramQueue.pick (d : DramQueue) : Option DramReq := pickOf d.slot d.reqs

/-- A queue after the pick of a request: the rotation goes on, and where a root port has room again a request that waits in the home
tower enters, chosen in the same order (07 R126). -/
def DramQueue.after (d : DramQueue) (r : DramReq) : DramQueue :=
  let d1 : DramQueue := { d with slot := (d.slot + 1) % 16, reqs := d.reqs.erase r }
  match pickOf d1.slot d1.held with
  | some h => if d1.reqs.length < portRoom then { d1 with reqs := d1.reqs ++ [h], held := d1.held.erase h } else d1
  | none => d1

/-- DRAM_SCHEDULER_PICK: the request is served, and counts a miss if it comes late (07 R130, R131). -/
def execDramSchedulerPick (queue : Nat) (s : State) : Out :=
  let d := Store.getD s.dram queue {}
  match d.pick with
  | none => .next s
  | some r => .next ({ s with dram := Store.put s.dram queue (d.after r) }.arrived r)

/-! ### Tiering (07 R133, R134) -/

/-- The next-use step that means never. -/
def never : Nat := 2 ^ 56 - 1

/-- A tiered page of an ASID with its hint. -/
structure TierPage where
  asid : Nat
  leaf : Leaf
  hint : Hint
  dist : Nat
deriving DecidableEq, Repr

/-- The tiered pages of a partition. -/
def State.tierPages (s : State) (p : Part) : List TierPage :=
  (List.range p.nasid).flatMap fun j =>
    let a := p.asid0 + j
    ((s.leaves p a 0 (2 ^ 60)).filter fun l => l.tiered).map fun l =>
      let h := Store.getD p.hints (hintKey a l.va) { prio := 0, next := never }
      { asid := a, leaf := l, hint := h, dist := h.next - Store.getD p.steps a 0 }

/-- The page lies in a tier of this device: in its HBM, or not. -/
def State.inTier (s : State) (hbm : Bool) (t : TierPage) : Bool :=
  s.isLocal (ptePfn t.leaf.pte) && isHbm (ptePfn t.leaf.pte) == hbm
/-- The page is pinned and does not migrate (07 R133). -/
def TierPage.pinned (t : TierPage) : Bool := bitNat t.leaf.pte 58 = 1
/-- The frames that a list of pages takes. -/
def framesOf (l : List TierPage) : Nat := (l.map fun t => t.leaf.size / 4096).sum

/-- The tables of a partition under a table of a level. -/
def State.tablesFrom (s : State) (p : Part) : Nat → Nat → Nat → List Nat
  | 0, _, _ => []
  | n + 1, table, level =>
    table :: (List.range (if level = 0 then 8 else 512)).flatMap fun i =>
      let e := s.walkWord (table + 8 * i)
      if bitNat e 0 = 1 && bitNat e 1 = 0 && !s.malformed e level then s.tablesFrom p n (ptePfn e) (level + 1) else []

/-- The ranges of a partition's memory that are in use as pages, tables, trap queue or trace region. -/
def State.usedRanges (s : State) (p : Part) : List (Nat × Nat) :=
  [(p.root, 8 * p.nasid), (p.tqBase, 64 * p.tqSize), (p.trBase, p.trSize)] ++
  (List.range p.nasid).flatMap fun j =>
    let top := bitsNat (s.walkWord (p.root + 8 * j)) 55 6 * 64
    let tables := if bitNat (s.walkWord (p.root + 8 * j)) 0 = 1 then s.tablesFrom p 6 top 0 else []
    (tables.map fun t => (t, 4096)) ++ (s.leaves p (p.asid0 + j) 0 (2 ^ 60)).map fun l => (ptePfn l.pte, l.size)

/-- A frame may take a page of a size: aligned, of the tier asked for, in the partition and in use for nothing. -/
def State.frameFree (s : State) (p : Part) (hbm : Bool) (pa size : Nat) : Bool :=
  pa % size = 0 && s.isLocal pa && s.backed pa && s.backed (pa + size - 1) && isHbm pa == hbm && p.owns pa size &&
  !(s.usedRanges p).any (fun r => pa < r.1 + r.2 && r.1 < pa + size) &&
  !s.migrations.any fun m => pa < m.new + m.size && m.new < pa + size || pa < m.old + m.size && m.old < pa + size

/-- One page goes before another as a victim: never used again, greatest distance, lowest priority, lowest address. Of two pages of
two ASIDs that are alike in all four the page of the lower ASID goes first (log 64: the spec names no further order). -/
def victimFirst (a b : TierPage) : Bool :=
  let na := a.hint.next == never
  let nb := b.hint.next == never
  (na && !nb) || (na == nb && (b.dist < a.dist || (a.dist == b.dist &&
    (a.hint.prio < b.hint.prio || (a.hint.prio == b.hint.prio && a.leaf.va ≤ b.leaf.va)))))

/-- The first victim. -/
def victim : List TierPage → Option TierPage
  | [] => none
  | x :: r => match victim r with
    | some y => some (if victimFirst x y then x else y)
    | none => some x

/-- The HBM frames that a partition's pages take (07 R134): those of the pages there, those that pages on their way in will stand in, and
those that pages whose leaf has changed still hold. -/
def State.hbmUsed (s : State) (part : BitVec 4) (pages : List TierPage) : Nat :=
  let held (m : Migration) : Bool := m.part = part &&
    ((isHbm m.new && !isHbm m.old && m.phase < 2) || (isHbm m.old && !isHbm m.new && 2 ≤ m.phase))
  framesOf (pages.filter (s.inTier true)) + ((s.migrations.filter held).map fun m => m.size / 4096).sum

/-- The HBM frames that pages on their way out will free. -/
def State.hbmLeaving (s : State) (part : BitVec 4) : Nat :=
  ((s.migrations.filter fun m => m.part = part && isHbm m.old && !isHbm m.new).map fun m => m.size / 4096).sum

/-- The migration of a page to a frame begins. -/
def State.startMigration (s : State) (part : BitVec 4) (t : TierPage) (new : Nat) : State :=
  let m : Migration :=
    { part := part, asid := BitVec.ofNat 16 t.asid, va := t.leaf.va, size := t.leaf.size, pteAt := t.leaf.pteAt,
      old := ptePfn t.leaf.pte, new := new, phase := 0 }
  { s with migrations := s.migrations ++ [m] }

/-- TIER_PROMOTION (07 R134): a page of the capacity tier with distance at most 1 begins to migrate to HBM; where the quota
is full, pinned pages counted, a victim whose distance is no smaller begins to migrate out first, unless pages on their way out
already make the room. -/
def execTierPromotion (part : BitVec 4) (asid : BitVec 16) (va : Nat) (s : State) : Out :=
  match s.part? part.toNat with
  | none => .next s
  | some p =>
    let pages := s.tierPages p
    let moving (t : TierPage) : Bool := s.migrating part.toNat t.asid t.leaf.va
    match pages.find? fun t => t.asid = asid.toNat && t.leaf.va ≤ va && va < t.leaf.va + t.leaf.size with
    | none => .next s
    | some t =>
      if !s.inTier false t || t.pinned || t.hint.next = never || 1 < t.dist || moving t then .next s
      else
        let f := Config.tierFrame s.nonce
        let s1 := { s with nonce := s.nonce + 1 }
        let here := pages.filter (s.inTier true)
        let used := s.hbmUsed part pages
        if used + framesOf [t] ≤ p.tquota then
          .next (if s.frameFree p true f t.leaf.size then s1.startMigration part t f else s1)
        else if used + framesOf [t] ≤ p.tquota + s.hbmLeaving part then .next s
        else
          match victim (here.filter fun x => !moving x && !x.pinned && (x.hint.next = never || t.dist ≤ x.dist)) with
          | some x => .next (if s.frameFree p false f x.leaf.size then s1.startMigration part x f else s1)
          | none => .next s1

/-! ### Migration (07 R135) -/

/-- The range shootdown of a migration. -/
def State.migrationShoot (s : State) (m : Migration) : State :=
  match s.part? m.part.toNat with
  | none => s
  | some p =>
    let t : Tlbi := { g := none, part := m.part, asid := some m.asid, lo := m.va, hi := m.va + m.size,
                      targets := s.tlbiTargets p (some m.asid) }
    { s with tlbis := s.tlbis ++ [t] }

/-- A shootdown is that of a migration. -/
def Migration.mine (m : Migration) (t : Tlbi) : Bool := t.g.isNone && t.part = m.part && t.asid = some m.asid && t.lo = m.va

/-- The migration's shootdown is over. -/
def State.shot (s : State) (m : Migration) : Bool := (s.tlbis.filter m.mine).all Tlbi.over
/-- The migration's shootdowns are forgotten. -/
def State.dropShoot (s : State) (m : Migration) : State := { s with tlbis := s.tlbis.filter fun t => !m.mine t }

/-- The lines of a frame of which the machine keeps something, as offsets in lines. -/
def State.keptLines (s : State) (base size : Nat) : List Nat :=
  let at_ (pa : Nat) : Option Nat := if base ≤ pa && pa < base + size then some ((pa - base) / 128) else none
  (s.mem.filterMap fun x => at_ x.1) ++ (s.poison.filterMap fun x => at_ (32 * x.1)) ++ (s.lines.filterMap fun x => at_ (128 * x.1))

/-- One line copied from frame to frame: the line returns to the ordinary states, its copies drain, its bytes and poison
stand in the new frame under a later timestamp, and the versions of ordered groups follow it. -/
def State.moveLine (s : State) (src dst : Nat) : State :=
  let s1 := (s.drainWhere fun c => c.line = src).ordinary .ext src
  let data := (List.range 128).map fun i => (128 * dst + i, s1.byteAt (128 * src + i))
  let s2 := (bySector data).foldl (fun s b => s.performOp .ext b false false none (s1.lineAt src).wts) s1
  let s3 := (List.range 4).foldl (fun s i =>
    if s1.poisonAt (128 * src + 32 * i) then s.markPoison (128 * dst + 32 * i) else s) s2
  let follow (v : Version) : Version := if v.line = src then { v with line := dst } else v
  let mark (r : ReadMark) : ReadMark := if r.line = src then { r with line := dst } else r
  let reads (g : Group) : Group := { g with ord := g.ord.map fun o => { o with reads := o.reads.map mark } }
  { s3 with versions := s3.versions.map follow, groups := s3.groups.map fun x => (x.1, reads x.2) }

/-- The page is copied to its new frame. -/
def State.movePage (s : State) (m : Migration) : State :=
  let offs := (s.keptLines m.old m.size ++ s.keptLines m.new m.size ++
    (s.ccopies.map fun c => c.line - m.old / 128).filter (fun o => o < m.size / 128)).eraseDups
  offs.foldl (fun s o => s.moveLine (m.old / 128 + o) (m.new / 128 + o)) s

/-- The leaf entry with another frame. -/
def withFrame (e pa : Nat) : Nat := e - bitsNat e 55 12 * 4096 + pa % 2 ^ 56 / 4096 * 4096

/-- PAGE_MIGRATION: one step of a migration: the first shootdown; the copy, and the leaf rewritten with the second
shootdown; the end. A leaf that software has changed or pinned meanwhile ends it (07 R133). -/
def execPageMigration (index : Nat) (s : State) : Out :=
  match s.migrations[index]? with
  | none => .next s
  | some m =>
    let phase (t : State) (n : Nat) : State := { t with migrations := t.migrations.set index { m with phase := n } }
    let drop (t : State) : State := { t with migrations := t.migrations.eraseIdx index }
    let e := s.walkWord m.pteAt
    if m.phase = 0 then .next (phase (s.migrationShoot m) 1)
    else if !s.shot m then .next s
    else if m.phase = 1 then
      if bitNat e 0 = 1 && bitNat e 1 = 1 && bitNat e 58 = 0 && ptePfn e = m.old then
        let s1 := (s.dropShoot m).movePage m
        .next (phase ((s1.writeOp .ext (numBytes m.pteAt 8 (withFrame e m.new)) false).migrationShoot m) 2)
      else .next (drop (s.dropShoot m))
    else .next (drop (s.dropShoot m))

/-! ### Walks and shootdowns (24 R381 to R388) -/

/-- The walks that a walker runs at once (24 R383). -/
def walkerRoom : Nat := 16
/-- The clocks after which a pending walk goes before all others (24 R383). -/
def walkLate : Nat := 4096

/-- For whom a walk is: its context and, for a group, the number of its instruction. The migration engine of a partition stands in the
tower of its first core, among the targets of its invalidations (24 R385, log 45). -/
def State.walkCtx (s : State) : WalkFor → Option (Ctx × Nat)
  | .group k => (s.group? k).map fun g => (g.ctx, g.regs.chain.seq)
  | .cmd c => (s.cmd? c).map fun x => ((s.runningAs x).ctx, 0)
  | .migration i => s.migrations[i]?.map fun m =>
      ({ part := m.part.toNat, asid := m.asid.toNat, sup := true,
         tlb := { target := 8 + (match s.part? m.part.toNat with | some p => towerOf (coreNo p.rx p.ry) | none => 0),
                  eng := some .migration } }, 0)

/-- The address is one that the walk may be of: any of a group's, one that the command's next units touch (24 R382), one of the page
that migrates. -/
def State.walkOk (s : State) (va : Nat) : WalkFor → Bool
  | .group _ => true
  | .cmd c => (s.cmd? c).any fun x => s.walksAhead x va
  | .migration i => s.migrations[i]?.any fun m => m.va ≤ va && va < m.va + m.size

/-- The counter of the invalidations of a partition that have reached a target (24 R387). -/
def genKey (part target : Nat) : Nat := part * 16 + target
/-- The generation of a partition's TLBs and walkers at a target. -/
def State.genAt (s : State) (part target : Nat) : Nat := Store.getD s.gens (genKey part target) 0

/-- Two walks are served by one walker: that of a core, for its groups and the engine contexts it serves, or that of a context with
no core. -/
def sameWalker (x y : TlbId) : Bool := x.target = y.target && x.core = y.core && (x.core.isSome || x.eng == y.eng)

/-- Two walks are of one instruction or command. -/
def Walk.mate (w x : Walk) : Bool := w.who == x.who && w.ins = x.ins

/-- The walks of an instruction that share every upper level, all but the last (24 R383, log 45). -/
def Walk.joins (w x : Walk) : Bool := w.mate x && w.va / 2 ^ 21 = x.va / 2 ^ 21

/-- The walk with the least value, the earlier in the list first. -/
def leastWalk (f : Walk → Nat) : List Walk → Option Walk
  | [] => none
  | x :: r => match leastWalk f r with
    | some y => some (if f x ≤ f y then x else y)
    | none => some x

/-- The pending walk that a walker starts next: one pending for 4,096 clocks, oldest first, else that of the instruction or command
with the fewest walks outstanding (24 R383). -/
def nextWalk (now : Nat) (l : List Walk) : Option Walk :=
  let waiting := l.filter fun x => !x.started
  match leastWalk (·.asked) (waiting.filter fun x => x.asked + walkLate ≤ now) with
  | some x => some x
  | none => leastWalk (fun x => (l.filter fun y => y.started && x.mate y).length) waiting

/-- A walker starts its next walk, and with it those that join it, within its room. -/
def State.startWalks (s : State) (at_ : TlbId) : State :=
  let here := s.walks.filter fun x => sameWalker at_ x.at_
  let room := walkerRoom - (here.filter (·.started)).length
  match nextWalk s.cyc.toNat here with
  | none => s
  | some w =>
    let joint := (w :: (here.filter fun x => !x.started && x != w && w.joins x)).take room
    { s with walks := s.walks.map fun x =>
        if joint.contains x then { x with started := true, gen := s.genAt x.part.toNat x.at_.target } else x }

/-- The walk of an address, from the root or from a table that the walk cache holds, by a free choice (24 R382). -/
def State.walkCached (s : State) (p : Part) (w : Walk) : Walked × State :=
  let hit := s.walkCache.find? fun c =>
    sameWalker c.at_ w.at_ && c.part = w.part && c.asid = w.asid && c.va = w.va / 2 ^ (spanLog c.level + 9)
  match hit, s.flip with
  | some c, (true, s1) => (s1.walkFrom p w.va (6 - c.level) c.table c.level, s1)
  | _, (_, s1) => (s1.walk p w.asid.toNat w.va, s1)

/-- The tables that a walk has gone through below the root's own enter the walk cache. -/
def State.cacheTables (s : State) (p : Part) (w : Walk) : State :=
  let e := s.walkWord (p.root + 8 * (w.asid.toNat - p.asid0))
  let ptrs := ((s.walkTables w.va 6 (bitsNat e 55 6 * 64) 0).filter fun x => 0 < x.1).map fun x : Nat × Nat =>
    ({ at_ := w.at_, part := w.part, asid := w.asid, va := w.va / 2 ^ (spanLog x.1 + 9), level := x.1, table := x.2 } : WalkPtr)
  let same (a b : WalkPtr) : Bool := sameWalker a.at_ b.at_ && a.part = b.part && a.asid = b.asid && a.va = b.va && a.level = b.level
  { s with walkCache := (s.walkCache.filter fun c => !ptrs.any (same c)) ++ ptrs }

/-- A walk that has started comes to its end: a valid leaf fills the TLB, but where an invalidation came meanwhile the fill is discarded
and the walk starts again (24 R381, R387). -/
def State.endWalk (s : State) (p : Part) (x : Ctx) (w : Walk) : State :=
  let s0 := s.walked x w.va
  if w.gen != s.genAt w.part.toNat w.at_.target then
    { s0 with walks := s0.walks.map fun y => if y == w then { y with gen := s.genAt w.part.toNat w.at_.target } else y }
  else
    let (r, s1) := s0.walkCached p w
    let s2 := { s1 with walks := s1.walks.erase w }
    match r with
    | .leaf e l =>
      let size := 2 ^ spanLog l
      let entry : TlbEntry :=
        { at_ := w.at_, part := w.part, asid := w.asid, va := w.va / size * size, size := size, pte := BitVec.ofNat 64 e }
      let old (y : TlbEntry) : Bool := y.at_ = w.at_ && y.part = w.part && y.asid = w.asid &&
        y.va < entry.va + size && entry.va < y.va + y.size
      { s2 with tlb := (s2.tlb.filter fun y => !old y) ++ [entry] }.cacheTables p w
    | _ => s2

/-- The walker of a target, or of a core behind it, is that of a context in a partition. -/
def Ctx.walksAt (x : Ctx) (target : BitVec 4) (core : Option CoreId) (part : BitVec 4) : Bool :=
  x.tlb.target = target.toNat && x.tlb.core = core.map (fun c => coreNo c.x.toNat c.y.toNat) && x.part = part.toNat

/-- PAGE_WALK (24 R381 to R383, R387): an address is given to the walker of a group, of a command ahead of its use, or of the
migration engine; a pending one lets the walker start the walk that is due; one that has started comes to its end. -/
def execPageWalk (target : BitVec 4) (core : Option CoreId) (part : BitVec 4) (who : WalkFor) (va : Nat) (s : State) : Out :=
  match s.walkCtx who with
  | none => .next { s with walks := s.walks.filter fun x => x.who != who }
  | some (x, ins) =>
    match (if x.walksAt target core part then s.part? x.part else none) with
    | none => .next s
    | some p =>
      match s.walks.find? fun w => w.who == who && w.va = va with
      | none =>
        if !s.walkOk va who then .next s else
        let w : Walk := { who := who, ins := ins, at_ := x.tlb, part := BitVec.ofNat 4 x.part, asid := BitVec.ofNat 16 x.asid,
                          va := va, asked := s.cyc.toNat }
        .next { s with walks := s.walks ++ [w] }
      | some w => .next (if w.started then s.endWalk p x w else s.startWalks w.at_)

/-- The invalidation covers a TLB entry. -/
def Tlbi.covers (t : Tlbi) (e : TlbEntry) : Bool :=
  e.part = t.part && (match t.asid with | some a => e.asid = a | none => true) && e.va < t.hi && t.lo < e.va + e.size

/-- The invalidation covers an entry of a walk cache: its table stands above leaves of the range (24 R385). -/
def Tlbi.coversPtr (t : Tlbi) (c : WalkPtr) : Bool :=
  let span := 2 ^ (spanLog c.level + 9)
  c.part = t.part && (match t.asid with | some a => c.asid = a | none => true) && c.va * span < t.hi && t.lo < (c.va + 1) * span

/-- A change to the invalidation with an index. -/
def State.onTlbi (s : State) (i : Nat) (f : Tlbi → Tlbi) : State :=
  match s.tlbis[i]? with
  | some t => { s with tlbis := s.tlbis.set i (f t) }
  | none => s

/-- TLBI_TARGET (24 R385, R387): the target's TLB entries go and the walk-cache entries above them, and the generation of the
partition's TLBs and walkers there advances. -/
def execTlbiTarget (index : Nat) (target : BitVec 4) (s : State) : Out :=
  match s.tlbis[index]? with
  | none => .next s
  | some t =>
    let x := target.toNat
    if !NSet.has t.targets x || NSet.has t.reached x || NSet.has t.lost x then .next s
    else
      .next ({ s with
        tlb := s.tlb.filter fun e => !(e.at_.target = x && t.covers e)
        walkCache := s.walkCache.filter fun c => !(c.at_.target = x && t.coversPtr c)
        gens := Store.put s.gens (genKey t.part.toNat x) (s.genAt t.part.toNat x + 1) }.onTlbi index fun t => { t with reached := NSet.add t.reached x })

/-- The group stands behind a target of the shootdown: on its die, or in its tower. -/
def Group.behind (g : Group) (target : Nat) : Bool :=
  let c := keyCore g.id.key
  (target < 8 && gdieOf c = target) || (8 ≤ target && target < 12 && towerOf c + 8 = target)

/-- The group runs under an invalidation's ASID. -/
def Group.under (g : Group) (t : Tlbi) : Bool := g.id.part = t.part && match t.asid with | some a => g.id.asid = a | none => true

/-- A list of line addresses has one in the invalidated range. -/
def Tlbi.hits (t : Tlbi) (vas : List Nat) : Bool := vas.any fun v => 128 * v < t.hi && t.lo < 128 * (v + 1)

/-- Versions that groups have made under an old translation (24 R386): those of the oldest group are performed; a later group gives
them up, and starts again. -/
def State.drainVersions (s : State) (t : Tlbi) (hit : GKey → Bool) : State :=
  s.allGroups.foldl (fun s x =>
    match s.ordOf (.group x.1) with
    | some (la, o) =>
      if !hit x.1 || !s.versions.any fun v => v.launch = la && v.ts = o.ts && t.hits v.vas then s
      else if s.isOldest la o then s.flushVersions (.group x.1) la o.ts
      else s.abort la (s.groups.length + 1) [o.ts]
    | none => s) s

/-- What stands under old translations at a target drains (24 R386): the write-combining lines of the ASID's groups there in the
affected pages, their versions, their scoped copies of lines reached through them, and their stores on the way to another device. -/
def State.drainOld (s : State) (t : Tlbi) (target : Nat) : State :=
  let hit (k : GKey) : Bool := (s.group? k).any fun g => g.under t && g.behind target
  let instHit (i : Nat) : Bool := (s.inst? i).any fun x => x.groups.any hit
  (((s.departWhere fun w => hit w.g && t.hits w.vas).drainVersions t hit).drainWhere fun c =>
    t.hits c.vas && match c.owner with | .group k => hit k | .cohort i => instHit i).deliverOut fun o => hit o.g

/-- A target that cannot acknowledge: that of the domain's devices while one of them cannot be reached (24 R388, 29 R448). -/
def State.mute (s : State) (target : Nat) : Bool := target = 14 && !s.lostPeers.isEmpty

/-- Invalidations that nobody waits for and that are over are forgotten. -/
def State.pruneTlbis (s : State) : State :=
  { s with tlbis := s.tlbis.filter fun t => match t.g with
    | some k => !(t.over && (s.group? k).isNone)
    | none => true }

/-- TLBI_ACK (24 R386): the target acknowledges once it has drained; TLBSYNC of the groups whose invalidations are over
returns. -/
def execTlbiAck (index : Nat) (target : BitVec 4) (s : State) : Out :=
  match s.tlbis[index]? with
  | none => .next s
  | some t =>
    let x := target.toNat
    if !NSet.has t.reached x || NSet.has t.acked x || NSet.has t.lost x || s.mute x then .next s
    else
      let s1 := (s.drainOld t x).onTlbi index fun t => { t with acked := NSet.add t.acked x }
      .next (s1.wakeSync.pruneTlbis)

/-- A group is frozen where it stands at a switch point, else at its next. -/
def State.freezeSoon (s : State) (k : GKey) : State :=
  match s.group? k with
  | none => s
  | some g =>
    if g.run == .ended || g.frozen.isSome then s
    else if s.mayHalt g then s.freezeHere k
    else s.setGroup k { g with wantFreeze := true }

/-- The commands of a partition behind a target: those of its groups there, and its queue copies at an I/O die. -/
def Cmd.behind (c : Cmd) (target : Nat) : Bool :=
  match c.key with
  | .group k _ _ => (target < 8 && gdieOf (keyCore k) = target) || (8 ≤ target && target < 12 && towerOf (keyCore k) + 8 = target)
  | .queue .. => target = 12

/-- The host functions of partitions freeze: the host port stands on I/O die 0 (01 R12, 25 R398). -/
def State.freezeHosts (s : State) (parts : List (BitVec 4)) : State :=
  (s.vfs.filter fun x => parts.contains x.2 && !NSet.has s.vfFrozen x.1).foldl (fun s x =>
    s.freezeHost x.1 x.2.toNat 0 0) s

/-- The devices of the domain that cannot be reached freeze for partitions (25 R398), and a machine-check record of each partition
names each (24 R388, 28 R432). -/
def State.freezePeers (s : State) (parts : List (BitVec 4)) : State :=
  s.lostPeers.foldl (fun s d => parts.foldl (fun s q =>
    let s1 := if NSet.has s.peerFrozen (peerId d q.toNat) then s else s.freezePeer d q.toNat 0 0
    s1.machineCheck { kind := 0x07, sev := 2, sock := 31, part := some q.toNat, addr := d * 2 ^ 47 }) s) s

/-- The requests of a group that are still on their way end with error (24 R388). -/
def State.endRequests (s : State) (k : GKey) : State :=
  let mine (r : DramReq) : Bool := r.g = some k
  { s with
    outbox := s.outbox.filter fun o => o.g != k
    dram := s.dram.map fun q => (q.1, { q.2 with reqs := q.2.reqs.filter (!mine ·), held := q.2.held.filter (!mine ·) })
    served := s.served.filter (!mine ·) }

/-- SHOOTDOWN_TARGET_LOST (24 R388): the target cannot acknowledge; every master of the partition behind it is frozen, and a
machine-check record names each remote device. -/
def execShootdownTargetLost (target : BitVec 4) (s : State) : Out :=
  let x := target.toNat
  let hit (t : Tlbi) : Bool := NSet.has t.targets x && !NSet.has t.acked x && !NSet.has t.lost x
  let parts := ((s.tlbis.filter hit).map (·.part)).eraseDups
  if parts.isEmpty || (x = 14 && s.lostPeers.isEmpty) then .next s
  else
    let lose (t : Tlbi) : Tlbi := if hit t then { t with lost := NSet.add t.lost x } else t
    let s1 := { s with tlbis := s.tlbis.map lose }
    let s2 := s1.allGroups.foldl (fun s g => if parts.contains g.2.id.part && g.2.behind x then (s.endRequests g.1).freezeSoon g.1
      else s) s1
    let s3 := (s2.cmds.filter fun c => parts.contains c.part && c.behind x && c.state != .frozen).foldl
      (fun s c => s.freezeCmd c 0 0) s2
    let s4 := if x = 12 then s3.freezeHosts parts else if x = 14 then s3.freezePeers parts else s3
    .next (s4.wakeSync.pruneTlbis)

end Sys2Proof.Machine
end

