-- ==== Sys2Proof/Machine/Reliability.lean ====
section
/-!
DEFINITION. Trail's drains (25 R404 to R407), errors and the machine-check log (28 R431 to R434, 01 R11), links, expanders
and unreachable devices (29 R446 to R448).
-/
namespace Sys2Proof.Machine
open Sys2Proof

/-! ### Trail (25 R406, R407) -/

/-- The slice of a core in its partition's trace region: its base and its bytes. -/
def Part.slice (p : Part) (core : Nat) : Option (Nat × Nat) :=
  let cores := p.coreList
  match cores.findIdx? fun c => c = core with
  | some i =>
    let size := p.trSize / cores.length
    some (p.trBase + i * size, size)
  | none => none

/-- TRACE_DRAIN (25 R407): the oldest record of a core's buffer goes into its ring, then the index goes up, as a release: its timestamp
lies at or above those of the records (the last index's, and the new record's). -/
def execTraceDrain (core : CoreId) (s : State) : Out :=
  let c := coreNo core.x.toNat core.y.toNat
  let k := s.coreAt c
  match k.trail, (s.partOfCore c).bind s.part? with
  | r :: rest, some p =>
    match p.slice c with
    | some (base, size) =>
      let ring := (size - 64) / 16
      let i := (s.mergeLine .ext (lineOf base)).numAt base 8
      let s1 := s.setCore c { k with trail := rest }
      let at_ := base + 64 + 16 * (i % ring)
      let s2 := s1.extWrite 0 (numBytes at_ 16 r.toNat)
      .next (s2.extWrite (max (s2.lineAt (lineOf base)).wts (s2.lineAt (lineOf at_)).wts) (numBytes base 8 ((i + 1) % 2 ^ 64)))
    | none => .next s
  | _, _ => .next s

/-- LOSS_RECORD (25 R406): what was dropped is reported once there is room. -/
def execLossRecord (core : CoreId) (s : State) : Out :=
  let c := coreNo core.x.toNat core.y.toNat
  let k := s.coreAt c
  if k.dropped = 0 || trailCap ≤ k.trail.length then .next s
  else .next ((s.setCore c { k with dropped := 0 }).trail c 0 8 0 k.dropped)

/-! ### Errors (28 R431) -/

/-- The socket of an address (01 R10): its HBM stack, or the I/O die of its root port. -/
def State.sockOf (s : State) (pa : Nat) : Nat :=
  if isHbm pa then 4 + localPa pa / 1024 % 12
  else match s.portOf (localPa pa) with
    | some k => 16 + k / 2
    | none => 16

/-- One record is logged, and copied to the trap queue of every partition that it touches (28 R432). -/
def State.mcheckAll (s : State) (m : McRec) (parts : List Nat) : State :=
  match parts with
  | [p] => s.machineCheck { m with part := some p }
  | _ => parts.foldl (fun t p => t.pushRec p
      { r := { cyc := s.cyc, cause := BitVec.ofNat 8 cMachine, xaddr := BitVec.ofNat 64 m.addr, xinfo := BitVec.ofNat 64 m.low } })
      (s.logMc m)

/-- CORRECTED_ERROR (28 R431): corrected and counted; every hundredth of a unit is logged. A passenger has a socket below 18, and
a device without power counts nothing (01 R10, R13). -/
def execCorrectedError (sock : BitVec 5) (unit : BitVec 16) (s : State) : Out :=
  let key := sock.toNat * 65536 + unit.toNat
  let n := Store.getD s.corrected key 0 + 1
  let s1 := { s with corrected := Store.put s.corrected key n }
  if !s.powered || 18 ≤ sock.toNat then .next s
  else .next (if n % 100 = 0 then s1.logMc { kind := 0x01, sev := 0, unit := unit.toNat, sock := sock.toNat, count := 100 } else s1)

/-- Bits from a position on replaced. -/
def putBits {n : Nat} (v : BitVec n) (lo w : Nat) (x : Word64) : BitVec n :=
  let m := BitVec.ofNat n (2 ^ w - 1) <<< lo
  (v &&& ~~~m) ||| ((BitVec.ofNat n (x.toNat % 2 ^ w) <<< lo) &&& m)

/-- An accumulator that an error has struck: any state, bits and payload. -/
def Acc.struck (a : Acc) (c : Int) : Acc :=
  { a with
    payload := toSigned 4288 (wrap 4288 (c / 64))
    ne := bitNat c.toNat 3 = 1
    nz := bitNat c.toNat 4 = 1
    st := match c.toNat % 8 with | 1 => .posInf | 2 => .negInf | 3 => .nan | 4 => .overflow | _ => .finite }

/-- An element of a group's state damaged, by unit: 0 v, 1 w, 2 predicate, 3 tile, 4 Agate, 5 scalar (28 R428). -/
def Group.damage (g : Group) (unit : BitVec 4) (reg e n : Nat) : Group :=
  let x := Config.damaged n
  let r := g.regs
  let vec (v : VReg) : VReg := { v with val := putBits v.val (32 * e) 32 x }
  match unit.toNat with
  | 0 => { g with regs := { r with v := r.v.setIfInBounds reg (vec (r.vreg reg)) } }
  | 1 => { g with regs := { r with w := r.w.setIfInBounds reg (vec (r.wreg reg)) } }
  | 2 => { g with regs := r.pset reg { (r.pget reg) with val := putBits (r.pget reg).val e 1 x } }
  | 3 =>
    let t := vget g.tiles reg {}
    { g with tiles := g.tiles.setIfInBounds reg { t with val := putBits t.val (32 * e) 32 x } }
  | 4 => { g with regs := { r with acc := r.acc.setIfInBounds reg (Acc.struck (vget r.acc reg {}) (Config.accAfterDefer n reg)) } }
  | 5 => { g with regs := r.sset reg { (r.sget reg) with val := x } }
  | _ => g

/-- A line is poisoned at its home: no copy, no directory entry, no partial remains (28 R433). -/
def State.poisonLine (s : State) (pa : Nat) : State :=
  let ln := lineOf pa
  let s1 := s.onLine ln fun l => { l with dirs := [], msc := none, notices := [], copies := [], pot := none, tracks := [] }
  (List.range 4).foldl (fun s i => s.markPoison (128 * ln + 32 * i)) s1

/-- The caches that hold the line, with the backing location before them where it is of this device: what an error in a sector may
strike. -/
def State.mayStrike (s : State) (pa : Nat) : List (Option (Option (Nat × Option Nat))) :=
  (if s.isLocal pa && s.backed pa then [none] else []) ++ (s.lineAt (lineOf pa)).holders.map some

/-- The machine whose sector is struck (28 R431): in the backing location, unless a dirty copy is to replace it, and clean copies of it
stay sound; in a cache, whose dirty copy is the line's value, or in a clean copy alone. -/
def State.strike (s : State) (pa : Nat) (at_ : Option (Option (Nat × Option Nat))) : State :=
  let ln := lineOf pa
  let i := pa % 128 / 32
  let one : BitVec 4 := 1#4 <<< i
  let l := s.lineAt ln
  match at_ with
  | none =>
    if l.dirtyAt i then s
    else
      let spare (b : SecBits) : SecBits := if NSet.has s.poison (sectorOf pa) then b else { b with sound := b.sound ||| one }
      if l.holders.isEmpty then s.markPoison pa
      else (s.setLine ln (l.holders.foldl (fun l h => l.onHolder spare h) l)).markPoison pa
  | some h =>
    if (l.heldIn h).dirty.getLsbD i then s.markPoison pa
    else s.setLine ln (l.onHolder (fun b => { b with poison := b.poison ||| one }) h)

/-- The socket of what is struck. -/
def State.struckSock (s : State) (pa : Nat) : Option (Option (Nat × Option Nat)) → Nat
  | none => s.sockOf pa
  | some none => homeOf pa
  | some (some (t, _)) => t

/-- An error strikes the directory, the partial buffer or the version storage of a line: its home poisons the line; that the versions
of the line are lost with it is free (28 R431, R433). -/
def State.strikeLine (s : State) (pa : Nat) : State :=
  let s1 := s.poisonLine pa
  if s1.versions.any fun v => v.line = lineOf pa then
    { s1 with
      nonce := s1.nonce + 1
      versions := if Config.freeBit s1.nonce then s1.versions.filter fun v => v.line != lineOf pa else s1.versions }
  else s1

/-- UNCORRECTABLE_ERROR (28 R431): which copy of a sector is struck is free. -/
def execUncorrectableError (at_ : ErrPlace) (s : State) : Out :=
  if !s.powered then .next s else
  match at_ with
  | .sector pa =>
    let l := s.mayStrike pa
    match l[Config.victim s.nonce % l.length]? with
    | none => .next s
    | some x => .next (({ s with nonce := if l.length = 1 then s.nonce else s.nonce + 1 }.strike pa x).machineCheck
        { kind := 0x02, sev := 1, sock := s.struckSock pa x, part := s.partOfPa pa, addr := pa })
  | .pad inst pos sector =>
    match s.inst? inst with
    | none => .next s
    | some i => .next ((s.onPad inst pos fun p => { p with poison := NSet.add p.poison sector }).machineCheck
        { kind := 0x02, sev := 1, sock := i.tower, part := some i.part.toNat })
  | .pool k unit reg element =>
    match s.group? k with
    | none => .next s
    | some g =>
      if g.run == .ended then .next s
      else
        let s1 := { s with nonce := s.nonce + 1 }.setGroup k
          { g.damage unit reg.toNat element s.nonce with mcheck := some (unit, reg) }
        .next (s1.machineCheck { kind := 0x08, sev := 2, sock := towerOf (keyCore k), part := some g.id.part.toNat })
  | .lineState pa =>
    if !s.isLocal pa || !s.backed pa then .next s
    else .next ((s.strikeLine pa).machineCheck
      { kind := 0x02, sev := 1, sock := homeOf pa, part := s.partOfPa pa, addr := pa })
  | .barrier inst bar =>
    match s.inst? inst with
    | none => .next s
    | some i =>
      let n := bar.toNat
      let s1 := s.setInst inst (i.setBar n { i.bar n with broken := true })
      let s2 := s1.allGroups.foldl (fun s x => match x.2.run with
        | .waiting w => match w.op with
          | .barrier m _ _ => if x.2.id.inst = inst && m = n then s.trapWaiting x.1 (barrierTrap n 1) else s
          | _ => s
        | _ => s) s1
      .next (s2.machineCheck { kind := 0x02, sev := 2, sock := i.tower, part := some i.part.toNat })
  | .trace core =>
    let c := coreNo core.x.toNat core.y.toNat
    let k := s.coreAt c
    .next ((s.setCore c { k with trail := [], dropped := k.dropped + k.trail.length }).machineCheck
      { kind := 0x02, sev := 1, sock := towerOf c, part := s.partOfCore c })

/-! ### Links (29 R447, R448) -/

/-- The link with a number. -/
def State.linkAt (s : State) (k : Nat) : Link := vget s.links k {}
/-- The socket of a link (01 R10). -/
def linkSock (k : Nat) : Nat := if k < 18 then 16 else 17

/-- A collective of a command with a participant on another device that satisfies a test. -/
def Cmd.remoteColl (d : Cmd) (p : Nat → Bool) : Bool :=
  match d.kind with
  | .coll x => (List.range (Comm.npart x.comm)).any fun i => p (Comm.dev (Comm.entry x.table i))
  | _ => false

/-- The collectives whose participants satisfy a test fail (12 R229). -/
def State.failColls (s : State) (p : Nat → Bool) : State :=
  (s.cmds.filter fun d => d.remoteColl p).foldl (fun s d => s.failCmd d) s

/-- Stores on their way to other devices end with error and are lost, by a free choice each (29 R447, R448). -/
def State.loseOut (s : State) : State :=
  s.outbox.foldl (fun s o => match s.flip with
    | (true, s1) => s1
    | (false, s1) => { s1 with outbox := s1.outbox ++ [o] }) { s with outbox := [] }

/-- A link is retired: it is no longer up, and a record is logged. A request, stores and a collective with another device may
have been in the flits that were lost: that is free. -/
def State.retireLink (s : State) (k : Nat) : State :=
  let l := s.linkAt k
  if 36 ≤ k || l.retired then s
  else
    let s1 := { s with
      links := s.links.setIfInBounds k { l with up := false, retired := true, replays := 0 }
      lup := if l.up then s.lup - 1 else s.lup
      nonce := s.nonce + 1 }
    let s2 := s1.logMc { kind := 0x04, sev := 2, unit := k, sock := linkSock k }
    if Config.freeBit s.nonce then ({ s2 with flits := s2.flits + 1 }.loseOut).failColls fun d => d != s.devnum.toNat else s2

/-- LINK_CRC_REPLAY (29 R447): a flit is replayed. Whether it is the flit replayed last is free. -/
def execLinkCrcReplay (link : BitVec 6) (s : State) : Out :=
  let l := s.linkAt link.toNat
  if !l.up || 8 ≤ l.replays then .next s
  else .next { s with
    nonce := s.nonce + 1
    links := s.links.setIfInBounds link.toNat
      { l with retries := l.retries + 1, replays := if Config.freeBit s.nonce then l.replays + 1 else 1 } }

/-- LINK_RETIRE (29 R447): after eight failed replays of one flit. -/
def execLinkRetire (link : BitVec 6) (s : State) : Out :=
  .next (if 8 ≤ (s.linkAt link.toNat).replays then s.retireLink link.toNat else s)

/-- LOST_CONTROL_FLIT (28 R433): the link that lost it is retired, and the home poisons the line; of a line homed on another device
the next request to another device ends with error, since its answer is lost (log 61). -/
def execLostControlFlit (pa : Nat) (link : Option (BitVec 6)) (s : State) : Out :=
  if !s.powered then .next s else
  let s1 := match link with | some k => s.retireLink k.toNat | none => s
  if !s.isLocal pa then .next { s1 with flits := s1.flits + 1 }
  else if !s.backed pa then .next s1
  else .next ((s1.poisonLine pa).machineCheck
    { kind := 0x03, sev := 1, sock := homeOf pa, part := s.partOfPa pa, addr := pa })

/-- POTLUCK_RECALL_FAILURE (28 R434): the partials of a tower are not reached; the line is merged without them and stands
poisoned. -/
def execPotluckRecallFailure (pa : Nat) (tower : BitVec 2) (s : State) : Out :=
  let ln := lineOf pa
  let l := s.lineAt ln
  match l.pot with
  | none => .next s
  | some p =>
    let lost (q : Partial) : Bool := match q.loc with
      | .l1 c => towerOf c = tower.toNat
      | .l2 t => t = tower.toNat
      | .home => false
    if !p.parts.any lost then .next s
    else
      let s1 := (s.setLine ln { l with pot := some { p with parts := p.parts.filter fun q => !lost q } }).mergeLine .ext ln
      let s2 := (List.range 4).foldl (fun s i => s.markPoison (128 * ln + 32 * i)) s1
      .next (s2.machineCheck { kind := 0x05, sev := 1, sock := homeOf pa, part := s.partOfPa pa, addr := pa })

/-- DESTINATION_ERROR (01 R11): a message to a socket that names no passenger comes back to the passenger that sent it, and its
request ends with error: the next one from there (log 65). SOCK of the record names the sender's socket, which the rule does not say
(log 48). -/
def execDestinationError (src dst : BitVec 5) (s : State) : Out :=
  .next (if s.powered && src.toNat < 18 && 18 ≤ dst.toNat then
      { s with astray := NSet.add s.astray src.toNat }.logMc { kind := 0x06, sev := 1, sock := src.toNat }
    else s)

/-- DEVICE_UNREACHABLE (29 R448): its loads defer as poison, its stores are lost, signals to it and collectives with it
fail. -/
def execDeviceUnreachable (dev : BitVec 9) (s : State) : Out :=
  if dev = s.devnum || !NSet.has s.domain dev.toNat then .next s
  else .next ({ s with unreachable := NSet.add s.unreachable dev.toNat }.failColls fun d => d = dev.toNat)

/-- EXPANDER_LOSS (29 R446): what waits at the port has ended. -/
def execExpanderLoss (port : BitVec 2) (s : State) : Out :=
  let k := port.toNat
  let e := vget s.expanders k {}
  if e.frames = 0 || e.lost then .next s
  else
    let lo := capBase + 4096 * framesBefore s.expanders k
    let hi := lo + 4096 * e.frames
    let parts := (s.parts.filter fun p => p.2.ranges.any fun r => localPa r.1 < hi && lo < localPa r.1 + r.2).map (·.1)
    .next ({ s with
        expanders := s.expanders.setIfInBounds k { e with lost := true }
        dram := Store.del s.dram (768 + k) }.mcheckAll
      { kind := 0x02, sev := 1, unit := k, sock := 16 + k / 2, addr := s.devnum.toNat * 2 ^ 47 + lo } parts)

end Sys2Proof.Machine
end

