-- ==== Sys2Proof/Machine/Reach.lean ====
section
/-!
DEFINITION. Requests from outside: of peer devices (09 R169, 25 R397, R398, R451), of the host through its windows (29 R439 to
R444), and the registers of BAR0 (29 R441, R443).
-/
namespace Sys2Proof.Machine
open Sys2Proof

/-! ### Accesses at the home -/

/-- The lines of n bytes from an address. -/
def linesAt (pa n : Nat) : List Nat := (List.range ((pa + n + 127) / 128 - pa / 128)).map fun i => pa / 128 + i

/-- A request from outside reaches the home of a line: it returns to the ordinary states; a write invalidates every other
copy (08 R139, R155). -/
def State.recall (s : State) (ln : Nat) (writes : Bool) : State :=
  (s.mergeLine .ext ln).onLine ln fun l => (l.settle (s.homeIn ln)).others (s.homeIn ln) none writes

/-- A read from outside: the bytes, and whether a sector of them is poisoned. -/
def State.outRead (s : State) (pa n : Nat) : List Byte × Bool × State :=
  let s1 := (linesAt pa n).foldl (fun s ln => s.recall ln false) s
  ((List.range n).map fun i => s1.byteAt (pa + i), (List.range n).any fun i => s1.poisonAt (pa + i), s1)

/-- A write from outside, one operation for each sector. -/
def State.outWrite (s : State) (pa : Nat) (d : List Byte) : State :=
  (bySector (bytesAt pa d)).foldl (fun s b => s.performOp .ext b false false)
    ((linesAt pa d.length).foldl (fun s ln => s.recall ln true) s)

/-- An atomic asked for from outside is one that 10 R189 defines, on an aligned element. -/
def atomAskOk (pa : Nat) (a : AtomAsk) : Bool :=
  pa % atomSize a.fn a.t = 0 && (if a.fn ≤ 6 then !packedInt a.t else a.fn ≤ 9 && a.t < 2)

/-- What an atomic asked for from outside does to the value. -/
def askOp (a : AtomAsk) : AtomF :=
  let w := 2 ^ (8 * atomSize a.fn a.t)
  match a.compare with
  | some c => fun x => if x = c.toNat % w then some (a.operand.toNat % w) else none
  | none => fun x => some (atomOp a.fn a.t x (a.operand.toNat % w))

/-- An atomic at the home (11 R221, 10 R190): the old value, or an error where the sector is poisoned. -/
def State.outAtomic (s : State) (pa : Nat) (a : AtomAsk) : Reply × State :=
  let size := atomSize a.fn a.t
  let ln := lineOf pa
  let s0 := s.mergeLine .ext ln
  let cached := !(s0.lineAt ln).uncached
  let (r, s1) := s0.atomicHome .ext pa size (askOp a) false
  let s2 := s1.onLine ln fun l => l.homeOp (s1.homeIn ln) cached (spanMask pa size)
  match r with
  | some x => ({ status := .ok, data := leBytes size x }, s2)
  | none => ({ status := .error, data := List.replicate size 0 }, s2)

/-- The bytes that a request touches. -/
def askSize : Ask → Nat
  | .read n => n
  | .write d => d.length
  | .atom a => atomSize a.fn a.t
  | .contribute fn t _ => atomSize fn t
  | .signal .. => 0
  | .merge _ => imageLen

/-- The request writes. -/
def askWrites : Ask → Bool
  | .read _ => false
  | .write _ => true
  | .atom _ => true
  | .contribute .. => true
  | .signal .. => false
  | .merge _ => true

/-- A request that has reached the home performed, with its answer: a read of poison answers with error. -/
def State.performHere (s : State) (pa : Nat) : Ask → State
  | .read n =>
    let (d, bad, s1) := s.outRead pa n
    { s1 with reply := some { status := if bad then .error else .ok, data := d } }
  | .write d => { s.outWrite pa d with reply := some { status := .ok } }
  | .atom a =>
    if !atomAskOk pa a then { s with reply := some { status := .error } }
    else
      let (r, s1) := s.outAtomic pa a
      { s1 with reply := some r }
  | .contribute fn t w =>
    if plkOk fn t && pa % atomSize fn t = 0 then
      { s.contribute .ext fn t pa (w.toNat % 2 ^ (8 * atomSize fn t)) with reply := some { status := .ok } }
    else { s with reply := some { status := .error } }
  | .signal cid gen bar lt =>
    match s.land { cid := cid, gen := gen, bar := bar, lt := lt } with
    | some (s1, ok) => { s1 with reply := some { status := if ok then .ok else .error } }
    | none => { s with reply := some { status := .abort } }
  | .merge image =>
    if image.length = imageLen && pa % 1024 = 0 then
      { s.mergeImage .ext pa (readImage image) with reply := some { status := .ok } }
    else { s with reply := some { status := .error } }

/-- The answer to a request. -/
def State.answer (s : State) (st : ReplyStatus) (d : Rec := []) : State := { s with reply := some { status := st, data := d } }

/-- A request from outside goes from the I/O die to the home, or ends with error on the way (01 R11). -/
def State.perform (s : State) (pa : Nat) (ask : Ask) : State :=
  match s.meets .ext pa with
  | (true, s1) => s1.answer .error
  | (false, s1) => s1.performHere pa ask

/-! ### Violations of masters from outside (25 R397, R398) -/

/-- Why an access to a partition's memory from outside is a violation, if it is: unbacked, outside the ranges or within an
enclave (`code`), a write to the trace region. -/
def State.outViolation (s : State) (p : Part) (pa n : Nat) (writes : Bool) (code : Nat) : Option Nat :=
  if !(s.isLocal pa && s.backed pa && s.backed (pa + n - 1)) then some 1
  else if p.encl || !p.owns pa n then some code
  else if writes && p.trBase < pa + n && pa < p.trBase + p.trSize then some 3
  else none

/-- The requests that a host function, or a peer under one partition, may have outstanding (25 R397). -/
def askRoom : Nat := 256

/-- A request of a master is outstanding until its answer has come back; one beyond the limit is a violation (25 R397). -/
def State.asked (s : State) (m : Nat) : Option State :=
  let n := Store.getD s.asking m 0
  if askRoom ≤ n then none else some { s with asking := Store.put s.asking m (n + 1) }

/-! ### Peers -/

/-- A request of a peer device under a partition that this device holds; before READY it ends with error (29 R444). -/
def State.peerAsk (s : State) (dev : BitVec 9) (part : BitVec 4) (pa : Nat) (ask : Ask) : State :=
  let id := peerId dev.toNat part.toNat
  if !s.powered || dev = s.devnum then s
  else if s.bstate != 5 then s.answer .error
  else match s.part? part.toNat with
  | none => s
  | some p =>
    if !NSet.has s.domain dev.toNat then s
    else if NSet.has s.peerFrozen id || NSet.has s.peerRefused id then s.answer .error
    else match s.asked (32 + id) with
      | none => (s.freezePeer dev.toNat part.toNat 5 pa).answer .error
      | some s1 =>
        match ask with
        | .signal cid .. => if cidPart cid = part.toNat then s1.perform pa ask else s1.answer .error
        | _ =>
          match s.outViolation p pa (askSize ask) (askWrites ask) 0 with
          | some c => (s.freezePeer dev.toNat part.toNat c pa).answer .error
          | none => s1.perform pa ask

/-- PEER_REQUEST (09 R169, 25 R397). -/
def execPeerRequest (dev : BitVec 9) (part : BitVec 4) (pa : Nat) (ask : Ask) (s : State) : Out :=
  .next (s.peerAsk dev part pa ask)

/-- PEER_UNKNOWN_PARTITION (25 R451): nothing is performed, and the answer is an error, as before READY
(29 R444). -/
def execPeerUnknownPartition (dev : BitVec 9) (part : BitVec 4) (_pa : Nat) (_ask : Ask) (s : State) : Out :=
  .next (if s.powered && dev != s.devnum && (s.bstate != 5 || (NSet.has s.domain dev.toNat && (s.part? part.toNat).isNone)) then
    s.answer .error else s)

/-- HOME_ATOMIC (11 R221): an atomic of another device is performed at the home; for this device the contention predictor places the
next atomic on the line there (09 R162), and the group's own step performs it. -/
def execHomeAtomic (dev : BitVec 9) (part : BitVec 4) (pa : Nat) (a : AtomAsk) (s : State) : Out :=
  if dev = s.devnum then
    .next (if s.askable pa && s.isLocal pa then s.onLine (lineOf pa) fun l => { l with placed := true } else s)
  else .next (s.peerAsk dev part pa (.atom a))

/-! ### The host (29 R439, R440) -/

/-- A request of a host function at an offset of BAR2; a device without power answers nothing (01 R13). -/
def State.hostAsk (s : State) (fn : BitVec 5) (offset : Nat) (ask : Ask) : State :=
  let pa := s.devnum.toNat * 2 ^ 47 + offset % 2 ^ 47
  let n := fn.toNat
  let ones := List.replicate (if (askWrites ask) then 0 else (askSize ask)) (0xFF : Byte)
  if !s.powered then s
  else if 16 < n then s.answer .unsupported
  else if s.bstate != 5 then s.answer .abort ones
  else if n = 0 then
    if !(s.backed pa && s.backed (pa + (askSize ask) - 1)) ||
      s.parts.any fun p => p.2.ranges.any fun r => pa < r.1 + r.2 && r.1 < pa + (askSize ask)
    then s.answer .abort ones else s.perform pa ask
  else match Store.get? s.vfs n with
    | none => s.answer .unsupported
    | some part =>
      if NSet.has s.vfFrozen n || NSet.has s.vfRefused n then s.answer .abort ones
      else match s.part? part.toNat with
        | none => s.answer .unsupported
        | some p =>
          match s.asked n with
          | none => (s.freezeHost n part.toNat 5 pa).answer .abort ones
          | some s1 =>
            match s.outViolation p pa (askSize ask) (askWrites ask) 4 with
            | some c => (s.freezeHost n part.toNat c pa).answer .abort ones
            | none => s1.perform pa ask

/-- HOST_BAR2_ACCESS (29 R440). -/
def execHostBar2Access (fn : BitVec 5) (offset : Nat) (ask : Ask) (s : State) : Out :=
  match ask with
  | .read _ => .next (s.hostAsk fn offset ask)
  | .write _ => .next (s.hostAsk fn offset ask)
  | .atom _ => .next s
  | .contribute .. => .next s
  | .signal .. => .next s
  | .merge _ => .next s

/-- The atomics of PCIe: FetchAdd, Swap and CAS of 4 or 8 bytes. -/
def pcieAtomic (a : AtomAsk) : Bool := !packedInt a.t && (a.compare.isSome || a.fn = 0 || a.fn = 6)

/-- HOST_ATOMIC (29 R440). -/
def execHostAtomic (fn : BitVec 5) (offset : Nat) (a : AtomAsk) (s : State) : Out :=
  let b : AtomAsk := if a.compare.isSome then { a with fn := 6 } else a
  .next (if pcieAtomic b || !s.powered then s.hostAsk fn offset (.atom b) else s.answer .unsupported)

/-! ### BAR0 (29 R441, R443, R445) -/

/-- BSTAT. -/
def State.bstat (s : State) : Nat := s.bstate.toNat + s.halt.toNat * 16 + s.lup.toNat * 256 + s.berr.toNat * 65536

/-- The register of a Turlin link. -/
def linkWord (k : Nat) (l : Link) : Nat := l.up.toNat + l.retired.toNat * 2 + k * 4 + l.retries.toNat * 2 ^ 32

/-- A partition's block of 256 bytes. -/
def Part.block (p : Part) : Rec :=
  p.desc ++ leBytes 8 p.wdog.toNat ++ leBytes 8 p.stale.toNat

/-- A byte of a list, zero beyond its end. -/
def byteOf (l : List Byte) (i : Nat) : Byte := l.getD i 0

/-- The byte of BAR0 at an offset. -/
def State.bar0 (s : State) (o : Nat) : Byte :=
  if o < 0x40 then byteOf (leBytes 8 0x4810) o
  else if o < 0x80 then byteOf (leBytes 32 identityKey.toNat) (o - 0x40)
  else if o < 0xC0 then byteOf (leBytes 64 s.fwdig.toNat) (o - 0x80)
  else if o < 0x1000 then byteOf (leBytes 8 s.devnum.toNat) (o - 0xC0)
  else if o < 0x2000 then byteOf (leBytes 8 s.bstat) (o - 0x1000)
  else if o < 0x10000 then byteOf (leBytes 4 (vget s.temp ((o - 0x2000) / 4) 0).toNat) (o % 4)
  else if o < 0x20000 then byteOf (leBytes 4 (vget s.tcs ((o - 0x10000) / 4) 0).toNat) (o % 4)
  else if o < 0x100000 then
    match s.part? ((o - 0x20000) / 256) with
    | some p => byteOf p.block (o % 256)
    | none => 0
  else if o < 0x102000 then byteOf (leBytes 32 (Store.getD s.mclog ((o - 0x100000) / 32) 0).toNat) (o % 32)
  else if o < 0x200000 then byteOf (leBytes 8 s.mcw.toNat) (o - 0x102000)
  else if o < 0x200008 then byteOf (leBytes 8 s.mbox.cmd.toNat) (o - 0x200000)
  else if o < 0x200010 then byteOf (leBytes 8 s.mbox.resp.toNat) (o - 0x200008)
  else if o < 0x201000 then 0
  else if o < 0x202000 then Store.getD s.mbox.args (o - 0x201000) 0
  else if 0x300000 ≤ o && o < 0x300120 then
    let k := (o - 0x300000) / 8
    byteOf (leBytes 8 (linkWord k (s.linkAt k))) (o % 8)
  else 0

/-- The registers that answer before READY (29 R444). -/
def answersEarly (o : Nat) : Bool :=
  o < 8 || (0x40 ≤ o && o < 0x60) || (0x80 ≤ o && o < 0xC8) || (0x1000 ≤ o && o < 0x1008) || (0x2000 ≤ o && o < 0x2048)

/-- The temperatures as the device reports them now: free values. -/
def State.sample (s : State) : State :=
  { s with temp := Vector.ofFn fun i : Fin 18 => Config.temperature s.nonce i.val, nonce := s.nonce + 1 }

/-- NOT_READY_ACCESS (29 R444): before READY an access that is not to one of the six early registers completes with Completer
Abort, a read with all ones, and a write is dropped. A read of BAR0 that is answered gives its registers. A device without power answers
nothing (01 R13). -/
def execNotReadyAccess (bar2 : Bool) (offset : Nat) (ask : Ask) (s : State) : Out :=
  let n := (askSize ask)
  if !s.powered then .next s else
  let early := !bar2 && (List.range n).all fun i => answersEarly (offset + i)
  match ask with
  | .read _ =>
    if s.bstate != 5 && !early then .next (s.answer .abort (List.replicate n 0xFF))
    else if bar2 then .next s
    else
      let s1 := s.sample
      .next (s1.answer .ok ((List.range n).map fun i => s1.bar0 (offset + i)))
  | _ => .next (if s.bstate != 5 then s.answer .abort else s)

/-- The fields of MCMD that a write reaches. -/
def mcmdMask : Word64 := 0x00000FFF000F0FFF

/-- One byte written to BAR0: only the mailbox takes writes; an accepted doorbell clears DONE, one rung while a command runs sets
BUSY (29 R445). -/
def State.writeReg (s : State) (o : Nat) (b : Byte) : State :=
  let m := s.mbox
  if o < 0x200000 then s
  else if o < 0x200008 then
    let i := o - 0x200000
    let w := (m.cmd &&& ~~~((0xFF : Word64) <<< (8 * i))) ||| (b.setWidth 64 <<< (8 * i))
    { s with mbox := { m with cmd := w &&& mcmdMask } }
  else if o = 0x200010 then
    if b &&& 1 = 0 then s
    else if m.running then { s with mbox := { m with resp := m.resp ||| 2 } }
    else { s with mbox := { m with running := true, resp := m.resp &&& ~~~1 } }
  else if 0x201000 ≤ o && o < 0x202000 then { s with mbox := { m with args := Store.put m.args (o - 0x201000) b } }
  else s

/-- Bytes written to BAR0, offsets rising. -/
def State.writeRegs (s : State) (o : Nat) : List Byte → State
  | [] => s
  | b :: r => (s.writeReg o b).writeRegs (o + 1) r

/-- REGISTER_WRITE (00 R6, 29 R444): read-only and reserved fields ignore it; before READY it is dropped. -/
def execRegisterWrite (offset : Nat) (data : List Byte) (s : State) : Out :=
  .next (if !s.powered then s else if s.bstate = 5 then s.writeRegs offset data else s.answer .abort)

end Sys2Proof.Machine
end

