-- ==== Sys2Proof/Machine/Firmware.lean ====
section
/-!
DEFINITION. Mailbox commands (29 R445): partitions and enclaves (25 R393 to R403), checkpoints (28 R437, R438), cache split,
watchdog, virtual functions; then power, bring-up and clocks (01 R13 to R17, 29 R442).
-/
namespace Sys2Proof.Config

/-- The bytes of a checkpoint body: the spec names what it holds and fixes no form (28 R437). DESIGN CHOICE, log 53. -/
opaque bodyBytes : Machine.Body → List Byte

end Sys2Proof.Config

namespace Sys2Proof.Machine
open Sys2Proof

/-! ### The mailbox -/

namespace Mbox
/-- CODE. -/
def code (m : Mbox) : Nat := bitsNat m.cmd.toNat 7 0
/-- VAR. -/
def var (m : Mbox) : Nat := bitsNat m.cmd.toNat 11 8
/-- PART. -/
def part (m : Mbox) : Nat := bitsNat m.cmd.toNat 19 16
/-- ALEN. -/
def alen (m : Mbox) : Nat := bitsNat m.cmd.toNat 43 32
/-- An argument of n bytes. -/
def arg (m : Mbox) (i n : Nat) : Nat := ofLeBytes ((List.range n).map fun j => Store.getD m.args (i + j) 0)
/-- The bytes of an argument. -/
def argBytes (m : Mbox) (i n : Nat) : Rec := (List.range n).map fun j => Store.getD m.args (i + j) 0
/-- The command word names a command. -/
def known (m : Mbox) : Bool :=
  1 ≤ m.code && m.code ≤ 9 && (m.var = 0 || (m.var = 1 && (m.code = 4 || m.code = 7 || m.code = 8)))
end Mbox

/-- The response: DONE with a status and the result's length; BUSY stands. -/
def State.respond (s : State) (status : Nat) (rlen : Nat := 0) : State :=
  { s with mbox := { s.mbox with
      running := false
      resp := (s.mbox.resp &&& 2) ||| BitVec.ofNat 64 (1 + status * 256 + rlen * 2 ^ 32) } }

/-- Status 0: done. -/
def mbDone : Nat := 0
/-- Status 1: refused. -/
def mbRefused : Nat := 1
/-- Status 2: bad argument. -/
def mbBad : Nat := 2

/-- The command that the mailbox runs, if it is this one with enough argument bytes; a word that names no command is a bad
argument. -/
def State.mailbox (s : State) (code var need : Nat) (body : State → Mbox → State) : Out :=
  let m := s.mbox
  if !m.running then .next s
  else if !m.known then .next (s.respond mbBad)
  else if m.code != code || m.var != var then .next s
  else if m.alen < need || 4096 < m.alen then .next (s.respond mbBad)
  else .next (body s m)

/-! ### Partitions (25 R393, R394) -/

/-- The reserved fields of a descriptor are zero and its numbers in their ranges (25 R393). -/
def Part.fieldsOk (p : Part) : Bool :=
  let r := p.desc
  recNat r 48 16 = 0 && recNat r 42 1 < 2 && recNat r 38 1 % 8 ≤ 5 && recNat r 38 1 / 16 ≤ 4 && bitNat (recNat r 38 1) 3 = 0 &&
  recNat r 36 1 < 32 && recNat r 37 1 < 16 && p.pid < 16 && 1 ≤ recNat r 40 1 && 1 ≤ recNat r 41 1 &&
  6 ≤ recNat r 39 1 && recNat r 39 1 ≤ 12 && 1 ≤ p.nasid && p.nasid ≤ 4096 && p.asid0 + p.nasid ≤ 65536 &&
  1 ≤ recNat r 24 4 && recNat r 24 4 ≤ 1024 && p.root % 4096 = 0 && p.tqBase % (64 * p.tqSize) = 0 && p.trBase % 2 ^ 21 = 0 &&
  (List.range 8).all fun i => bitsNat (recNat r (64 + 8 * i) 8) 63 59 = 0

/-- A range of n bytes is backed local memory. -/
def State.backedRange (s : State) (pa n : Nat) : Bool :=
  let l := localPa pa
  n = 0 || (s.isLocal pa && (l + n ≤ hbmEnd || (capBase ≤ l && l + n ≤ capBase + 4096 * framesBefore s.expanders 4 && l + n ≤ capEnd)))

/-- Two partitions have no core, no memory and no ASID in common. -/
def Part.disjoint (p q : Part) : Bool :=
  (p.rx + p.width ≤ q.rx || q.rx + q.width ≤ p.rx || p.ry + p.height ≤ q.ry || q.ry + q.height ≤ p.ry) &&
  (p.asid0 + p.nasid ≤ q.asid0 || q.asid0 + q.nasid ≤ p.asid0) &&
  p.ranges.all fun a => q.ranges.all fun b => a.2 = 0 || b.2 = 0 || a.1 + a.2 ≤ b.1 || b.1 + b.2 ≤ a.1

/-- The descriptor breaks no rule of R394. -/
def State.partOk (s : State) (p : Part) : Bool :=
  p.rx % p.width = 0 && p.ry % p.height = 0 && p.rx + p.width ≤ 32 && p.ry + p.height ≤ 16 &&
  s.parts.all (fun q => p.disjoint q.2) && p.ranges.all (fun r => s.backedRange r.1 r.2) &&
  p.owns p.root (8 * p.nasid) && p.owns p.tqBase (64 * p.tqSize) && p.owns p.trBase p.trSize

/-- The measurement extended by a document (25 R401). -/
def extendMeas (m : BitVec 512) (d : Rec) : BitVec 512 :=
  BitVec.ofNat 512 (ofLeBytes (sha512 (leBytes 64 m.toNat ++ sha512 d)))

/-- The bytes of a sector. -/
def State.sectorBytes (s : State) (k : Nat) : List Byte := (List.range 32).map fun i => s.byteAt (32 * k + i)

/-- What stands in the ranges of an enclave read or stored under its keys: sector by sector, the tweak the sector's local address (25
R400). Poison metadata stays, and so does a sector of which nothing stands (log 5). -/
def State.recode (s : State) (p : Part) (f : Nat → Nat → List Byte → List Byte) : State :=
  if !p.encl then s
  else
    let secs := ((s.mem.map fun x => x.1 / 32).eraseDups).filter fun k => p.owns (32 * k) 32
    { s with mem := secs.foldl (fun m k => putAll m (bytesAt (32 * k) (f p.keys (localPa (32 * k) / 32) (s.sectorBytes k)))) s.mem }

/-- CREATE (25 R394, R400, R401): keys are drawn, and what an enclave's ranges held is read under them. -/
def execMbCreate (s : State) : Out :=
  s.mailbox 1 0 128 fun s m =>
    let p : Part := { desc := m.argBytes 0 128 }
    if !p.fieldsOk then s.respond mbBad
    else if (s.part? p.pid).isSome || !s.partOk p then s.respond mbRefused
    else
      let p1 := { p with keys := s.nextId, meas := extendMeas 0 p.desc }
      ({ s with nextId := s.nextId + 1 }.recode p1 openSector |>.setPart p.pid p1).respond mbDone

/-- The ranges of an enclave hold what its keys made of them once the keys are gone (25 R400). -/
def State.sealAway (s : State) (p : Part) : State := s.recode p sealSector

/-- A partition and every master of it are gone; its cores are power-gated and keep nothing (25 R394). -/
def State.erasePart (s : State) (n : Nat) : State :=
  let launchOf (l : Nat) : Bool := (s.launch? l).any fun x => x.part.toNat = n
  let key (k : GKey) : Bool := (s.group? k).any fun g => g.id.part.toNat = n
  let fns := (s.vfs.filter fun x => x.2.toNat = n).map (·.1)
  { s with
    parts := Store.del s.parts n
    groups := s.groups.filter fun x => x.2.id.part.toNat != n
    left := s.left.filter fun x => x.2.id.part.toNat != n
    insts := s.insts.filter fun x => x.2.part.toNat != n
    launches := s.launches.filter fun x => x.2.part.toNat != n
    children := s.children.filter fun x => x.part.toNat != n
    cmds := s.cmds.filter fun x => x.part.toNat != n
    cores := s.cores.filter fun x => s.partOfCore x.1 != some n
    versions := s.versions.filter fun v => !launchOf v.launch
    tlb := s.tlb.filter fun x => x.part.toNat != n
    walkCache := s.walkCache.filter fun x => x.part.toNat != n
    walks := s.walks.filter fun x => x.part.toNat != n
    tlbis := s.tlbis.filter fun x => x.part.toNat != n
    migrations := s.migrations.filter fun x => x.part.toNat != n
    vfs := s.vfs.filter fun x => x.2.toNat != n
    vfFrozen := s.vfFrozen.filter fun x => !fns.contains x.1
    vfRefused := s.vfRefused.filter fun x => !fns.contains x.1
    peerFrozen := s.peerFrozen.filter fun x => x.1 % 16 != n
    peerRefused := s.peerRefused.filter fun x => x.1 % 16 != n
    grant := s.grant.filter fun k => !key k }

/-- DESTROY (29 R445): every master is killed, and the keys are erased. -/
def execMbDestroy (s : State) : Out :=
  s.mailbox 2 0 0 fun s m =>
    match s.part? m.part with
    | none => s.respond mbRefused
    | some p =>
      let own (k : GKey) : Bool := (s.group? k).any fun g => g.id.part.toNat = m.part
      let s1 := ((s.departWhere fun w => own w.g).drainWhere fun c => match c.owner with
        | .group k => own k
        | .cohort i => (s.inst? i).any fun x => x.part.toNat = m.part).deliverOut fun o => own o.g
      let s2 := ((s1.lines.map (·.1)).filter fun ln => p.owns (128 * ln) 128).foldl (fun s ln => s.ordinary .ext ln) s1
      ((s2.sealAway p).erasePart m.part).respond mbDone

/-- QUEUE (20 R332, 25 R396, 20 R450). -/
def execMbQueue (s : State) : Out :=
  s.mailbox 3 0 16 fun s m =>
    match s.part? m.part with
    | none => s.respond mbRefused
    | some p =>
      let at_ := m.arg 0 8
      let asid := m.arg 10 2
      if !(m.arg 8 1 < 2 && m.arg 9 1 < 16 && m.arg 12 4 = 0 && p.hasAsid asid && p.owns at_ 64 &&
          (s.mergeLine .ext (lineOf at_)).queueOk at_) then s.respond mbBad
      else if (Store.get? p.queues (m.arg 9 1)).isSome then s.respond mbRefused
      else
        let q : Queue := { desc := at_, sup := m.arg 8 1 = 1, asid := BitVec.ofNat 16 asid }
        ((s.mergeLine .ext (lineOf at_)).setPart m.part { p with queues := Store.put p.queues (m.arg 9 1) q }).respond mbDone

/-! ### Enclaves (25 R401 to R403) -/

/-- n bytes from an address lie outside every partition's ranges, and are backed. -/
def State.outside (s : State) (pa n : Nat) : Bool :=
  s.backedRange pa n && !s.parts.any fun p => p.2.ranges.any fun r => pa < r.1 + r.2 && r.1 < pa + n

/-- Bytes that firmware writes as ordinary stores, after which every cached copy of their lines ends; those in the capacity tier
outlast a loss of power (01 R13). -/
def State.firmWrite (s : State) (pa : Nat) (d : List Byte) : State :=
  let s1 := (linesAt pa d.length).foldl (fun s ln => s.flushLine .ext ln) (s.outWrite pa d)
  if isHbm pa then s1 else { s1 with firm := (bytesAt pa d).foldl (fun m x => Memory.put m x.1 x.2) s1.firm }

/-- LOAD (25 R401). -/
def execMbLoad (s : State) : Out :=
  s.mailbox 4 0 24 fun s m =>
    match s.part? m.part with
    | none => s.respond mbRefused
    | some p =>
      let src := m.arg 0 8
      let dst := m.arg 8 8
      let len := m.arg 16 8
      if !(dst % 32 = 0 && len % 32 = 0 && s.outside src len && p.owns dst len) then s.respond mbBad
      else if p.sealed then s.respond mbRefused
      else
        let (d, bad, s1) := s.outRead src len
        if bad then s1.respond mbRefused
        else ((s1.firmWrite dst d).onPart m.part fun p => { p with meas := extendMeas p.meas d }).respond mbDone

/-- SEAL (25 R401). -/
def execMbSeal (s : State) : Out :=
  s.mailbox 4 1 0 fun s m =>
    match s.part? m.part with
    | none => s.respond mbRefused
    | some p =>
      if p.sealed then s.respond mbRefused
      else
        let desc := p.desc.set 42 (BitVec.ofNat 8 (recNat p.desc 42 1 ||| 2))
        (s.setPart m.part { p with sealed := true, desc := desc }).respond mbDone

/-- The attestation report but for its signature (25 R402). -/
def State.report191 (s : State) (p : Part) (nonce : Rec) : Rec :=
  leBytes 64 p.meas.toNat ++ leBytes 32 (importKey p.keys).toNat ++ nonce ++ leBytes 64 s.fwdig.toNat

/-- Result bytes put into the argument buffer. -/
def State.putResult (s : State) (d : Rec) : State :=
  { s with mbox := { s.mbox with args := d.zipIdx.foldl (fun m x => Store.put m x.2 x.1) s.mbox.args } }

/-- ATTEST (25 R402). -/
def execMbAttest (s : State) : Out :=
  s.mailbox 5 0 32 fun s m =>
    match s.part? m.part with
    | none => s.respond mbRefused
    | some p =>
      if !p.sealed then s.respond mbRefused
      else
        let r := s.report191 p (m.argBytes 0 32)
        (s.putResult (r ++ identitySign r)).respond mbDone 256

/-- IMPORT (25 R403): a tag that does not verify writes nothing. -/
def execMbImport (s : State) : Out :=
  s.mailbox 6 0 88 fun s m =>
    match s.part? m.part with
    | none => s.respond mbRefused
    | some p =>
      let len := m.arg 48 8
      let dst := m.arg 56 8
      let src := m.arg 80 8
      if !(m.arg 44 4 = 0 && len ≤ 2 ^ 32 && dst % 32 = 0 && p.encl && p.owns dst len && s.outside src len) then s.respond mbBad
      else
        let (d, bad, s1) := s.outRead src len
        if bad then s1.respond mbRefused
        else match openEnvelope p.keys p.meas (BitVec.ofNat 256 (m.arg 0 32)) (m.argBytes 32 12) d (m.argBytes 64 16) with
          | none => s1.respond mbRefused
          | some x => (s1.firmWrite dst x).respond mbDone

/-! ### Checkpoints (28 R437, R438) -/

/-- Every group is asked to halt, supervisor groups included. -/
def State.haltAll (s : State) : State :=
  s.allGroups.foldl (fun s x =>
    if x.2.run == .ended || x.2.preempted then s
    else if s.mayHalt x.2 then s.preempt x.1
    else s.onGroup x.1 fun g => { g with wantPreempt := true }) s

/-- Every group has halted. -/
def State.allHalted (s : State) : Bool :=
  s.allGroups.all fun x => x.2.run == .ended || (x.2.preempted && x.2.spec.isNone)

/-- Every group resumes where it stood. -/
def State.resumeAll (s : State) : State :=
  let go (x : Nat × Group) : Nat × Group := (x.1, { x.2 with preempted := false })
  { s with groups := s.groups.map go }

/-- The sectors of the capacity tier that a lost expander held (29 R446). -/
def State.lostSectors (s : State) : List Nat :=
  (List.range 4).flatMap fun k =>
    let e := vget s.expanders k {}
    let base := (s.devnum.toNat * 2 ^ 47 + capBase + 4096 * framesBefore s.expanders k) / 32
    if e.lost then (List.range (128 * e.frames)).map (base + ·) else []

/-- The body of an image: caches clean, no TLB entry and no walk; what an expander has lost stands in it as poison (29 R446). -/
def State.image (s : State) : Body :=
  let clean (x : Nat × Line) : Nat × Line := (x.1, { x.2 with dirs := [], msc := none, notices := [], copies := [], tracks := [] })
  { s.resumeAll.toBody with
    poison := s.lostSectors.foldl NSet.add s.poison
    lines := s.lines.map clean
    tlb := []
    walkCache := []
    walks := [] }

/-- The newest complete image: its slot. -/
def State.newest (s : State) : Option Nat :=
  let a := vget s.slots 0 {}
  let b := vget s.slots 1 {}
  if a.complete && (!b.complete || b.seq ≤ a.seq) then some 0 else if b.complete then some 1 else none

/-- The digest of a body. -/
def bodyDigest (b : Body) : BitVec 512 := BitVec.ofNat 512 (ofLeBytes (sha512 (Config.bodyBytes b)))

/-- The header of a slot as it stands at its start (28 R437). -/
def Slot.header (x : Slot) : List Byte :=
  leBytes 8 x.complete.toNat ++ leBytes 8 x.seq ++ leBytes 8 x.blen ++ List.replicate 40 0 ++ leBytes 64 x.fwd.toNat ++
    leBytes 64 x.bodyd.toNat ++ leBytes 32 x.idk.toNat

/-- The slot that a checkpoint writes, and its SEQ. -/
def State.nextSlot (s : State) : Nat × Nat :=
  match s.newest with
  | some i => (1 - i, (vget s.slots i {}).seq + 1)
  | none => (0, 1)

/-- CHECKPOINT (28 R437): once every group has halted and no exchange is under way, every line returns to the ordinary states and the
body and a header with STATE 0 are written over the older slot; the next step writes STATE 1, and the groups go on. -/
def execMbCheckpoint (s : State) : Out :=
  s.mailbox 7 0 0 fun s m =>
    if m.written then
      let i := s.nextSlot.1
      let s1 := { s with
        slots := s.slots.setIfInBounds i { vget s.slots i {} with complete := true }
        mbox := { s.mbox with written := false } }
      s1.resumeAll.respond mbDone
    else if s.parts.any fun p => p.2.exchanging.isSome then s
    else
      let s1 := s.haltAll
      if !s1.allHalted then s1
      else
        let s2 := (s1.lines.map (·.1)).foldl (fun s ln => s.ordinary .ext ln) s1
        let slot : Slot :=
          { complete := false, seq := s2.nextSlot.2, blen := (Config.bodyBytes s2.image).length, bodyd := bodyDigest s2.image,
            fwd := s2.fwdig, idk := identityKey, body := some s2.image, power := s2.power }
        { s2 with slots := s2.slots.setIfInBounds s2.nextSlot.1 slot, mbox := { s2.mbox with written := true } }

/-- The image of a slot may be restored (28 R438): its digest is that of its body, and the firmware and the device are those that wrote
it. -/
def State.restorable (s : State) (x : Slot) : Bool :=
  x.complete && (x.body.map bodyDigest).any (· = x.bodyd) && x.fwd = s.fwdig && x.idk = identityKey

/-- The ranges of an enclave whose keys are gone read zero, with no poison. -/
def State.blank (s : State) (p : Part) : State :=
  { s with
    mem := s.mem.filter fun x => !p.owns x.1 1
    poison := s.poison.filter fun x => !p.owns (32 * x.1) 32 }

/-- A restore that is refused is reported (28 R438, 29 R443). -/
def State.refuseRestore (s : State) : State :=
  ({ s with berr := 4 }.logMc { kind := 0x09, sev := 2, sock := 16 }).respond mbRefused

/-- An image takes the place of the body, the capacity tier by writes of firmware (01 R13); enclaves whose keys are gone are not
recreated. -/
def State.restore (s : State) (b : Body) (power : Nat) : State :=
  let keep (x : Nat × Part) : Bool := !x.2.encl || (power = s.power && (s.part? x.1).any fun p => p.keys = x.2.keys)
  let found (e : Expander) : Expander := { e with lost := false }
  let s1 : State := { s with toBody := b, expanders := s.expanders.map found, grant := []
                             firm := b.mem.filter fun x => !isHbm x.1 }
  (b.parts.filter fun x => !keep x).foldl (fun s x => (s.blank x.2).erasePart x.1) s1

/-- RESTORE: the newest image, or none. -/
def execMbRestore (s : State) : Out :=
  s.mailbox 7 1 0 fun s _ =>
    match s.newest.map fun i => vget s.slots i {} with
    | none => s.refuseRestore
    | some x =>
      match x.body with
      | none => s.refuseRestore
      | some b => if s.restorable x then (s.restore b x.power).respond mbDone else s.refuseRestore

/-! ### Registers that firmware sets -/

/-- A tower holds some state of a line: a copy, or a partial. -/
def Line.inTower (l : Line) (t : Nat) : Bool :=
  (l.dir? t).isSome || match l.pot with
    | some p => p.parts.any fun q => match q.loc with | .l1 c => towerOf c = t | .l2 u => u = t | .home => false
    | none => false

/-- The copy of a line in a tower's L2 goes, and the scoped copies that the L2 holds of it drain. -/
def State.dropL2 (s : State) (t ln : Nat) : State :=
  (s.drainWhere fun c => c.line = ln && s.copyIn (coreNo (16 * (t % 2)) (8 * (t / 2))) true c).onLine ln fun l =>
    match l.dir? t with
    | some e => l.setDir t e.dropL2
    | none => l

/-- The lines of a cache whose ways change owner are invalidated: which lines stand in them is free, and no more stay than there is
room for. -/
def State.shrink (s : State) (lines : List Nat) (room : Nat) (drop : State → Nat → State) : State :=
  lines.zipIdx.foldl (fun s x =>
    match s.flip with
    | (gone, s1) => if gone || room ≤ x.2 then drop s1 x.1 else s1) s

/-- The cache split of a tower changes (07 R123): the P lines that it holds are merged and splits end, every dirty line of its L2 and
MSC is written back, and the ways that change owner are invalidated. -/
def State.resplit (s : State) (t n : Nat) : State :=
  let mine := (s.lines.filter fun x => x.2.inTower t || (homeOf (128 * x.1) = t && (x.2.pot.isSome || x.2.msc.isSome))).map (·.1)
  let s1 := mine.foldl (fun s ln => (s.ordinary .ext ln).onLine ln fun l => l.cleaned (s.homeIn ln)) s
  let s2 := { s1 with tcs := s1.tcs.setIfInBounds t (BitVec.ofNat 32 n) }
  if s.mscu t ≤ n then s2.shrink (s1.linesIn t none) (s2.l2Lines t) fun s ln => s.dropL2 t ln
  else s2.shrink (s1.mscIn t) (s2.mscLines t) fun s ln => s.onLine ln fun l => { l with msc := none }

/-- SETTCS (07 R123): the first step sets BUSY, the next applies the change and clears it. DESIGN CHOICE, log 51: MSCU 11 to 15 is refused
(status 1), as R123 has firmware refuse it; another value is no MSCU, a bad argument (29 R445). -/
def execMbSettcs (s : State) : Out :=
  s.mailbox 8 0 2 fun s m =>
    let t := m.arg 0 1
    let n := m.arg 1 1
    let r := vget s.tcs t 0
    if 4 ≤ t || 15 < n then s.respond mbBad
    else if 10 < n then s.respond mbRefused
    else if r &&& 16 = 0 then { s with tcs := s.tcs.setIfInBounds t (r ||| 16) }
    else (s.resplit t n).respond mbDone

/-- SETWDOG (28 R436). -/
def execMbSetwdog (s : State) : Out :=
  s.mailbox 8 1 4 fun s m =>
    match s.part? m.part with
    | none => s.respond mbRefused
    | some p => (s.setPart m.part { p with wdog := BitVec.ofNat 32 (m.arg 0 4) }).respond mbDone

/-- ASSIGN (29 R439, R445): a function belongs to at most one partition; one assigned anew is accepted again (25 R399). -/
def execMbAssign (s : State) : Out :=
  s.mailbox 9 0 2 fun s m =>
    let fn := m.arg 0 1
    let w := m.arg 1 1
    let part := BitVec.ofNat 4 m.part
    if !(1 ≤ fn && fn ≤ 16 && w % 128 = 0) then s.respond mbBad
    else if (s.part? m.part).isNone then s.respond mbRefused
    else if w = 128 then
      if Store.get? s.vfs fn == some part then { s with vfs := Store.del s.vfs fn }.respond mbDone else s.respond mbRefused
    else match Store.get? s.vfs fn with
      | some q => if q = part then s.respond mbDone else s.respond mbRefused
      | none =>
        { s with
          vfs := Store.put s.vfs fn part
          vfFrozen := NSet.rem s.vfFrozen fn
          vfRefused := NSet.rem s.vfRefused fn }.respond mbDone

/-! ### Power (01 R13, R14, R17, 29 R442, R443) -/

/-- A step of bring-up from the STATE that BSTAT shows (29 R442, R443): the firmware's signature, HBM, the ports, the links; each ends in
the next STATE, the last in READY, or in FAILED with its error. -/
def State.bringUp (s : State) (b : BringUp) : State :=
  let failed (e : Byte) : State := { s with bstate := 15, berr := e }
  match s.bstate.toNat with
  | 0 => { s with bstate := 1 }
  | 1 => if b.signature then { s with bstate := 2, fwdig := b.fwdig, devnum := b.devnum } else failed 1
  | 2 => if b.hbm then { s with bstate := 3 } else failed 2
  | 3 =>
    if b.ports then { s with bstate := 4, expanders := Vector.ofFn fun k : Fin 4 => { frames := (vget b.frames k.val 0) } }
    else failed 3
  | 4 =>
    let up := (List.range 36).filter fun k => b.links.getLsbD k
    { s with
      bstate := 5
      lup := BitVec.ofNat 6 up.length
      links := Vector.ofFn fun k : Fin 36 => { up := b.links.getLsbD k.val }
      domain := (b.domain.filter fun d => d != s.devnum).foldl (fun m d => NSet.add m d.toNat) [] }
  | _ => s

/-- POWER_ON (29 R442): the boot ROM verifies the firmware, which trains HBM, then the ports, then the links: one step of it (log 54). -/
def execPowerOn (b : BringUp) (s : State) : Out :=
  .next (({ s with powered := true } : State).bringUp b)

/-- Power is lost: only what firmware wrote to the capacity tier remains, the checkpoint slots and the bytes that still stand as
firmware wrote them (01 R13, log 65); of an enclave's range what its keys, now lost, made of them (25 R400). -/
def State.dark (s : State) : State :=
  let gone := s.parts.foldl (fun t x => t.sealAway x.2) s
  let kept := (s.firm.filter fun x => s.byteAt x.1 = x.2).filterMap fun x =>
    if !s.parts.any (fun p => p.2.encl && p.2.owns x.1 1) then some x
    else if gone.byteAt x.1 = 0 then none else some (x.1, gone.byteAt x.1)
  { State.reset with powered := false, slots := s.slots, mem := kept, firm := kept, power := s.power + 1, agenda := s.agenda,
                     nonce := s.nonce }

/-- POWER_LOSS (01 R13). -/
def execPowerLoss (s : State) : Out := .next s.dark

/-- CLOCK_THROTTLE (01 R14): the clocks run at sixteenths of the full rate, once the management controller runs (01 R13). -/
def execClockThrottle (level : BitVec 5) (s : State) : Out :=
  .next (if s.powered && s.bstate = 5 && 1 ≤ level.toNat && level.toNat ≤ 16 then { s with throttle := level.toNat } else s)

/-- THERMAL_SHUTDOWN (01 R17): the board's controller removes power. -/
def execThermalShutdown (sock : BitVec 5) (s : State) : Out := .next (if sock.toNat < 18 then s.dark else s)

end Sys2Proof.Machine
end

