-- ==== Sys2Proof/Machine/Predicates.lean ====
section
/-!
DEFINITION. Predicate instructions (06 R105 to R107), PMEM (22 R358) and the member mask (22 R360).
-/
namespace Sys2Proof.Machine
open Sys2Proof

/-- The tag of a predicate bit. -/
def PReg.tagAt (p : PReg) (e : Nat) : Option Tag := Store.get? p.tags e

/-- The elements of a member, lanes rising. -/
def Group.elems (g : Group) (m : Nat) : List Nat := (List.range g.lanes).map (m * g.lanes + ·)

/-- PLOG (06 R105). -/
def execPlog (f : Fields) (s : State) : Out :=
  runRegs (.plog f) (fun f g =>
    let a := g.psrc f.a
    let b := g.psrc f.b
    let bit (e : Nat) : Bool := logicN 1 f.fn (a.val.getLsbD e).toNat (b.val.getLsbD e).toNat = 1
    .ok { g with regs := g.regs.pdst f.d (g.active f) fun e => (bit e, firstTag [a.tagAt e, b.tagAt e]) }) s

/-- The bits of a predicate among some elements: their count, and the first tag (06 R106). -/
def countBits (a : PReg) (l : List Nat) : Nat × Option Tag :=
  ((l.filter a.val.getLsbD).length, firstTag (l.map a.tagAt))

/-- PCNT (06 R106): over all members for a scalar destination, else over each member alone. -/
def execPcnt (f : Fields) (s : State) : Out :=
  runRegs (.pcnt f) (fun f g =>
    let a := g.psrc f.a
    let act := g.active f
    if f.dScalar then
      let (n, t) := countBits a (allElems.filter act)
      .ok { g with regs := g.regs.sdst f.d { val := BitVec.ofNat 64 n, tag := t } }
    else
      let counts := (List.range g.id.mcount).map fun m => countBits a ((g.elems m).filter act)
      let res (e : Nat) : Elem := let (n, t) := counts.getD (g.slotOf e) (0, none); { v := BitVec.ofNat 64 n, tag := t }
      .ok (g.vresult f false (writesOf act res))) s

/-- The lanes of PFIRST up to one: whether the first set lane has been met, and the first tag up to it (06 R107, R92). -/
def firstUpTo (a : PReg) : List Nat → Bool × Option Tag → List (Nat × Bool × Option Tag)
  | [], _ => []
  | e :: r, (found, tag) =>
    let t := if found then tag else firstTag [tag, a.tagAt e]
    let b := a.val.getLsbD e
    (e, !found && b, t) :: firstUpTo a r (found || b, t)

/-- PFIRST (06 R107). -/
def execPfirst (f : Fields) (s : State) : Out :=
  runRegs (.pfirst f) (fun f g =>
    let a := g.psrc f.a
    let act := g.active f
    let l : Store (Bool × Option Tag) :=
      (List.range g.id.mcount).flatMap fun m => firstUpTo a ((g.elems m).filter act) (false, none)
    .ok { g with regs := g.regs.pdst f.d act fun e => Store.getD l e (false, none) }) s

/-- PMEM (22 R358): a scalar destination takes one bit for each member set in mk, a predicate destination r(m) in all
lanes of the member. -/
def execPmem (f : Fields) (s : State) : Out :=
  runRegs (.pmem f) (fun f g =>
    let a := g.psrc f.a
    let r := (List.range g.id.mcount).map fun m => (g.reduce f a m, g.reduceTag f a m)
    let at_ (m : Nat) : Bool × Option Tag := r.getD m (false, none)
    if f.dScalar then
      let v := (g.members.filter fun m => (at_ m).1).foldl (fun n m => n + 2 ^ m) 0
      .ok { g with regs := g.regs.sdst f.d { val := BitVec.ofNat 64 v, tag := firstTag (g.members.map fun m => (at_ m).2) } }
    else .ok { g with regs := g.regs.pdst f.d (fun e => g.inMask (g.slotOf e)) fun e => at_ (g.slotOf e) }) s

/-! ### The member mask (22 R360) -/

/-- The mask becomes a value and the stack another, with the Trail record of an mk change (25 R405). -/
def M.setMask (k : GKey) (mk : BitVec 16) (stack : List (BitVec 16)) : M Unit := do
  M.onGroup k fun g => { g with regs := { g.regs with mask := mk, mstack := stack } }
  M.modify fun s => s.trail (keyCore k) k.rs.toNat 2 stack.length mk.toNat

/-- The mask operand: bits M - 1 to 0; poison is consumed. -/
def M.maskOf (g : Group) (f : Fields) : M (BitVec 16) := do
  let a ← M.clean (g.ssrc f true f.a)
  pure (BitVec.ofNat 16 (a.toNat % 2 ^ g.id.mcount))

/-- MMSK.SET. -/
def execMmskSet (f : Fields) (s : State) : Out :=
  runM (.mmskSet f) (fun f k => do
    let g ← M.group k
    let a ← M.maskOf g f
    M.setMask k a g.regs.mstack) s

/-- MMSK.AND. -/
def execMmskAnd (f : Fields) (s : State) : Out :=
  runM (.mmskAnd f) (fun f k => do
    let g ← M.group k
    let a ← M.maskOf g f
    M.setMask k (g.regs.mask &&& a) g.regs.mstack) s

/-- MMSK.OR. -/
def execMmskOr (f : Fields) (s : State) : Out :=
  runM (.mmskOr f) (fun f k => do
    let g ← M.group k
    let a ← M.maskOf g f
    M.setMask k (g.regs.mask ||| a) g.regs.mstack) s

/-- MMSK.PUSH: at depth 8 it is an illegal operand. -/
def execMmskPush (f : Fields) (s : State) : Out :=
  runM (.mmskPush f) (fun f k => do
    let g ← M.group k
    let a ← M.maskOf g f
    M.setMask k (g.regs.mask &&& a) (g.regs.mask :: g.regs.mstack)) s
    { ok5 := fun g _ => g.regs.mstack.length < 8 }

/-- MMSK.POP: at depth 0 it is an illegal operand. -/
def execMmskPop (f : Fields) (s : State) : Out :=
  runM (.mmskPop f) (fun _ k => do
    let g ← M.group k
    match g.regs.mstack with
    | m :: r => M.setMask k m r
    | [] => pure ()) s
    { ok5 := fun g _ => !g.regs.mstack.isEmpty }

end Sys2Proof.Machine
end

