-- ==== Sys2Proof/Machine/VectorInt.lean ====
section
/-!
DEFINITION. Vector integer instructions (06 R108 to R110).
-/
namespace Sys2Proof.Machine
open Sys2Proof

/-- M is 001: the result saturates. -/
def saturates (f : Fields) : Bool := f.m == 1

/-- An element of a vector integer result: its tag, and the saturation flag where a part was clamped. -/
def ielem (x : Nat × Bool) (tags : List (Option Tag)) : Elem :=
  { v := BitVec.ofNat 64 x.1, tag := firstTag tags, fl := if x.2 then flSAT else 0 }

/-- One source, part by part. -/
def vector1 (i : Instr) (op : Fields → Nat → Nat × Bool) (s : State) : Out :=
  runRegs i (fun f g =>
    let res (e : Nat) : Elem :=
      let a := g.vsrc f (.i f.t) f.a e
      ielem (byParts (partW f.t) (partN f.t) (fun a _ _ => op f a) a.v.toNat 0 0) [a.tag]
    .ok (g.vresult f (wideInt f.t) (writesOf (g.active f) res))) s

/-- Two sources, part by part. -/
def vector2 (i : Instr) (op : Fields → Nat → Nat → Nat × Bool) (s : State) : Out :=
  runRegs i (fun f g =>
    let res (e : Nat) : Elem :=
      let a := g.vsrc f (.i f.t) f.a e
      let b := g.vsrc f (.i f.t) f.b e
      ielem (byParts (partW f.t) (partN f.t) (fun a b _ => op f a b) a.v.toNat b.v.toNat 0) [a.tag, b.tag]
    .ok (g.vresult f (wideInt f.t) (writesOf (g.active f) res))) s

/-- Three sources, part by part. -/
def vector3 (i : Instr) (op : Fields → Nat → Nat → Nat → Nat × Bool) (s : State) : Out :=
  runRegs i (fun f g =>
    let res (e : Nat) : Elem :=
      let a := g.vsrc f (.i f.t) f.a e
      let b := g.vsrc f (.i f.t) f.b e
      let c := g.vsrc f (.i f.t) f.c e
      ielem (byParts (partW f.t) (partN f.t) (op f) a.v.toNat b.v.toNat c.v.toNat) [a.tag, b.tag, c.tag]
    .ok (g.vresult f (wideInt f.t) (writesOf (g.active f) res))) s

/-- The integer that a part holds under T. -/
def partInt (f : Fields) (a : Nat) : Int := toInt (isSigned f.t) (partW f.t) a
/-- An exact result in a part, wrapped or saturated by M. -/
def partRes (f : Fields) (x : Int) : Nat × Bool := narrow (saturates f) (isSigned f.t) (partW f.t) x

/-- VADD (06 R108). -/
def execVadd (f : Fields) (s : State) : Out :=
  vector2 (.vadd f) (fun f a b => partRes f (partInt f a + partInt f b)) s
/-- VSUB (06 R108). -/
def execVsub (f : Fields) (s : State) : Out :=
  vector2 (.vsub f) (fun f a b => partRes f (partInt f a - partInt f b)) s
/-- VMUL (06 R108): FN 1 takes the high half of the product. -/
def execVmul (f : Fields) (s : State) : Out :=
  vector2 (.vmul f) (fun f a b =>
    let p := partInt f a * partInt f b
    if f.fn = 0 then partRes f p else (wrap (partW f.t) (p / (2 ^ partW f.t : Nat)), false)) s
/-- VMAD (06 R108): the product is not wrapped before the sum. -/
def execVmad (f : Fields) (s : State) : Out :=
  vector3 (.vmad f) (fun f a b c => partRes f (partInt f a * partInt f b + partInt f c)) s
/-- VMNX (06 R108). -/
def execVmnx (f : Fields) (s : State) : Out :=
  vector2 (.vmnx f) (fun f a b => (minMaxN (partW f.t) (isSigned f.t) f.fn a b, false)) s
/-- VABS (06 R108). -/
def execVabs (f : Fields) (s : State) : Out := vector1 (.vabs f) (fun f a => partRes f (partInt f a).natAbs) s
/-- VLOG (06 R108). -/
def execVlog (f : Fields) (s : State) : Out := vector2 (.vlog f) (fun f a b => (logicN (partW f.t) f.fn a b, false)) s
/-- VSHF (06 R108): the amount is b mod w. -/
def execVshf (f : Fields) (s : State) : Out :=
  vector2 (.vshf f) (fun f a b => (shiftN (partW f.t) f.fn a (b % partW f.t), false)) s
/-- VBIT (06 R108). -/
def execVbit (f : Fields) (s : State) : Out := vector1 (.vbit f) (fun f a => (bitN (partW f.t) f.fn a, false)) s

/-- VCMP (06 R109). -/
def execVcmp (f : Fields) (s : State) : Out :=
  runRegs (.vcmp f) (fun f g =>
    let res (e : Nat) : Bool × Option Tag :=
      let a := g.vsrc f (.i f.t) f.a e
      let b := g.vsrc f (.i f.t) f.b e
      (cmpN (partW f.t) (isSigned f.t) f.fn a.v.toNat b.v.toNat, firstTag [a.tag, b.tag])
    .ok { g with regs := g.regs.pdst f.d (g.active f) res }) s

/-- VSEL (06 R109): the tag of the bit, else of the source chosen. -/
def execVsel (f : Fields) (s : State) : Out :=
  runRegs (.vsel f) (fun f g =>
    let c := g.psrc f.c
    let res (e : Nat) : Elem :=
      let x := if c.val.getLsbD e then g.vsrc f (.i f.t) f.a e else g.vsrc f (.i f.t) f.b e
      { v := x.v, tag := firstTag [c.tagAt e, x.tag] }
    .ok (g.vresult f (wideInt f.t) (writesOf (g.active f) res))) s

/-- VMOV (06 R108). -/
def execVmov (f : Fields) (s : State) : Out := vector1 (.vmov f) (fun _ a => (a, false)) s

/-- VCVTI (06 R110): from the type X[2:0] to T, value by value. -/
def execVcvti (f : Fields) (s : State) : Out :=
  runRegs (.vcvti f) (fun f g =>
    let st := f.x.extractLsb' 0 3
    let conv (v : Nat) (j : Nat) : Nat × Bool :=
      narrow (saturates f) (isSigned f.t) (partW f.t) (toInt (isSigned st) (partW st) (unpackNat (partW st) v j))
    let res (e : Nat) : Elem :=
      let a := g.vsrc f (.i st) f.a e
      ielem (joinParts (partW f.t) ((List.range (partN f.t)).map (conv a.v.toNat))) [a.tag]
    .ok (g.vresult f (wideInt f.t) (writesOf (g.active f) res))) s

end Sys2Proof.Machine
end

