-- ==== Sys2Proof/Machine/Lanes.lean ====
section
/-!
DEFINITION. Lanes and permutes (06 R111 to R119).
-/
namespace Sys2Proof.Machine
open Sys2Proof

/-- Element (m, l) of a vector source. -/
def Group.lsrc (g : Group) (f : Fields) (t : BitVec 3) (s : Sel) (m l : Nat) : Elem :=
  g.vsrc f (.i t) s (m * g.lanes + l)

/-- A lane instruction whose element (m, l) is a function of m and l, written at the active elements. -/
def lane (i : Instr) (res : Fields → Group → Nat → Nat → Elem) (s : State) : Out :=
  runRegs i (fun f g =>
    .ok (g.vresult f (wideInt f.t) (writesOf (g.active f) fun e => res f g (g.slotOf e) (g.laneOf e)))) s

/-- VPERM (06 R112): a poisoned index selects nothing. -/
def execVperm (f : Fields) (s : State) : Out :=
  lane (.vperm f) (fun f g m l =>
    let b := g.lsrc f 1 f.b m l
    match b.tag with
    | some t => { tag := some t }
    | none =>
      let i := b.v.toNat % 2 ^ 32
      if i < g.lanes then g.lsrc f f.t f.a m i else {}) s

/-- VSLIDE (06 R113). DESIGN CHOICE, log 68: with a poisoned distance no element of A or B contributes, and the result is zero with
the tag of the distance. -/
def execVslide (f : Fields) (s : State) : Out :=
  lane (.vslide f) (fun f g m l =>
    let c := g.ssrc f true f.c
    let k := min c.val.toNat g.lanes
    match c.tag with
    | some t => { tag := some t }
    | none =>
      if f.fn = 0 then
        if k ≤ l then g.lsrc f f.t f.a m (l - k) else g.lsrc f f.t f.b m (g.lanes - k + l)
      else if l + k < g.lanes then g.lsrc f f.t f.a m (l + k)
      else g.lsrc f f.t f.b m (l + k - g.lanes)) s

/-- VBLUT (06 R114): the half of the table that no byte selects contributes no tag. -/
def execVblut (f : Fields) (s : State) : Out :=
  lane (.vblut f) (fun f g m l =>
    let a := g.lsrc f f.t f.a m l
    let b := g.ssrc f true f.b
    let c := g.ssrc f true f.c
    let idx := (List.range 4).map fun j =>
      let byte := unpackNat 8 a.v.toNat j
      if f.x = 0 then byte % 16 else byte / 16
    let pick (i : Nat) : Nat := if i < 8 then unpackNat 8 b.val.toNat i else unpackNat 8 c.val.toNat (i - 8)
    { v := BitVec.ofNat 64 (packBits 8 (idx.map pick))
      tag := firstTag [a.tag, if idx.any (· < 8) then b.tag else none, if idx.any (8 ≤ ·) then c.tag else none] }) s

/-- A combining code 0x0 to 0x5 on exact values (06 R115): bitwise codes act on the bits of the type. -/
def combine (w : Nat) (sg : Bool) (fn : BitVec 4) (x y : Int) : Int :=
  match fn.toNat with
  | 0 => x + y
  | 1 => toInt sg w (wrap w x &&& wrap w y)
  | 2 => toInt sg w (wrap w x ||| wrap w y)
  | 3 => toInt sg w (wrap w x ^^^ wrap w y)
  | 4 => if x ≤ y then x else y
  | _ => if x ≤ y then y else x

/-- The identity of a combining code (06 R116). -/
def combineId (w : Nat) (sg : Bool) (fn : BitVec 4) : Int :=
  match fn.toNat with
  | 1 => toInt sg w (2 ^ w - 1)
  | 4 => maxInt sg w
  | 5 => minInt sg w
  | _ => 0

/-- A combination with the first tag of its inputs. -/
structure Comb where
  x : Int
  tag : Option Tag := none

/-- A combination takes in an element. -/
def Comb.take (f : Fields) (c : Comb) (a : Elem) : Comb :=
  let w := partW f.t
  let sg := isSigned f.t
  { x := combine w sg f.fn c.x (toInt sg w a.v.toNat), tag := firstTag [c.tag, a.tag] }

/-- The result of a combination, clamped once. -/
def Comb.elem (f : Fields) (c : Comb) : Elem := ielem (narrow (saturates f) (isSigned f.t) (partW f.t) c.x) [c.tag]

/-- The combination of nothing. -/
def Comb.start (f : Fields) : Comb := { x := combineId (partW f.t) (isSigned f.t) f.fn }

/-- The active elements of a member with their values, lanes rising. -/
def Group.activeOf (g : Group) (f : Fields) (m : Nat) : List (Nat × Elem) :=
  let act := g.active f
  ((g.elems m).filter act).map fun e => (e, g.vsrc f (.i f.t) f.a e)

/-- VREDI (06 R115). -/
def execVredi (f : Fields) (s : State) : Out :=
  runRegs (.vredi f) (fun f g =>
    let r := (List.range g.id.mcount).map fun m =>
      ((g.activeOf f m).foldl (fun c x => c.take f x.2) (Comb.start f)).elem f
    .ok (g.vresult f (wideInt f.t) (writesOf (g.active f) fun e => r.getD (g.slotOf e) {}))) s

/-- The prefixes of a member: inclusive, or exclusive under X[0]. -/
def scanFrom (f : Fields) : Comb → List (Nat × Elem) → Store Elem
  | _, [] => []
  | c, (e, a) :: r =>
    let c' := c.take f a
    (e, (if f.x = 0 then c' else c).elem f) :: scanFrom f c' r

/-- VSCAN (06 R116). -/
def execVscan (f : Fields) (s : State) : Out :=
  runRegs (.vscan f) (fun f g =>
    let l : Store Elem := (List.range g.id.mcount).flatMap fun m => scanFrom f (Comb.start f) (g.activeOf f m)
    .ok (g.vresult f (wideInt f.t) (allElems.map fun e => Store.get? l e))) s

/-- VEXT (06 R117): from the lowest slot set in mk. A poisoned lane number gives zero with its tag, whatever mk holds (DESIGN
CHOICE, log 68). -/
def execVext (f : Fields) (s : State) : Out :=
  runRegs (.vext f) (fun f g =>
    let b := g.ssrc f true f.b
    let put (v : Word64) (t : Option Tag) : Except Trap Group := .ok { g with regs := g.regs.sdst f.d { val := v, tag := t } }
    match b.tag, g.lowest with
    | some t, _ => put 0 (some t)
    | none, none => put 0 none
    | none, some m =>
      if b.val.toNat < g.lanes then
        let a := g.lsrc f f.t f.a m b.val.toNat
        put (if f.t = 0 then sext32 (a.v.setWidth 32) else a.v) a.tag
      else put 0 none) s

/-- VINS (06 R117). A poisoned lane number names the lane that the bits beneath its tag give, which takes its tag (DESIGN
CHOICE, log 68). -/
def execVins (f : Fields) (s : State) : Out :=
  runRegs (.vins f) (fun f g =>
    let a := g.ssrc f (f.t == 7) f.a
    let b := g.ssrc f true f.b
    let act := g.active f
    let x : Elem := { v := if wideInt f.t then a.val else (a.val.setWidth 32).setWidth 64, tag := firstTag [a.tag, b.tag] }
    .ok (g.vresult f (wideInt f.t) (writesOf (fun e => act e && g.laneOf e = b.val.toNat) fun _ => x))) s

/-- The pairs of destination and source elements of VCOMP in a member (06 R118). -/
def compPairs (expand : Bool) (base : Nat) (l : List Nat) : List (Nat × Nat) :=
  l.zipIdx.map fun x => if expand then (x.1, base + x.2) else (base + x.2, x.1)

/-- VCOMP in either direction. -/
def vcomp (i : Instr) (expand : Bool) (s : State) : Out :=
  runRegs i (fun f g =>
    let act := g.active f
    let pairs : Store Nat := g.members.flatMap fun m => compPairs expand (m * g.lanes) ((g.elems m).filter act)
    .ok (g.vresult f (wideInt f.t) (allElems.map fun e => (Store.get? pairs e).map fun x => g.vsrc f (.i f.t) f.a x))) s

/-- VCOMP.COMPRESS (06 R118). -/
def execVcompCompress (f : Fields) (s : State) : Out := vcomp (.vcompCompress f) false s
/-- VCOMP.EXPAND (06 R118). -/
def execVcompExpand (f : Fields) (s : State) : Out := vcomp (.vcompExpand f) true s

end Sys2Proof.Machine
end

