-- ==== Sys2Proof/Machine/Regroup.lean ====
section
/-!
DEFINITION. Regrouping (21 R348 to R354, 22 R374): MRG and the rendezvous of a cohort instance.
-/
namespace Sys2Proof.Machine
open Sys2Proof

/-- MRG at issue: a cohort-scope release; the group waits for its instance (21 R353). A group of the instance that has
ended makes it fail at once (21 R354). -/
def runMrg (ret : Bool) (f : Fields) (k : GKey) : M Unit := do
  M.gate k
  let g ← M.group k
  let _ ← M.clean (g.ssrc f true f.b)
  let _ ← M.clean (g.ssrc f true f.c)
  let i ← M.inst g
  M.check i.ended.isEmpty (barrierTrap 0 4)
  M.modify fun s => (s.releaseDrain k g.id.inst 1).suspend k (.mrg ret) f none false

/-- MRG.REGROUP (21 R348). -/
def execMrgRegroup (f : Fields) (s : State) : Out := runM (.mrgRegroup f) (runMrg false) s
/-- MRG.RETURN (21 R349). -/
def execMrgReturn (f : Fields) (s : State) : Out := runM (.mrgReturn f) (runMrg true) s

/-- A group at the rendezvous: its key, its state, the fields of its MRG and whether it returns. -/
structure AtMrg where
  k : GKey
  g : Group
  f : Fields
  ret : Bool

namespace AtMrg
/-- v registers in the carry set, by mask of 128 bits. -/
def vmask (x : AtMrg) : Nat := (x.g.ssrc x.f true x.f.b).val.toNat + 2 ^ 64 * (x.g.ssrc x.f true x.f.c).val.toNat
/-- Predicates in the carry set; bit 0 is ignored. -/
def pmask (x : AtMrg) : Nat := x.f.i32.toNat % 2 ^ 16 / 2 * 2
/-- Register v j is carried. -/
def carriesV (x : AtMrg) (j : Nat) : Bool := bitNat x.vmask j = 1
/-- Predicate j is carried. -/
def carriesP (x : AtMrg) (j : Nat) : Bool := bitNat x.pmask j = 1
/-- What the groups of an instance must agree in (21 R354). -/
def shape (x : AtMrg) : Bool × Nat × Nat × Nat := (x.ret, x.vmask, x.pmask, x.g.regs.mstack.length)
/-- The key predicate of REGROUP. -/
def key (x : AtMrg) : PReg := x.g.psrc x.f.a
/-- The key of the member in a slot (21 R348). -/
def keyOfSlot (x : AtMrg) (m : Nat) : Bool := (List.range x.g.lanes).any fun l => x.key.val.getLsbD (m * x.g.lanes + l)
/-- A carried register lies beyond the group's allocation (22 R374). -/
def beyond (x : AtMrg) : Bool := (List.range 128).any fun j => x.carriesV j && x.g.id.vregs ≤ j
/-- The lowest element of some tags. -/
def lowTag (l : List (Nat × Tag)) : Option (Nat × Tag) :=
  l.foldl (fun m y => match m with | none => some y | some z => if y.1 < z.1 then some y else m) none
/-- The poison that the group would carry (21 R354): of a carried register or predicate, of an accumulator, or of the key
predicate in a slot set in mk. -/
def poison (x : AtMrg) : Option (Nat × Tag) :=
  let vs := (List.range 128).flatMap fun j => if x.carriesV j then (x.g.regs.vreg j).tags else []
  let ps := (List.range 16).flatMap fun j => if x.carriesP j then (x.g.regs.pget j).tags else []
  let ks := if x.ret then [] else x.key.tags.filter fun t => x.g.inMask (x.g.slotOf t.1)
  let accs := (List.range 256).filterMap fun n =>
    let a := vget x.g.regs.acc n {}
    a.tag.map fun t => (n / 16 * x.g.lanes, t)
  lowTag (vs ++ ps ++ ks ++ accs)
end AtMrg

/-- The groups of an instance where every one of them waits in MRG and may go on, in the order of positions. -/
def State.atMrg (s : State) (i : Inst) : Option (List AtMrg) :=
  i.groups.mapM fun k =>
    match s.group? k with
    | none => none
    | some g => match g.waitOf with
      | some w => match w.op with
        | .mrg ret => some { k := k, g := g, f := w.f, ret := ret }
        | _ => none
      | none => none

/-- The failure of each group, if any check fails (21 R354). -/
def mrgFaults (xs : List AtMrg) : Option (List Trap) :=
  let all (t : Trap) : Option (List Trap) := some (xs.map fun _ => t)
  match xs with
  | [] => none
  | x :: _ =>
    if xs.any fun y => y.g.regs.fcr != x.g.regs.fcr || y.g.id.seed != x.g.id.seed then all (barrierTrap 0 3)
    else if xs.any fun y => y.shape != x.shape then all (barrierTrap 0 2)
    else
      let own (y : AtMrg) : Option Trap := match y.poison with
        | some (e, t) => some (poisonTrap t e)
        | none => if y.beyond then
            some { cause := cOperand, xinfo := (wordOf (if y.ret then .mrgReturn y.f else .mrgRegroup y.f)).toNat }
          else none
      if xs.any fun y => (own y).isSome then some (xs.map fun y => (own y).getD (barrierTrap 0 5)) else none

/-- The members in their new order: for each new position the old one, as group index and slot. -/
def mrgOrder (i : Inst) (mbase : Nat) (xs : List AtMrg) : List (Nat × Nat) :=
  let m := i.mcount
  let at_ (n : Nat) : Nat × Nat := (n / m, n % m)
  let all := (List.range (i.size * m)).map at_
  let get (p : Nat × Nat) : Option AtMrg := xs[p.1]?
  let key (p : Nat × Nat) : Bool := match get p with | some x => x.keyOfSlot p.2 | none => false
  match xs with
  | x :: _ =>
    if x.ret then
      let first := mbase + i.ci * i.size * m
      (List.range (i.size * m)).map fun q =>
        (all.find? fun p => match get p with | some y => (vget y.g.regs.gmi p.2 0).toNat = first + q | none => false).getD (at_ q)
    else all.filter key ++ all.filter fun p => !key p
  | [] => all

/-- The registers of a group after the move: slot m takes its member from `src m` (21 R350, R351). -/
def mrgRegs (x : AtMrg) (src : Nat → Regs × Nat) (lt : Nat) : Regs :=
  let r := x.g.regs
  let lanes := x.g.lanes
  let n := x.g.id.mcount
  let from_ (e : Nat) : Regs × Nat := let y := src (e / lanes); (y.1, y.2 * lanes + e % lanes)
  let bits (get : Regs → PredBits) : PredBits := predBits (allElems.map fun e => let y := from_ e; (get y.1).getLsbD y.2)
  let column (get : Regs → BitVec 16) : BitVec 16 :=
    BitVec.ofNat 16 (packBits 1 ((List.range n).map fun m => let y := src m; ((get y.1).getLsbD y.2).toNat))
  { r.loseLatches.acquire lt with
    v := Vector.ofFn fun j : Fin 128 =>
      if x.carriesV j.val then VReg.ofLow (allElems.map fun e => let y := from_ e; (y.1.vreg j.val).at y.2) else {}
    p := Vector.ofFn fun j : Fin 16 =>
      if x.carriesP j.val then
        { val := bits fun r => (r.pget j.val).val
          tags := tagsOf (allElems.map fun e => let y := from_ e; Store.get? (y.1.pget j.val).tags y.2) }
      else {}
    flags := Vector.ofFn fun j : Fin 6 => bits fun r => vget r.flags j.val 0
    acc := Vector.ofFn fun j : Fin 256 =>
      if j.val / 16 < n then let y := src (j.val / 16); y.1.accAt y.2 (j.val % 16) else vget r.acc j.val {}
    mask := column (·.mask)
    mstack := (List.range r.mstack.length).map fun d => column fun r => r.mstack.getD d 0
    dic := Vector.ofFn fun j : Fin 16 => if j.val < n then let y := src j.val; vget y.1.dic y.2 0 else 0
    gmi := Vector.ofFn fun j : Fin 16 => if j.val < n then let y := src j.val; vget y.1.gmi y.2 0 else 0 }

/-- MRG_RENDEZVOUS (21 R353): once every group of the instance waits in MRG, the checks fail for all or the members move,
as one step. -/
def execMrgRendezvous (inst : Nat) (s : State) : Out :=
  match s.inst? inst with
  | none => .next s
  | some i =>
    match s.atMrg i with
    | none => .next s
    | some xs =>
      match mrgFaults xs with
      | some ts => .next ((xs.zip ts).foldl (fun s y => s.trapWaiting y.1.k y.2) s)
      | none =>
        let lt := xs.foldl (fun m x => max m x.g.regs.lt.toNat) 0
        let order := mrgOrder i (match xs with | x :: _ => x.g.id.mbase.toNat | [] => 0) xs
        let src (p m : Nat) : Regs × Nat :=
          match order[p * i.mcount + m]? with
          | some (q, n) => match xs[q]? with
            | some y => (y.g.regs, n)
            | none => ({}, 0)
          | none => ({}, 0)
        .next (xs.zipIdx.foldl (fun s y =>
          let x := y.1
          let r := mrgRegs x (src y.2) lt
          let s1 := s.setGroup x.k { x.g with regs := r, run := .ready }
          let s2 := if r.mask = x.g.regs.mask then s1
            else s1.trail (keyCore x.k) x.k.rs.toNat 2 r.mstack.length r.mask.toNat
          s2.stepped x.k) s)

end Sys2Proof.Machine
end

