-- ==== Sys2Proof/Machine/Scalar.lean ====
section
/-!
DEFINITION. Scalar integer instructions (06 R101 to R104).
-/
namespace Sys2Proof.Machine
open Sys2Proof

/-- A scalar source of the family; T is 110 or 111. -/
def Group.sInt (g : Group) (f : Fields) (s : Sel) : SReg := g.ssrc f (f.t == 7) s

/-- A scalar result with the tag of its first poisoned input (06 R92). -/
def sresult (f : Fields) (g : Group) (v : Nat) (tags : List (Option Tag)) : Except Trap Group :=
  .ok { g with regs := g.regs.sdst f.d { val := BitVec.ofNat 64 v, tag := firstTag tags } }

/-- One source. -/
def scalar1 (i : Instr) (op : Fields → Nat → Nat) (s : State) : Out :=
  runRegs i (fun f g =>
    let a := g.sInt f f.a
    sresult f g (op f a.val.toNat) [a.tag]) s

/-- Two sources. -/
def scalar2 (i : Instr) (op : Fields → Nat → Nat → Nat) (s : State) : Out :=
  runRegs i (fun f g =>
    let a := g.sInt f f.a
    let b := g.sInt f f.b
    sresult f g (op f a.val.toNat b.val.toNat) [a.tag, b.tag]) s

/-- Three sources. -/
def scalar3 (i : Instr) (op : Fields → Nat → Nat → Nat → Nat) (s : State) : Out :=
  runRegs i (fun f g =>
    let a := g.sInt f f.a
    let b := g.sInt f f.b
    let c := g.sInt f f.c
    sresult f g (op f a.val.toNat b.val.toNat c.val.toNat) [a.tag, b.tag, c.tag]) s

/-- SADD (06 R101). -/
def execSadd (f : Fields) (s : State) : Out := scalar2 (.sadd f) (fun _ a b => a + b) s
/-- SSUB (06 R101). -/
def execSsub (f : Fields) (s : State) : Out := scalar2 (.ssub f) (fun _ a b => a + (2 ^ 64 - b)) s
/-- SMUL (06 R101). -/
def execSmul (f : Fields) (s : State) : Out := scalar2 (.smul f) (fun _ a b => a * b) s
/-- SMULH (06 R101). -/
def execSmulh (f : Fields) (s : State) : Out :=
  scalar2 (.smulh f) (fun f a b =>
    let sg := isSigned f.t
    wrap 64 (toInt sg 64 a * toInt sg 64 b / (2 ^ 64 : Nat))) s

/-- SDIV and SREM (06 R102): a poisoned input traps nothing; the value beneath
the tag of a quotient by zero is open. -/
def divide (i : Instr) (pick : Int × Int → Int) (s : State) : Out :=
  runRegs i (fun f g =>
    let a := g.sInt f f.a
    let b := g.sInt f f.b
    let sg := isSigned f.t
    let q := if b.val = 0 then (Config.underTag a.val b.val).toNat
      else wrap 64 (pick (quotRem (toInt sg 64 a.val.toNat) (toInt sg 64 b.val.toNat)))
    if b.val = 0 && (firstTag [a.tag, b.tag]).isNone then .error { cause := cDivide }
    else sresult f g q [a.tag, b.tag]) s

/-- SDIV (06 R102). -/
def execSdiv (f : Fields) (s : State) : Out := divide (.sdiv f) (·.1) s
/-- SREM (06 R102). -/
def execSrem (f : Fields) (s : State) : Out := divide (.srem f) (·.2) s
/-- SMADD (06 R101). -/
def execSmadd (f : Fields) (s : State) : Out := scalar3 (.smadd f) (fun _ a b c => a * b + c) s
/-- SLOG (06 R101). -/
def execSlog (f : Fields) (s : State) : Out := scalar2 (.slog f) (fun f a b => logicN 64 f.fn a b) s
/-- SSHF (06 R101). -/
def execSshf (f : Fields) (s : State) : Out := scalar2 (.sshf f) (fun f a b => shiftN 64 f.fn a (b % 64)) s
/-- SBIT (06 R101). -/
def execSbit (f : Fields) (s : State) : Out := scalar1 (.sbit f) (fun f a => bitN 64 f.fn a) s
/-- SMNX (06 R101). -/
def execSmnx (f : Fields) (s : State) : Out := scalar2 (.smnx f) (fun f a b => minMaxN 64 (isSigned f.t) f.fn a b) s
/-- SSET (06 R101). -/
def execSset (f : Fields) (s : State) : Out :=
  scalar2 (.sset f) (fun f a b => (cmpN 64 (isSigned f.t) f.fn a b).toNat) s

/-- SSEL (06 R101): the tag of a, else of the source chosen. -/
def execSsel (f : Fields) (s : State) : Out :=
  runRegs (.ssel f) (fun f g =>
    let a := g.sInt f f.a
    let x := if a.val != 0 then g.sInt f f.b else g.sInt f f.c
    sresult f g x.val.toNat [a.tag, x.tag]) s

/-- SMOV (06 R101). -/
def execSmov (f : Fields) (s : State) : Out := scalar1 (.smov f) (fun _ a => a) s

/-- POS of a bit-field immediate (06 R103). -/
def bfPos (f : Fields) : Nat := bitsNat f.i32.toNat 5 0
/-- The width of a bit-field immediate. -/
def bfWidth (f : Fields) : Nat := bitsNat f.i32.toNat 13 8 + 1

/-- SBFX (06 R103). -/
def execSbfx (f : Fields) (s : State) : Out :=
  scalar1 (.sbfx f) (fun f a => wrap 64 (toInt (isSigned f.t) (bfWidth f) (fieldN a (bfPos f) (bfWidth f)))) s

/-- SBFI (06 R103). -/
def execSbfi (f : Fields) (s : State) : Out :=
  scalar2 (.sbfi f) (fun f a b =>
    let mask := (2 ^ bfWidth f - 1) * 2 ^ bfPos f
    (a &&& notN 64 mask) ||| (b * 2 ^ bfPos f &&& mask)) s

/-- SLEA (06 R104). -/
def execSlea (f : Fields) (s : State) : Out := scalar3 (.slea f) (fun f a b c => a + b * 2 ^ (f.x.toNat % 8) + c) s

end Sys2Proof.Machine
end

