-- ==== Sys2Proof/Machine/Dispatch.lean ====
section
/-!
DEFINITION. The meaning of every instruction and of every hardware and host step, one arm each.
-/
namespace Sys2Proof.Machine
open Sys2Proof

/-- One instruction of the group that holds the issue slot, or one step of the hardware or the host. -/
def exec (i : Instr) (s : State) : Host.Outcome State Fault Refusal :=
  match i with
  | .nop f => Sys2Proof.Machine.execNop f s
  | .br f => Sys2Proof.Machine.execBr f s
  | .brc f => Sys2Proof.Machine.execBrc f s
  | .jmp f => Sys2Proof.Machine.execJmp f s
  | .call f => Sys2Proof.Machine.execCall f s
  | .ret f => Sys2Proof.Machine.execRet f s
  | .loop f => Sys2Proof.Machine.execLoop f s
  | .clk f => Sys2Proof.Machine.execClk f s
  | .brm f => Sys2Proof.Machine.execBrm f s
  | .exit f => Sys2Proof.Machine.execExit f s
  | .yield f => Sys2Proof.Machine.execYield f s
  | .sleep f => Sys2Proof.Machine.execSleep f s
  | .sadd f => Sys2Proof.Machine.execSadd f s
  | .ssub f => Sys2Proof.Machine.execSsub f s
  | .smul f => Sys2Proof.Machine.execSmul f s
  | .smulh f => Sys2Proof.Machine.execSmulh f s
  | .sdiv f => Sys2Proof.Machine.execSdiv f s
  | .srem f => Sys2Proof.Machine.execSrem f s
  | .smadd f => Sys2Proof.Machine.execSmadd f s
  | .slog f => Sys2Proof.Machine.execSlog f s
  | .sshf f => Sys2Proof.Machine.execSshf f s
  | .sbit f => Sys2Proof.Machine.execSbit f s
  | .smnx f => Sys2Proof.Machine.execSmnx f s
  | .sset f => Sys2Proof.Machine.execSset f s
  | .ssel f => Sys2Proof.Machine.execSsel f s
  | .smov f => Sys2Proof.Machine.execSmov f s
  | .sbfx f => Sys2Proof.Machine.execSbfx f s
  | .sbfi f => Sys2Proof.Machine.execSbfi f s
  | .slea f => Sys2Proof.Machine.execSlea f s
  | .plog f => Sys2Proof.Machine.execPlog f s
  | .pcnt f => Sys2Proof.Machine.execPcnt f s
  | .pfirst f => Sys2Proof.Machine.execPfirst f s
  | .pmem f => Sys2Proof.Machine.execPmem f s
  | .mmskSet f => Sys2Proof.Machine.execMmskSet f s
  | .mmskAnd f => Sys2Proof.Machine.execMmskAnd f s
  | .mmskOr f => Sys2Proof.Machine.execMmskOr f s
  | .mmskPush f => Sys2Proof.Machine.execMmskPush f s
  | .mmskPop f => Sys2Proof.Machine.execMmskPop f s
  | .vadd f => Sys2Proof.Machine.execVadd f s
  | .vsub f => Sys2Proof.Machine.execVsub f s
  | .vmul f => Sys2Proof.Machine.execVmul f s
  | .vmad f => Sys2Proof.Machine.execVmad f s
  | .vmnx f => Sys2Proof.Machine.execVmnx f s
  | .vabs f => Sys2Proof.Machine.execVabs f s
  | .vlog f => Sys2Proof.Machine.execVlog f s
  | .vshf f => Sys2Proof.Machine.execVshf f s
  | .vbit f => Sys2Proof.Machine.execVbit f s
  | .vcmp f => Sys2Proof.Machine.execVcmp f s
  | .vsel f => Sys2Proof.Machine.execVsel f s
  | .vmov f => Sys2Proof.Machine.execVmov f s
  | .vcvti f => Sys2Proof.Machine.execVcvti f s
  | .vperm f => Sys2Proof.Machine.execVperm f s
  | .vslide f => Sys2Proof.Machine.execVslide f s
  | .vblut f => Sys2Proof.Machine.execVblut f s
  | .vredi f => Sys2Proof.Machine.execVredi f s
  | .vext f => Sys2Proof.Machine.execVext f s
  | .vins f => Sys2Proof.Machine.execVins f s
  | .vscan f => Sys2Proof.Machine.execVscan f s
  | .vcompCompress f => Sys2Proof.Machine.execVcompCompress f s
  | .vcompExpand f => Sys2Proof.Machine.execVcompExpand f s
  | .vfadd f => Sys2Proof.Machine.execVfadd f s
  | .vfsub f => Sys2Proof.Machine.execVfsub f s
  | .vfmul f => Sys2Proof.Machine.execVfmul f s
  | .vfma f => Sys2Proof.Machine.execVfma f s
  | .vfdiv f => Sys2Proof.Machine.execVfdiv f s
  | .vfsqrt f => Sys2Proof.Machine.execVfsqrt f s
  | .vfmnx f => Sys2Proof.Machine.execVfmnx f s
  | .vfsgn f => Sys2Proof.Machine.execVfsgn f s
  | .vfcmp f => Sys2Proof.Machine.execVfcmp f s
  | .vfcls f => Sys2Proof.Machine.execVfcls f s
  | .vfscl f => Sys2Proof.Machine.execVfscl f s
  | .vfexp f => Sys2Proof.Machine.execVfexp f s
  | .vflog f => Sys2Proof.Machine.execVflog f s
  | .vfrnd f => Sys2Proof.Machine.execVfrnd f s
  | .vfxp f => Sys2Proof.Machine.execVfxp f s
  | .rdfl f => Sys2Proof.Machine.execRdfl f s
  | .clfl f => Sys2Proof.Machine.execClfl f s
  | .sfadd f => Sys2Proof.Machine.execSfadd f s
  | .sfmul f => Sys2Proof.Machine.execSfmul f s
  | .sffma f => Sys2Proof.Machine.execSffma f s
  | .sfdiv f => Sys2Proof.Machine.execSfdiv f s
  | .sfsqrt f => Sys2Proof.Machine.execSfsqrt f s
  | .sfcmp f => Sys2Proof.Machine.execSfcmp f s
  | .sfcvt f => Sys2Proof.Machine.execSfcvt f s
  | .vcvtFpfp f => Sys2Proof.Machine.execVcvtFpfp f s
  | .vcvtFpint f => Sys2Proof.Machine.execVcvtFpint f s
  | .vcvtIntfp f => Sys2Proof.Machine.execVcvtIntfp f s
  | .vcvtFpslot f => Sys2Proof.Machine.execVcvtFpslot f s
  | .vcvtSlotfp f => Sys2Proof.Machine.execVcvtSlotfp f s
  | .vrq f => Sys2Proof.Machine.execVrq f s
  | .vbsc f => Sys2Proof.Machine.execVbsc f s
  | .gclr f => Sys2Proof.Machine.execGclr f s
  | .gadd f => Sys2Proof.Machine.execGadd f s
  | .gdot f => Sys2Proof.Machine.execGdot f s
  | .grnd f => Sys2Proof.Machine.execGrnd f s
  | .gst f => Sys2Proof.Machine.execGst f s
  | .gld f => Sys2Proof.Machine.execGld f s
  | .gmrg f => Sys2Proof.Machine.execGmrg f s
  | .gmrgMem f => Sys2Proof.Machine.execGmrgMem f s
  | .gstat f => Sys2Proof.Machine.execGstat f s
  | .mzero f => Sys2Proof.Machine.execMzero f s
  | .mma f => Sys2Proof.Machine.execMma f s
  | .mldt f => Sys2Proof.Machine.execMldt f s
  | .mstt f => Sys2Proof.Machine.execMstt f s
  | .mdrnOwn f => Sys2Proof.Machine.execMdrnOwn f s
  | .mdrnPeer f => Sys2Proof.Machine.execMdrnPeer f s
  | .mrp f => Sys2Proof.Machine.execMrp f s
  | .mpri f => Sys2Proof.Machine.execMpri f s
  | .layx f => Sys2Proof.Machine.execLayx f s
  | .sld f => Sys2Proof.Machine.execSld f s
  | .sst f => Sys2Proof.Machine.execSst f s
  | .vld f => Sys2Proof.Machine.execVld f s
  | .vst f => Sys2Proof.Machine.execVst f s
  | .wld f => Sys2Proof.Machine.execWld f s
  | .satom f => Sys2Proof.Machine.execSatom f s
  | .scas f => Sys2Proof.Machine.execScas f s
  | .vatom f => Sys2Proof.Machine.execVatom f s
  | .plk f => Sys2Proof.Machine.execPlk f s
  | .ldfKeep f => Sys2Proof.Machine.execLdfKeep f s
  | .ldfTake f => Sys2Proof.Machine.execLdfTake f s
  | .ste f => Sys2Proof.Machine.execSte f s
  | .fesetEmpty f => Sys2Proof.Machine.execFesetEmpty f s
  | .fesetFull f => Sys2Proof.Machine.execFesetFull f s
  | .fenceAcq f => Sys2Proof.Machine.execFenceAcq f s
  | .fenceRel f => Sys2Proof.Machine.execFenceRel f s
  | .fenceFull f => Sys2Proof.Machine.execFenceFull f s
  | .fencePromote f => Sys2Proof.Machine.execFencePromote f s
  | .tlwaitWait f => Sys2Proof.Machine.execTlwaitWait f s
  | .tlwaitTest f => Sys2Proof.Machine.execTlwaitTest f s
  | .tlrdDone f => Sys2Proof.Machine.execTlrdDone f s
  | .tlrdIssued f => Sys2Proof.Machine.execTlrdIssued f s
  | .tlrdErr f => Sys2Proof.Machine.execTlrdErr f s
  | .tlrdClrerr f => Sys2Proof.Machine.execTlrdClrerr f s
  | .tlinc f => Sys2Proof.Machine.execTlinc f s
  | .cmoClean f => Sys2Proof.Machine.execCmoClean f s
  | .cmoInval f => Sys2Proof.Machine.execCmoInval f s
  | .cmoFlush f => Sys2Proof.Machine.execCmoFlush f s
  | .cmoPin f => Sys2Proof.Machine.execCmoPin f s
  | .cmoUnpin f => Sys2Proof.Machine.execCmoUnpin f s
  | .pref f => Sys2Proof.Machine.execPref f s
  | .lifeMark f => Sys2Proof.Machine.execLifeMark f s
  | .lifeStep f => Sys2Proof.Machine.execLifeStep f s
  | .svc f => Sys2Proof.Machine.execSvc f s
  | .chkwWait f => Sys2Proof.Machine.execChkwWait f s
  | .chkwTest f => Sys2Proof.Machine.execChkwTest f s
  | .cpyCopy f => Sys2Proof.Machine.execCpyCopy f s
  | .cpyFill f => Sys2Proof.Machine.execCpyFill f s
  | .cpyt f => Sys2Proof.Machine.execCpyt f s
  | .rowCopy f => Sys2Proof.Machine.execRowCopy f s
  | .rowFill0 f => Sys2Proof.Machine.execRowFill0 f s
  | .rowFill1 f => Sys2Proof.Machine.execRowFill1 f s
  | .rowAnd f => Sys2Proof.Machine.execRowAnd f s
  | .rowOr f => Sys2Proof.Machine.execRowOr f s
  | .rowXor f => Sys2Proof.Machine.execRowXor f s
  | .rowNot f => Sys2Proof.Machine.execRowNot f s
  | .ired f => Sys2Proof.Machine.execIred f s
  | .collAllred f => Sys2Proof.Machine.execCollAllred f s
  | .collReduce f => Sys2Proof.Machine.execCollReduce f s
  | .collBcast f => Sys2Proof.Machine.execCollBcast f s
  | .collAllgath f => Sys2Proof.Machine.execCollAllgath f s
  | .collXsum f => Sys2Proof.Machine.execCollXsum f s
  | .collSpread f => Sys2Proof.Machine.execCollSpread f s
  | .collQuant f => Sys2Proof.Machine.execCollQuant f s
  | .collRankh f => Sys2Proof.Machine.execCollRankh f s
  | .cprec f => Sys2Proof.Machine.execCprec f s
  | .cwaitp f => Sys2Proof.Machine.execCwaitp f s
  | .ccan f => Sys2Proof.Machine.execCcan f s
  | .barArrive f => Sys2Proof.Machine.execBarArrive f s
  | .barArriveWait f => Sys2Proof.Machine.execBarArriveWait f s
  | .barWait f => Sys2Proof.Machine.execBarWait f s
  | .barWaitLocal f => Sys2Proof.Machine.execBarWaitLocal f s
  | .barqStatus f => Sys2Proof.Machine.execBarqStatus f s
  | .barqCid f => Sys2Proof.Machine.execBarqCid f s
  | .barqGen f => Sys2Proof.Machine.execBarqGen f s
  | .sig f => Sys2Proof.Machine.execSig f s
  | .lnch f => Sys2Proof.Machine.execLnch f s
  | .join f => Sys2Proof.Machine.execJoin f s
  | .mrgRegroup f => Sys2Proof.Machine.execMrgRegroup f s
  | .mrgReturn f => Sys2Proof.Machine.execMrgReturn f s
  | .ordc f => Sys2Proof.Machine.execOrdc f s
  | .trap f => Sys2Proof.Machine.execTrap f s
  | .gctlResume f => Sys2Proof.Machine.execGctlResume f s
  | .gctlKill f => Sys2Proof.Machine.execGctlKill f s
  | .gctlStep f => Sys2Proof.Machine.execGctlStep f s
  | .mfs f => Sys2Proof.Machine.execMfs f s
  | .mts f => Sys2Proof.Machine.execMts f s
  | .segld f => Sys2Proof.Machine.execSegld f s
  | .tlbiRange f => Sys2Proof.Machine.execTlbiRange f s
  | .tlbiAsid f => Sys2Proof.Machine.execTlbiAsid f s
  | .tlbiAll f => Sys2Proof.Machine.execTlbiAll f s
  | .tlbsync f => Sys2Proof.Machine.execTlbsync f s
  | .adhv f => Sys2Proof.Machine.execAdhv f s
  | .frzThaw f => Sys2Proof.Machine.execFrzThaw f s
  | .frzKill f => Sys2Proof.Machine.execFrzKill f s
  | .ctxs f => Sys2Proof.Machine.execCtxs f s
  | .trmPredicate f => Sys2Proof.Machine.execTrmPredicate f s
  | .trmScalar f => Sys2Proof.Machine.execTrmScalar f s
  | .pwait f => Sys2Proof.Machine.execPwait f s
  | .issueArbitration core second => Sys2Proof.Machine.execIssueArbitration core second s
  | .ltTick g => Sys2Proof.Machine.execLtTick g s
  | .trapRecordWrite part => Sys2Proof.Machine.execTrapRecordWrite part s
  | .switchPointEvent g => Sys2Proof.Machine.execSwitchPointEvent g s
  | .fullEmptyWake g => Sys2Proof.Machine.execFullEmptyWake g s
  | .timelineWaitWake g => Sys2Proof.Machine.execTimelineWaitWake g s
  | .chunkWaitWake g => Sys2Proof.Machine.execChunkWaitWake g s
  | .planeWaitWake g => Sys2Proof.Machine.execPlaneWaitWake g s
  | .barrierWaitWake g => Sys2Proof.Machine.execBarrierWaitWake g s
  | .joinWake g => Sys2Proof.Machine.execJoinWake g s
  | .lnchRoomWake g => Sys2Proof.Machine.execLnchRoomWake g s
  | .ordcWake g => Sys2Proof.Machine.execOrdcWake g s
  | .pwaitWake g => Sys2Proof.Machine.execPwaitWake g s
  | .sleepWake g => Sys2Proof.Machine.execSleepWake g s
  | .sleepExpiry g => Sys2Proof.Machine.execSleepExpiry g s
  | .waitTimeout g => Sys2Proof.Machine.execWaitTimeout g s
  | .watchdog g => Sys2Proof.Machine.execWatchdog g s
  | .fenceComplete g => Sys2Proof.Machine.execFenceComplete g s
  | .mrgRendezvous inst => Sys2Proof.Machine.execMrgRendezvous inst s
  | .signalArrival c => Sys2Proof.Machine.execSignalArrival c s
  | .signalQueued c => Sys2Proof.Machine.execSignalQueued c s
  | .signalStaleDrop c => Sys2Proof.Machine.execSignalStaleDrop c s
  | .engineUnit c unit => Sys2Proof.Machine.execEngineUnit c unit s
  | .rowBlockWrite c block => Sys2Proof.Machine.execRowBlockWrite c block s
  | .iredRun c run => Sys2Proof.Machine.execIredRun c run s
  | .collMatch c peers => Sys2Proof.Machine.execCollMatch c peers s
  | .collPlaneArrival c tile => Sys2Proof.Machine.execCollPlaneArrival c tile s
  | .cancelPropagation c tile who => Sys2Proof.Machine.execCancelPropagation c tile who s
  | .engineCommandFinish c => Sys2Proof.Machine.execEngineCommandFinish c s
  | .engineFault c unit => Sys2Proof.Machine.execEngineFault c unit s
  | .followOnSubmit c => Sys2Proof.Machine.execFollowOnSubmit c s
  | .matrixEntry g => Sys2Proof.Machine.execMatrixEntry g s
  | .matrixStep g => Sys2Proof.Machine.execMatrixStep g s
  | .matrixQueueAging g => Sys2Proof.Machine.execMatrixQueueAging g s
  | .directoryLoadMiss pa core => Sys2Proof.Machine.execDirectoryLoadMiss pa core s
  | .directoryWriteOwnership pa core mask => Sys2Proof.Machine.execDirectoryWriteOwnership pa core mask s
  | .directoryPlk pa core fn t => Sys2Proof.Machine.execDirectoryPlk pa core fn t s
  | .directoryScopedAtomic pa g cohort => Sys2Proof.Machine.execDirectoryScopedAtomic pa g cohort s
  | .evictionNotice pa core l2 => Sys2Proof.Machine.execEvictionNotice pa core l2 s
  | .leaseRenewalReturn g => Sys2Proof.Machine.execLeaseRenewalReturn g s
  | .homeAtomic dev part pa a => Sys2Proof.Machine.execHomeAtomic dev part pa a s
  | .dramSchedulerPick queue => Sys2Proof.Machine.execDramSchedulerPick queue s
  | .tierPromotion part asid va => Sys2Proof.Machine.execTierPromotion part asid va s
  | .pageMigration index => Sys2Proof.Machine.execPageMigration index s
  | .pageWalk target core part who va => Sys2Proof.Machine.execPageWalk target core part who va s
  | .tlbiTarget index target => Sys2Proof.Machine.execTlbiTarget index target s
  | .tlbiAck index target => Sys2Proof.Machine.execTlbiAck index target s
  | .shootdownTargetLost target => Sys2Proof.Machine.execShootdownTargetLost target s
  | .orderedCommit launch => Sys2Proof.Machine.execOrderedCommit launch s
  | .packetLaunch q => Sys2Proof.Machine.execPacketLaunch q s
  | .packetNode q => Sys2Proof.Machine.execPacketNode q s
  | .packetCopy q => Sys2Proof.Machine.execPacketCopy q s
  | .packetSignal q => Sys2Proof.Machine.execPacketSignal q s
  | .readyPoolAging launch => Sys2Proof.Machine.execReadyPoolAging launch s
  | .placement part => Sys2Proof.Machine.execPlacement part s
  | .cohortInstanceEnd inst => Sys2Proof.Machine.execCohortInstanceEnd inst s
  | .launchEnd launch => Sys2Proof.Machine.execLaunchEnd launch s
  | .copyPacketDone q => Sys2Proof.Machine.execCopyPacketDone q s
  | .traceDrain core => Sys2Proof.Machine.execTraceDrain core s
  | .lossRecord core => Sys2Proof.Machine.execLossRecord core s
  | .correctedError sock unit => Sys2Proof.Machine.execCorrectedError sock unit s
  | .uncorrectableError at_ => Sys2Proof.Machine.execUncorrectableError at_ s
  | .lostControlFlit pa link => Sys2Proof.Machine.execLostControlFlit pa link s
  | .potluckRecallFailure pa tower => Sys2Proof.Machine.execPotluckRecallFailure pa tower s
  | .destinationError src dst => Sys2Proof.Machine.execDestinationError src dst s
  | .linkCrcReplay link => Sys2Proof.Machine.execLinkCrcReplay link s
  | .linkRetire link => Sys2Proof.Machine.execLinkRetire link s
  | .deviceUnreachable dev => Sys2Proof.Machine.execDeviceUnreachable dev s
  | .expanderLoss port => Sys2Proof.Machine.execExpanderLoss port s
  | .peerRequest dev part pa ask => Sys2Proof.Machine.execPeerRequest dev part pa ask s
  | .peerUnknownPartition dev part pa ask => Sys2Proof.Machine.execPeerUnknownPartition dev part pa ask s
  | .hostBar2Access fn offset ask => Sys2Proof.Machine.execHostBar2Access fn offset ask s
  | .hostAtomic fn offset a => Sys2Proof.Machine.execHostAtomic fn offset a s
  | .notReadyAccess bar2 offset ask => Sys2Proof.Machine.execNotReadyAccess bar2 offset ask s
  | .registerWrite offset data => Sys2Proof.Machine.execRegisterWrite offset data s
  | .mbCreate => Sys2Proof.Machine.execMbCreate s
  | .mbDestroy => Sys2Proof.Machine.execMbDestroy s
  | .mbQueue => Sys2Proof.Machine.execMbQueue s
  | .mbLoad => Sys2Proof.Machine.execMbLoad s
  | .mbSeal => Sys2Proof.Machine.execMbSeal s
  | .mbAttest => Sys2Proof.Machine.execMbAttest s
  | .mbImport => Sys2Proof.Machine.execMbImport s
  | .mbCheckpoint => Sys2Proof.Machine.execMbCheckpoint s
  | .mbRestore => Sys2Proof.Machine.execMbRestore s
  | .mbSettcs => Sys2Proof.Machine.execMbSettcs s
  | .mbSetwdog => Sys2Proof.Machine.execMbSetwdog s
  | .mbAssign => Sys2Proof.Machine.execMbAssign s
  | .powerOn b => Sys2Proof.Machine.execPowerOn b s
  | .powerLoss => Sys2Proof.Machine.execPowerLoss s
  | .clockThrottle level => Sys2Proof.Machine.execClockThrottle level s
  | .thermalShutdown sock => Sys2Proof.Machine.execThermalShutdown sock s
  | .rejectedPacket q => Sys2Proof.Machine.execRejectedPacket q s
  | .timestampSweep line => Sys2Proof.Machine.execTimestampSweep line s

end Sys2Proof.Machine
end

