-- ==== Sys2Proof/Machine/Step.lean ====
section
/-!
DEFINITION. One step of the machine.
-/
namespace Sys2Proof.Machine
open Sys2Proof

/-- One step: the next step of the agenda; else the next group that holds an issue slot issues; else clocks pass and an
agent may act. -/
def step (s : State) : Host.Outcome State Fault Refusal :=
  match s.agenda with
  | i :: r => exec i { s with agenda := r }
  | [] =>
    match s.grant with
    | k :: r =>
      match { s with grant := r }.issueNext k with
      | .next s' => .next s'
      | .run i s' => exec i s'
    | [] =>
      match s.idle with
      | (s', some i) => if isEvent i then exec i s' else .next s'
      | (s', none) => .next s'

/-- A state whose next step fetches and runs the instruction with the given bits (log 7). -/
def State.withFetchWord (s : State) (nbits w : Nat) : State := s.placeWord nbits w

end Sys2Proof.Machine
end

