-- ==== Sys2Proof/Safety.lean ====
section
/-!
DEFINITION. What counts as a safe run, and the terms in which claims speak of an instruction that runs.
-/
namespace Sys2Proof.Safety
open Sys2Proof Sys2Proof.Machine

/-- A step answers a next state. -/
def stepOk (s : State) : Prop := ∃ t, step s = .next t

/-- The first n steps from a state all answer a next state. -/
def runOk : Nat → State → Prop
  | 0, _ => True
  | n + 1, s => ∃ t, step s = .next t ∧ runOk n t

/-- Memory stands in its canonical form, and so do what firmware has written of it and every image of it. -/
def Canonical (s : State) : Prop :=
  Memory.wf s.mem = true ∧ Memory.wf s.firm = true ∧
    ∀ (i : Nat) (b : Body), (vget s.slots i {}).body = some b → Memory.wf b.mem = true

/-- The group passes steps 5 and 6 of the decode order for an instruction (03 R65). -/
def legal (g : Group) (i : Instr) : Bool :=
  match row i, fields i with
  | some r, some f => g.step5 r f && (!r.priv || g.id.sup)
  | _, _ => false

/-- A group holds the issue slot and passes steps 4 to 6 of the decode order for an instruction; it does not run ahead of a renewal (08 R149) and
is not stepped (26 R411). -/
structure Ready (s : State) (k : GKey) (g : Group) (i : Instr) : Prop where
  cur : s.cur = some k
  group : s.group? k = some g
  wf : wellFormed i = true
  legal : legal g i = true
  spec : g.spec = none
  once : g.stepOnce = false

/-- A group that is ready and that no fence and no ordered launch holds back (20 R343, R344, 10 R195). -/
structure Free (s : State) (k : GKey) (g : Group) (i : Instr) : Prop extends Ready s k g i where
  fence : g.fence = none
  ord : g.ord = none

/-- The group after an instruction that does h to it: h finds the program counter behind the instruction and the chain
with it taken in; dic counts a vector instruction (02 R40, 03 R62). -/
def did (g : Group) (i : Instr) (h : Group → Group) : Group :=
  match row i, fields i with
  | some r, some f => let x := h (g.enter r f); { x with regs := x.regs.countDic r.vec }
  | _, _ => g

/-- The same for an instruction that changes only registers. -/
def didRegs (g : Group) (i : Instr) (h : Regs → Regs) : Group := did g i fun x => { x with regs := h x.regs }

/-- The machine as an instruction of a group begins: the program counter stands behind it and the chain has taken it in. -/
def entered (s : State) (k : GKey) (g : Group) (i : Instr) : State :=
  match row i, fields i with
  | some r, some f => s.setGroup k (g.enter r f)
  | _, _ => s

/-- The machine as an instruction of a group completes: dic counts it. -/
def finished (s : State) (k : GKey) (i : Instr) : State :=
  match row i with
  | some r => s.complete k r
  | none => s

/-- What an instruction answers whose effect on the machine is h. -/
def effect (s : State) (k : GKey) (g : Group) (i : Instr) (h : State → State) : Out :=
  .next (finished (h (entered s k g i)) k i)

/-- What an instruction answers that has brought the machine to a state. -/
def reaches (s : State) (k : GKey) (i : Instr) : Out := .next (finished s k i)

/-- What an instruction answers that traps: the trap is taken at the instruction, with the chain flag where it names a
latch (28 R426, R427). -/
def trapResult (s : State) (k : GKey) (i : Instr) (t : Trap) : Out :=
  match row i, fields i with
  | some r, some f => .next (s.trapGroup k t (namesLatch r f))
  | _, _ => .next s

/-- What a control instruction answers: its Trail record, taken or not (25 R405), and its effect on the registers. -/
def controlResult (s : State) (k : GKey) (g : Group) (i : Instr) (taken : Bool) (h : Regs → Regs) : Out :=
  .next ((s.ctlTrail k taken g.regs.pc).setGroup k (didRegs g i h))

/-- What an instruction answers that writes a vector destination at its active elements. -/
def laneResult (s : State) (k : GKey) (g : Group) (i : Instr) (f : Fields) (wide : Bool) (res : Nat → Elem) : Out :=
  .next (s.setGroup k (did g i fun x => x.vresult f wide (writesOf (g.active f) res)))

/-- What an instruction answers that writes a scalar destination, with the tag of its first poisoned input (06 R92). -/
def scalarResult (s : State) (k : GKey) (g : Group) (i : Instr) (d : Sel) (v : Word64) (tags : List (Option Tag)) : Out :=
  .next (s.setGroup k (didRegs g i fun x => x.sdst d { val := v, tag := firstTag tags }))

/-- What an instruction answers that writes a predicate destination where w holds. -/
def predicateResult (s : State) (k : GKey) (g : Group) (i : Instr) (d : Sel) (w : Nat → Bool)
    (res : Nat → Bool × Option Tag) : Out :=
  .next (s.setGroup k (didRegs g i fun x => x.pdst d w res))

/-- What an instruction answers that sets the member mask and its stack, with its Trail record (25 R405). -/
def maskResult (s : State) (k : GKey) (g : Group) (i : Instr) (mk : BitVec 16) (stack : List (BitVec 16)) : Out :=
  .next ((s.trail (keyCore k) k.rs.toNat 2 stack.length mk.toNat).setGroup k
    (didRegs g i fun x => { x with mask := mk, mstack := stack }))

/-- An instruction that writes registers of its group once the machine stands in a state. -/
def thenRegs (s : State) (k : GKey) (i : Instr) (h : Regs → Regs) : Out :=
  .next (finished (s.onGroup k fun x => { x with regs := h x.regs }) k i)

/-- An optional timeout operand that can be read: none for the code 0x00, else a clean count (10 R193). -/
def timeoutIs (g : Group) (f : Fields) (sel : Sel) (limit : Option Nat) : Prop :=
  match sel with
  | .v _ => limit = none
  | _ => (g.ssrc f true sel).tag = none ∧ limit = some (g.ssrc f true sel).val.toNat

/-- A value for the member of an element; a default for an element of no member. -/
def ofMember {α : Type} (g : Group) (v : Nat → α) (d : α) (e : Nat) : α :=
  if g.slotOf e < g.id.mcount then v (g.slotOf e) else d

/-- A state that differs from another in one group at most. -/
def onlyGroup (s t : State) (k : GKey) : Prop := ∃ g, t = s.setGroup k g

end Sys2Proof.Safety
end

