-- ==== Sys2Proof/Certificates/Slice0/Obligations.lean ====
section
/-!
DEFINITION. The statements about the model.
-/

open Sys2Proof Sys2Proof.Machine Sys2Proof.Safety
/-! ### Scalar integer instructions (06 R101 to R104) -/

/-- Scalar arithmetic is modulo 2^64: sums, differences, products, the high half of the exact product, selection and address
formation, each with the tag of its first poisoned input; nothing else changes (06 R101, R104). SDIV and SREM: the
quotient rounded toward zero and its remainder; a clean zero divisor traps DIVIDE_BY_ZERO and writes nothing; a poisoned
input traps nothing and marks the result (06 R102). Where the spec is open this states the choices of the model: log 6.
-/
def Obligations.ScalarArithmeticResults : Prop :=
  (∀ (s : State) (k : GKey) (g : Group) (f : Fields),
    let a := g.ssrc f (f.t == 7) f.a
    let b := g.ssrc f (f.t == 7) f.b
    let c := g.ssrc f (f.t == 7) f.c
    (Ready s k g (.sadd f) →
      exec (.sadd f) s = scalarResult s k g (.sadd f) f.d (a.val + b.val) [a.tag, b.tag]) ∧
    (Ready s k g (.ssub f) →
      exec (.ssub f) s = scalarResult s k g (.ssub f) f.d (a.val - b.val) [a.tag, b.tag]) ∧
    (Ready s k g (.smul f) →
      exec (.smul f) s = scalarResult s k g (.smul f) f.d (a.val * b.val) [a.tag, b.tag]) ∧
    (Ready s k g (.smulh f) → f.t = 6 →
      exec (.smulh f) s =
        scalarResult s k g (.smulh f) f.d (BitVec.ofInt 64 (a.val.toInt * b.val.toInt / 2 ^ 64)) [a.tag, b.tag]) ∧
    (Ready s k g (.smulh f) → f.t = 7 →
      exec (.smulh f) s =
        scalarResult s k g (.smulh f) f.d (BitVec.ofNat 64 (a.val.toNat * b.val.toNat / 2 ^ 64)) [a.tag, b.tag]) ∧
    (Ready s k g (.smadd f) →
      exec (.smadd f) s =
        scalarResult s k g (.smadd f) f.d (a.val * b.val + c.val) [a.tag, b.tag, c.tag]) ∧
    (Ready s k g (.ssel f) →
      exec (.ssel f) s =
        (if a.val = 0 then scalarResult s k g (.ssel f) f.d c.val [a.tag, c.tag]
         else scalarResult s k g (.ssel f) f.d b.val [a.tag, b.tag])) ∧
    (Ready s k g (.smov f) → exec (.smov f) s = scalarResult s k g (.smov f) f.d a.val [a.tag]) ∧
    (Ready s k g (.slea f) →
      exec (.slea f) s =
        scalarResult s k g (.slea f) f.d (a.val + (b.val <<< (f.x.toNat % 8)) + c.val) [a.tag, b.tag, c.tag])) ∧
  (∀ (s : State) (k : GKey) (g : Group) (f : Fields),
    let a := g.ssrc f (f.t == 7) f.a
    let b := g.ssrc f (f.t == 7) f.b
    let quo : Word64 := if f.t = 6 then a.val.sdiv b.val else a.val.udiv b.val
    let rem : Word64 := if f.t = 6 then a.val.srem b.val else a.val.umod b.val
    let clean := a.tag = none ∧ b.tag = none
    (Ready s k g (.sdiv f) → b.val ≠ 0 →
      exec (.sdiv f) s = scalarResult s k g (.sdiv f) f.d quo [a.tag, b.tag]) ∧
    (Ready s k g (.srem f) → b.val ≠ 0 →
      exec (.srem f) s = scalarResult s k g (.srem f) f.d rem [a.tag, b.tag]) ∧
    (Ready s k g (.sdiv f) → b.val = 0 → clean →
      exec (.sdiv f) s = .next (s.trapGroup k { cause := cDivide } (namesLatch ((row (.sdiv f)).getD { op := 0 }) f))) ∧
    (Ready s k g (.srem f) → b.val = 0 → clean →
      exec (.srem f) s = .next (s.trapGroup k { cause := cDivide } (namesLatch ((row (.srem f)).getD { op := 0 }) f))) ∧
    (Ready s k g (.sdiv f) → b.val = 0 → ¬clean →
      ∃ v, exec (.sdiv f) s = scalarResult s k g (.sdiv f) f.d v [a.tag, b.tag]) ∧
    (Ready s k g (.srem f) → b.val = 0 → ¬clean →
      ∃ v, exec (.srem f) s = scalarResult s k g (.srem f) f.d v [a.tag, b.tag]))

/-- The scalar logic, shift, bit-count, minimum, maximum, comparison and bit-field instructions by their code sets (06 R101,
R103). -/
def Obligations.ScalarLogicResults : Prop :=
  ∀ (s : State) (k : GKey) (g : Group) (f : Fields),
    let a := g.ssrc f (f.t == 7) f.a
    let b := g.ssrc f (f.t == 7) f.b
    let n := b.val.toNat % 64
    let pos := f.i32.toNat % 64
    let w := f.i32.toNat / 2 ^ 8 % 64 + 1
    let m : Word64 := (BitVec.allOnes w).setWidth 64 <<< pos
    (Ready s k g (.slog f) →
      exec (.slog f) s = scalarResult s k g (.slog f) f.d
        (if f.fn = 0 then a.val &&& b.val else if f.fn = 1 then a.val ||| b.val else if f.fn = 2 then a.val ^^^ b.val
         else if f.fn = 3 then a.val &&& ~~~b.val else if f.fn = 4 then a.val ||| ~~~b.val else ~~~(a.val ^^^ b.val))
        [a.tag, b.tag]) ∧
    (Ready s k g (.sshf f) →
      exec (.sshf f) s = scalarResult s k g (.sshf f) f.d
        (if f.fn = 0 then a.val <<< n else if f.fn = 1 then a.val >>> n else if f.fn = 2 then a.val.sshiftRight n
         else if f.fn = 3 then a.val.rotateLeft n else a.val.rotateRight n)
        [a.tag, b.tag]) ∧
    (Ready s k g (.sbit f) →
      exec (.sbit f) s =
        scalarResult s k g (.sbit f) f.d (BitVec.ofNat 64 (bitN 64 f.fn a.val.toNat)) [a.tag]) ∧
    (Ready s k g (.smnx f) →
      let le : Bool := if f.t = 6 then a.val.sle b.val else a.val.ule b.val
      exec (.smnx f) s =
        scalarResult s k g (.smnx f) f.d (if (f.fn == 0) == le then a.val else b.val) [a.tag, b.tag]) ∧
    (Ready s k g (.sset f) →
      let lt (x y : Word64) : Bool := if f.t = 6 then x.slt y else x.ult y
      let holds : Bool :=
        if f.fn = 0 then a.val == b.val else if f.fn = 1 then a.val != b.val else if f.fn = 2 then lt a.val b.val
        else if f.fn = 3 then !lt b.val a.val else if f.fn = 4 then lt b.val a.val else !lt a.val b.val
      exec (.sset f) s = scalarResult s k g (.sset f) f.d (if holds then 1 else 0) [a.tag, b.tag]) ∧
    (Ready s k g (.sbfx f) →
      exec (.sbfx f) s = scalarResult s k g (.sbfx f) f.d
        (if f.t = 6 then (a.val.extractLsb' pos w).signExtend 64 else (a.val.extractLsb' pos w).setWidth 64)
        [a.tag]) ∧
    (Ready s k g (.sbfi f) →
      exec (.sbfi f) s =
        scalarResult s k g (.sbfi f) f.d ((a.val &&& ~~~m) ||| ((b.val <<< pos) &&& m)) [a.tag, b.tag])

/-! ### Control flow (06 R94 to R100, 22 R359 to R363) -/

/-- NOP goes on; BR, BRC, JMP, CALL, RET and LOOP go on at their target or behind themselves, CALL with its return address
in s63, LOOP with its counter less one; CLK gives the clock; each leaves its Trail record and changes nothing else (06
R95 to R100, 25 R405). Operands are clean and targets aligned; the other cases trap, as the next statement says. BRM
branches on the reduction of its predicate over the members; EXIT, YIELD and SLEEP take their effect with a Trail
record, EXIT of a group that has not committed in an ordered launch only its end (20 R345, 22 R357, R359, R361 to R363).
Where the spec is open this states the choices of the model: log 18 and 59. -/
def Obligations.ControlResults : Prop :=
  (∀ (s : State) (k : GKey) (g : Group) (f : Fields),
    let pc := g.regs.pc
    let rel : Word64 := pc + f.i32.signExtend 64
    let behind : Word64 := pc + BitVec.ofNat 64 f.len
    let goto (a : Word64) : Regs → Regs := fun x => { x with pc := a }
    let a := g.ssrc f (f.t == 7) f.a
    let b := g.ssrc f (f.t == 7) f.b
    let j := g.ssrc f true f.a
    let c := g.ssrc f true f.d
    (Ready s k g (.nop f) → exec (.nop f) s = controlResult s k g (.nop f) false id) ∧
    (Ready s k g (.br f) → rel.toNat % 4 = 0 →
      exec (.br f) s = controlResult s k g (.br f) true (goto rel)) ∧
    (Ready s k g (.brc f) → rel.toNat % 4 = 0 → a.tag = none → b.tag = none →
      let take := cmpN 64 (f.t == 6) f.fn a.val.toNat b.val.toNat
      exec (.brc f) s = controlResult s k g (.brc f) take (goto (if take then rel else behind))) ∧
    (Ready s k g (.jmp f) → j.tag = none → j.val.toNat % 4 = 0 →
      exec (.jmp f) s = controlResult s k g (.jmp f) true (goto j.val)) ∧
    (Ready s k g (.call f) → f.is96 = true → rel.toNat % 4 = 0 →
      exec (.call f) s =
        controlResult s k g (.call f) true fun x => { x.sset 63 { val := behind } with pc := rel }) ∧
    (Ready s k g (.call f) → f.is96 = false → j.tag = none → j.val.toNat % 4 = 0 →
      exec (.call f) s =
        controlResult s k g (.call f) true fun x => { x.sset 63 { val := behind } with pc := j.val }) ∧
    (Ready s k g (.ret f) → (g.regs.sget 63).tag = none → (g.regs.sget 63).val.toNat % 4 = 0 →
      exec (.ret f) s = controlResult s k g (.ret f) true (goto (g.regs.sget 63).val)) ∧
    (Ready s k g (.loop f) → c.tag = none → rel.toNat % 4 = 0 →
      let n := c.val - 1
      exec (.loop f) s = controlResult s k g (.loop f) (n != 0) fun x =>
        { x.sdst f.d { val := n } with pc := if n = 0 then behind else rel }) ∧
    (Ready s k g (.clk f) →
      exec (.clk f) s = controlResult s k g (.clk f) false fun x => x.sdst f.d { val := s.cyc })) ∧
  (∀ (s : State) (k : GKey) (g : Group) (f : Fields),
    let rel : Word64 := g.regs.pc + f.i32.signExtend 64
    let behind : Word64 := g.regs.pc + BitVec.ofNat 64 f.len
    let p := g.psrc f.a
    let take : Bool := if f.fn = 0 then g.members.any fun m => g.reduce f p m else g.members.all fun m => g.reduce f p m
    let c := g.ssrc f true f.a
    (Ready s k g (.brm f) → (∀ e, e < 1024 → g.active f e = true → Store.get? p.tags e = none) → rel.toNat % 4 = 0 →
      exec (.brm f) s =
        controlResult s k g (.brm f) take fun x => { x with pc := if take then rel else behind }) ∧
    (Free s k g (.exit f) →
      exec (.exit f) s = effect s k g (.exit f) fun u => (u.ctlTrail k false g.regs.pc).exitGroup k) ∧
    (∀ lo, Ready s k g (.exit f) → g.fence = none → s.ordOf (.group k) = some lo →
      exec (.exit f) s = effect s k g (.exit f) fun u =>
        (u.ctlTrail k false g.regs.pc).onGroup k fun x => { x with run := .ended }) ∧
    (Ready s k g (.yield f) →
      exec (.yield f) s = effect s k g (.yield f) fun u =>
        (((u.ctlTrail k false g.regs.pc).departWhere fun w => w.g = k).onGroup k fun x =>
          { x with regs := x.regs.loseLatches, readyScalar := 0, readyVector := 0 }).switchEvent k) ∧
    (Ready s k g (.sleep f) → c.tag = none →
      exec (.sleep f) s = effect s k g (.sleep f) fun u =>
        let u1 := u.ctlTrail k false g.regs.pc
        if c.val = 0 then u1 else u1.suspend k .sleep f (some c.val.toNat) false))

/-- Where plain control traps: poison in an operand is tested first, then the target, whether or not the branch would be
taken; the trap has no effect (06 R92, R94, R98, R99, 03 R47). BRM consumes the lowest counted bit of its predicate that
carries a tag, and names its element (22 R357, R359). -/
def Obligations.ControlTraps : Prop :=
  ∀ (s : State) (k : GKey) (g : Group) (f : Fields) (t : Tag),
    let rel : Word64 := g.regs.pc + f.i32.signExtend 64
    let misaligned (a : Word64) : Trap := { cause := cMisaligned, xaddr := a.toNat, xinfo := 0x104 }
    let poisoned : Trap := { cause := cPoison, tag := some t }
    let a := g.ssrc f (f.t == 7) f.a
    let b := g.ssrc f (f.t == 7) f.b
    let j := g.ssrc f true f.a
    let c := g.ssrc f true f.d
    let r := g.regs.sget 63
    let counted (e : Nat) : Prop := e < 1024 ∧ g.active f e = true
    (∀ e, Ready s k g (.brm f) → counted e → Store.get? (g.psrc f.a).tags e = some t →
      (∀ j < e, counted j → Store.get? (g.psrc f.a).tags j = none) →
      exec (.brm f) s = trapResult s k (.brm f) { cause := cPoison, xinfo := e * 2 ^ 16, tag := some t }) ∧
    (Ready s k g (.brm f) → (∀ e, counted e → Store.get? (g.psrc f.a).tags e = none) → rel.toNat % 4 ≠ 0 →
      exec (.brm f) s = trapResult s k (.brm f) (misaligned rel)) ∧
    (Ready s k g (.br f) → rel.toNat % 4 ≠ 0 → exec (.br f) s = trapResult s k (.br f) (misaligned rel)) ∧
    (Ready s k g (.brc f) → firstTag [a.tag, b.tag] = some t →
      exec (.brc f) s = trapResult s k (.brc f) poisoned) ∧
    (Ready s k g (.brc f) → a.tag = none → b.tag = none → rel.toNat % 4 ≠ 0 →
      exec (.brc f) s = trapResult s k (.brc f) (misaligned rel)) ∧
    (Ready s k g (.jmp f) → j.tag = some t → exec (.jmp f) s = trapResult s k (.jmp f) poisoned) ∧
    (Ready s k g (.jmp f) → j.tag = none → j.val.toNat % 4 ≠ 0 →
      exec (.jmp f) s = trapResult s k (.jmp f) (misaligned j.val)) ∧
    (Ready s k g (.call f) → f.is96 = true → rel.toNat % 4 ≠ 0 →
      exec (.call f) s = trapResult s k (.call f) (misaligned rel)) ∧
    (Ready s k g (.call f) → f.is96 = false → j.tag = some t →
      exec (.call f) s = trapResult s k (.call f) poisoned) ∧
    (Ready s k g (.call f) → f.is96 = false → j.tag = none → j.val.toNat % 4 ≠ 0 →
      exec (.call f) s = trapResult s k (.call f) (misaligned j.val)) ∧
    (Ready s k g (.ret f) → r.tag = some t → exec (.ret f) s = trapResult s k (.ret f) poisoned) ∧
    (Ready s k g (.ret f) → r.tag = none → r.val.toNat % 4 ≠ 0 →
      exec (.ret f) s = trapResult s k (.ret f) (misaligned r.val)) ∧
    (Ready s k g (.loop f) → c.tag = some t → exec (.loop f) s = trapResult s k (.loop f) poisoned) ∧
    (Ready s k g (.loop f) → c.tag = none → rel.toNat % 4 ≠ 0 →
      exec (.loop f) s = trapResult s k (.loop f) (misaligned rel))

/-! ### Predicates and the member mask (06 R105 to R107, 22 R358, R360) -/

/-- PLOG, PCNT, PFIRST and PMEM: logic, counts, first set lanes and member reductions under the active elements (06 R105 to
R107, 22 R358). MMSK sets, narrows, widens, pushes and pops the member mask; PUSH at depth 8 and POP at depth 0 trap
ILLEGAL_OPERAND (22 R360). -/
def Obligations.PredicateAndMaskResults : Prop :=
  (∀ (s : State) (k : GKey) (g : Group) (f : Fields),
    let a := g.psrc f.a
    let b := g.psrc f.b
    let act := g.active f
    let logic (x y : Bool) : Bool :=
      if f.fn = 0 then x && y else if f.fn = 1 then x || y else if f.fn = 2 then x != y
      else if f.fn = 3 then x && !y else if f.fn = 4 then x || !y else x == y
    let counted (l : List Nat) : Nat := (l.filter fun e => act e && a.val.getLsbD e).length
    let tagIn (l : List Nat) : Option Tag := firstTag ((l.filter act).map a.tagAt)
    let first : Store (Bool × Option Tag) :=
      (List.range g.id.mcount).flatMap fun m => firstUpTo a ((g.elems m).filter act) (false, none)
    (Ready s k g (.plog f) →
      exec (.plog f) s = predicateResult s k g (.plog f) f.d act fun e =>
        (logic (a.val.getLsbD e) (b.val.getLsbD e), firstTag [a.tagAt e, b.tagAt e])) ∧
    (Ready s k g (.pcnt f) → f.dScalar = true →
      exec (.pcnt f) s =
        scalarResult s k g (.pcnt f) f.d (BitVec.ofNat 64 (counted allElems)) [tagIn allElems]) ∧
    (Ready s k g (.pcnt f) → f.dScalar = false →
      exec (.pcnt f) s = laneResult s k g (.pcnt f) f false
        (ofMember g (fun m => { v := BitVec.ofNat 64 (counted (g.elems m)), tag := tagIn (g.elems m) }) {})) ∧
    (Ready s k g (.pfirst f) →
      exec (.pfirst f) s = predicateResult s k g (.pfirst f) f.d act fun e => Store.getD first e (false, none)) ∧
    (Ready s k g (.pmem f) → f.dScalar = true →
      exec (.pmem f) s = scalarResult s k g (.pmem f) f.d
        (BitVec.ofNat 64 ((g.members.filter fun m => g.reduce f a m).foldl (fun n m => n + 2 ^ m) 0))
        (g.members.map fun m => g.reduceTag f a m)) ∧
    (Ready s k g (.pmem f) → f.dScalar = false →
      exec (.pmem f) s = predicateResult s k g (.pmem f) f.d (fun e => g.inMask (g.slotOf e))
        (ofMember g (fun m => (g.reduce f a m, g.reduceTag f a m)) (false, none)))) ∧
  (∀ (s : State) (k : GKey) (g : Group) (f : Fields),
    let c := g.ssrc f true f.a
    let a : BitVec 16 := BitVec.ofNat 16 (c.val.toNat % 2 ^ g.id.mcount)
    let mk := g.regs.mask
    let st := g.regs.mstack
    (Ready s k g (.mmskSet f) → c.tag = none → exec (.mmskSet f) s = maskResult s k g (.mmskSet f) a st) ∧
    (Ready s k g (.mmskAnd f) → c.tag = none → exec (.mmskAnd f) s = maskResult s k g (.mmskAnd f) (mk &&& a) st) ∧
    (Ready s k g (.mmskOr f) → c.tag = none → exec (.mmskOr f) s = maskResult s k g (.mmskOr f) (mk ||| a) st) ∧
    (Ready s k g (.mmskPush f) → c.tag = none → st.length < 8 →
      exec (.mmskPush f) s = maskResult s k g (.mmskPush f) (mk &&& a) (mk :: st)) ∧
    (∀ m r, Ready s k g (.mmskPop f) → st = m :: r → exec (.mmskPop f) s = maskResult s k g (.mmskPop f) m r) ∧
    (Ready s k g (.mmskPush f) → 8 ≤ st.length →
      exec (.mmskPush f) s =
        trapResult s k (.mmskPush f) { cause := cOperand, xinfo := (baseWord 0x34 f).toNat }) ∧
    (Ready s k g (.mmskPop f) → st = [] →
      exec (.mmskPop f) s = trapResult s k (.mmskPop f) { cause := cOperand, xinfo := (baseWord 0x34 f).toNat }))

/-- PFIRST writes its predicate so that, within each member, only the lowest lane where both its source bit and the lane are
set is true; every other active bit of that member is cleared, also where there is no such lane, and inactive bits keep
their values (06 R107). -/
def Obligations.FirstLanes : Prop :=
  ∀ (s : State) (k : GKey) (g : Group) (f : Fields) (d : BitVec 7),
    let src (e : Nat) : Bool := (g.psrc f.a).val.getLsbD e
    Ready s k g (.pfirst f) → f.d = .v d → d ≠ 0 →
    ∃ x, exec (.pfirst f) s = .next (s.setGroup k x) ∧
      ∀ m l, m < g.id.mcount → l < g.lanes → m * g.lanes + l < 1024 →
        let e := m * g.lanes + l
        let bit := (x.regs.pget d.toNat).val.getLsbD e
        (g.active f e = true →
          (bit = true ↔ src e = true ∧ ∀ j < l, g.active f (m * g.lanes + j) = true → src (m * g.lanes + j) = false)) ∧
        (g.active f e = false → bit = (g.regs.pget d.toNat).val.getLsbD e)

/-! ### Vector integer and lane instructions (06 R108 to R118) -/

/-- Vector integer arithmetic works part by part on exact integers, wrapped or saturated with the flag SAT; each result
carries the tag of its first poisoned input (06 R108). Comparisons write a predicate, VSEL chooses by one, VCVTI
converts value by value (06 R109, R110). -/
def Obligations.VectorIntegerResults : Prop :=
  (∀ (s : State) (k : GKey) (g : Group) (f : Fields),
    let a (e : Nat) : Elem := g.vsrc f (.i f.t) f.a e
    let b (e : Nat) : Elem := g.vsrc f (.i f.t) f.b e
    let c (e : Nat) : Elem := g.vsrc f (.i f.t) f.c e
    let w := partW f.t
    let int (x : Nat) : Int := toInt (isSigned f.t) w x
    let out (x : Int) : Nat × Bool := narrow (f.m == 1) (isSigned f.t) w x
    let parts (op : Nat → Nat → Nat → Nat × Bool) (e : Nat) : Nat × Bool :=
      byParts w (partN f.t) op (a e).v.toNat (b e).v.toNat (c e).v.toNat
    let res1 (i : Instr) (op : Nat → Nat × Bool) : Out := laneResult s k g i f (wideInt f.t) fun e =>
      ielem (parts (fun x _ _ => op x) e) [(a e).tag]
    let res2 (i : Instr) (op : Nat → Nat → Nat × Bool) : Out := laneResult s k g i f (wideInt f.t) fun e =>
      ielem (parts (fun x y _ => op x y) e) [(a e).tag, (b e).tag]
    (Ready s k g (.vadd f) → exec (.vadd f) s = res2 (.vadd f) fun x y => out (int x + int y)) ∧
    (Ready s k g (.vsub f) → exec (.vsub f) s = res2 (.vsub f) fun x y => out (int x - int y)) ∧
    (Ready s k g (.vmul f) → f.fn = 0 → exec (.vmul f) s = res2 (.vmul f) fun x y => out (int x * int y)) ∧
    (Ready s k g (.vmul f) → f.fn ≠ 0 →
      exec (.vmul f) s = res2 (.vmul f) fun x y => (wrap w (int x * int y / (2 ^ w : Nat)), false)) ∧
    (Ready s k g (.vmad f) →
      exec (.vmad f) s = laneResult s k g (.vmad f) f (wideInt f.t) fun e =>
        ielem (parts (fun x y z => out (int x * int y + int z)) e) [(a e).tag, (b e).tag, (c e).tag]) ∧
    (Ready s k g (.vmnx f) →
      exec (.vmnx f) s = res2 (.vmnx f) fun x y => (if (f.fn == 0) == decide (int x ≤ int y) then x else y, false)) ∧
    (Ready s k g (.vabs f) → exec (.vabs f) s = res1 (.vabs f) fun x => out ((int x).natAbs : Int)) ∧
    (Ready s k g (.vlog f) → exec (.vlog f) s = res2 (.vlog f) fun x y => (logicN w f.fn x y, false)) ∧
    (Ready s k g (.vshf f) → exec (.vshf f) s = res2 (.vshf f) fun x y => (shiftN w f.fn x (y % w), false)) ∧
    (Ready s k g (.vbit f) → exec (.vbit f) s = res1 (.vbit f) fun x => (bitN w f.fn x, false)) ∧
    (Ready s k g (.vmov f) → exec (.vmov f) s = res1 (.vmov f) fun x => (x, false))) ∧
  (∀ (s : State) (k : GKey) (g : Group) (f : Fields),
    let a (e : Nat) : Elem := g.vsrc f (.i f.t) f.a e
    let b (e : Nat) : Elem := g.vsrc f (.i f.t) f.b e
    let p := g.psrc f.c
    let st : BitVec 3 := f.x.extractLsb' 0 3
    let x (e : Nat) : Elem := g.vsrc f (.i st) f.a e
    let part (e j : Nat) : Nat × Bool :=
      narrow (f.m == 1) (isSigned f.t) (partW f.t) (toInt (isSigned st) (partW st) (unpackNat (partW st) (x e).v.toNat j))
    (Ready s k g (.vcmp f) →
      exec (.vcmp f) s = predicateResult s k g (.vcmp f) f.d (g.active f) fun e =>
        (cmpN (partW f.t) (isSigned f.t) f.fn (a e).v.toNat (b e).v.toNat, firstTag [(a e).tag, (b e).tag])) ∧
    (Ready s k g (.vsel f) →
      exec (.vsel f) s = laneResult s k g (.vsel f) f (wideInt f.t) fun e =>
        let y := if p.val.getLsbD e then a e else b e
        { v := y.v, tag := firstTag [p.tagAt e, y.tag] }) ∧
    (Ready s k g (.vcvti f) →
      exec (.vcvti f) s = laneResult s k g (.vcvti f) f (wideInt f.t) fun e =>
        ielem (joinParts (partW f.t) ((List.range (partN f.t)).map (part e))) [(x e).tag]))

/-- Permutes, slides, table look-ups, reductions, scans, extraction, insertion, compression and expansion within each member
(06 R111 to R118). Where the spec is open this states the choices of the model: log 21 and 68. -/
def Obligations.LaneResults : Prop :=
  ∀ (s : State) (k : GKey) (g : Group) (f : Fields),
    let wide := wideInt f.t
    let n := g.lanes
    let at_ (t : BitVec 3) (x : Sel) (m l : Nat) : Elem := g.vsrc f (.i t) x (m * n + l)
    let b := g.ssrc f true f.b
    let c := g.ssrc f true f.c
    let dist := min c.val.toNat n
    let comb (m : Nat) : Comb := (g.activeOf f m).foldl (fun c x => c.take f x.2) (Comb.start f)
    let scan : Store Elem := (List.range g.id.mcount).flatMap fun m => scanFrom f (Comb.start f) (g.activeOf f m)
    let pairs (expand : Bool) : Store Nat := g.members.flatMap fun m => compPairs expand (m * n) ((g.elems m).filter (g.active f))
    let moved (i : Instr) (expand : Bool) : Out := .next (s.setGroup k (did g i fun x =>
      x.vresult f wide (allElems.map fun e => (Store.get? (pairs expand) e).map fun y => g.vsrc f (.i f.t) f.a y)))
    let byMl (i : Instr) (res : Nat → Nat → Elem) : Out :=
      laneResult s k g i f wide fun e => res (g.slotOf e) (g.laneOf e)
    (Ready s k g (.vperm f) →
      exec (.vperm f) s = byMl (.vperm f) fun m l =>
        let i := at_ 1 f.b m l
        if i.tag.isSome then { tag := i.tag }
        else if i.v.toNat % 2 ^ 32 < n then at_ f.t f.a m (i.v.toNat % 2 ^ 32) else {}) ∧
    (Ready s k g (.vslide f) →
      exec (.vslide f) s = byMl (.vslide f) fun m l =>
        if c.tag.isSome then { tag := c.tag }
        else if f.fn = 0 then (if dist ≤ l then at_ f.t f.a m (l - dist) else at_ f.t f.b m (n - dist + l))
        else if l + dist < n then at_ f.t f.a m (l + dist) else at_ f.t f.b m (l + dist - n)) ∧
    (Ready s k g (.vblut f) →
      exec (.vblut f) s = byMl (.vblut f) fun m l =>
        let a := at_ f.t f.a m l
        let idx := (List.range 4).map fun j =>
          let y := unpackNat 8 a.v.toNat j
          if f.x = 0 then y % 16 else y / 16
        { v := BitVec.ofNat 64 (packBits 8 (idx.map fun i =>
            if i < 8 then unpackNat 8 b.val.toNat i else unpackNat 8 c.val.toNat (i - 8)))
          tag := firstTag [a.tag, if idx.any (· < 8) then b.tag else none, if idx.any (8 ≤ ·) then c.tag else none] }) ∧
    (Ready s k g (.vredi f) →
      exec (.vredi f) s = laneResult s k g (.vredi f) f wide (ofMember g (fun m => (comb m).elem f) {})) ∧
    (Ready s k g (.vscan f) →
      exec (.vscan f) s = .next (s.setGroup k (did g (.vscan f) fun x =>
        x.vresult f wide (allElems.map fun e => Store.get? scan e)))) ∧
    (Ready s k g (.vext f) →
      exec (.vext f) s =
        match b.tag, g.lowest with
        | some t, _ => scalarResult s k g (.vext f) f.d 0 [some t]
        | none, none => scalarResult s k g (.vext f) f.d 0 []
        | none, some m =>
          let a := at_ f.t f.a m b.val.toNat
          if b.val.toNat < n then
            scalarResult s k g (.vext f) f.d (if f.t = 0 then (a.v.setWidth 32).signExtend 64 else a.v) [a.tag]
          else scalarResult s k g (.vext f) f.d 0 []) ∧
    (Ready s k g (.vins f) →
      let a := g.ssrc f (f.t == 7) f.a
      exec (.vins f) s = .next (s.setGroup k (did g (.vins f) fun x =>
        x.vresult f wide (writesOf (fun e => g.active f e && decide (g.laneOf e = b.val.toNat)) fun _ =>
          { v := if wide then a.val else (a.val.setWidth 32).setWidth 64, tag := firstTag [a.tag, b.tag] })))) ∧
    (Ready s k g (.vcompCompress f) → exec (.vcompCompress f) s = moved (.vcompCompress f) false) ∧
    (Ready s k g (.vcompExpand f) → exec (.vcompExpand f) s = moved (.vcompExpand f) true)

/-! ### Floating point (17 R277 to R300) -/

/-- Vector floating-point arithmetic: each part of each active element from the codes of its sources, under the rounding
mode of the instruction or of fcr, with the draw of its element and part; flags are raised unless Q or fcr.QD is set (15
R247, R250, R260, 17 R281 to R291). Where the spec is open this states the choices of the model: log 19. -/
def Obligations.VectorFloatResults : Prop :=
  ∀ (s : State) (k : GKey) (g : Group) (f : Fields),
    let a (e : Nat) : Elem := g.vsrc f (.f f.t) f.a e
    let b (e : Nat) : Elem := g.vsrc f (.f f.t) f.b e
    let c (e : Nat) : Elem := g.vsrc f (.f f.t) f.c e
    let F := fmtOf f.t
    let w := F.width
    let mode := g.rm f.m
    let at_ (x : Elem) (j : Nat) : Nat := unpackNat w x.v.toNat j
    let parts (op : Nat → Nat × Fl) : Nat × Fl := joinFl w ((List.range (fpN f.t)).map op)
    let out (i : Instr) (res : Nat → Elem) : Out := laneResult s k g i f (f.t == 1) res
    let one (i : Instr) (op : Rm → Nat → Nat → Nat × Fl) : Out := out i fun e =>
      felem (parts fun j => op mode (g.draw mode e j) (at_ (a e) j)) [(a e).tag]
    let two (i : Instr) (op : Rm → Nat → Nat → Nat → Nat × Fl) : Out := out i fun e =>
      felem (parts fun j => op mode (g.draw mode e j) (at_ (a e) j) (at_ (b e) j)) [(a e).tag, (b e).tag]
    let n (e : Nat) : Elem := g.vsrc f (.i (if f.t < 2 then 0 else 2)) f.b e
    let nw := if f.t < 2 then 32 else 16
    (Ready s k g (.vfadd f) → exec (.vfadd f) s = two (.vfadd f) (fpAdd false F)) ∧
    (Ready s k g (.vfsub f) → exec (.vfsub f) s = two (.vfsub f) (fpAdd true F)) ∧
    (Ready s k g (.vfmul f) → exec (.vfmul f) s = two (.vfmul f) (fpMul F)) ∧
    (Ready s k g (.vfdiv f) → exec (.vfdiv f) s = two (.vfdiv f) (fpDiv F)) ∧
    (Ready s k g (.vfma f) →
      exec (.vfma f) s = out (.vfma f) fun e =>
        felem (parts fun j => fpFma f.fn F mode (g.draw mode e j) (at_ (a e) j) (at_ (b e) j) (at_ (c e) j))
          [(a e).tag, (b e).tag, (c e).tag]) ∧
    (Ready s k g (.vfsqrt f) → exec (.vfsqrt f) s = one (.vfsqrt f) (fpSqrt F)) ∧
    (Ready s k g (.vfexp f) → exec (.vfexp f) s = one (.vfexp f) (fpExp2 F)) ∧
    (Ready s k g (.vflog f) → exec (.vflog f) s = one (.vflog f) (fpLog2 F)) ∧
    (Ready s k g (.vfrnd f) → exec (.vfrnd f) s = one (.vfrnd f) (fpRint F)) ∧
    (Ready s k g (.vfxp f) → exec (.vfxp f) s = one (.vfxp f) fun _ _ x => fpParts f.fn F x) ∧
    (Ready s k g (.vfmnx f) → exec (.vfmnx f) s = two (.vfmnx f) fun _ _ x y => vfMinMax f.fn F x y) ∧
    (Ready s k g (.vfsgn f) → f.fn ≠ 1 →
      exec (.vfsgn f) s = two (.vfsgn f) fun _ _ x y => (fpSign f.fn F x y, 0)) ∧
    (Ready s k g (.vfsgn f) → f.fn = 1 → exec (.vfsgn f) s = one (.vfsgn f) fun _ _ x => (fpSign 1 F x 0, 0)) ∧
    (Ready s k g (.vfscl f) →
      exec (.vfscl f) s = out (.vfscl f) fun e =>
        felem (parts fun j => fpScale F mode (g.draw mode e j) (at_ (a e) j) (toSigned nw (unpackNat nw (n e).v.toNat j)))
          [(a e).tag, (n e).tag])

/-- Comparisons and class tests write a predicate from the parts that X chooses, RDFL reads the sticky flags of the active
elements, CLFL clears those of its mask there, its mask clean (17 R286, R287, R292). -/
def Obligations.FloatTestAndFlagResults : Prop :=
  ∀ (s : State) (k : GKey) (g : Group) (f : Fields),
    let a (e : Nat) : Elem := g.vsrc f (.f f.t) f.a e
    let b (e : Nat) : Elem := g.vsrc f (.f f.t) f.b e
    let F := fmtOf f.t
    let at_ (x : Elem) (j : Nat) : Nat := unpackNat F.width x.v.toNat j
    let m := g.ssrc f true f.b
    let mask := g.ssrc f true f.a
    (Ready s k g (.vfcmp f) →
      exec (.vfcmp f) s = .next (s.setGroup k (did g (.vfcmp f) fun x => vfPred x f fun e =>
        ((partsOf f).map fun j => fpCmp f.fn F (at_ (a e) j) (at_ (b e) j), firstTag [(a e).tag, (b e).tag])))) ∧
    (Ready s k g (.vfcls f) →
      exec (.vfcls f) s = .next (s.setGroup k (did g (.vfcls f) fun x => vfPred x f fun e =>
        ((partsOf f).map fun j => (m.val.getLsbD (fpClass F (at_ (a e) j)), 0), firstTag [(a e).tag, m.tag])))) ∧
    (Ready s k g (.rdfl f) →
      exec (.rdfl f) s = laneResult s k g (.rdfl f) f false fun e => { v := (flagsAt g.regs.flags e).setWidth 64 }) ∧
    (Ready s k g (.clfl f) → mask.tag = none →
      exec (.clfl f) s = .next (s.setGroup k (didRegs g (.clfl f) fun x =>
        { x with flags := clearFlags x.flags (mask.val.setWidth 6) (predBits (allElems.map (g.active f))) }))) ∧
    (∀ t, Ready s k g (.clfl f) → mask.tag = some t →
      exec (.clfl f) s = trapResult s k (.clfl f) { cause := cPoison, tag := some t })

/-- Scalar floating-point arithmetic: the operations of the vector family on the low code of each source, with no flag and
no draw (17 R293, R294). Where the spec is open this states the choices of the model: log 20. -/
def Obligations.ScalarFloatResults : Prop :=
  ∀ (s : State) (k : GKey) (g : Group) (f : Fields),
    let a := g.sfsrc f f.t f.a
    let b := g.sfsrc f f.t f.b
    let c := g.sfsrc f f.t f.c
    let F := fmtOf f.t
    let mode := g.rmScalar f.m
    let x := a.val.toNat % 2 ^ F.width
    let y := b.val.toNat % 2 ^ F.width
    let z := c.val.toNat % 2 ^ F.width
    let out (i : Instr) (r : Nat × Fl) (tags : List (Option Tag)) : Out :=
      scalarResult s k g i f.d (BitVec.ofNat 64 r.1) tags
    let st : BitVec 3 := f.x.extractLsb' 0 3
    let kind : BitVec 2 := f.x.extractLsb' 3 2
    let fa := g.sfsrc f st f.a
    let ia := g.ssrc f (st == 7) f.a
    let code := fa.val.toNat % 2 ^ (fmtOf st).width
    (Ready s k g (.sfadd f) → exec (.sfadd f) s = out (.sfadd f) (fpAdd (f.fn == 1) F mode 0 x y) [a.tag, b.tag]) ∧
    (Ready s k g (.sfmul f) → exec (.sfmul f) s = out (.sfmul f) (fpMul F mode 0 x y) [a.tag, b.tag]) ∧
    (Ready s k g (.sffma f) →
      exec (.sffma f) s = out (.sffma f) (fpFma f.fn F mode 0 x y z) [a.tag, b.tag, c.tag]) ∧
    (Ready s k g (.sfdiv f) → exec (.sfdiv f) s = out (.sfdiv f) (fpDiv F mode 0 x y) [a.tag, b.tag]) ∧
    (Ready s k g (.sfsqrt f) → exec (.sfsqrt f) s = out (.sfsqrt f) (fpSqrt F mode 0 x) [a.tag]) ∧
    (Ready s k g (.sfcmp f) →
      exec (.sfcmp f) s =
        scalarResult s k g (.sfcmp f) f.d (if (fpCmp f.fn F x y).1 then 1 else 0) [a.tag, b.tag]) ∧
    (Ready s k g (.sfcvt f) → kind = 0 →
      exec (.sfcvt f) s = out (.sfcvt f) (fpConv (fmtOf st) F mode 0 code) [fa.tag]) ∧
    (Ready s k g (.sfcvt f) → kind = 1 →
      let r := (fpToInt (fmtOf st) (isSigned f.t) (partW f.t) mode 0 code).1
      exec (.sfcvt f) s = scalarResult s k g (.sfcvt f) f.d
        (if f.t = 0 then (BitVec.ofNat 32 r).signExtend 64 else BitVec.ofNat 64 r) [fa.tag]) ∧
    (Ready s k g (.sfcvt f) → kind = 2 →
      exec (.sfcvt f) s =
        out (.sfcvt f) (intToFp F mode 0 (toInt (isSigned st) (partW st) (ia.val.toNat % 2 ^ partW st))) [ia.tag])

/-- Conversions between formats, integers and slot codes, requantisation and block scales, for slots that are set (17 R295
to R300). Where the spec is open this states the choices of the model: log 6 and 25. -/
def Obligations.ConversionResults : Prop :=
  ∀ (s : State) (k : GKey) (g : Group) (f : Fields),
    let st := srcT f
    let part := bitNat f.x.toNat 3
    let mode := g.rm f.m
    let x (e : Nat) : Elem := g.vsrc f (.f st) f.a e
    let y (e : Nat) : Elem := g.vsrc f (.i st) f.a e
    let a (e : Nat) : Elem := g.vsrc f (.f f.t) f.a e
    let bits (sel : Sel) (e : Nat) : Elem := g.vsrc f (.i 1) sel e
    let old (e : Nat) : Elem := g.regs.dstAt f.d false e
    let conv (e j c : Nat) : Nat × Fl := fpConv (fmtOf st) (fmtOf f.t) mode (g.draw mode e j) c
    let w := g.slot (slotK f)
    let F := slotFmt w
    let q := slotQ f
    let sc (sel : Sel) (e : Nat) : Fp × Option Tag := g.scaleAt f w sel e
    let blk := slotBlk w
    let block (b : Nat) : BlockSum :=
      (((List.range blk).map (b * blk + ·)).filter (g.active f)).foldl (fun z e => z.take f.t (a e)) {}
    (Ready s k g (.vcvtFpfp f) →
      exec (.vcvtFpfp f) s = laneResult s k g (.vcvtFpfp f) f (f.t == 1) fun e =>
        if fpN st = 2 && fpN f.t = 2 then
          felem (joinFl 16 ((List.range 2).map fun j => conv e j (unpackNat 16 (x e).v.toNat j))) [(x e).tag]
        else if fpN st = 2 then felem (conv e 0 (unpackNat 16 (x e).v.toNat part)) [(x e).tag]
        else if fpN f.t = 2 then
          let r := conv e part ((x e).v.toNat % 2 ^ fpW st)
          felem (unpackNat 16 (old e).v.toNat (1 - part) * 2 ^ (16 * (1 - part)) + r.1 * 2 ^ (16 * part), r.2)
            [(x e).tag, (old e).tag]
        else felem (conv e 0 ((x e).v.toNat % 2 ^ fpW st)) [(x e).tag]) ∧
    (Ready s k g (.vcvtFpint f) →
      exec (.vcvtFpint f) s = laneResult s k g (.vcvtFpint f) f (wideInt f.t) fun e =>
        felem (joinFl (partW f.t) ((List.range (fpN st)).map fun j =>
          fpToInt (fmtOf st) (isSigned f.t) (partW f.t) mode (g.draw mode e j) (unpackNat (fpW st) (x e).v.toNat j)))
          [(x e).tag]) ∧
    (Ready s k g (.vcvtIntfp f) →
      exec (.vcvtIntfp f) s = laneResult s k g (.vcvtIntfp f) f (f.t == 1) fun e =>
        felem (joinFl (fpW f.t) ((List.range (fpN f.t)).map fun j =>
          intToFp (fmtOf f.t) mode (g.draw mode e j) (toInt (isSigned st) (partW st) (unpackNat (partW st) (y e).v.toNat j))))
          [(y e).tag]) ∧
    (Ready s k g (.vcvtFpslot f) → slotOk g f = true →
      exec (.vcvtFpslot f) s = laneResult s k g (.vcvtFpslot f) f false fun e =>
        let v := decodeFp (fmtOf f.t) (a e).v.toNat
        let r := toSlot F mode (g.draw mode e q) (v.exact, v.sigFl) (sc f.b e).1
        felem (F.putCode (old e).v.toNat q r.1, r.2) [(a e).tag, (sc f.b e).2, (old e).tag]) ∧
    (Ready s k g (.vcvtSlotfp f) → slotOk g f = true →
      exec (.vcvtSlotfp f) s = laneResult s k g (.vcvtSlotfp f) f (f.t == 1) fun e =>
        felem (roundRes (fmtOf f.t) mode (g.draw mode e q) []
          (scaleMul (decodeFp F (F.codeAt (bits f.a e).v.toNat q)) (sc f.b e).1)) [(bits f.a e).tag, (sc f.b e).2]) ∧
    (Ready s k g (.vrq f) → blockOk g f = true →
      exec (.vrq f) s = laneResult s k g (.vrq f) f false fun e =>
        felem (joinFl F.cont ((List.range F.per).map fun j =>
          toSlot F mode (g.draw mode e j) (scaleMul (decodeFp F (F.codeAt (bits f.a e).v.toNat j)) (sc f.b e).1) (sc f.c e).1))
          [(bits f.a e).tag, (sc f.b e).2, (sc f.c e).2]) ∧
    (Ready s k g (.vbsc f) → blockOk g f = true →
      exec (.vbsc f) s = laneResult s k g (.vbsc f) f false fun e =>
        if e / blk < 1024 / blk then (block (e / blk)).code w else {})

/-! ### Agate accumulators (16 R262 to R273) -/

/-- GCLR, GADD, GDOT, GRND and GSTAT on the accumulators of the members set in mk: exact sums, one rounding, and the status;
the accumulator number lies in the group's allocation (16 R271 to R273). GST stores the 544-byte image of each member's
accumulator, GLD takes its accumulator from an image, GMRG merges one into the register, GMRG.MEM merges the register
into one; a member whose image was deferred holds a tagged accumulator whose content is a free value (16 R274 to R276,
24 R389). Where the spec is open this states the choices of the model: log 6, 27, 29, 44 and 61. -/
def Obligations.AgateResults : Prop :=
  (∀ (s : State) (k : GKey) (g : Group) (f : Fields),
    let n := accK f
    let mode := g.rm f.m
    let F := fmtOf f.t
    let els (m : Nat) : List Nat := ((List.range g.lanes).map (m * g.lanes + ·)).filter (g.active f)
    let a (e : Nat) : Elem := g.vsrc f (.f f.t) f.a e
    let b (e : Nat) : Elem := g.vsrc f (.f f.t) f.b e
    let val (x : Elem) : Exact := (decodeFp F x.v.toNat).exact
    let into (i : Instr) (h : Nat → Acc → Acc) : Out :=
      .next (s.setGroup k (did g i fun x => x.mapAcc n g.members h))
    let rnd (m : Nat) : (Nat × Bool) × Option Tag :=
      ((g.regs.accAt m n).round F mode (g.draw mode (m * g.lanes) 0), (g.regs.accAt m n).tag)
    let pv := match f.c with | .v i => i.toNat | _ => 0
    let word (m : Nat) : Elem := { v := BitVec.ofNat 64 (g.regs.accAt m n).status, tag := (g.regs.accAt m n).tag }
    (Ready s k g (.gclr f) → accOk g f = true → exec (.gclr f) s = into (.gclr f) fun _ _ => {}) ∧
    (Ready s k g (.gadd f) → accOk g f = true →
      exec (.gadd f) s = into (.gadd f) fun m acc => (els m).foldl (fun z e => z.add (val (a e)) (a e).tag) acc) ∧
    (Ready s k g (.gdot f) → accOk g f = true →
      exec (.gdot f) s = into (.gdot f) fun m acc =>
        (els m).foldl (fun z e => z.add (mulX (val (a e)) (val (b e))).1 (firstTag [(a e).tag, (b e).tag])) acc) ∧
    (Ready s k g (.grnd f) → accOk g f = true →
      exec (.grnd f) s = .next (s.setGroup k (did g (.grnd f) fun x =>
        let r := ofMember g rnd ((0, false), none)
        let y := x.vresult f (f.t == 1) (writesOf (g.active f) fun e => { v := BitVec.ofNat 64 (r e).1.1, tag := (r e).2 })
        { y with regs := y.regs.pbits pv (g.active f) fun e => ((r e).1.2, (r e).2) }))) ∧
    (∀ m, Ready s k g (.gstat f) → accOk g f = true → f.dScalar = true → g.lowest = some m →
      exec (.gstat f) s = scalarResult s k g (.gstat f) f.d (word m).v [(word m).tag]) ∧
    (Ready s k g (.gstat f) → accOk g f = true → f.dScalar = true → g.lowest = none →
      exec (.gstat f) s = scalarResult s k g (.gstat f) f.d 0 []) ∧
    (Ready s k g (.gstat f) → accOk g f = true → f.dScalar = false →
      exec (.gstat f) s = laneResult s k g (.gstat f) f true (ofMember g word {}))) ∧
  (∀ (s t v : State) (k : GKey) (g : Group) (f : Fields) (l : List (Nat × Place)) (spots : List (Nat × Spot))
    (got : List (Nat × Got)) (tag : Option Tag),
    let n := accK f
    let u (i : Instr) : State := entered s k g i
    let clean := ∀ m ∈ g.members, (g.regs.accAt m n).tag = none
    let places (i : Instr) (align : Nat) (writes : Bool) : Prop :=
      Free s k g i ∧ accOk g f = true ∧ M.images g f align writes (u i) = .ok (l, u i)
    let bytes := g.members.flatMap fun m => (List.range 17).map fun j =>
      (((g.regs.accAt m n).image).drop (32 * j)).take 32
    let store (v : State) (x : (Nat × Spot) × List Byte) : State := match x.1.2 with
      | .pad q o => (v.syncPad (.group k) g.id.inst q o 32).onPad g.id.inst q fun p => p.put (bytesAt o x.2)
      | .pa a => v.storeBytes (.group k) (bytesAt a x.2)
    let image (m : Nat) : Option Acc :=
      let mine := got.filter fun x => x.1 = m
      if mine.any fun x => x.2.deferred then none
      else some (readImage (mine.flatMap fun x => match x.2 with | .val v => leBytes 32 v | .defer .. => []))
    let takes (i : Instr) (h : Nat → Acc → Acc) : Prop :=
      places i 32 false → M.loadGot k f.m 32 g.regs.pc (imageSectors l) (u i) = .ok ((got, tag), t) →
      exec i s = .next (finished (({ t with nonce := t.nonce + 1 } : State).onGroup k fun x =>
        l.foldl (fun x p => x.mapAcc n [p.1] fun _ a => h p.1 a) x) k i)
    (clean → places (.gst f) 32 true → M.xlatPage g.ctx .write (imageSectors l) (u (.gst f)) = .ok (spots, v) →
      exec (.gst f) s = reaches ((spots.zip bytes).foldl store v) k (.gst f)) ∧
    takes (.gld f) (fun m _ => match image m with
      | some b => b
      | none => .unspecified t.nonce m tag) ∧
    takes (.gmrg f) (fun m a => match image m with
      | some b => a.merge b
      | none => .unspecified t.nonce m tag) ∧
    (clean → places (.gmrgMem f) (if f.m = spG ∨ f.m = spM then 1024 else 32) true →
      M.xlatPage g.ctx .rmw l (u (.gmrgMem f)) = .ok (spots, v) →
      exec (.gmrgMem f) s = reaches (spots.foldl (fun v x => match x.2 with
        | .pad q o => v.mergePadImage k g.id.inst q o (g.regs.accAt x.1 n)
        | .pa a => v.mergeImage (.group k) a (g.regs.accAt x.1 n)) v) k (.gmrgMem f)))

/-! ### Loads, stores and atomics (10 R181 to R192) -/

/-- A load whose base is clean and whose elements lie in their segments, aligned (10 R184 steps 1 to 4), and which `M.load`
answers (no page under migration, no violation, a free deferral entry where one is needed), writes what it gives, the
deferral of affected elements included; SLD from the expired copy where it uses one; VLD to the active elements, WLD to
every lane (08 R149, 10 R186 to R188, 24 R389). A store whose operands are clean, whose elements lie in their segments,
aligned, and translate, writes them: SST its one element, VST the elements page by page, which it records, and forgets
at its end; a page that traps leaves those before it performed and recorded (10 R184, R186, R187, 24 R391). Of a line of
this device that no cache holds and that carries neither poison nor partials, `M.load` gives the bytes of memory, and of
a scratchpad its bytes, the lowest address first (02 R35, 07 R122). Where the spec is open this states the choices of
the model: log 6, 19, 44 and 61. -/
def Obligations.LoadAndStoreResults : Prop :=
  (∀ (s t : State) (k : GKey) (g : Group) (f : Fields) (ps : List (Nat × Place)) (l : List (Nat × Elem)) (els : List El)
    (va pa : Nat) (old : Leased) (l0 : List (Nat × Elem)) (t0 : State),
    let a := g.ssrc f true f.a
    let pc := g.regs.pc
    let base := a.val + offsetOf false f
    let u1 := entered s k g (.sld f)
    let u2 := entered s k g (.vld f)
    let u3 := entered s k g (.wld f)
    let size := vectorSize f.t
    let first := (l.head?.map (·.2)).getD {}
    let wels : List El := (List.range g.lanes).map fun n => { e := n, off := base + BitVec.ofNat 64 (size * n), gmi := 0 }
    (Free s k g (.sld f) → a.tag = none →
      M.places g f.m (scalarSize f.t) [g.scalarEl base] false u1 = .ok (ps, u1) →
      (∀ va pa, (0, Place.va va) ∈ ps → u1.translate g.ctx .read va = .ok pa → u1.expiredCopy k pa = none) →
      M.load k f.m (scalarSize f.t) pc ps u1 = .ok (l, t) →
      exec (.sld f) s =
        thenRegs t k (.sld f) fun x => x.sdst f.d { val := extend f.t first.v, tag := first.tag }) ∧
    (Free s k g (.sld f) → a.tag = none →
      M.places g f.m (scalarSize f.t) [g.scalarEl base] false u1 = .ok ([(0, .va va)], u1) →
      u1.translate g.ctx .read va = .ok pa → u1.expiredCopy k pa = some old →
      M.load k f.m (scalarSize f.t) pc [(0, .va va)] { u1 with nonce := u1.nonce + 1 } = .ok (l0, t0) →
      let r := ({ u1 with nonce := u1.nonce + 1 } : State).speculate k g.regs (f.m = spS) pa (scalarSize f.t) old
      let x0 := (l0.head?.map (·.2)).getD {}
      exec (.sld f) s =
        if Config.freeBit u1.nonce = true then
          thenRegs r.2 k (.sld f) fun x => x.sdst f.d { val := extend f.t (BitVec.ofNat 64 r.1), tag := none }
        else thenRegs t0 k (.sld f) fun x => x.sdst f.d { val := extend f.t x0.v, tag := x0.tag }) ∧
    (Free s k g (.vld f) → M.vectorEls g f false size (fun _ => none) u2 = .ok (els, u2) →
      M.places g f.m size els false u2 = .ok (ps, u2) → M.load k f.m size pc ps u2 = .ok (l, t) →
      exec (.vld f) s = thenRegs t k (.vld f) fun x => x.vdst f.d (wideInt f.t) (writesFrom 0 1024 l)) ∧
    (Free s k g (.wld f) → a.tag = none → M.places g f.m size wels false u3 = .ok (ps, u3) →
      M.load k f.m size pc ps u3 = .ok (l, t) →
      exec (.wld f) s = thenRegs t k (.wld f) fun x => x.vdst f.d (wideInt f.t) (writesFrom 0 1024 l))) ∧
  (∀ (s v : State) (k : GKey) (g : Group) (f : Fields) (ps : List (Nat × Place)) (spots : List (Nat × Spot)) (els : List El)
    (done rest : List (List (Nat × Place))) (at_ : List (Nat × Place)) (x : Trap) (w : State),
    let a := g.ssrc f true f.a
    let b := g.ssrc f true f.b
    let u1 := entered s k g (.sst f)
    let u2 := entered s k g (.vst f)
    let size := vectorSize f.t
    let data (e : Nat) : Elem := g.vsrc f (.i f.t) f.b e
    let ready := M.vectorEls g f false size (fun e => (data e).tag) u2 = .ok (els, u2) ∧
      M.places g f.m size els true u2 = .ok (ps, u2) ∧ u2.held g.ctx .write (g.unrecorded ps) = false
    let page (y : State) (l : List (Nat × Place)) : Option State := match M.xlatPage g.ctx .write l y with
      | .ok (spots, z) => some (((z.storeSpots k g.id.inst f.m size (fun e => (data e).v) spots).noteVas k l spots).onGroup k
          fun x => { x with regs := x.regs.record spots [] })
      | .error _ => none
    let pages := u2.byPage g.ctx (g.unrecorded ps)
    (Free s k g (.sst f) → a.tag = none → b.tag = none →
      M.places g f.m (scalarSize f.t) [g.scalarEl (a.val + offsetOf false f)] true u1 = .ok (ps, u1) →
      M.xlatPage g.ctx .write ps u1 = .ok (spots, v) →
      exec (.sst f) s = reaches
        ((v.storeSpots k g.id.inst f.m (scalarSize f.t) (fun _ => b.val) spots).noteVas k ps spots) k (.sst f)) ∧
    (Free s k g (.vst f) → g.regs.progress = 0 →
      M.vectorEls g f false size (fun e => (data e).tag) u2 = .ok (els, u2) →
      M.places g f.m size els true u2 = .ok (ps, u2) → u2.byPage g.ctx ps = [ps] → u2.held g.ctx .write ps = false →
      M.xlatPage g.ctx .write ps u2 = .ok (spots, v) →
      exec (.vst f) s = thenRegs
        ((v.storeSpots k g.id.inst f.m size (fun e => (data e).v) spots).noteVas k ps spots) k (.vst f) Regs.clearLanes) ∧
    (Free s k g (.vst f) → ready → pages.foldlM page u2 = some v →
      exec (.vst f) s = thenRegs v k (.vst f) Regs.clearLanes) ∧
    (Free s k g (.vst f) → ready → pages = done ++ at_ :: rest → done.foldlM page u2 = some v →
      M.xlatPage g.ctx .write at_ v = .error (.trap x (some w)) →
      exec (.vst f) s = trapResult
        (w.onGroup k fun y => { y with regs := { y.regs with pc := g.regs.pc, chain := g.regs.chain } }) k (.vst f) x)) ∧
  (∀ (s : State) (k : GKey) (g : Group) (sp : Space) (size : Nat) (pc : Word64) (e va pa pos o : Nat),
    let ln := lineOf pa
    let l := s.lineAt ln
    let value (bytes : Nat → Byte) : Elem := { v := BitVec.ofNat 64 (ofLeBytes ((List.range size).map bytes)) }
    let idle : Prop := s.group? k = some g ∧ g.spec = none ∧ g.ord = none
    let uncached : Prop := l.dirs = [] ∧ l.msc = none ∧ l.copies = [] ∧ l.notices = [] ∧ l.pot = none
    let sound : Prop := ∀ i < 4, NSet.has s.poison (4 * ln + i) = false ∧ s.lostAt (128 * ln + 32 * i) = false
    let settled : Prop := s.ccopies = [] ∧ s.outbox = [] ∧ s.strays (.group k) = false ∧ (sp = spS → ∀ w ∈ s.wc, w.g ≠ k)
    (idle → s.translate g.ctx .read va = .ok pa → s.walked g.ctx va = s → s.isLocal pa = true → pa % 32 + size ≤ 32 →
      s.lostAt pa = false → uncached → sound → settled →
      ∃ t, M.load k sp size pc [(e, .va va)] s = .ok ([(e, value fun i => s.byteAt (pa + i))], t) ∧ t.mem = s.mem) ∧
    (idle → NSet.has (s.padAt g.id.inst pos).poison (o / 32) = false →
      ∃ t, M.load k sp size pc [(e, .pad pos o)] s = .ok ([(e, value fun i => (s.padAt g.id.inst pos).byteAt (o + i))], t) ∧
        t.mem = s.mem))

/-- An atomic whose operands are clean, whose elements lie in their segments, aligned, and translate, performs its
read-modify-write and writes its old values and its error predicate; a contribution joins the Potluck state of its line;
the vector forms page by page (10 R189 to R192, 24 R391). Where the spec is open this states the choices of the model:
log 9, 26 and 61. -/
def Obligations.AtomicResults : Prop :=
  ∀ (s v : State) (k : GKey) (g : Group) (f : Fields) (ps : List (Nat × Place)) (spots : List (Nat × Spot)) (spot : Spot)
    (els : List El) (done : List (Nat × Elem)),
    let a := g.ssrc f true f.a
    let b := g.ssrc f true f.b
    let c := g.ssrc f true f.c
    let y := g.atomSrc f f.b
    let size := atomSize f.fn f.t
    let w (n : Nat) : Nat := 2 ^ (8 * n)
    let u (i : Instr) : State := entered s k g i
    let place (i : Instr) (n : Nat) (atom : Bool) (acc : Access) : Prop :=
      M.places g f.m n [g.scalarEl (a.val + offsetOf atom f)] true (u i) = .ok (ps, u i) ∧
      M.xlatPage g.ctx acc ps (u i) = .ok ([(0, spot)], v)
    let scalar (i : Instr) (n : Nat) (fp : Bool) (op : AtomF) (tracked : Bool) : Out :=
      let r := v.atomicAt k g.id.inst (scopeOf f) n op tracked spot
      thenRegs (r.2.noteVas k ps [(0, spot)]) k i fun x =>
        (x.sdst f.d { val := atomResult f fp (r.1.getD 0) }).pfill (errPred f) r.1.isNone
    let elem (e : Nat) : Elem := g.vsrc f (atomTy f) f.b e
    let page (i : Instr) (atom : Bool) (acc : Access) : Prop :=
      g.regs.progress = 0 ∧ M.vectorEls g f atom size (fun e => (elem e).tag) (u i) = .ok (els, u i) ∧
      M.places g f.m size els true (u i) = .ok (ps, u i) ∧ (u i).byPage g.ctx ps = [ps] ∧ (u i).held g.ctx acc ps = false ∧
      M.xlatPage g.ctx acc ps (u i) = .ok (spots, v)
    let pages (i : Instr) (atom : Bool) (acc : Access) : Prop :=
      M.vectorEls g f atom size (fun e => (elem e).tag) (u i) = .ok (els, u i) ∧
      M.places g f.m size els true (u i) = .ok (ps, u i) ∧ (u i).held g.ctx acc (g.unrecorded ps) = false
    let noted (l : List (Nat × Place)) (spots : List (Nat × Spot)) (res : List (Nat × Elem)) (v : State) : State :=
      (v.noteVas k l spots).onGroup k fun x => { x with regs := x.regs.record spots res }
    let took (r : List (Nat × Option Nat) × State) : List (Nat × Elem) × State :=
      let res : List (Nat × Elem) := r.1.map fun x => (x.1, { v := BitVec.ofNat 64 (x.2.getD 0) })
      let errs : Store Bool := r.1.map fun x => (x.1, x.2.isNone)
      let regs (x : Regs) : Regs :=
        { (x.vdst f.d (atomWide f) (writesFrom 0 1024 res)).pbits (errPred f) (fun e => (Store.get? errs e).isSome)
            fun e => (Store.getD errs e false, none) with latch := x.latch }
      (res, r.2.onGroup k fun x => { x with regs := regs x.regs })
    let atomPage (n : State × List (Nat × Elem)) (l : List (Nat × Place)) : Option (State × List (Nat × Elem)) :=
      match M.xlatPage g.ctx .rmw l n.1 with
      | .ok (spots, z) =>
        let r := took (z.atomicEls k g.id.inst f size (fun e => (elem e).v.toNat) spots)
        some (noted l spots r.1 r.2, n.2 ++ r.1)
      | .error _ => none
    let give (val : Nat → Nat) (l : List (Nat × Spot)) (v : State) : State :=
      l.foldl (fun v x => match x.2 with | .pa p => v.contribute (.group k) f.fn f.t p (val x.1) | .pad .. => v) v
    let plkPage (n : State) (l : List (Nat × Place)) : Option State := match M.xlatPage g.ctx .write l n with
      | .ok (spots, z) => some (noted l spots [] (give (fun e => (elem e).v.toNat) spots z))
      | .error _ => none
    (Free s k g (.satom f) → a.tag = none → y.tag = none → place (.satom f) size true .rmw →
      exec (.satom f) s = scalar (.satom f) size (fnFp f.fn)
        (fun x => some (atomOp f.fn f.t x (y.val.toNat % w size))) (f.fn == 6)) ∧
    (Free s k g (.scas f) → a.tag = none → b.tag = none → c.tag = none → place (.scas f) (scalarSize f.t) true .rmw →
      exec (.scas f) s = scalar (.scas f) (scalarSize f.t) false
        (fun x => if x = b.val.toNat % w (scalarSize f.t) then some (c.val.toNat % w (scalarSize f.t)) else none) true) ∧
    (Free s k g (.vatom f) → page (.vatom f) true .rmw →
      let r := v.atomicEls k g.id.inst f size (fun e => (elem e).v.toNat) spots
      let res : List (Nat × Elem) := r.1.map fun x => (x.1, { v := BitVec.ofNat 64 (x.2.getD 0) })
      let errs : Store Bool := r.1.map fun x => (x.1, x.2.isNone)
      let page (x : Regs) : Regs :=
        { (x.vdst f.d (atomWide f) (writesFrom 0 1024 res)).pbits (errPred f) (fun e => (Store.get? errs e).isSome)
            fun e => (Store.getD errs e false, none) with latch := x.latch }
      exec (.vatom f) s = thenRegs ((r.2.onGroup k fun x => { x with regs := page x.regs }).noteVas k ps spots) k (.vatom f)
        fun x => x.clearLanes.vdst f.d (atomWide f) (writesFrom 0 1024 (atomAll f.d g.regs.olds res))) ∧
    (Free s k g (.vatom f) → pages (.vatom f) true .rmw →
      ((u (.vatom f)).byPage g.ctx (g.unrecorded ps)).foldlM atomPage (u (.vatom f), []) = some (v, done) →
      exec (.vatom f) s = thenRegs v k (.vatom f)
        fun x => x.clearLanes.vdst f.d (atomWide f) (writesFrom 0 1024 (atomAll f.d g.regs.olds done))) ∧
    (Free s k g (.plk f) → plkVector f = true → pages (.plk f) false .write →
      ((u (.plk f)).byPage g.ctx (g.unrecorded ps)).foldlM plkPage (u (.plk f)) = some v →
      exec (.plk f) s = thenRegs v k (.plk f) Regs.clearLanes) ∧
    (Free s k g (.plk f) → plkVector f = true → page (.plk f) false .write →
      exec (.plk f) s =
        thenRegs ((give (fun e => (elem e).v.toNat) spots v).noteVas k ps spots) k (.plk f) Regs.clearLanes) ∧
    (Free s k g (.plk f) → plkVector f = false → a.tag = none → y.tag = none → place (.plk f) size false .write →
      exec (.plk f) s = reaches (give (fun _ => y.val.toNat % w size) [(0, spot)] v) k (.plk f))

/-! ### Full and empty words, chunks, waits (10 R193, R194, R200, 09 R175, R176) -/

/-- LDF finds its word full: it is read, emptied under TAKE, acquired. STE finds it empty: it is written and full, as a
release. FESET sets its bit. CHKW finds its bits set, or answers at once under TEST (10 R194, R200, 09 R173, R176).
Where the spec is open this states the choices of the model: log 15, 26 and 44. -/
def Obligations.FullEmptyResults : Prop :=
  ∀ (s t : State) (k : GKey) (g : Group) (f : Fields) (pos o : Nat) (l : List (Nat × Elem)) (limit : Option Nat),
    let a := g.ssrc f true f.a
    let b := g.ssrc f true f.b
    let u (i : Instr) : State := entered s k g i
    let ps : List (Nat × Place) := [(0, .pad pos o)]
    let pad := s.padAt g.id.inst pos
    let x := (l.head?.map (·.2)).getD {}
    let acq (n : Nat) (r : Regs) : Regs := r.acquire n
    let place (i : Instr) (n : Nat) (writes : Bool) : Prop :=
      a.tag = none ∧ M.places g f.m n [g.scalarEl (a.val + offsetOf false f)] writes (u i) = .ok (ps, u i)
    let word := BitVec.ofNat 64 (ofLeBytes ((List.range 8).map fun i => pad.byteAt (o + i)))
    let ldf (i : Instr) (take : Bool) : Prop :=
      Free s k g i → place i 4 false → timeoutIs g f f.c limit → NSet.has pad.full (o / 4) = true →
      M.load k f.m 4 g.regs.pc ps (u i) = .ok (l, t) →
      exec i s = .next (finished ((t.onPad g.id.inst pos fun p =>
          if take then { p with full := NSet.rem p.full (o / 4) } else p).onGroup k fun y =>
        { y with regs := Regs.pfill (Regs.sdst (acq (Store.getD pad.lts (o / 4) 0) y.regs) f.d
            { val := extend f.t x.v, tag := x.tag }) (f.x.toNat % 16) false }) k i)
    let set (full : Bool) (i : Instr) : Prop :=
      Free s k g i → place i 4 true →
      exec i s = effect s k g i fun v =>
        (v.syncPad (.group k) g.id.inst pos o 4).onPad g.id.inst pos fun p =>
          { p with full := if full then NSet.add p.full (o / 4) else NSet.rem p.full (o / 4) }
    let chkw (i : Instr) : Prop :=
      Free s k g i → place i 8 false → b.tag = none → timeoutIs g f f.c limit → NSet.has pad.poison (o / 32) = false →
      word &&& b.val = b.val →
      exec i s = thenRegs ((u i).syncPad (.group k) g.id.inst pos o 8) k i fun y =>
        (acq (if b.val = 0 then 0 else Store.getD pad.lts (o / 4) 0) y).pfill (f.x.toNat % 16) false
    ldf (.ldfKeep f) false ∧ ldf (.ldfTake f) true ∧ set false (.fesetEmpty f) ∧ set true (.fesetFull f) ∧
    (Free s k g (.ste f) → place (.ste f) 4 true → b.tag = none → timeoutIs g f f.c limit →
      NSet.has pad.full (o / 4) = false →
      let v := (u (.ste f)).releaseDrain k g.id.inst 1
      let bytes := bytesAt o (leBytes 4 b.val.toNat)
      exec (.ste f) s = thenRegs ((v.syncPad (.group k) g.id.inst pos o 4).onPad g.id.inst pos fun p =>
          (p.put bytes).fillWords bytes) k (.ste f) fun y => y.pfill (f.x.toNat % 16) false) ∧
    chkw (.chkwWait f) ∧ chkw (.chkwTest f) ∧
    (Free s k g (.chkwTest f) → place (.chkwTest f) 8 false → b.tag = none → NSet.has pad.poison (o / 32) = false →
      word &&& b.val ≠ b.val →
      exec (.chkwTest f) s = thenRegs ((u (.chkwTest f)).syncPad (.group k) g.id.inst pos o 8) k (.chkwTest f) fun y =>
        y.pfill (f.x.toNat % 16) true)

/-! ### Fences, timelines, cache and service controls (10 R195 to R199, R201 to R204) -/

/-- A fence sends the group's buffered lines and, under REL and FULL, drains its copies to the scope, and stands until it
completes; PROMOTE drains the copies of the group it names, whose logical time it acquires, when that group's core lies
in the partition; FENCE_COMPLETE lets the group go on (08 R144, 09 R164, 10 R195, R196). TLWAIT acquires a count that
its timeline has reached and reports the error latch; a count not issued ends it at once and a TEST not reached ends
with the status predicate ones; TLRD reads a timeline, and CLRERR clears the latch; TLINC takes the next number and
finishes it (02 R31, 09 R172, 10 R197 to R199). Where the spec is open this states the choices of the model: log 22, 24,
56 and 61. -/
def Obligations.FenceAndTimelineResults : Prop :=
  (∀ (s : State) (k : GKey) (g : Group) (f : Fields),
    let scope : BitVec 3 := f.x.extractLsb' 0 3
    let a := g.ssrc f true f.a
    let v : GKey := ⟨a.val.extractLsb' 0 5, a.val.extractLsb' 8 4, a.val.extractLsb' 32 3⟩
    let up (x : Group) : Group := { x with fence := some { fn := f.fn, scope := scope } }
    let fence (i : Instr) (n : Nat) (acq : Bool) : Prop :=
      Free s k g i → exec i s = effect s k g i fun u =>
        let u1 := u.releaseDrain k g.id.inst n
        (if acq = true ∧ 3 ≤ scope then u1.dropRemote k else u1).onGroup k up
    fence (.fenceAcq f) 0 true ∧ fence (.fenceRel f) scope.toNat false ∧ fence (.fenceFull f) scope.toNat true ∧
    (Free s k g (.fencePromote f) → a.tag = none → s.partOfCore (keyCore v) = some g.id.part.toNat →
      exec (.fencePromote f) s = effect s k g (.fencePromote f) fun u =>
        let u1 := (u.departWhere fun w => w.g = k).drainWhere fun c => c.owner = .group v
        let u2 := if 3 ≤ scope then u1.dropRemote k else u1
        (u2.onGroup k fun x => { x with regs := x.regs.acquire (u2.ltOf (.group v)) }).onGroup k up) ∧
    (Free s k g (.fencePromote f) → a.tag = none → s.partOfCore (keyCore v) ≠ some g.id.part.toNat →
      exec (.fencePromote f) s = trapResult s k (.fencePromote f) { cause := cProt }) ∧
    exec (.fenceComplete k) s = .next (s.onGroup k Group.fenceDone) ∧
    (g.fenceDone.fence = none ∧ { g.fenceDone with fence := g.fence, regs := g.regs } = g ∧
      { g.fenceDone.regs with acq := g.regs.acq } = g.regs ∧
      (∀ x, g.fence = some x → x.fn ≠ 1 → g.fenceDone.regs.acq = max g.regs.acq g.regs.seen))) ∧
  (∀ (s : State) (k : GKey) (g : Group) (f : Fields) (limit : Option Nat) (n : Word64) (t : State),
    let tl := f.x.toNat % 16
    let tm := vget g.tl tl {}
    let a := g.ssrc f true f.a
    let u (i : Instr) : State := entered s k g i
    let reached (r : Regs) : Regs :=
      ((r.acquire (tm.ltOf a.val.toNat)).pall f.d tm.err).pfill (predNo f.c) false
    let missed (r : Regs) : Regs := (r.pall f.d false).pfill (predNo f.c) true
    let read (i : Instr) (v : Word64) : Prop :=
      Ready s k g i → exec i s = scalarResult s k g i f.d v []
    let err : Word64 := if tm.err then 1 else 0
    (Free s k g (.tlwaitWait f) → a.tag = none → timeoutIs g f f.b limit → a.val.toNat ≤ tm.issued.toNat →
      a.val.toNat ≤ tm.done.toNat →
      exec (.tlwaitWait f) s = thenRegs (u (.tlwaitWait f)) k (.tlwaitWait f) reached) ∧
    (Free s k g (.tlwaitWait f) → a.tag = none → timeoutIs g f f.b limit → tm.issued.toNat < a.val.toNat →
      exec (.tlwaitWait f) s = thenRegs (u (.tlwaitWait f)) k (.tlwaitWait f) missed) ∧
    (Free s k g (.tlwaitTest f) → a.tag = none → a.val.toNat ≤ tm.done.toNat →
      exec (.tlwaitTest f) s = thenRegs (u (.tlwaitTest f)) k (.tlwaitTest f) reached) ∧
    (Free s k g (.tlwaitTest f) → a.tag = none → tm.done.toNat < a.val.toNat →
      exec (.tlwaitTest f) s = thenRegs (u (.tlwaitTest f)) k (.tlwaitTest f) missed) ∧
    read (.tlrdDone f) tm.done ∧ read (.tlrdIssued f) tm.issued ∧ read (.tlrdErr f) err ∧
    (Free s k g (.tlrdClrerr f) →
      exec (.tlrdClrerr f) s = .next (s.setGroup k (did g (.tlrdClrerr f) fun x =>
        { x with
          regs := x.regs.sdst f.d { val := err }
          tl := x.tl.setIfInBounds tl { tm with err := false } }))) ∧
    (Free s k g (.tlinc f) → M.issue k tl 0xCF .null 0 (u (.tlinc f)) = .ok (n, t) →
      exec (.tlinc f) s =
        thenRegs (t.finishCmd (.group k (BitVec.ofNat 4 tl) n) false) k (.tlinc f) fun x => x.sdst f.d { val := n }))

/-- CMO works on the lines of the mapped pages of its range, PIN and UNPIN on their leaves; PREF fetches a line or does
nothing; LIFE writes hints and step counters, the counter never falling; SVC sets the service class, no more urgent than
the launch allows (07 R131, R133, 10 R201 to R204). Where the spec is open this states the choices of the model: log 21,
28 and 33. -/
def Obligations.CacheControlResults : Prop :=
  ∀ (s : State) (k : GKey) (g : Group) (f : Fields) (ls : List Leaf),
    let a := g.ssrc f true f.a
    let b := g.ssrc f true f.b
    let c := g.ssrc f true f.c
    let u (i : Instr) : State := entered s k g i
    let lo := (a.val + offsetOf false f).toNat
    let hi := lo + b.val.toNat
    let range (i : Instr) : Prop :=
      Free s k g i ∧ a.tag = none ∧ b.tag = none ∧ M.leaves k (lo, hi) (u i) = .ok (ls, u i)
    let lines (i : Instr) (op : State → Nat → State) : Prop :=
      range i → exec i s = effect s k g i fun v => (v.linesOf ls lo hi).foldl op v
    let asid := g.id.asid.toNat
    lines (.cmoClean f) (fun v n => v.cleanLine (.group k) n) ∧
    lines (.cmoInval f) (fun v n => v.invalLine k n) ∧
    lines (.cmoFlush f) (fun v n => v.flushLine (.group k) n) ∧
    (range (.cmoPin f) → (u (.cmoPin f)).anyMoving g ls = false → hi ≤ ((u (.cmoPin f)).pinFrom ls lo hi).1 →
      exec (.cmoPin f) s = effect s k g (.cmoPin f) fun v => (v.pinFrom ls lo hi).2) ∧
    (range (.cmoUnpin f) →
      exec (.cmoUnpin f) s = effect s k g (.cmoUnpin f) fun v => ls.foldl (fun v l => v.setPin l false) v) ∧
    (∀ i va pa, Free s k g (.pref f) → s.inst? g.id.inst = some i → a.tag = none → f.m ≠ spS →
      placesOf g.segs i (g.pos i) f.m 1 [g.scalarEl (a.val + offsetOf false f)] = .ok [(0, .va va)] →
      s.translate g.ctx .read va = .ok pa → s.poisonAt pa = false →
      exec (.pref f) s = effect s k g (.pref f) fun v =>
        (v.ask (.group k) (lineOf pa)).fillLine (lineOf pa) (keyCore k) (f.x &&& 1 == 0)) ∧
    (∀ i, Free s k g (.pref f) → s.inst? g.id.inst = some i → (a.tag ≠ none ∨ f.m = spS) →
      exec (.pref f) s = effect s k g (.pref f) id) ∧
    (range (.lifeMark f) → c.tag = none →
      exec (.lifeMark f) s = effect s k g (.lifeMark f) fun v => v.onPart g.id.part.toNat fun p =>
        { p with hints := (ls.filter Leaf.tiered).foldl (fun m l =>
            Store.put m (hintKey asid l.va) { prio := c.val.toNat % 8, next := c.val.toNat / 2 ^ 8 }) p.hints }) ∧
    (Free s k g (.lifeStep f) → a.tag = none →
      exec (.lifeStep f) s = effect s k g (.lifeStep f) fun v => v.onPart g.id.part.toNat fun p =>
        { p with steps := Store.put p.steps asid (max (Store.getD p.steps asid 0) a.val.toNat) }) ∧
    (Ready s k g (.svc f) → a.tag = none → b.tag = none → (f.a == .imm && f.b == .imm) = false →
      exec (.svc f) s = .next (s.setGroup k (did g (.svc f) fun x =>
        { x with svc := BitVec.ofNat 64 (min a.val.toNat g.id.svcMax.toNat + 4 * min b.val.toNat (2 ^ 32 - 1)) })))

/-! ### Engine commands (10 R205 to R209, 11 R213, R222, 18 R315 to R324, 12 R229, R241) -/

/-- The issue of an engine command by a group that nothing holds back, with fewer than 64 unfinished commands and its
partition below its quota: the command takes the next number of its timeline, and stands with the context of its group
(02 R31, 10 R205, 25 R395). CPY and the row operations check their operands and issue a command, or a null command where
nothing is to be done (10 R207, 11 R213). Where the spec is open this states the choices of the model: log 29 and 32. -/
def Obligations.CopyAndRowIssue : Prop :=
  (∀ (s : State) (k : GKey) (g : Group) (p : Part) (tl : Nat) (op : BitVec 8) (kind : CmdKind) (total : Nat),
     let tm := vget g.tl tl {}
     let n := tm.issued + 1
     s.group? k = some g → g.spec = none → g.fence = none → g.ord = none → s.part? g.id.part.toNat = some p →
     (s.cmdsOf k).length < 64 → s.cmdsOfPart g.id.part.toNat < p.engQuota →
     ∃ t c, M.issue k tl op kind total s = .ok (n, t) ∧
       t.cmds = s.cmds ++ [c] ∧ c.key = .group k (BitVec.ofNat 4 tl) n ∧ c.kind = kind ∧ c.total = total ∧ c.op = op ∧
       c.part = g.id.part ∧ c.asid = g.id.asid ∧ c.sup = g.id.sup ∧ c.segs = g.segs ∧ c.lt = g.regs.lt ∧
       c.state = .running ∧
       t.group? k = some { g with tl := g.tl.setIfInBounds tl { tm with issued := n } } ∧
       t.mem = s.mem ∧ t.parts = s.parts ∧ t.insts = s.insts) ∧
  (∀ (s t : State) (k : GKey) (g : Group) (f : Fields) (i : Instr) (x : Inst) (num : Word64),
     let a := g.ssrc f true f.a
     let b := g.ssrc f true f.b
     let c := g.ssrc f true f.c
     let u := entered s k g i
     let tl := f.x.toNat % 16
     let clean := a.tag = none ∧ b.tag = none ∧ c.tag = none
     let n := c.val.toNat
     let copy : Copy :=
       { dsp := f.m, ssp := f.t, dst := a.val, src := b.val, len := n,
         fill := if i = .cpyFill f then some (b.val.setWidth 32) else none,
         bitmap := if f.is96 then some (f.i32.signExtend 64) else none }
     let m := f.i32.toNat
     let row : RowCmd := { fn := f.fn, d := a.val, b := b.val, c := c.val, n := m }
     let aligned := a.val.toNat % 1024 = 0 ∧ b.val.toNat % 1024 = 0 ∧ c.val.toNat % 1024 = 0
     (i ∈ [.cpyCopy f, .cpyFill f] → Free s k g i → clean → s.inst? g.id.inst = some x →
       copyCheck g.segs x (g.pos x) copy = .ok () →
       (n ≠ 0 → M.issue k tl 0xE0 (.copy copy) ((n + 511) / 512) u = .ok (num, t) →
         exec i s = .next (finished t k i)) ∧
       (n = 0 → M.nullCmd k tl 0xE0 u = .ok (num, t) → exec i s = .next (finished t k i))) ∧
     (i ∈ [.rowCopy f, .rowFill0 f, .rowFill1 f, .rowAnd f, .rowOr f, .rowXor f, .rowNot f] → Free s k g i → clean →
       aligned → m ≤ 2 ^ 22 →
       (m ≠ 0 → M.issue k tl 0xE2 (.row row) m u = .ok (num, t) → exec i s = .next (finished t k i)) ∧
       (m = 0 → M.nullCmd k tl 0xE2 u = .ok (num, t) → exec i s = .next (finished t k i))))

/-- IRED reads its descriptor and issues; CPYT and LAYX read and check their records, and issue a command that carries no
follow-on, or a follow-on that stands blocked in the matrix queue under its number (10 R208, R209, 11 R222, 18 R323,
R324). Where the spec is open this states the choices of the model: log 29 and 32. -/
def Obligations.RecordCommandIssue : Prop :=
  ∀ (s t u1 u2 : State) (k : GKey) (g : Group) (f : Fields) (x : Inst) (num : Word64) (r1 : Rec) (l l2 : List Rec)
    (fo : Option MatCmd),
    let a := g.ssrc f true f.a
    let b := g.ssrc f true f.b
    let c := g.ssrc f true f.c
    let u (i : Instr) : State := entered s k g i
    let tl := f.x.toNat % 16
    let n := c.val.toNat
    let rec_ (i : Nat) : Rec := recOf l i
    let rec2 (i : Nat) : Rec := recOf l2 i
    let follow : List Word64 := if f.x.getLsbD 4 then [a.val + 64] else []
    let tile : TileCopy :=
      { dsp := f.m, ssp := f.t, drec := rec_ 0, srec := rec_ 1, pad := f.i64, reps := tileReps g (rec_ 0) (rec_ 1),
        follow := f.x.getLsbD 4 }
    let fits (sp : Space) (r : Rec) (n : Nat) : Prop :=
      shapeSeg g.segs x (g.pos x) sp r n false = .ok () ∧ shapeAlign g.segs x (g.pos x) sp r n false = .ok ()
    let isp := BitVec.ofNat 3 (Win.byte (rec_ 0) 26)
    let osp := BitVec.ofNat 3 (Win.byte (rec_ 0) 27)
    let m1 : MatRecs := { r := rec_ 2, a := rec2 0, b := rec2 1 }
    let m2 : MatRecs := { r := rec_ 1, a := rec2 2, b := rec2 3 }
    (Free s k g (.ired f) → a.tag = none → b.tag = none → c.tag = none → a.val.toNat % 64 = 0 → b.val.toNat % 64 = 0 →
      n ≤ 2 ^ 26 → M.readRec k a.val.toNat 64 (u (.ired f)) = .ok (r1, u1) → Ired.legal g.id.fs r1 = true →
      (n ≠ 0 → M.issue k tl 0xE3 (.ired { desc := r1, entries := b.val, n := n }) n u1 = .ok (num, t) →
        exec (.ired f) s = .next (finished t k (.ired f))) ∧
      (n = 0 → M.nullCmd k tl 0xE3 u1 = .ok (num, t) → exec (.ired f) s = .next (finished t k (.ired f)))) ∧
    (Free s k g (.cpyt f) → a.tag = none → b.tag = none →
      M.recs64 k ([a.val, b.val] ++ follow) (u (.cpyt f)) = .ok (l, u1) →
      M.recs64 k (followRecs f (rec_ 2)) u1 = .ok (l2, u2) →
      (Shape.legal (rec_ 0) && Shape.legal (rec_ 1) && tileOk (rec_ 0) (rec_ 1) f.i64) = true →
      M.followLegal k f (wordOf (.cpyt f)) m1 u2 = .ok ((), u2) → u2.inst? g.id.inst = some x →
      (∀ p ∈ tile.reps, fits f.m (rec_ 0) (memberOf f.m p.1 p.2) ∧ fits f.t (rec_ 1) (memberOf f.t p.1 p.2)) →
      Shape.aligned (rec_ 0) = true → Shape.aligned (rec_ 1) = true → M.followOffsets k f m1 (pure ()) (pure ()) u2 = .ok (fo, u2) →
      f.m ≠ spK → M.carry k f 0xE1 (.tile tile) (u2.tileUnits g.draft tile).length fo u2 = .ok ((), t) →
      exec (.cpyt f) s = .next (finished t k (.cpyt f))) ∧
    (Free s k g (.layx f) → a.tag = none → M.recs64 k ([a.val] ++ follow) (u (.layx f)) = .ok (l, u1) →
      M.recs64 k ([Win.inrec (rec_ 0), Win.outrec (rec_ 0)] ++ followRecs f (rec_ 1)) u1 = .ok (l2, u2) →
      Win.byte (rec_ 0) 26 ≠ 4 → Win.byte (rec_ 0) 27 ≠ 4 → Win.legal (rec_ 0) (rec2 0) (rec2 1) = true →
      Shape.aligned (rec2 0) = true → Shape.aligned (rec2 1) = true →
      M.followLegal k f (wordOf (.layx f)) m2 u2 = .ok ((), u2) → u2.inst? g.id.inst = some x →
      fits isp (rec2 0) 0 → fits osp (rec2 1) 0 → M.followOffsets k f m2 (pure ()) (pure ()) u2 = .ok (fo, u2) → osp ≠ spK →
      M.carry k f 0xB7 (.layout { wrec := rec_ 0, inrec := rec2 0, outrec := rec2 1, follow := fo.isSome })
        (Shape.ext (rec2 1) 1) fo u2 = .ok ((), t) →
      exec (.layx f) s = .next (finished t k (.layx f))) ∧
    (∀ g1 code kind total, u1.group? k = some g1 → fo = none → M.issue k tl code kind total u1 = .ok (num, t) →
      M.carry k f code kind total fo u1 = .ok ((), t)) ∧
    (∀ g1 m code kind total, u1.group? k = some g1 → fo = some m → g1.mq.length < mqCap →
      M.issue k tl code kind total u1 = .ok (num, t) →
      M.carry k f code kind total fo u1 = .ok ((), t.onGroup k fun y => y.enqueue
        { op := .follow m, cmd := some (BitVec.ofNat 4 tl, num), ready := false, pc := y.at_ f } t.cyc.toNat))

/-- The matrix instructions stand in the queue of their group while it has room, in their order, those that are commands
under the number that they take; with no member set in mk a command only takes its number; MPRI sets the matrix class,
no more urgent than prio (18 R302, R307, R317 to R322). Where the spec is open this states the choices of the model: log
31. -/
def Obligations.MatrixIssue : Prop :=
  ∀ (s t u1 : State) (k : GKey) (g g1 : Group) (f : Fields) (num : Word64) (m : MatCmd) (v : TileMove),
    let a := g.ssrc f true f.a
    let u (i : Instr) : State := entered s k g i
    let tl := f.x.toNat % 16
    let tile : BitVec 3 := f.i32.setWidth 3
    let stands (op : MqOp) (y : State) : State := y.onGroup k fun z => z.enqueue { op := op } y.cyc.toNat
    let under (op : MqOp) (y : State) : State := y.onGroup k fun z => z.enqueue
      { op := op, cmd := some (BitVec.ofNat 4 tl, num), pc := z.at_ f } y.cyc.toNat
    let issues (i : Instr) (code : BitVec 8) (none : Bool) (op : MqOp) (y : State) : Prop :=
      (none = false → y.group? k = some g1 → g1.mq.length < mqCap → M.issue k tl code .matrix 0 y = .ok (num, t) →
        exec i s = .next (finished (under op t) k i)) ∧
      (none = true → M.nullCmd k tl code y = .ok (num, t) → exec i s = .next (finished t k i))
    let moves (i : Instr) (writes : Bool) (code : BitVec 8) (op : TileMove → MqOp) : Prop :=
      Free s k g i → moveChk.ok5 g f = true → M.tileMove k f (wordOf i) writes (u i) = .ok (v, u1) →
        issues i code v.none (op v) u1
    (Free s k g (.mzero f) → f.x.toNat % 8 < g.id.tiles → g.mq.length < mqCap →
      exec (.mzero f) s = effect s k g (.mzero f) (stands (.zero (f.x.setWidth 3)))) ∧
    (Free s k g (.mma f) → a.tag = none → M.matRec k (wordOf (.mma f)) a.val (u (.mma f)) = .ok (m, u1) →
      issues (.mma f) 0xB1 m.none (.mma m) u1) ∧
    moves (.mldt f) false 0xB2 .load ∧
    moves (.mstt f) true 0xB3 .store ∧
    ((match mvWord g.id.fs f.i32 with | some w => w != 0 | none => true) = true → moves (.mdrnOwn f) true 0xB4 .drain) ∧
    (Free s k g (.mdrnPeer f) → moveChk.ok5 g f = true → a.tag = none →
      issues (.mdrnPeer f) 0xB4 g.lowest.isNone (.peer tile a.val) (u (.mdrnPeer f))) ∧
    (Free s k g (.mrp f) → a.tag = none → bitsNat a.val.toNat 15 8 ≤ 128 → g.mq.length < mqCap →
      exec (.mrp f) s = effect s k g (.mrp f) (stands (.mrp a.val))) ∧
    (Free s k g (.mpri f) → a.tag = none →
      exec (.mpri f) s = .next (s.setGroup k (did g (.mpri f) fun y =>
        { y with mcls := BitVec.ofNat 3 (min a.val.toNat g.prio.toNat) })))

/-- COLL reads its descriptor, communicator, table and auxiliary array, takes the communicator's sequence number, and
issues; a progressive command writes a fresh status record for each tile. CPREC reads a status record, CWAITP ends where
its plane count or a stop is met, CCAN cancels a tile that may still be cancelled in one atomic of its group, which
leaves the record CANCELLED with its canceller (12 R229, R233, R235, R241). Where the spec is open this states the
choices of the model: log 34 and 44. -/
def Obligations.CollectiveIssue : Prop :=
  ∀ (s t v u1 u2 u3 u4 u5 : State) (k : GKey) (g : Group) (f : Fields) (i : Instr) (x : Inst) (num : Word64)
    (desc comm table aux : Rec) (seq w pa : Nat) (limit : Option Nat),
    let a := g.ssrc f true f.a
    let b := g.ssrc f true f.b
    let u (i : Instr) : State := entered s k g i
    let tl := f.x.toNat % 16
    let prog := f.x.getLsbD 4
    let cmd : CollCmd := { fn := f.fn, prog := prog, desc := desc, comm := comm, table := table, aux := aux, seq := 0 }
    let key : CKey := .group k (BitVec.ofNat 4 tl) num
    let va := a.val + offsetOf false f
    let at_ (i : Instr) (acc : Access) : Prop :=
      Free s k g i ∧ a.tag = none ∧ va.toNat % 64 = 0 ∧
      M.xlatPage g.ctx acc [(0, .va va.toNat)] (u i) = .ok ([(0, .pa pa)], v)
    let old : Option Nat × State := v.atomicHome (.group k) pa 8 (fun _ => none) false
    let met : Bool := decide (min b.val.toNat (w / 2 ^ 24 % 2 ^ 8) ≤ w % 2 ^ 16)
    let stop := w / 2 ^ 16 % 2 ^ 8
    (i ∈ [.collAllred f, .collReduce f, .collBcast f, .collAllgath f, .collXsum f, .collSpread f, .collQuant f, .collRankh f] →
      Free s k g i → a.tag = none → b.tag = none → a.val.toNat % 64 = 0 → b.val.toNat % 64 = 0 →
      M.readRec k a.val.toNat 64 (u i) = .ok (desc, u1) → M.readRec k b.val.toNat 64 u1 = .ok (comm, u2) →
      M.readRec k (Comm.list comm) (8 * Comm.npart comm) u2 = .ok (table, u3) →
      M.readRec k (Coll.auxAt desc) (Coll.auxLen f.fn desc) u3 = .ok (aux, u4) → u4.inst? g.id.inst = some x →
      (Comm.legal comm && Comm.tableOk comm table u4.devnum.toNat x) = true →
      Coll.legal f.fn prog (Comm.npart comm) desc = true →
      (f.fn != 6 || (List.range (Coll.nq desc)).all fun j => Coll.probOk (recNat aux (8 * j) 8)) = true →
      M.nextSeq k g b.val u4 = .ok (seq, u5) →
      M.issue k tl 0xE4 (.coll { cmd with seq := seq }) 0 u5 = .ok (num, t) →
      exec i s = .next (finished (if prog then t.openTiles key cmd.tiles else t) k i)) ∧
    (at_ (.cprec f) .read → old.1 = some w →
      exec (.cprec f) s = thenRegs old.2 k (.cprec f) fun y => y.sdst f.d { val := BitVec.ofNat 64 w }) ∧
    (at_ (.cwaitp f) .read → b.tag = none → timeoutIs g f f.c limit → old.1 = some w →
      (met = true ∨ stop = stCancelled ∨ stop = stFailed) →
      exec (.cwaitp f) s = thenRegs old.2 k (.cwaitp f) fun y => (y.pall f.d met).pfill tl false) ∧
    (∀ c y n, at_ (.ccan f) .rmw → v.ownerOf pa = some (c, y, n) →
      let live (x : Nat) : Bool := decide (x / 2 ^ 16 % 2 ^ 8 ≤ stRefining)
      let who := Comm.self y.comm
      let took := v.atomicHome (.group k) pa 12 (fun x => if live x then some (statusCancelled x who) else none) false
      took.1 = some w → exec (.ccan f) s =
        thenRegs (if live w then took.2.noteCancel c.key n who else took.2) k (.ccan f) fun z => z.pall f.d (live w)) ∧
    (at_ (.ccan f) .rmw → v.ownerOf pa = none →
      let took := v.atomicHome (.group k) pa 12 (fun _ => none) false
      took.1 = some w → exec (.ccan f) s = thenRegs took.2 k (.ccan f) fun z => z.pall f.d false) ∧
    (∀ x who, bitsNat (statusCancelled x who) 23 16 = stCancelled ∧ statusCancelled x who % 2 ^ 16 = x % 2 ^ 16 ∧
      statusCancelled x who / 2 ^ 64 = who % 2 ^ 32)

/-! ### Barriers, signals, ordered commits (22 R364 to R371, R375) -/

/-- BAR.ARRIVE releases at cohort scope, arrives, and gives its target phase; a wait on a phase that is reached acquires the
arrivals that the phase covers and ends with the timeout predicate zeros; one that is not reached suspends the group, or
ends late where its timeout is zero; a second arrival within a phase, and an arrival at a barrier that a kill broke,
raise BARRIER (22 R365 to R368, 10 R193). Where the spec is open this states the choices of the model: log 15 and 35. -/
def Obligations.BarrierResults : Prop :=
  ∀ (s : State) (k : GKey) (g g2 : Group) (f : Fields) (x x1 x2 : Inst) (limit : Option Nat),
    let n := barNo f
    let b := x.bar n
    let a := g.ssrc f true f.a
    let u (i : Instr) : State := entered s k g i
    let v (i : Instr) : State := (u i).releaseDrain k g.id.inst 1
    let arrived (i : Instr) : State :=
      (v i).setBarrier g.id.inst n ((x1.bar n).arrive x1 (g.pos x1) ((v i).ltOf (.group k)))
    let target : Word32 := b.phase + 1
    let arrives (i : Instr) : Prop :=
      Free s k g i ∧ s.inst? g.id.inst = some x ∧ b.broken = false ∧ NSet.has b.arrived (g.pos x) = false ∧
      (v i).inst? g.id.inst = some x1
    let w : State := (arrived (.barArriveWait f)).onGroup k fun y => { y with armed := none }
    let waits (i : Instr) (half : Bool) : Prop :=
      Free s k g i → s.inst? g.id.inst = some x → b.broken = false → a.tag = none → timeoutIs g f f.c limit →
      let h := x.half (g.pos x)
      let now := if half then b.localOf h else b.phase
      let t : Word32 := a.val.setWidth 32
      let ends (late : Bool) (y : Regs) : Regs := y.pfill (predNo f.b) late
      (Barrier.reached now t = true → exec i s = thenRegs (u i) k i fun y =>
        ends false (y.acquire (b.histOf (if half then h else 2) t))) ∧
      (Barrier.reached now t = false → limit = some 0 → exec i s = thenRegs (u i) k i (ends true)) ∧
      (Barrier.reached now t = false → limit ≠ some 0 →
        exec i s = effect s k g i fun y => y.suspend k (.barrier n t half) f limit false)
    (arrives (.barArrive f) →
      exec (.barArrive f) s = thenRegs (arrived (.barArrive f)) k (.barArrive f) fun y =>
        y.sdst f.d { val := target.setWidth 64 }) ∧
    (arrives (.barArriveWait f) → g.armed = none → timeoutIs g f f.c limit → w.group? k = some g2 → g2.id = g.id →
      w.inst? g.id.inst = some x2 → (x2.bar n).broken = false →
      (Barrier.reached (x2.bar n).phase target = true →
        exec (.barArriveWait f) s = thenRegs w k (.barArriveWait f) fun y =>
          ((y.acquire ((x2.bar n).histOf 2 target)).sdst f.d { val := target.setWidth 64 }).pfill (predNo f.b) false) ∧
      (Barrier.reached (x2.bar n).phase target = false → limit ≠ some 0 →
        exec (.barArriveWait f) s =
          .next (finished (w.suspend k (.barrier n target false) f limit true) k (.barArriveWait f)))) ∧
    waits (.barWait f) false ∧ waits (.barWaitLocal f) true ∧
    (Free s k g (.barArrive f) → s.inst? g.id.inst = some x → b.broken = false → NSet.has b.arrived (g.pos x) = true →
      exec (.barArrive f) s = trapResult s k (.barArrive f) { cause := cBarrier, xinfo := n }) ∧
    (Free s k g (.barArriveWait f) → s.inst? g.id.inst = some x → g.armed = none → timeoutIs g f f.c limit →
      b.broken = false → NSet.has b.arrived (g.pos x) = true →
      exec (.barArriveWait f) s = trapResult s k (.barArriveWait f) { cause := cBarrier, xinfo := n }) ∧
    (Free s k g (.barArrive f) → s.inst? g.id.inst = some x → b.broken = true →
      exec (.barArrive f) s = trapResult s k (.barArrive f) { cause := cBarrier, xinfo := n + 16 })

/-- BARQ.STATUS reads the phase, the arrivals, the expected count and the local stage of a barrier, and sets the count that
its operand gives; BARQ.CID and BARQ.GEN give the name of the cohort instance (22 R369, R370). SIG issues a command that
carries its signal with the logical time of its group, where the cohort that it names is of the group's partition and of
a known device (22 R371, 10 R205). Where the spec is open this states the choices of the model: log 22 and 36. -/
def Obligations.BarrierReadsAndSignals : Prop :=
  (∀ (s : State) (k : GKey) (g : Group) (f : Fields) (x : Inst),
    let n := barNo f
    let b := g.ssrc f true f.b
    let word := (x.bar n).status x (g.pos x)
    (Ready s k g (.barqStatus f) → s.inst? g.id.inst = some x → f.b = .zero →
      exec (.barqStatus f) s = scalarResult s k g (.barqStatus f) f.d word []) ∧
    (Ready s k g (.barqStatus f) → s.inst? g.id.inst = some x → f.b ≠ .zero → b.tag = none → 1 ≤ b.val.toNat →
      b.val.toNat ≤ 4095 →
      exec (.barqStatus f) s = effect s k g (.barqStatus f) fun v =>
        (v.onGroup k fun y => { y with regs := y.regs.sdst f.d { val := word } }).setBarrier g.id.inst n
          ((x.bar n).setExp x b.val.toNat)) ∧
    (Ready s k g (.barqCid f) → s.inst? g.id.inst = some x →
      exec (.barqCid f) s = scalarResult s k g (.barqCid f) f.d (x.cid s.devnum.toNat) []) ∧
    (Ready s k g (.barqGen f) → s.inst? g.id.inst = some x →
      exec (.barqGen f) s = scalarResult s k g (.barqGen f) f.d (x.gen.setWidth 64) [])) ∧
  (∀ (s t : State) (k : GKey) (g : Group) (f : Fields) (num : Word64),
    let a := g.ssrc f true f.a
    let b := g.ssrc f true f.b
    let u := entered s k g (.sig f)
    let x : Signal :=
      { cid := a.val, gen := b.val.setWidth 32, bar := f.i32.setWidth 4, lt := BitVec.ofNat 64 (u.ltOf (.group k)) }
    Free s k g (.sig f) → a.tag = none → b.tag = none →
    (s.isLocal (cidDev a.val * 2 ^ 47) = true ∨ NSet.has s.domain (cidDev a.val) = true) →
    (cidPart a.val = g.id.part.toNat → M.issue k (f.x.toNat % 16) 0xEA (.signal x) 0 u = .ok (num, t) →
      exec (.sig f) s = .next (finished t k (.sig f))) ∧
    (cidPart a.val ≠ g.id.part.toNat → exec (.sig f) s = trapResult s k (.sig f) { cause := cProt }))

/-- LNCH claims the next index of a queue of its partition, writes its slot with the type last and as a release, and makes a
launch or a node its child, at its issue or, where the queue had no room, at the wake that finds room; JOIN, once every
child has ended, acquires their logical times and gives the counts, the first record that is not COMPLETED, and its
predicate (22 R372, R373). Where the spec is open this states the choices of the model: log 37. -/
def Obligations.LaunchAndJoin : Prop :=
  ∀ (s u1 u2 u3 u4 u5 : State) (k : GKey) (g : Group) (f : Fields) (p : Part) (qn pa sp : Nat) (q : Queue)
    (desc image now : Rec) (limit : Option Nat),
    let a := g.ssrc f true f.a
    let b := g.ssrc f true f.b
    let u (i : Instr) : State := entered s k g i
    let size := 2 ^ recNat desc 8 1
    let idx := recNat now 16 8
    let claim := (u5.atomicHome (.group k) (pa + 16) 8 (fun x => some ((x + 1) % 2 ^ 64)) false).2
    let slot := (recNat desc 0 8 + 64 * (idx % size)) % 2 ^ 64
    let written : State :=
      (((claim.drainOwn (.group k) (lineOf sp)).writeSectors (.group k) (bytesAt (sp + 1) (image.drop 1))).releaseDrain k g.id.inst 2).writeSectors
        (.group k) (bytesAt sp (image.take 1))
    let done : State := written.onGroup k fun x =>
      { x with regs := (x.regs.sdst f.d { val := BitVec.ofNat 64 idx }).pfill (ptOf f) false }
    let child : Child :=
      { id := done.nextId, part := g.id.part, q := BitVec.ofNat 4 qn, idx := idx, parent := g.id.launch, group := k }
    let kids := s.children.filter fun c => g.kids.contains c.id
    let bad := firstBad kids
    let second : SReg := { val := match bad with | some c => c.doneAt | none => 0 }
    let first (x : Regs) : Regs :=
      (x.acquire (kids.foldl (fun m c => max m c.lt.toNat) 0)).sdst f.d { val := joinWord kids }
    let appends (i : Instr) (start : State) (ends : State → State) : Prop :=
      a.tag = none → b.tag = none → a.val.toNat % 64 = 0 → b.val.toNat % 64 = 0 →
      M.readRec k a.val.toNat 64 start = .ok (desc, u1) → M.readRec k b.val.toNat 64 u1 = .ok (image, u2) →
      M.xlatPage g.ctx .rmw [(0, .va a.val.toNat)] u2 = .ok ([(0, .pa pa)], u3) → u3.part? g.id.part.toNat = some p →
      p.queues.find? (fun y => y.2.desc = pa) = some (qn, q) → (g.id.sup = true ∨ q.sup = false) →
      recNat image 0 1 ≠ 0 → (zeros desc 9 7 && zeros desc 32 32) = true → u3.loadBytes .ext false pa 32 = (some now, u4) →
      idx - recNat now 24 8 < size → g.kids.length < 256 →
      M.xlatPage { g.ctx with asid := q.asid.toNat } .write [(0, .va slot)] u4 = .ok ([(0, .pa sp)], u5) →
      exec i s = .next (ends (if recNat image 0 1 = 1 ∨ recNat image 0 1 = 2 then
        ({ done with nextId := done.nextId + 1, children := done.children ++ [child] } : State).onGroup k fun x =>
          { x with kids := x.kids ++ [done.nextId] }
        else done))
    (Free s k g (.lnch f) → timeoutIs g f f.c limit →
      appends (.lnch f) (u (.lnch f)) fun y => finished y k (.lnch f)) ∧
    (∀ w, s.group? k = some g → g.waitOf = some w → w.op = .lnch → w.f = f →
      appends (.lnchRoomWake k) (s.setGroup k { g with run := .ready }) fun y => y.stepped k) ∧
    (Free s k g (.join f) → timeoutIs g f f.c limit → kids.all (fun c => c.outcome.isSome) = true →
      exec (.join f) s = .next (finished
        (({ u (.join f) with children := s.children.filter fun c => !g.kids.contains c.id } : State).onGroup k fun x =>
          { x with
            kids := []
            regs := (((match f.d with
              | .s d => (first x.regs).sset (d.toNat + 1) second
              | _ => first x.regs).pfill (predNo f.b) bad.isSome).pfill (ptOf f) false) }) k (.join f)))

/-- MRG releases at cohort scope and waits for the groups of its instance; once all of them wait there, MRG_RENDEZVOUS fails
each where a check fails, and else gives every group the members of its slots and lets it go on, in one step; ORDC gives
the timestamp of the oldest group, or all ones outside ordered launches (21 R348 to R354, 22 R375). Where the spec is
open this states the choices of the model: log 59. -/
def Obligations.RegroupAndOrderResults : Prop :=
  ∀ (s : State) (k : GKey) (g : Group) (f : Fields) (x : Inst) (xs : List AtMrg) (inst : Nat) (limit : Option Nat),
    let b := g.ssrc f true f.b
    let c := g.ssrc f true f.c
    let mrg (i : Instr) (ret : Bool) : Prop :=
      Free s k g i → b.tag = none → c.tag = none → s.inst? g.id.inst = some x → x.ended = [] →
      exec i s = effect s k g i fun v => (v.releaseDrain k g.id.inst 1).suspend k (.mrg ret) f none false
    let order := mrgOrder x (match xs with | y :: _ => y.g.id.mbase.toNat | [] => 0) xs
    let src (p m : Nat) : Regs × Nat :=
      match order[p * x.mcount + m]? with
      | some (q, n) => match xs[q]? with
        | some y => (y.g.regs, n)
        | none => ({}, 0)
      | none => ({}, 0)
    let lt := xs.foldl (fun m y => max m y.g.regs.lt.toNat) 0
    let go (v : State) (y : AtMrg × Nat) : State :=
      let r := mrgRegs y.1 (src y.2) lt
      let v1 := v.setGroup y.1.k { y.1.g with regs := r, run := .ready }
      let v2 := if r.mask = y.1.g.regs.mask then v1
        else v1.trail (keyCore y.1.k) y.1.k.rs.toNat 2 r.mstack.length r.mask.toNat
      v2.stepped y.1.k
    mrg (.mrgRegroup f) false ∧ mrg (.mrgReturn f) true ∧
    (s.inst? inst = some x → s.atMrg x = some xs →
      (∀ ts, mrgFaults xs = some ts →
        exec (.mrgRendezvous inst) s = .next ((xs.zip ts).foldl (fun v y => v.trapWaiting y.1.k y.2) s)) ∧
      (mrgFaults xs = none → exec (.mrgRendezvous inst) s = .next (xs.zipIdx.foldl go s))) ∧
    (Free s k g (.ordc f) → timeoutIs g f f.c limit →
      exec (.ordc f) s = .next (s.setGroup k (didRegs g (.ordc f) fun y =>
        (y.sdst f.d { val := BitVec.allOnes 64 }).pfill (ptOf f) false))) ∧
    (∀ l o, Ready s k g (.ordc f) → g.fence = none → g.ord = some o → timeoutIs g f f.c limit →
      s.ordOf (.group k) = some (l, o) → s.isOldest l o = true →
      exec (.ordc f) s = thenRegs ((entered s k g (.ordc f)).flushVersions (.group k) l o.ts) k (.ordc f) fun y =>
        (y.sdst f.d { val := BitVec.ofNat 64 o.ts }).pfill (ptOf f) false)

/-! ### System and trap instructions (26 R408 to R423) -/

/-- TRAP raises SOFTWARE with its code and its length in XINFO (26 R409). GCTL and FRZ act on the master that their operand
names, RESUME, STEP and THAW after a device-scope release of the group's accesses, and write the status; a master of
another partition raises PROTECTION (26 R410 to R413, 25 R399). Where the spec is open this states the choices of the
model: log 22 and 38. -/
def Obligations.TrapAndMasterControl : Prop :=
  (∀ (s : State) (k : GKey) (g : Group) (f : Fields),
    Ready s k g (.trap f) →
    exec (.trap f) s = trapResult s k (.trap f) { cause := cSoftware, xinfo := f.i32.toNat + f.len * 2 ^ 32 }) ∧
  (∀ (s : State) (k : GKey) (g : Group) (f : Fields),
    let a := g.ssrc f true f.a
    let b := g.ssrc f true f.b
    let m := masterOf a.val
    let u (i : Instr) : State := entered s k g i
    let names (i : Instr) : Prop := Free s k g i ∧ a.tag = none ∧ masterClear a.val = true
    let act (i : Instr) (rel : Bool) (go : State → Found → Nat → State × Nat) : Out :=
      let v := if rel then (u i).releaseDrain k g.id.inst 2 else u i
      let r := go v (v.find g.id.part m) (v.ltOf (.group k))
      thenRegs r.1 k i fun y => y.sdst f.d { val := BitVec.ofNat 64 r.2 }
    let mine : Prop := s.masterIn g.id.part m = true
    let pc : Option Word64 := if f.b = .zero then none else some b.val
    let start : Prop := f.b = .zero ∨ (b.tag = none ∧ b.val.toNat % 4 = 0)
    (names (.gctlResume f) → mine → start →
      exec (.gctlResume f) s = act (.gctlResume f) true fun v fd lt => v.gctlRun fd pc lt false) ∧
    (names (.gctlStep f) → mine → start →
      exec (.gctlStep f) s = act (.gctlStep f) true fun v fd lt => v.gctlRun fd pc lt true) ∧
    (names (.gctlKill f) → mine →
      exec (.gctlKill f) s = act (.gctlKill f) false fun v fd _ => v.gctlKill k fd) ∧
    (names (.frzThaw f) → mine →
      exec (.frzThaw f) s = act (.frzThaw f) true fun v fd lt => v.frz k fd false lt) ∧
    (names (.frzKill f) → mine →
      exec (.frzKill f) s = act (.frzKill f) false fun v fd lt => v.frz k fd true lt) ∧
    (∀ i ∈ [Instr.gctlResume f, .gctlStep f, .gctlKill f, .frzThaw f, .frzKill f], names i → ¬mine →
      exec i s = trapResult s k i { cause := cProt }))

/-- RESUME of a group suspended on a trap lets it go on at the address given, else at xpc, with its lt raised to the
issuer's; STEP lets it run one instruction, and what completes it then suspends the group before the next with a record
of cause SOFTWARE whose xpc is that next instruction and whose xinfo is bit 63 alone; of a group that is not suspended
on a trap, whether it is ready or waits, the status is NOT_STOPPED, of none NO_MASTER, of one in the shadow context
NOT_RESIDENT (26 R411). Where the spec is open this states the choices of the model: log 38. -/
def Obligations.ResumeFromTrap : Prop :=
  ∀ (s : State) (k : GKey) (g : Group) (r : TrapRec) (n : Option Nat) (pc : Option Word64) (lt : Nat) (once : Bool),
    (g.run = .trapped r n → ∃ x, s.gctlRun (.group k g) pc lt once = (s.setGroup k x, 0) ∧
      x.run = .ready ∧ x.regs.pc = pc.getD g.xpc ∧ x.stepOnce = once ∧ g.regs.lt ≤ x.regs.lt ∧
      lt % 2 ^ 64 ≤ x.regs.lt.toNat ∧ x.regs.s = g.regs.s ∧ x.regs.v = g.regs.v ∧ x.regs.p = g.regs.p ∧
      x.regs.mask = g.regs.mask ∧ x.xcause = g.xcause ∧ x.xpc = g.xpc) ∧
    ((∀ r n, g.run ≠ .trapped r n) → s.gctlRun (.group k g) pc lt once = (s, 1)) ∧
    s.gctlRun .none pc lt once = (s, 2) ∧ s.gctlRun .away pc lt once = (s, 3) ∧
    (let rec_ := s.groupRec k g { cause := cSoftware, xinfo := 2 ^ 63 } false g.regs.pc
     (s.group? k = some g → g.stepOnce = true → g.run = .ready → g.spec = none → s.stepped k = s.deliver k rec_) ∧
     (s.group? k = some g → g.stepOnce = false → s.stepped k = s) ∧
     rec_.cause = 0x0C ∧ rec_.xpc = g.regs.pc ∧ rec_.xaddr = 0 ∧ rec_.xinfo = 2 ^ 63 ∧ rec_.chain = false) ∧
    (∀ i r, row i = some r → finished s k i =
      (s.onGroup k fun x => { x with regs := x.regs.countDic r.vec }).stepped k) ∧
    (∀ f, s.cur = some k → s.group? k = some g → wellFormed (.nop f) = true → legal g (.nop f) = true → g.spec = none →
      g.stepOnce = true → g.run = .ready →
      exec (.nop f) s = .next (((s.ctlTrail k false g.regs.pc).setGroup k (didRegs g (.nop f) id)).stepped k)) ∧
    ∀ f a, s.cur = some k → s.group? k = some g → wellFormed (.smov f) = true → legal g (.smov f) = true →
      g.spec = none → g.stepOnce = true → g.run = .ready → a = g.ssrc f (f.t == 7) f.a →
      exec (.smov f) s =
        .next ((s.setGroup k (didRegs g (.smov f) fun x => x.sdst f.d { val := a.val, tag := firstTag [a.tag] })).stepped k)

/-- MFS reads a system register, dic alone also by member; MTS writes the writable ones; of a privileged register both trap
PRIVILEGED in a group that is not in supervisor mode (02 R39, R40, 26 R416). The numbers of the system registers, and
that a write of one is read back in its writable bits (02 R39, R40). -/
def Obligations.SystemRegisters : Prop :=
  (∀ (s : State) (k : GKey) (g : Group) (f : Fields),
    let a := g.ssrc f true f.a
    let n := regNo f
    (Ready s k g (.mfs f) → mfsOk f = true → (privReg n = true → g.id.sup = true) → (∀ i, f.d ≠ .v i) →
      exec (.mfs f) s = scalarResult s k g (.mfs f) f.d (g.sysReg s.cyc n) []) ∧
    (∀ i, Ready s k g (.mfs f) → f.d = .v i → n = 0x08 →
      exec (.mfs f) s = .next (s.setGroup k (didRegs g (.mfs f) fun x =>
        x.vdst f.d true (writesOf (fun e => g.inMask (g.slotOf e)) fun e => { v := vget g.regs.dic (g.slotOf e) 0 })))) ∧
    (Ready s k g (.mts f) → writable n = true → (privReg n = true → g.id.sup = true) → a.tag = none →
      exec (.mts f) s = .next (s.setGroup k (did g (.mts f) fun x => x.sysWrite n a.val))) ∧
    (∀ t, Ready s k g (.mts f) → writable n = true → (privReg n = true → g.id.sup = true) → a.tag = some t →
      exec (.mts f) s = trapResult s k (.mts f) { cause := cPoison, tag := some t }) ∧
    (Ready s k g (.mfs f) → mfsOk f = true → privReg n = true → g.id.sup = false →
      exec (.mfs f) s = trapResult s k (.mfs f) { cause := cPrivileged, xinfo := (baseWord 0xF2 f).toNat }) ∧
    (Ready s k g (.mts f) → writable n = true → privReg n = true → g.id.sup = false →
      exec (.mts f) s = trapResult s k (.mts f) { cause := cPrivileged, xinfo := (baseWord 0xF3 f).toNat })) ∧
  (∀ (g : Group) (c v : Word64),
    let r (n : Nat) : Word64 := g.sysReg c n
    let w (n : Nat) : Word64 := (g.sysWrite n v).sysReg c n
    r 0x00 = g.xcause.setWidth 64 ∧ r 0x01 = g.xpc ∧ r 0x02 = g.xaddr ∧ r 0x03 = g.xinfo ∧ r 0x09 = g.regs.lt ∧
    r 0x0A = c ∧ r 0x0B = g.regs.fcr.setWidth 64 ∧ r 0x0C = g.id.seed ∧ r 0x0D = g.prio.setWidth 64 ∧ r 0x0E = g.svc ∧
    r 0x0F = g.dlm.setWidth 64 ∧ r 0x10 = g.id.asid.setWidth 64 ∧ r 0x11 = g.id.part.setWidth 64 ∧
    r 0x14 = g.id.mbase.setWidth 64 ∧ r 0x15 = g.rp ∧
    r 0x12 = BitVec.ofNat 64 (g.id.key.rs.toNat * 2 ^ 32 + g.id.ci % 2 ^ 24 * 2 ^ 8 + g.id.cy % 8 * 2 ^ 4 + g.id.cx % 16) ∧
    (let x := g.id.key.x.toNat
     let y := g.id.key.y.toNat
     let tower := x / 16 + 2 * (y / 8)
     let die := x / 8 % 2
     r 0x13 = BitVec.ofNat 64 ((2 * tower + die) * 2 ^ 16 + die * 2 ^ 14 + tower * 2 ^ 12 + y * 2 ^ 8 + x)) ∧
    (∀ m, g.lowest = some m → r 0x08 = vget g.regs.dic m 0) ∧ (g.lowest = none → r 0x08 = 0) ∧
    (∀ i < 8, r (0x20 + i) = (vget g.id.fs i 0).setWidth 64) ∧
    w 0x00 = v &&& 0xFF ∧ w 0x01 = v ∧ w 0x02 = v ∧ w 0x03 = v ∧ w 0x0D = v &&& 7 ∧ w 0x0E = v &&& 0x3FFFFFFFF ∧
    w 0x0F = v &&& 0xFFFFFFFF ∧
    (v.extractLsb' 0 3 ≠ (0 : BitVec 3) → v.extractLsb' 0 3 ≠ (7 : BitVec 3) → w 0x0B = v &&& 0xF) ∧
    (v.extractLsb' 0 3 = (0 : BitVec 3) ∨ v.extractLsb' 0 3 = (7 : BitVec 3) →
      w 0x0B = (v &&& 8) ||| (g.regs.fcr.setWidth 64 &&& 7)))

/-- SEGLD puts the segment image at an aligned address into the register that X names, where it is legal; TLBI posts its
invalidation for the targets of the partition, one of an empty range none; TLBSYNC, once every invalidation of the group
is over, acquires and gives the targets that were lost (02 R36, R37, 26 R417 to R419, 24 R385, R386). Where the spec is
open this states the choices of the model: log 39. -/
def Obligations.SegmentAndTlbResults : Prop :=
  ∀ (s t : State) (k : GKey) (g : Group) (f : Fields) (p : Part) (image : Rec),
    let a := g.ssrc f true f.a
    let b := g.ssrc f true f.b
    let c := g.ssrc f true f.c
    let u (i : Instr) : State := entered s k g i
    let at_ := (a.val + offsetOf false f).toNat
    let seg := segOf image
    let n := f.x.toNat % 4
    let posts (asid : Option (BitVec 16)) (lo hi : Nat) (v : State) : State :=
      { v with tlbis := v.tlbis ++
        [{ g := some k, part := g.id.part, asid := asid, lo := lo, hi := hi, targets := v.tlbiTargets p asid }] }
    let asid : BitVec 16 := a.val.setWidth 16
    let of_ (i : Instr) : Prop :=
      Free s k g i ∧ a.tag = none ∧ s.part? g.id.part.toNat = some p ∧ p.hasAsid (a.val.toNat % 2 ^ 16) = true
    let mine := s.tlbis.filter fun x => x.g = some k
    let lost := mine.foldl (fun m x => x.lost.foldl (fun m y => NSet.add m y.1) m) ([] : NSet)
    (Free s k g (.segld f) → a.tag = none → at_ % 16 = 0 → M.readRec k at_ 16 (u (.segld f)) = .ok (image, t) →
      segLegal n seg g.id.spd = true →
      exec (.segld f) s =
        .next (finished (t.onGroup k fun x => { x with segs := x.segs.put n seg }) k (.segld f))) ∧
    (of_ (.tlbiRange f) → b.tag = none → c.tag = none → c.val ≠ 0 →
      exec (.tlbiRange f) s = effect s k g (.tlbiRange f)
        (posts (some asid) (b.val.toNat / 4096 * 4096) ((b.val.toNat + c.val.toNat + 4095) / 4096 * 4096))) ∧
    (of_ (.tlbiRange f) → b.tag = none → c.tag = none → c.val = 0 →
      exec (.tlbiRange f) s = effect s k g (.tlbiRange f) id) ∧
    (of_ (.tlbiAsid f) → exec (.tlbiAsid f) s = effect s k g (.tlbiAsid f) (posts (some asid) 0 (2 ^ 64))) ∧
    (Free s k g (.tlbiAll f) → s.part? g.id.part.toNat = some p →
      exec (.tlbiAll f) s = effect s k g (.tlbiAll f) (posts none 0 (2 ^ 64))) ∧
    (Free s k g (.tlbsync f) → mine.all Tlbi.over = true →
      exec (.tlbsync f) s =
        let v : State := { u (.tlbsync f) with tlbis := s.tlbis.filter fun x => x.g != some k }
        thenRegs v k (.tlbsync f) fun y =>
          (y.acquire ((u (.tlbsync f)).partLt g.id.part)).sdst f.d
            { val := BitVec.ofNat 64 (lost.map fun x => 2 ^ x.1).sum }) ∧
    (Free s k g (.tlbsync f) → mine.all Tlbi.over = false →
      exec (.tlbsync f) s = effect s k g (.tlbsync f) fun v => v.suspend k .tlbsync f none true)

/-- ADHV reads and clears the dirty bits of a run of frames of its partition and writes them to its scratchpad; CTXS
exchanges the contexts once the resident one has halted, and acquires what earlier exchanges of its partition released,
or waits; TRM shows the tags of its operand or the deferral entries in use; PWAIT moves the read index, and gives the
write index once a record is there (26 R414, R415, R420 to R423). Where the spec is open this states the choices of the
model: log 40 and 41. -/
def Obligations.SupervisorServiceResults : Prop :=
  ∀ (s : State) (k : GKey) (g : Group) (f : Fields) (x : Inst) (p q : Part) (limit : Option Nat),
    let a := g.ssrc f true f.a
    let b := g.ssrc f true f.b
    let c := g.ssrc f true f.c
    let u (i : Instr) : State := entered s k g i
    let part := g.id.part.toNat
    let n := c.val.toNat
    let off := a.val + offsetOf false f
    let len := 8 * ((n + 63) / 64)
    let v := (u (.ctxs f)).releaseDrain k g.id.inst 2
    let w := v.startExchange part k
    let read (y : State) : State := if f.a = .zero then y else y.onPart part fun p =>
      { p with tqr := BitVec.ofNat 64 (max p.tqr.toNat (min a.val.toNat p.tqw.toNat)) }
    let pw := read (u (.pwait f))
    (Free s k g (.adhv f) → a.tag = none → b.tag = none → c.tag = none → s.inst? g.id.inst = some x → n = 0 →
      exec (.adhv f) s = effect s k g (.adhv f) id) ∧
    (Free s k g (.adhv f) → a.tag = none → b.tag = none → c.tag = none → s.inst? g.id.inst = some x →
      0 < n → n ≤ 65536 → b.val.toNat % 4096 = 0 → s.part? part = some p →
      (∀ j < n, s.isLocal (b.val.toNat + 4096 * j) = true ∧ p.owns (b.val.toNat + 4096 * j) 4096 = true) →
      off.toNat + len ≤ g.segs.l.limit.toNat → off.toNat % 8 = 0 →
      exec (.adhv f) s = effect s k g (.adhv f) fun y =>
        let r := y.harvestFrom (b.val.toNat / 4096) n
        r.2.onPad g.id.inst (g.pos x) fun d =>
          d.put (bytesAt (g.segs.l.base + off).toNat (leBytes len (packBits 1 (r.1.map Bool.toNat))))) ∧
    (Free s k g (.ctxs f) → v.part? part = some p → p.exchanging = none → w.halted part = true →
      (w.exchange part).part? part = some q →
      let z := (w.exchange part).onGroup k fun y => { y with regs := y.regs.acquire q.ctxLt }
      exec (.ctxs f) s = thenRegs (z.onPart part fun p => { p with ctxLt := max p.ctxLt (z.ltOf (.group k)) }) k (.ctxs f)
        fun y => y.sdst f.d { val := if q.ctx then 1 else 0 }) ∧
    (Free s k g (.ctxs f) → v.part? part = some p → p.exchanging = none → w.halted part = false →
      exec (.ctxs f) s = .next (finished (w.suspend k .ctxs f none true) k (.ctxs f))) ∧
    (Ready s k g (.trmPredicate f) →
      exec (.trmPredicate f) s = predicateResult s k g (.trmPredicate f) f.d (fun e => g.inMask (g.slotOf e))
        fun e => ((g.vsrc f (.i f.t) f.a e).tag.isSome, none)) ∧
    (Ready s k g (.trmScalar f) →
      exec (.trmScalar f) s = scalarResult s k g (.trmScalar f) f.d (BitVec.ofNat 64
        ((List.range 16).map fun i => if g.tagUsed (BitVec.ofNat 4 i) then 2 ^ i else 0).sum) []) ∧
    (Free s k g (.pwait f) → a.tag = none → timeoutIs g f f.c limit → pw.part? part = some q →
      q.tqr.toNat < q.tqw.toNat →
      exec (.pwait f) s = thenRegs pw k (.pwait f) fun y =>
        ((y.acquire (pw.recordsLt q)).sdst f.d { val := q.tqw }).pfill (ptOf f) false) ∧
    (Free s k g (.pwait f) → a.tag = none → timeoutIs g f f.c limit → pw.part? part = some q →
      q.tqw.toNat ≤ q.tqr.toNat → limit ≠ some 0 →
      exec (.pwait f) s = .next (finished (pw.suspend k .pwait f limit true) k (.pwait f)))

/-! ### Arbitration, time and waits (20 R343, 08 R145, R149, 10 R193, 28 R436) -/

/-- A front-end cycle gives its slots, two in the first of a clock and one in the second, to groups of its core that are
ready for them; a group's logical time rises by one for every 16 clocks of residence; a record that waits is written
when there is room; what is held takes effect at a switch point; a renewal that brings the same write timestamp lets the
speculation stand, another makes the group replay from its load (20 R343, 08 R145, R149, 26 R414, 03 R63). Where the
spec is open this states the choices of the model: log 1, 19 and 55. -/
def Obligations.ArbitrationAndTime : Prop :=
  ∀ (s : State) (k : GKey) (g : Group) (x : Spec) (core : CoreId) (part : BitVec 4) (p : Part) (h : HeldRec)
    (rest : List HeldRec) (second : Bool),
    let c := coreNo core.x.toNat core.y.toNat
    let room := p.tqw.toNat - p.tqr.toNat < p.tqSize
    let slot := p.tqBase + 64 * (p.tqw.toNat % p.tqSize)
    let seen := (s.mergeLine (.group k) x.line).touch (.group k) x.line
    let granted (vec count : Bool) : Prop :=
      let t := s.giveSlot c vec count
      let wants (y : GKey × Group) : Prop := y ∈ s.allGroups ∧ keyCore y.1 = c ∧ s.readyFor y.2 = some vec
      t.mem = s.mem ∧ ((∀ y, ¬wants y) → t.grant = s.grant) ∧
        ((∃ y, wants y) → ∃ y, wants y ∧ t.grant = s.grant ++ [y.1])
    let same := (s.lineAt x.line).wts = x.wts ∧ (s.lineAt x.line).pot.isNone = true
    let due := g.pending = true ∧ (g.stopped = true ∨ s.atSwitchPoint g = true) ∧ g.spec = none
    exec (.issueArbitration core false) s = .next ((s.giveSlot c true true).giveSlot c false true) ∧
    exec (.issueArbitration core true) s = .next (s.giveSlot c false false) ∧
    (∀ vec count, granted vec count) ∧
    (∃ t new, exec (.issueArbitration core second) s = .next t ∧ t.grant = s.grant ++ new ∧
      new.length ≤ (if second then 1 else 2) ∧ t.mem = s.mem ∧ (∀ j ∈ new, keyCore j = c) ∧
      ∀ j, keyCore j ≠ c → t.group? j = s.group? j) ∧
    (s.group? k = some g → g.run ≠ .ended → g.ticked + 16 ≤ s.cyc.toNat →
      exec (.ltTick k) s = .next (s.setGroup k
        { g with regs := { g.regs with lt := g.regs.lt + 1 }, ticked := g.ticked + 16 })) ∧
    (s.group? k = some g → s.cyc.toNat < g.ticked + 16 → exec (.ltTick k) s = .next (s.setGroup k g)) ∧
    (s.part? part.toNat = some p → p.recs = h :: rest → room → ∃ t, exec (.trapRecordWrite part) s = .next t ∧
      t.part? part.toNat = some { p with recs := rest, tqw := p.tqw + 1 } ∧
      t.mem = (s.writeSectors .ext (bytesAt slot h.r.bytes) false).mem) ∧
    (s.part? part.toNat = some p → p.recs = [] ∨ ¬room → exec (.trapRecordWrite part) s = .next s) ∧
    (s.group? k = some g → due →
      exec (.switchPointEvent k) s = .next ((s.switchEvent k).completeExchange g.id.part.toNat)) ∧
    (s.group? k = some g → ¬due →
      exec (.switchPointEvent k) s = .next (s.completeExchange g.id.part.toNat)) ∧
    (s.group? k = some g → g.spec = some x → same →
      exec (.leaseRenewalReturn k) s = .next ((seen.onGroup k fun y => { y with spec := none }).stepped k)) ∧
    (s.group? k = some g → g.spec = some x → ¬same →
      exec (.leaseRenewalReturn k) s = .next (seen.onGroup k fun y => { y with spec := none, regs := x.saved }))

/-- The slot goes to a candidate; where none has waited for 56 clocks, to one of the highest priority; where one has, to one
that has waited longest; and where there are candidates, some group is given it (20 R343). Where the spec is open this
states the choices of the model: log 55. -/
def Obligations.ArbitrationAward : Prop :=
  ∀ (vec : Bool) (rr : Nat) (l : List (GKey × Group)),
    let count (g : Group) : Nat := if vec then g.readyVector else g.readyScalar
    (l ≠ [] → ∃ k, award vec rr l = some k) ∧
    ∀ k, award vec rr l = some k → ∃ g, (k, g) ∈ l ∧
      ((∀ y ∈ l, count y.2 < 56) → ∀ y ∈ l, y.2.prio.toNat ≤ g.prio.toNat) ∧
      ((∃ y ∈ l, 56 ≤ count y.2) → ∀ y ∈ l, count y.2 ≤ count g)

/-- What wakes a wait tests its condition again, by its kind; the sleep of a group ends on an event or at its expiry; a
timeout ends a wait with its predicate ones; the watchdog traps a wait without a timeout at its instruction (10 R193, 09
R175, 22 R363, 28 R436). How a wait goes on: where its condition holds its effect stands and the group goes on; where it
does not, nothing has happened; a fault of it is a trap precisely at the waiting instruction (10 R193, 09 R175, 28
R436). Where the spec is open this states the choices of the model: log 15, 18, 40, 42 and 44. -/
def Obligations.WakeResults : Prop :=
  (∀ (s : State) (k : GKey) (g : Group) (w : Wait) (p : Part),
    let wakes (i : Instr) (body : M Bool) : Prop := exec i s = .next (s.finishWait k body)
    let t := s.cyc.toNat - w.start.toNat
    s.group? k = some g → g.waitOf = some w →
    (∀ f, w.op = .fullEmpty (.ldfKeep f) → wakes (.fullEmptyWake k) (tryLdf f false k)) ∧
    (∀ f, w.op = .fullEmpty (.ldfTake f) → wakes (.fullEmptyWake k) (tryLdf f true k)) ∧
    (∀ f, w.op = .fullEmpty (.ste f) → wakes (.fullEmptyWake k) (trySte f k)) ∧
    (w.op = .timeline → wakes (.timelineWaitWake k) (tryTlwait w.f k)) ∧
    (w.op = .chunk → wakes (.chunkWaitWake k) (tryChkw w.f k)) ∧
    (w.op = .plane → wakes (.planeWaitWake k) (tryCwaitp w.f k)) ∧
    (∀ n x h, w.op = .barrier n x h → wakes (.barrierWaitWake k) (tryBar k w.f n x h)) ∧
    (w.op = .join → wakes (.joinWake k) (tryJoin w.f k)) ∧
    (w.op = .lnch → wakes (.lnchRoomWake k) (tryLnch w.f k)) ∧
    (w.op = .ordc → wakes (.ordcWake k) (tryOrdc w.f k)) ∧
    (w.op = .pwait → wakes (.pwaitWake k) (tryPwait w.f k)) ∧
    (w.op = .sleep → wakes (.sleepWake k) (pure w.hit)) ∧
    (w.op = .sleep → wakes (.sleepExpiry k) (pure (w.over s.cyc))) ∧
    (∀ m, w.over s.cyc = true → lateEnd k w = some m →
      wakes (.waitTimeout k) (do
        m
        pure true)) ∧
    (w.over s.cyc = false → exec (.waitTimeout k) s = .next s) ∧
    (s.part? g.id.part.toNat = some p → p.wdog ≠ 0 → w.limit = none → w.op.watched = true →
      wdogUnits p.wdog < s.time - w.since →
      exec (.watchdog k) s = .next ((s.setGroup k (g.armFor w)).trapWaiting k { cause := cWatchdog, xinfo := t }))) ∧
  (∀ (s t : State) (k : GKey) (g : Group) (w : Wait) (p : Part) (pos o : Nat) (l : List (Nat × Elem)) (v sp : Nat)
    (q : Inst),
    let r : Group := { g with run := .ready }
    let u := s.setGroup k r
    let f := w.f
    let a := r.ssrc f true f.a
    let b := r.ssrc f true f.b
    let goes (i : Instr) (y : State) (h : Regs → Regs) : Prop :=
      exec i s = .next ((y.onGroup k fun z => { z with regs := h z.regs }).stepped k)
    let stays (i : Instr) : Prop := exec i s = .next s
    let acq (n : Nat) (y : Regs) : Regs := y.acquire n
    let ps : List (Nat × Place) := [(0, .pad pos o)]
    let pad := s.padAt g.id.inst pos
    let place (n : Nat) (writes : Bool) : Prop :=
      a.tag = none ∧ M.places r f.m n [r.scalarEl (a.val + offsetOf false f)] writes u = .ok (ps, u)
    let x := (l.head?.map (·.2)).getD {}
    let tl := vget g.tl (tlOf f) {}
    let word := BitVec.ofNat 64 (ofLeBytes ((List.range 8).map fun i => pad.byteAt (o + i)))
    let ldf (take : Bool) : Prop :=
      (NSet.has pad.full (o / 4) = true → M.load k f.m 4 (r.at_ f) ps u = .ok (l, t) →
        goes (.fullEmptyWake k)
          (t.onPad g.id.inst pos fun y => if take then { y with full := NSet.rem y.full (o / 4) } else y) fun y =>
          Regs.pfill (Regs.sdst (acq (Store.getD pad.lts (o / 4) 0) y) f.d { val := extend f.t x.v, tag := x.tag })
            (ptOf f) false) ∧
      (NSet.has pad.full (o / 4) = false → stays (.fullEmptyWake k))
    let va := a.val + offsetOf false f
    let met : Bool := decide (min b.val.toNat (v / 2 ^ 24 % 2 ^ 8) ≤ v % 2 ^ 16)
    let stop := v / 2 ^ 16 % 2 ^ 8
    let keep (y : Regs) : Regs := (y.keepS f.d).pfill (ptOf f) true
    let kids := s.children.filter fun c => g.kids.contains c.id
    let bad := firstBad kids
    let joined (y : Regs) : Regs :=
      let z := Regs.sdst (acq (kids.foldl (fun m c => max m c.lt.toNat) 0) y) f.d { val := joinWord kids }
      let z1 := match f.d with
        | .s d => z.sset (d.toNat + 1) { val := match bad with | some c => c.doneAt | none => 0 }
        | _ => z
      (z1.pfill (predNo f.b) bad.isSome).pfill (ptOf f) false
    s.group? k = some g → g.waitOf = some w →
    (w.op = .fullEmpty (.ldfKeep f) → place 4 false → ldf false) ∧
    (w.op = .fullEmpty (.ldfTake f) → place 4 false → ldf true) ∧
    (w.op = .fullEmpty (.ste f) → place 4 true → b.tag = none →
      (NSet.has pad.full (o / 4) = false →
        let bytes := bytesAt o (leBytes 4 b.val.toNat)
        goes (.fullEmptyWake k) (((u.releaseDrain k g.id.inst 1).syncPad (.group k) g.id.inst pos o 4).onPad g.id.inst pos
          fun y => (y.put bytes).fillWords bytes) fun y => y.pfill (ptOf f) false) ∧
      (NSet.has pad.full (o / 4) = true → stays (.fullEmptyWake k))) ∧
    (w.op = .timeline → a.tag = none →
      (a.val.toNat ≤ tl.done.toNat → goes (.timelineWaitWake k) u fun y =>
        ((acq (tl.ltOf a.val.toNat) y).pall f.d tl.err).pfill (predNo f.c) false) ∧
      (tl.done.toNat < a.val.toNat → stays (.timelineWaitWake k))) ∧
    (w.op = .chunk → place 8 false → b.tag = none → NSet.has pad.poison (o / 32) = false →
      (word &&& b.val = b.val → goes (.chunkWaitWake k) (u.syncPad (.group k) g.id.inst pos o 8) fun y =>
        (acq (if b.val = 0 then 0 else Store.getD pad.lts (o / 4) 0) y).pfill (ptOf f) false) ∧
      (word &&& b.val ≠ b.val → stays (.chunkWaitWake k))) ∧
    (w.op = .plane → a.tag = none → b.tag = none → va.toNat % 64 = 0 →
      M.xlatPage r.ctx .read [(0, .va va.toNat)] u = .ok ([(0, .pa sp)], t) →
      (t.atomicHome (.group k) sp 8 (fun _ => none) false).1 = some v →
      (met = true ∨ stop = stCancelled ∨ stop = stFailed →
        goes (.planeWaitWake k) (t.atomicHome (.group k) sp 8 (fun _ => none) false).2 fun y =>
          (y.pall f.d met).pfill (ptOf f) false) ∧
      (¬(met = true ∨ stop = stCancelled ∨ stop = stFailed) → stays (.planeWaitWake k))) ∧
    (∀ n z half, w.op = .barrier n z half → s.inst? g.id.inst = some q → (q.bar n).broken = false →
      let h := q.half (g.pos q)
      let ends (late : Bool) (y : Regs) : Regs :=
        Regs.pfill (if f.fn = 1 then y.sdst f.d { val := z.setWidth 64 } else y) (predNo f.b) late
      (Barrier.reached (if half then (q.bar n).localOf h else (q.bar n).phase) z = true →
        goes (.barrierWaitWake k) u fun y => ends false (acq ((q.bar n).histOf (if half then h else 2) z) y)) ∧
      (Barrier.reached (if half then (q.bar n).localOf h else (q.bar n).phase) z = false → stays (.barrierWaitWake k)) ∧
      (w.over s.cyc = true → goes (.waitTimeout k) u (ends true))) ∧
    (w.op = .join →
      (kids.all (fun c => c.outcome.isSome) = true → exec (.joinWake k) s =
        .next ((({ u with children := s.children.filter fun c => !g.kids.contains c.id } : State).onGroup k fun y =>
          { y with kids := [], regs := joined y.regs }).stepped k)) ∧
      (kids.all (fun c => c.outcome.isSome) = false → stays (.joinWake k))) ∧
    (∀ la od, w.op = .ordc → g.ord = some od → s.ordOf (.group k) = some (la, od) →
      (s.isOldest la od = true → goes (.ordcWake k) (u.flushVersions (.group k) la od.ts) fun y =>
        (y.sdst f.d { val := BitVec.ofNat 64 od.ts }).pfill (ptOf f) false) ∧
      (s.isOldest la od = false → stays (.ordcWake k))) ∧
    (w.op = .pwait → s.part? g.id.part.toNat = some p →
      (p.tqr.toNat < p.tqw.toNat → goes (.pwaitWake k) u fun y =>
        (Regs.sdst (acq (u.recordsLt p) y) f.d { val := p.tqw }).pfill (ptOf f) false) ∧
      (p.tqw.toNat ≤ p.tqr.toNat → stays (.pwaitWake k))) ∧
    (w.op = .sleep →
      exec (.sleepWake k) s = .next (if w.hit = true then u.stepped k else s) ∧
      exec (.sleepExpiry k) s = .next (if w.over s.cyc = true then u.stepped k else s)) ∧
    (w.over s.cyc = true →
      (w.op = .timeline → goes (.waitTimeout k) u fun y => (y.pall f.d false).pfill (predNo f.c) true) ∧
      (w.op = .chunk → goes (.waitTimeout k) u fun y => y.pfill (ptOf f) true) ∧
      (w.op = .fullEmpty (.ste f) → goes (.waitTimeout k) u fun y => y.pfill (ptOf f) true) ∧
      (w.op = .fullEmpty (.ldfKeep f) ∨ w.op = .fullEmpty (.ldfTake f) → goes (.waitTimeout k) u keep) ∧
      (w.op = .plane → goes (.waitTimeout k) u fun y => (y.pall f.d false).pfill (ptOf f) true) ∧
      (w.op = .join ∨ w.op = .lnch ∨ w.op = .ordc ∨ w.op = .pwait → goes (.waitTimeout k) u keep))) ∧
  (∀ (s t : State) (k : GKey) (body : M Bool) (x : Trap) (kp : Option State) (c a : Nat),
    let u := s.onGroup k fun g => { g with run := .ready }
    (body u = .ok (true, t) → s.finishWait k body = t.stepped k) ∧
    (body u = .ok (false, t) → s.finishWait k body = s) ∧
    (body u = .error .stall → s.finishWait k body = s) ∧
    (body u = .error (.trap x kp) → s.finishWait k body = s.trapWaiting k x) ∧
    (body u = .error (.violation c a kp) → s.finishWait k body = (s.onGroup k Group.rewind).freezeGroup k c a))

/-- A signal of a running command is counted at its barrier, or waits in the queue of a partition whose context is swapped
out, or is dropped as stale, its command then failed; its command finishes on its timeline, and nothing else of the
group's registers or of memory changes (22 R371, 09 R172). Where the spec is open this states the choices of the model:
log 36 and 63. -/
def Obligations.SignalDelivery : Prop :=
  ∀ (s : State) (c : CKey) (d : Cmd) (x : Signal) (n : Nat) (p : Part) (k : GKey) (tl : BitVec 4) (m : Word64) (g : Group)
    (i : Inst),
    let ends (e : Instr) (failed : Bool) (more : State → Prop) : Prop := ∃ t g1, exec e s = .next t ∧ more t ∧
      t.cmds = s.cmds.filter (fun y => y.key != c) ∧ t.mem = s.mem ∧ t.group? k = some g1 ∧ g1.regs = g.regs ∧
      g1.tl = g.tl.setIfInBounds tl.toNat ((vget g.tl tl.toNat {}).finish m.toNat d.lt.toNat failed)
    let of := c = .group k tl m ∧ s.group? k = some g ∧ g.run ≠ .ended
    let here := s.isLocal (cidDev x.cid * 2 ^ 47) = true
    let lost := s.lostAt (cidDev x.cid * 2 ^ 47) = true
    s.cmd? c = some d → d.kind = .signal x → d.state = .running →
    (here → s.sigSpot x = .running n → exec (.signalArrival c) s = .next ((s.signalIn n x).finishCmd c false)) ∧
    (here → s.sigSpot x = .away → s.part? (cidPart x.cid) = some p → p.inbound.length < 256 →
      exec (.signalQueued c) s = .next
        ((s.onPart (cidPart x.cid) fun q => { q with inbound := q.inbound ++ [x] }).finishCmd c false)) ∧
    (here → s.sigSpot x = .stale →
      exec (.signalStaleDrop c) s = .next
        ((s.onPart (cidPart x.cid) fun q => { q with stale := q.stale + 1 }).finishCmd c true)) ∧
    (of → here → s.sigSpot x = .running n → s.inst? n = some i → ends (.signalArrival c) false fun t =>
      t.insts = Store.put s.insts n (i.setBar x.bar.toNat ((i.bar x.bar.toNat).signal i x.lt.toNat))) ∧
    (of → here → s.sigSpot x = .away → s.part? (cidPart x.cid) = some p → p.inbound.length < 256 →
      ends (.signalQueued c) false fun t =>
        t.insts = s.insts ∧ t.part? (cidPart x.cid) = some { p with inbound := p.inbound ++ [x] }) ∧
    (of → here → s.sigSpot x = .stale → s.part? (cidPart x.cid) = some p → ends (.signalStaleDrop c) true fun t =>
      t.insts = s.insts ∧ t.part? (cidPart x.cid) = some { p with stale := p.stale + 1 }) ∧
    (¬here → ¬lost → exec (.signalArrival c) s = .next (s.finishCmd c false)) ∧
    (¬here → ¬lost → exec (.signalQueued c) s = .next (s.finishCmd c false)) ∧
    (¬here → exec (.signalStaleDrop c) s = .next (s.finishCmd c true))

/-! ### Engine steps (09 R172, R173, 10 R206, 11 R218, R225, 12 R229, R235, 18 R302, R312 to R314, R323) -/

/-- A unit, a row block or a run of a command takes effect and is noted: a copy or a fill writes its words and then its bit,
a row operation its block, a run its columns, or nothing where it accumulates no terms, and a poisoned or malformed
entry poisons the row of its bag (11 R226); one that meets a violation freezes its command, one that meets a fault stops
it at its first unfinished unit; a command finishes as failed or not once it may; a carrier whose units are done
releases its follow-on (09 R173, 10 R206, 11 R218, R225, 18 R323, 25 R398). The participants of a collective match when
each of them stands, and agree or fail; a plane of a progressive tile arrives; a cancellation reaches a destination that
has a participant which cancelled (12 R229, R235). Where the spec is open this states the choices of the model: log 6,
29, 30, 32, 34 and 61. -/
def Obligations.EngineSteps : Prop :=
  (∀ (s t : State) (c : CKey) (d : Cmd) (u at_ a cause : Nat) (k : GKey) (tl : BitVec 4) (n : Word64),
    let tried := if d.carries then s.followTry d u else s.unitTry d u
    s.cmd? c = some d →
    (s.cmdUnit d u = .ok t → exec (.engineUnit c u) s = .next t) ∧
    (s.cmdUnit d u = .error (.violation cause a) → exec (.engineUnit c u) s = .next (s.freezeCmd d cause a)) ∧
    (s.rowStep d u = .ok t → exec (.rowBlockWrite c u) s = .next t) ∧
    (s.iredStep d u = .ok t → exec (.iredRun c u) s = .next t) ∧
    (tried = (.error (.fault a cause), at_) →
      exec (.engineFault c u) s = .next ((s.rpNote d).stopCmd d at_ a cause true)) ∧
    (tried = (.error (.dead a), at_) → exec (.engineFault c u) s = .next (s.stopCmd d at_ a cProt false)) ∧
    (c = .group k tl n → s.mayFinish d = some true → s.failWaits d = false →
      exec (.engineCommandFinish c) s = .next (s.failCmd d)) ∧
    (c = .group k tl n → s.mayFinish d = some true → s.failWaits d = true → exec (.engineCommandFinish c) s = .next s) ∧
    (c = .group k tl n → s.mayFinish d = some false → exec (.engineCommandFinish c) s = .next (s.finishCmd c false)) ∧
    (c = .group k tl n → s.mayFinish d = none → exec (.engineCommandFinish c) s = .next s) ∧
    (c = .group k tl n → d.carries = true → d.total ≤ d.units.length → d.state = .running →
      exec (.followOnSubmit c) s = .next (s.onGroup k fun g => g.release tl n))) ∧
  (∀ (s s1 s2 : State) (c : CKey) (d : Cmd) (u a cause pd pb pc : Nat) (x : Copy) (r : RowCmd) (y : IredCmd)
    (ds ss : List (Nat × Spot)) (es : List (Nat × Rec × Bool)) (cols : List (Nat × Nat)) (drew : Bool) (k : GKey)
    (tl : BitVec 4) (n : Word64) (g : Group),
    let open_ := d.works = true ∧ u < d.total ∧ NSet.has d.units u = false
    let words := chunkWords x.len u
    let copied (v : State) : State := match x.bitmap with
      | some bm => v.setChunkBit d bm u
      | none => v
    let at_ (w : Word64) : Nat := (w + BitVec.ofNat 64 (1024 * u)).toNat
    let filled (b : Byte) : State := (List.range 32).foldl (fun v j =>
      v.homeWrite d ((List.range 32).map fun o => (pd + 32 * j + o, b)) false) (s.hbmWalked d (at_ r.d))
    let wr := s.hbmAt d .write (at_ r.d)
    let rd (w : Word64) := s.hbmAt d .read (at_ w)
    let moves : Prop := ∃ t, s.rowUnit d r u = .ok t ∧ exec (.rowBlockWrite c u) s = .next (t.unitDone c u)
    let bad := es.any fun z => Ired.bad y.desc z.2.1
    let terms := if bad then [] else es.flatMap fun z => (List.range (Ired.count z.2.1)).map fun j => (z.2.1, j)
    let quiet := Ired.acc y.desc = true ∧ bad = false ∧ terms = [] ∧ ∀ z ∈ es, z.2.2 = false
    let bag := match es with
      | z :: _ => Ired.bag z.2.1
      | [] => 0
    let poison := bad || drew || es.any fun z => z.2.2
    let word (col v : Nat) : Nat := if poison then (Config.poisonWord s2.nonce col).toNat else v
    let bytes := cols.zipIdx.flatMap fun z => numBytes z.1.1 (Ired.size y.desc) (word z.2 z.1.2)
    let done (z : Cmd) : Cmd :=
      { z with units := es.foldl (fun v z => NSet.add v z.1) z.units, failed := z.failed || bad }
    s.cmd? c = some d →
    (d.kind = .copy x → open_ → s.engSpots d .write x.dsp x.dst words = .ok ds →
      (∀ w, x.fill = some w → exec (.engineUnit c u) s = .next ((copied ((s.engWalks d x.dsp x.dst words).engWrites d engCopy
        (ds.flatMap fun z => spotAt z.2 ((leBytes 4 w.toNat).take (x.len - z.1))) fun _ => false)).unitDone c u)) ∧
      (x.fill = none → s.engSpots d .read x.ssp x.src words = .ok ss →
        ∃ t, s.copyUnit d x u = .ok t ∧ exec (.engineUnit c u) s = .next (t.unitDone c u))) ∧
    (d.kind = .copy x → open_ → s.engSpots d .write x.dsp x.dst words = .error (.fault a cause) →
      exec (.engineFault c u) s = .next ((s.rpNote d).stopCmd d d.nextUnit a cause true)) ∧
    (d.kind = .row r → open_ → wr = .ok pd →
      (r.fn = 1 → exec (.rowBlockWrite c u) s = .next ((filled 0).unitDone c u)) ∧
      (r.fn = 2 → exec (.rowBlockWrite c u) s = .next ((filled 0xFF).unitDone c u)) ∧
      (r.fn = 0 ∨ r.fn = 6 → rd r.b = .ok pb → moves) ∧
      (r.fn = 3 ∨ r.fn = 4 ∨ r.fn = 5 → rd r.b = .ok pb → rd r.c = .ok pc → moves)) ∧
    (d.kind = .row r → open_ → wr = .error (.fault a cause) →
      exec (.engineFault c u) s = .next ((s.rpNote d).stopCmd d d.nextUnit a cause true)) ∧
    (d.kind = .ired y → d.state = .running → s.iredStarts d y u = true →
      s.iredEntries d y none y.n u = .ok (es, s1) → es ≠ [] →
      (quiet → exec (.iredRun c u) s = .next (s1.onCmd c done)) ∧
      (¬quiet → s1.iredCols d y.desc bag terms (List.range (Ired.rlen y.desc)) = .ok ((cols, drew), s2) →
        exec (.iredRun c u) s = .next (((bySector bytes).foldl (fun v l => v.homeWrite d l poison)
          (if poison then { s2 with nonce := s2.nonce + 1 } else s2)).onCmd c done))) ∧
    (c = .group k tl n → s.group? k = some g → g.run ≠ .ended → d.state = .running → d.total ≤ d.units.length →
      (d.kind = .copy x ∨ d.kind = .row r ∨ d.kind = .ired y) →
      ∃ t g1, exec (.engineCommandFinish c) s = .next t ∧ t.cmds = s.cmds.filter (fun z => z.key != c) ∧ t.mem = s.mem ∧
        t.group? k = some g1 ∧ g1.regs = g.regs ∧
        g1.tl = g.tl.setIfInBounds tl.toNat ((vget g.tl tl.toNat {}).finish n.toNat d.lt.toNat d.failed))) ∧
  (∀ (s t s1 s2 : State) (c : CKey) (d : Cmd) (x : CollCmd) (tile who : Nat) (peers : List PeerPart)
    (codes : List (List Nat × Bool)) (l : List SpotByte) (bad : List (Option Nat × Nat)) (sp : Spot),
    let F := Coll.fmt x.desc
    let size := Coll.size x.desc
    let kmax := Coll.kmax x.desc
    let feeds := x.feeds (s.participants d x) tile
    let top := tileExp F (codes.flatMap (·.1))
    let plane := Store.getD x.planes tile 0
    let val (j : Nat) (l : List Nat × Bool) : Nat := planeValue F top kmax j l.1
    let changed := codes.zipIdx.filter fun y => plane = 0 || val (plane - 1) y.1 != val plane y.1
    let get (v : State) (i : Nat) : Except EngStop ((List Byte × Bool) × State) := match codes[i - 1024 * tile]? with
      | some y => .ok ((leBytes size (val plane y), y.2), v)
      | none => .error .wait
    let last : Bool := decide (plane = kmax)
    let here := s.collPeers d x
    let total := ensemble ((here.map fun p => .here p.1 p.2) ++ peers.map .away)
    let all := (here.map fun p => Comm.self p.2.comm) ++ peers.map (·.self)
    let ok := here.all (fun p => p.2.shared = x.shared && Comm.npart p.2.comm = Comm.npart x.comm) &&
      peers.all (·.agree) && ensembleOk x.fn total
    let lt := here.foldl (fun m p => max m p.1.lt0.toNat) 0
    let match_ (v : State) (p : Cmd × CollCmd) : State :=
      let y := { p.2 with matched := true, agree := ok, remote := peers }
      let units := if ok then (Coll.dstCount y.fn y.desc y.comm total + 1023) / 1024 else 0
      let v1 := v.onCmd p.1.key fun z =>
        { z with kind := .coll y, failed := z.failed || !ok, total := units, lt := maxLt z.lt lt }
      if ok then v1 else v1.failTiles p.1 y true
    let waits := ok = false ∧ ∃ p ∈ here, s.tilesMove p.1 p.2 = true
    s.cmd? c = some d → d.kind = .coll x →
    (x.matched = false → all.length = Comm.npart x.comm → (∀ i < Comm.npart x.comm, i ∈ all) → ¬waits →
      exec (.collMatch c peers) s = .next (here.foldl match_ s)) ∧
    (x.matched = false → waits → exec (.collMatch c peers) s = .next s) ∧
    (x.matched = true → exec (.collMatch c peers) s = .next s) ∧
    (x.prog = true → d.works = true → tile < d.total → NSet.has d.units tile = false → s.planeUnit d x tile = .ok t →
      exec (.collPlaneArrival c tile) s = .next t) ∧
    (x.prog = true → d.works = true → tile < d.total → NSet.has d.units tile = false → tile < x.opened →
      s.heldPeer d x = false → s.tileCodes d x feeds.1 feeds.2 (List.range 1024) = .ok (codes, s1) →
      s1.collEls d x get size (changed.map fun y => 1024 * tile + y.2) = .ok ((l, bad), s2) →
      s2.homedSpot d .write (x.statusVa tile) = .ok sp →
      exec (.collPlaneArrival c tile) s = .next
        (((s2.engWrites d engPlain l fun k => bad.contains k).statusWrite d x tile 0 (leBytes 8
          (statusLow plane (if last then stComplete else stRefining) kmax (wrap 16 (top.getD (-32768)))))).onCmd c fun y =>
            match y.kind with
            | .coll z =>
              { y with
                kind := .coll { z with planes := Store.put z.planes tile (plane + 1) }
                units := if last then NSet.add y.units tile else y.units }
            | _ => y)) ∧
    (x.prog = true → tile < x.tiles → tile < x.opened → d.failed = false →
      (x.awayHas s.devnum.toNat who = true ∨
        here.any (fun p => Comm.self p.2.comm = who && Store.get? p.2.cancelled tile = some who) = true) →
      exec (.cancelPropagation c tile who) s = .next (s.cancelTile d x tile who)))

/-- The matrix engine begins the entry that it serves next: MZERO, MRP and a peer drain whole, an MMA at the step that rp
names, a transfer at its first unit; a step does one k-step of one row, each element rounded once, and the command
finishes after its last; an entry that has waited 65,536 clocks rises by one class (18 R302, R304, R312, R314). Where
the spec is open this states the choices of the model: log 31. -/
def Obligations.MatrixSteps : Prop :=
  ∀ (s t v1 v2 : State) (k : GKey) (g g2 : Group) (e : MqEntry) (rest : List MqEntry) (d : Cmd) (m : MatCmd) (v : Word64)
    (tile : BitVec 3) (as bs : List MxVal),
    let ks := Mat.stepKs m.mrec e.step
    let cols := List.range (Shape.ext m.brec 0)
    let tl := Mat.tile m.mrec
    let row := Mat.row0 m.mrec + e.row
    let col (n : Nat) : Nat := Mat.col0 m.mrec + n
    let sum (n : Nat) : Exact := (mxDot (decodeFp f32 ((g2.tile tl).at_ row (col n))).exact as
      ((bs.drop (n * ks.length)).take ks.length)).1
    let put (x : Group) (n : Nat) : Group := x.setTile tl
      ((x.tile tl).put row (col n) (roundTo f32 .rne 0 (sum n)).1 ((x.tile tl).tagAt row (col n)))
    let s1 := s.serve k
    let next := s.mxNext (keyCore k) = some k
    let pos := mmaNext m e.step e.row
    let t1 := t.onGroup k fun g => g.onHead fun e => { e with step := pos.1, row := pos.2 }
    s.group? k = some g → g.mq = e :: rest →
    (∀ g1, next → e.begun = false → s1.group? k = some g1 →
      (e.op = .zero tile → exec (.matrixEntry k) s = .next ((s1.setGroup k (g1.setTile tile.toNat {})).entryDone k false)) ∧
      (e.op = .mrp v → exec (.matrixEntry k) s = .next ((s1.setGroup k
        { g1 with rp := if v = 0 then 0 else rpWord true false (rpStep v) (rpRow v) }).entryDone k false)) ∧
      (e.op = .peer tile v → exec (.matrixEntry k) s = .next (s1.drainPeer k g1 tile.toNat v)) ∧
      (e.op = .mma m ∨ e.op = .follow m → exec (.matrixEntry k) s = .next (s1.mmaBegin k g1 m)) ∧
      ((∃ x, e.op = .load x ∨ e.op = .store x ∨ e.op = .drain x) →
        exec (.matrixEntry k) s = .next (s1.setGroup k (g1.onHead fun e => { e with begun := true })))) ∧
    (next → e.begun = true → (e.op = .mma m ∨ e.op = .follow m) → s.headCmd k = some d → s1.mmaRow k d e m = .ok t →
      (mmaOver m pos.1 pos.2 = false → exec (.matrixStep k) s = .next t1) ∧
      (mmaOver m pos.1 pos.2 = true →
        exec (.matrixStep k) s = .next ((t1.onGroup k fun g => { g with rp := 0 }).entryDone k false))) ∧
    (next → e.begun = true → (e.op = .mma m ∨ e.op = .follow m) → s.headCmd k = some d →
      s1.mxOperands d.asMatrix m 0 (ks.map fun j => (j, e.row, e.row, j)) = .ok (as, v1) →
      v1.mxOperands d.asMatrix m 1 (cols.flatMap fun n => ks.map fun j => (n, j, n, j)) = .ok (bs, v2) →
      v2.group? k = some g2 → (∀ y ∈ as ++ bs, y.bad = none) → mmaOver m pos.1 pos.2 = false →
      exec (.matrixStep k) s = .next ((v2.setGroup k (cols.foldl put g2)).onGroup k fun g =>
        g.onHead fun e => { e with step := pos.1, row := pos.2 })) ∧
    (g.mqSince + 65536 * (g.mqAge + 1) ≤ s.cyc.toNat → g.mcls.toNat + g.mqAge < 7 →
      exec (.matrixQueueAging k) s = .next (s.setGroup k { g with mqAge := g.mqAge + 1 }))

/-! ### The memory system (07 R130 to R135, 08 R136 to R146, 24 R381 to R388) -/

/-- The directory steps grant a shared copy, ownership of words, a PotLuck slot, a scoped copy that an atomic asks for, or
take an eviction notice; the bytes of memory change in none of them but by the merge of a line in P and, at an eviction,
by the drain of the scoped copies that the cache holds of the line; a sweep rebases one line; the predictor places the
next atomic on a line of this device at its home (08 R136 to R143, R146, R150, 09 R162). The scheduler serves the
request with the earliest stamp of the slot's class, where one of it waits, else of the next lower class, else of the
next higher, and in the sixteenth slot the oldest; it counts a late one once for its instruction; no step of it leaves
more than 2,048 waiting where no more were (07 R126, R130, R131). Whatever step the machine takes, memory keeps its
canonical form, so that equal memories are equal data (a convention of the model's, log 2). Where the spec is open this
states the choices of the model: log 2, 43, 44 and 61. -/
def Obligations.MemorySteps : Prop :=
  (∀ (s v : State) (pa : Nat) (core : CoreId) (k : GKey) (g : Group) (mask : BitVec 128) (fn : BitVec 4) (t : BitVec 3)
    (a : AtomAsk) (l2 cohort : Bool),
    let c := coreNo core.x.toNat core.y.toNat
    let ln := lineOf pa
    let ok := s.askable pa = true
    let owner := if cohort then CowOwner.cohort g.id.inst else .group k
    let asks := s.group? k = some g ∧ g.mayIssue = true ∧ g.ord = none ∧ ln ∈ s.scopedLines k cohort
    let there (x : CCopy) : Bool := x.line = ln && s.copyIn c l2 x
    let merged (t : State) : Prop := t.mem = (s.mergeLine .ext ln).mem
    (ok → exec (.directoryLoadMiss pa core) s = .next (s.fillLine ln c true)) ∧
    (ok → exec (.directoryWriteOwnership pa core mask) s = .next (s.ownLine ln c mask)) ∧
    (ok → plkOk fn t = true → exec (.directoryPlk pa core fn t) s = .next (s.openPot ln c fn t)) ∧
    (asks → s.meets (.group k) pa = (false, v) →
      exec (.directoryScopedAtomic pa k cohort) s = .next (v.fillCopy k owner pa)) ∧
    (asks → s.meets (.group k) pa = (true, v) → exec (.directoryScopedAtomic pa k cohort) s = .next v) ∧
    exec (.evictionNotice pa core l2) s = .next (s.evictLine ln c l2) ∧
    exec (.timestampSweep ln) s = .next (s.sweepLine ln) ∧
    (ok → s.isLocal pa = true →
      exec (.homeAtomic s.devnum 0 pa a) s = .next (s.onLine ln fun l => { l with placed := true })) ∧
    ((s.lineAt ln).pot = none → s.mergeLine .ext ln = s) ∧
    merged (s.fillLine ln c true) ∧
    ((s.ownLine ln c mask).mem = s.mem ∨ merged (s.ownLine ln c mask)) ∧
    ((s.openPot ln c fn t).mem = s.mem ∨ merged (s.openPot ln c fn t)) ∧
    (s.isLocal pa = true → s.outbox = [] → (s.fillCopy k owner pa).mem = (s.mergeLine (.group k) ln).mem) ∧
    ((s.evictLine ln c l2).mem = s.mem ∨ (s.evictLine ln c l2).mem = (s.drainWhere there).mem) ∧
    ((∀ x ∈ s.ccopies, there x = false) → (s.evictLine ln c l2).mem = s.mem) ∧ (s.sweepLine ln).mem = s.mem) ∧
  (∀ (s : State) (n : Nat) (r : DramReq) (k : GKey) (g : Group),
    let d := Store.getD s.dram n {}
    let served : State := { s with dram := Store.put s.dram n (d.after r) }
    let later := r.stamp < s.cyc.toNat
    (d.pick = some r → (r.g = none ∨ ¬later) → exec (.dramSchedulerPick n) s = .next served) ∧
    (d.pick = some r → r.g = some k → s.group? k = some g → r.of g = true → later →
      ∃ t : State, exec (.dramSchedulerPick n) s = .next (t.onGroup k Group.miss) ∧ t.groups = s.groups ∧ t.mem = s.mem) ∧
    (d.pick = some r → (d.after r).slot = (d.slot + 1) % 16 ∧ (∀ y ∈ d.reqs, y ≠ r → y ∈ (d.after r).reqs) ∧
      (d.reqs.length ≤ 2048 → (d.after r).reqs.length ≤ 2048)) ∧
    (∀ c, slotClass d.slot = some c → d.pick = some r →
      r ∈ d.reqs ∧ (∀ y ∈ d.reqs, y.cls.toNat = r.cls.toNat → r.stamp ≤ y.stamp) ∧
        ((∃ y ∈ d.reqs, y.cls.toNat = c) → r.cls.toNat = c) ∧
        (∀ y ∈ d.reqs, y.cls.toNat ≤ c → y.cls.toNat ≤ r.cls.toNat ∧ r.cls.toNat ≤ c) ∧
        ((∀ y ∈ d.reqs, c < y.cls.toNat) → ∀ y ∈ d.reqs, r.cls.toNat ≤ y.cls.toNat)) ∧
    (∀ n < 16, slotClass n =
      if n < 8 then some 3 else if n < 12 then some 2 else if n < 14 then some 1 else if n < 15 then some 0 else none) ∧
    (slotClass d.slot = none → d.pick = d.reqs.head?)) ∧
  ∀ s t : State, Canonical s → step s = .next t → Canonical t

/-- Tiering begins the migration of a page that is wanted within a step where a free frame and the quota allow it; a
migration is in turn a shootdown, the copy with the rewritten leaf and a second shootdown, and its end (07 R133 to
R135). A walk is asked for, of an address that a command soon uses, then started by its walker, which runs at most 16,
and its next step fills the TLB with the leaf of a valid walk, and starts again where an invalidation came meanwhile; an
invalidation takes the target's entries that it covers, of TLBs and walk caches, and is acknowledged once the target has
drained; a target that cannot acknowledge freezes what stands behind it, whose requests end, the host functions of an
I/O die and the peers of the domain too (24 R381, R383, R385 to R388). Where the spec is open this states the choices of
the model: log 39, 45, 58 and 61. -/
def Obligations.TranslationSteps : Prop :=
  (∀ (s : State) (i : Nat) (m : Migration) (part : BitVec 4) (asid : BitVec 16) (va : Nat) (p : Part) (t : TierPage),
    let e := s.walkWord m.pteAt
    let live := bitNat e 0 = 1 ∧ bitNat e 1 = 1 ∧ bitNat e 58 = 0 ∧ ptePfn e = m.old
    let phase (n : Nat) (y : State) : State := { y with migrations := y.migrations.set i { m with phase := n } }
    let drop (y : State) : State := { y with migrations := y.migrations.eraseIdx i }
    let pages := s.tierPages p
    let used := s.hbmUsed part pages
    let f := Config.tierFrame s.nonce
    let s1 : State := { s with nonce := s.nonce + 1 }
    (s.migrations[i]? = some m →
      (m.phase = 0 → exec (.pageMigration i) s = .next (phase 1 (s.migrationShoot m))) ∧
      (m.phase ≠ 0 → s.shot m = false → exec (.pageMigration i) s = .next s) ∧
      (m.phase = 1 → s.shot m = true → live →
        exec (.pageMigration i) s = .next (phase 2 ((((s.dropShoot m).movePage m).writeOp .ext
          (numBytes m.pteAt 8 (withFrame e m.new)) false).migrationShoot m))) ∧
      (m.phase = 1 → s.shot m = true → ¬live → exec (.pageMigration i) s = .next (drop (s.dropShoot m))) ∧
      (2 ≤ m.phase → s.shot m = true → exec (.pageMigration i) s = .next (drop (s.dropShoot m)))) ∧
    (s.part? part.toNat = some p →
      pages.find? (fun x => x.asid = asid.toNat && x.leaf.va ≤ va && va < x.leaf.va + x.leaf.size) = some t →
      s.inTier false t = true → t.pinned = false → t.hint.next ≠ never → t.dist ≤ 1 →
      s.migrating part.toNat t.asid t.leaf.va = false → used + framesOf [t] ≤ p.tquota →
      exec (.tierPromotion part asid va) s =
        .next (if s.frameFree p true f t.leaf.size = true then s1.startMigration part t f else s1))) ∧
  (∀ (s : State) (target : BitVec 4) (core : Option CoreId) (part : BitVec 4) (who : WalkFor) (va ins e l : Nat) (x : Ctx)
    (p : Part) (w : Walk),
    let walk : Instr := .pageWalk target core part who va
    let can := s.walkCtx who = some (x, ins) ∧ x.walksAt target core part = true ∧ s.part? x.part = some p
    let new : Walk :=
      { who := who, ins := ins, at_ := x.tlb, part := BitVec.ofNat 4 x.part, asid := BitVec.ofNat 16 x.asid, va := va,
        asked := s.cyc.toNat }
    let mine := s.walks.find? fun w => w.who == who && w.va = va
    let gen := s.genAt w.part.toNat w.at_.target
    let seen := s.walked x w.va
    let size := 2 ^ spanLog l
    let entry : TlbEntry :=
      { at_ := w.at_, part := w.part, asid := w.asid, va := w.va / size * size, size := size, pte := BitVec.ofNat 64 e }
    (can → mine = none → s.walkOk va who = true → exec walk s = .next { s with walks := s.walks ++ [new] }) ∧
    (can → mine = none → s.walkOk va who = false → exec walk s = .next s) ∧
    (can → mine = some w → w.started = false → exec walk s = .next (s.startWalks w.at_)) ∧
    (can → mine = some w → w.started = true → w.gen ≠ gen → exec walk s = .next
      { seen with walks := seen.walks.map fun y => if y == w then { y with gen := gen } else y }) ∧
    (can → mine = some w → w.started = true → w.gen = gen → (seen.walkCached p w).1 = .leaf e l →
      ∃ t, exec walk s = .next t ∧ entry ∈ t.tlb ∧ ∀ y ∈ t.tlb, y = entry ∨ y ∈ seen.tlb) ∧
    (∀ i, (∀ y ∈ (s.startWalks i).walks, y ∈ s.walks ∨ ∃ z ∈ s.walks, z.started = false ∧ sameWalker i z.at_ = true ∧
        y = { z with started := true, gen := s.genAt z.part.toNat z.at_.target }) ∧
      (16 ≤ (s.walks.filter fun y => sameWalker i y.at_ && y.started).length → (s.startWalks i).walks = s.walks) ∧
      ((s.walks.filter fun y => sameWalker i y.at_ && y.started).length < 16 →
        (∃ y ∈ s.walks, sameWalker i y.at_ = true ∧ y.started = false) →
        ∃ y ∈ s.walks, y.started = false ∧ sameWalker i y.at_ = true ∧
          { y with started := true, gen := s.genAt y.part.toNat y.at_.target } ∈ (s.startWalks i).walks))) ∧
  (∀ (s : State) (target : BitVec 4) (i : Nat) (t : Tlbi),
    let n := target.toNat
    let hit (t : Tlbi) : Bool := NSet.has t.targets n && !NSet.has t.acked n && !NSet.has t.lost n
    let parts := ((s.tlbis.filter hit).map (·.part)).eraseDups
    let lost : State :=
      { s with tlbis := s.tlbis.map fun t => if hit t then { t with lost := NSet.add t.lost n } else t }
    let groups := lost.allGroups.foldl (fun v g =>
      if parts.contains g.2.id.part && g.2.behind n then (v.endRequests g.1).freezeSoon g.1 else v) lost
    let frozen := (groups.cmds.filter fun c => parts.contains c.part && c.behind n && c.state != .frozen).foldl
      (fun v c => v.freezeCmd c 0 0) groups
    (s.tlbis[i]? = some t → NSet.has t.targets n = true → NSet.has t.reached n = false → NSet.has t.lost n = false →
      ∃ v, exec (.tlbiTarget i target) s = .next v ∧ v.tlb = s.tlb.filter (fun y => !(y.at_.target = n && t.covers y)) ∧
        v.walkCache = s.walkCache.filter (fun y => !(y.at_.target = n && t.coversPtr y)) ∧
        v.genAt t.part.toNat n = s.genAt t.part.toNat n + 1 ∧ v.mem = s.mem ∧ v.groups = s.groups ∧
        v.tlbis = s.tlbis.set i { t with reached := NSet.add t.reached n }) ∧
    (s.tlbis[i]? = some t → NSet.has t.reached n = true → NSet.has t.acked n = false → NSet.has t.lost n = false →
      s.mute n = false → exec (.tlbiAck i target) s =
        .next ((((s.drainOld t n).onTlbi i fun t => { t with acked := NSet.add t.acked n }).wakeSync).pruneTlbis)) ∧
    (s.mute n = true → exec (.tlbiAck i target) s = .next s) ∧
    (parts = [] → exec (.shootdownTargetLost target) s = .next s) ∧
    (n = 14 → s.lostPeers = [] → exec (.shootdownTargetLost target) s = .next s) ∧
    (parts ≠ [] → n ≠ 12 → n ≠ 14 → exec (.shootdownTargetLost target) s = .next (frozen.wakeSync.pruneTlbis)) ∧
    (parts ≠ [] → n = 12 → exec (.shootdownTargetLost target) s =
      .next ((frozen.freezeHosts parts).wakeSync.pruneTlbis)) ∧
    (parts ≠ [] → n = 14 → s.lostPeers ≠ [] → exec (.shootdownTargetLost target) s =
      .next ((frozen.freezePeers parts).wakeSync.pruneTlbis)))

/-! ### Launch and placement (20 R330 to R345, 02 R449) -/

/-- The packet at the head of a queue, once its form is checked, is consumed: a launch or a node enters with its checked
record, a copy takes the queue's copy context within the quota, a signal of a barrier is delivered, of a node is a
release; a bad one is rejected, unless the page of its completion record migrates; consuming a packet changes no master,
launch or partition (20 R330, R333 to R335, R341, R342, 25 R395). Where the spec is open this states the choices of the
model: log 16, 17, 37, 42 and 63. -/
def Obligations.PacketSteps : Prop :=
  ∀ (s s1 : State) (q : QKey) (h : Head) (r : Rec) (succ : List Word32) (ops : List OpRange) (p : Part),
    let v := s1.consume q h
    let blank : Launch :=
      { part := q.part, q := q.q, asid := h.q.asid, sup := h.q.sup, rec256 := List.replicate 256 0, serial := 0 }
    let node : Launch := { blank with
      nid := some (Pkt.nid r), count := Pkt.ndep r, succ := succ, ops := ops, cls := Pkt.ncls r,
      stamp := if Pkt.budget r = 0 then none else some (s1.time + usUnits (Pkt.budget r)) }
    let len := recNat r 24 8
    let copy : Cmd :=
      { key := .queue q.part q.q, part := q.part, asid := h.q.asid, sup := h.q.sup, total := (len + 511) / 512,
        kind := .copy
          { dsp := spG, ssp := spG, dst := BitVec.ofNat 64 (recNat r 8 8), src := BitVec.ofNat 64 (recNat r 16 8),
            len := len, done := BitVec.ofNat 64 (recNat r 32 8), snid := BitVec.ofNat 32 (recNat r 40 4) },
        stamp := stampOf s1.cyc 0, lt := v.floor, lt0 := v.floor, op := 0xE0 }
    let x := Pkt.signal r v.floor
    let nodes := (s1.launches.filter fun x => x.2.part = q.part && x.2.nid.isSome).length
    let waits := s1.doneWaits (h.q.ctx q.part) (Pkt.copyDone (h.pkt.getD [])) = true
    (s.head q = none → exec (.packetLaunch q) s = .next s) ∧
    (v.groups = s1.groups ∧ v.launches = s1.launches ∧ v.parts = s1.parts ∧ v.cmds = s1.cmds ∧ v.children = s1.children ∧
      v.insts = s1.insts) ∧
    (s.head q = some (h, s1) →
      (h.pkt = some r → s1.pktKind q h = .launch →
        exec (.packetLaunch q) s = .next (v.enterLaunch q h (Pkt.record r) (s1.childOf q h) blank)) ∧
      (h.pkt = some r → s1.pktKind q h = .node succ ops → nodes < 4096 →
        exec (.packetNode q) s = .next (v.enterLaunch q h (Pkt.record r) (s1.childOf q h) node)) ∧
      (s1.pktKind q h = .node succ ops → 4096 ≤ nodes → exec (.packetNode q) s = .next s1) ∧
      (h.pkt = some r → s1.pktKind q h = .copy → s1.cmd? (.queue q.part q.q) = none → s1.part? q.part.toNat = some p →
        s1.cmdsOfPart q.part.toNat < p.engQuota →
        exec (.packetCopy q) s = .next { v with cmds := v.cmds ++ [copy] }) ∧
      (∀ t b, h.pkt = some r → s1.pktKind q h = .signal → recNat r 8 1 = 0 → cidDev x.cid = s1.devnum.toNat →
        v.land x = some (t, b) → exec (.packetSignal q) s = .next t) ∧
      (∀ t, h.pkt = some r → s1.pktKind q h = .signal → recNat r 8 1 = 1 →
        v.releaseNode q.part (BitVec.ofNat 32 (recNat r 16 4)) = some t → exec (.packetSignal q) s = .next t) ∧
      (s1.pktKind q h = .bad → ¬waits → exec (.rejectedPacket q) s = .next (s1.reject q h)) ∧
      (s1.pktKind q h = .bad → waits → exec (.rejectedPacket q) s = .next s))

/-- A copy packet whose units are done writes its record with COMPLETED, one that is dead with FAULTED, and releases the
node that it names; a node gains a class for every 4,096 microseconds in the pool; the first node of the pool that may
run where a position is free places its next instance; an instance all of whose groups have ended goes; a launch that is
over ends with its outcome (20 R336 to R342, 02 R449). The oldest group of an ordered launch that has exited commits:
its buffered lines and its versions enter the single order, it ends, and the next becomes the oldest; a killed one is
passed over; one that held a trap delivers it (20 R344, R345, 28 R427). Where the spec is open this states the choices
of the model: log 14, 16, 36, 37, 42 and 59. -/
def Obligations.PlacementSteps : Prop :=
  (∀ (s t : State) (q : QKey) (d : Cmd) (x : Copy) (n : Nat) (l : Launch) (part : BitVec 4) (p : Part) (sp : Spot2)
    (inst : Nat) (i : Inst),
    let dead : Bool := d.killed || match d.state with | .stopped _ _ _ r => !r | _ => false
    let atEnd := dead = true ∨ (d.state = .running ∧ d.total ≤ d.units.length)
    let out : LaunchEnd := if dead then .faulted else .completed
    let done := (s.finishCmd d.key dead).writeDone d.ctx x.done.toNat d.lt.toNat
      (completion out d.lt.toNat 0 d.killed.toNat 0 d.frec)
    let waits := s.doneWaits d.ctx x.done.toNat = true
    let step := usUnits 4096
    let fit (x : Nat × Launch) : Bool :=
      x.2.part = part && x.2.eligible p && !s.blocked x.1 x.2 && (s.position x.1 x.2).isSome
    let drained := s.drainWhere fun c => c.owner = .cohort inst
    (s.cmd? (.queue q.part q.q) = some d → d.kind = .copy x → atEnd → ¬waits → x.snid = 0xFFFFFFFF →
      exec (.copyPacketDone q) s = .next done) ∧
    (s.cmd? (.queue q.part q.q) = some d → d.kind = .copy x → atEnd → ¬waits → x.snid ≠ 0xFFFFFFFF →
      done.releaseNode q.part x.snid = some t → exec (.copyPacketDone q) s = .next t) ∧
    (s.cmd? (.queue q.part q.q) = some d → d.kind = .copy x → waits → exec (.copyPacketDone q) s = .next s) ∧
    (∀ m j, s.launch? n = some l → l.pooled = some m → l.raised ≤ j → m + j * step ≤ s.time →
      s.time < m + (j + 1) * step →
      exec (.readyPoolAging n) s = .next (s.setLaunch n { l with raised := j }) ∧ s.eff l = min 7 (l.cls + j)) ∧
    (s.part? part.toNat = some p → poolFirst s (s.launches.filter fit) = some (n, l) → s.position n l = some sp →
      exec (.placement part) s = .next (s.place n l sp p.ctx)) ∧
    (s.part? part.toNat = some p → (∃ y ∈ s.launches, fit y = true) →
      ∃ y j v, y ∈ s.launches ∧ fit y = true ∧ s.position y.1 y.2 = some j ∧ s.place y.1 y.2 j p.ctx = v ∧
        exec (.placement part) s = .next v ∧ (∀ z ∈ s.launches, fit z = true → s.eff z.2 ≤ s.eff y.2)) ∧
    (s.part? part.toNat = some p → s.launches.filter fit = [] → exec (.placement part) s = .next s) ∧
    (s.inst? inst = some i → (∀ j < i.size, NSet.has i.ended j = true) → s.instBusy inst = false →
      exec (.cohortInstanceEnd inst) s = .next { drained with insts := Store.del drained.insts inst }) ∧
    (s.launch? n = some l → s.launchOver n l = true → s.endLaunch n l l.outcome = some t →
      exec (.launchEnd n) s = .next t) ∧
    (s.launch? n = some l → s.launchOver n l = false → exec (.launchEnd n) s = .next s)) ∧
  (∀ (s : State) (n : Nat) (k : GKey) (g : Group) (o : Ordered),
    let next (t : State) : State := t.onLaunch n fun l => { l with committed := l.committed + 1 }
    let mark (t : State) : State := t.onGroup k fun g => { g with ord := some { o with committed := true } }
    (s.oldestGroup n = none → exec (.orderedCommit n) s = .next s) ∧
    (s.oldestGroup n = some (k, g, o) →
      (g.killed = true → exec (.orderedCommit n) s = .next ((next ((mark s).reap k)).becomeOldest n)) ∧
      (g.killed = false → g.run = .ended →
        exec (.orderedCommit n) s =
          .next ((next ((mark ((s.departWhere fun w => w.g = k).flushVersions (.group k) n o.ts)).finishExit k)).becomeOldest
            n)) ∧
      (∀ r, g.killed = false → g.run ≠ .ended → o.held = some r →
        exec (.orderedCommit n) s =
          .next ((s.setGroup k { g with ord := some { o with held := none } }).deliver k r)) ∧
      (g.killed = false → g.run ≠ .ended → o.held = none → exec (.orderedCommit n) s = .next s)))

/-! ### Trail, errors and links (25 R406, R407, 28 R431 to R434, 29 R446 to R448, 01 R11) -/

/-- The oldest record of a core's trace buffer goes into the slot of its ring that the index names, then the index goes up
by one, with a timestamp that no record's exceeds; what was dropped is reported once there is room (25 R406, R407). A
corrected error is counted, every hundredth of a unit logged; an uncorrectable one poisons its sector, in memory and in
a dirty copy for all, in a clean copy there alone, its line, its scratchpad sector, breaks its barrier, loses the trace
buffer, or damages a register of a group and holds a machine check for its next switch point; each writes its record (28
R428, R431 to R433). Where the spec is open this states the choices of the model: log 46 and 48. -/
def Obligations.TrailAndErrorSteps : Prop :=
  (∀ (s : State) (core : CoreId) (p : Part) (n base size : Nat) (r : BitVec 128) (rest : List (BitVec 128)),
    let c := coreNo core.x.toNat core.y.toNat
    let k := s.coreAt c
    let i := (s.mergeLine .ext (lineOf base)).numAt base 8
    let at_ := base + 64 + 16 * (i % ((size - 64) / 16))
    let v := (s.setCore c { k with trail := rest }).extWrite 0 (numBytes at_ 16 r.toNat)
    (k.trail = r :: rest → s.partOfCore c = some n → s.part? n = some p → p.slice c = some (base, size) →
      exec (.traceDrain core) s =
        .next (v.extWrite (max (v.lineAt (lineOf base)).wts (v.lineAt (lineOf at_)).wts)
          (numBytes base 8 ((i + 1) % 2 ^ 64)))) ∧
    (k.trail = [] → exec (.traceDrain core) s = .next s) ∧
    (k.dropped ≠ 0 → k.trail.length < trailCap →
      exec (.lossRecord core) s = .next ((s.setCore c { k with dropped := 0 }).trail c 0 8 0 k.dropped) ∧
        ∃ x, (exec (.lossRecord core) s = .next x ∧ x.mem = s.mem ∧ (x.coreAt c).dropped = 0 ∧
          (x.coreAt c).trail = k.trail ++ [trailRec 8 0 0 c s.cyc.toNat k.dropped] ∧
          ∀ j, j ≠ c → x.coreAt j = s.coreAt j)) ∧
    (k.dropped = 0 → exec (.lossRecord core) s = .next s)) ∧
  (∀ (s : State) (sock : BitVec 5) (unit : BitVec 16) (pa : Nat) (inst pos sector : Nat) (i : Inst) (k : GKey)
    (g : Group) (u : BitVec 4) (reg : BitVec 8) (element : Nat) (core : CoreId) (bar : BitVec 4),
    let key := sock.toNat * 65536 + unit.toNat
    let count := Store.getD s.corrected key 0 + 1
    let counted : State := { s with corrected := Store.put s.corrected key count }
    let counts := s.powered = true ∧ sock.toNat < 18
    let mine := s.powered = true ∧ s.isLocal pa = true ∧ s.backed pa = true
    let line := s.lineAt (lineOf pa)
    let c := coreNo core.x.toNat core.y.toNat
    let lost : State := s.setCore c
      { s.coreAt c with trail := [], dropped := (s.coreAt c).dropped + (s.coreAt c).trail.length }
    let broken : State := s.setInst inst (i.setBar bar.toNat { i.bar bar.toNat with broken := true })
    let fails (v : State) (x : GKey × Group) : State := match x.2.run with
      | .waiting w => match w.op with
        | .barrier m _ _ => if x.2.id.inst = inst && m = bar.toNat then v.trapWaiting x.1 (barrierTrap bar.toNat 1) else v
        | _ => v
      | _ => v
    (counts → count % 100 ≠ 0 → exec (.correctedError sock unit) s = .next counted) ∧
    (counts → ∃ t, exec (.correctedError sock unit) s = .next t ∧ t.mem = s.mem ∧ t.groups = s.groups ∧
      ∀ j, Store.getD t.corrected j 0 = if j = key then count else Store.getD s.corrected j 0) ∧
    (¬counts → exec (.correctedError sock unit) s = .next s) ∧
    (counts → count % 100 = 0 → exec (.correctedError sock unit) s =
      .next (counted.logMc { kind := 1, sev := 0, unit := unit.toNat, sock := sock.toNat, count := 100 })) ∧
    (mine → line.holders = [] → exec (.uncorrectableError (.sector pa)) s = .next ((s.markPoison pa).machineCheck
      { kind := 2, sev := 1, sock := s.sockOf pa, part := s.partOfPa pa, addr := pa })) ∧
    (∀ x, s.powered = true → (s.mayStrike pa)[Config.victim s.nonce % (s.mayStrike pa).length]? = some x →
      let n := if (s.mayStrike pa).length = 1 then s.nonce else s.nonce + 1
      exec (.uncorrectableError (.sector pa)) s = .next ((({ s with nonce := n } : State).strike pa x).machineCheck
        { kind := 2, sev := 1, sock := s.struckSock pa x, part := s.partOfPa pa, addr := pa })) ∧
    (∀ h, (line.heldIn h).dirty.getLsbD (pa % 128 / 32) = true → s.strike pa (some h) = s.markPoison pa) ∧
    (∀ x, (s.strike pa x).mem = s.mem ∧ (s.strike pa x).groups = s.groups ∧
      ∀ j, j ≠ sectorOf pa → NSet.has (s.strike pa x).poison j = NSet.has s.poison j) ∧
    (mine → exec (.uncorrectableError (.lineState pa)) s = .next ((s.strikeLine pa).machineCheck
      { kind := 2, sev := 1, sock := homeOf pa, part := s.partOfPa pa, addr := pa })) ∧
    (s.powered = true → s.inst? inst = some i → exec (.uncorrectableError (.pad inst pos sector)) s =
      .next ((s.onPad inst pos fun p => { p with poison := NSet.add p.poison sector }).machineCheck
        { kind := 2, sev := 1, sock := i.tower, part := some i.part.toNat })) ∧
    (s.powered = true → s.inst? inst = some i → exec (.uncorrectableError (.barrier inst bar)) s =
      .next ((broken.allGroups.foldl fails broken).machineCheck
        { kind := 2, sev := 2, sock := i.tower, part := some i.part.toNat })) ∧
    (s.powered = true → s.group? k = some g → g.run ≠ .ended → exec (.uncorrectableError (.pool k u reg element)) s =
      .next ((({ s with nonce := s.nonce + 1 } : State).setGroup k
        { g.damage u reg.toNat element s.nonce with mcheck := some (u, reg) }).machineCheck
        { kind := 8, sev := 2, sock := towerOf (keyCore k), part := some g.id.part.toNat })) ∧
    (s.powered = true → exec (.uncorrectableError (.trace core)) s =
      .next (lost.machineCheck { kind := 2, sev := 1, sock := towerOf c, part := s.partOfCore c })))

/-- A lost control flit retires its link and poisons its line, or of a line homed elsewhere ends a request with error, a
failed recall of partials merges without them and poisons the line; a message to no passenger is logged and marks the
socket that sent it; replays are counted and eight failed ones retire the link; a device that is cut off is unreachable
and collectives with it fail; an expander that is lost ends what waits at its port and is logged once (28 R433, R434, 01
R11, 29 R446 to R448). Where the spec is open this states the choices of the model: log 47, 48, 61 and 65. -/
def Obligations.LinkSteps : Prop :=
  ∀ (s : State) (pa : Nat) (link : BitVec 6) (src dst : BitVec 5) (dev : BitVec 9) (port : BitVec 2) (p : Potluck)
    (tower : BitVec 2),
    let on := s.powered = true
    let k := link.toNat
    let l := s.linkAt k
    let ln := lineOf pa
    let r := s.retireLink k
    let replays (n : Nat) : State :=
      { s with
        nonce := s.nonce + 1
        links := s.links.setIfInBounds k { l with retries := l.retries + 1, replays := n } }
    let lost (q : Partial) : Bool := match q.loc with
      | .l1 c => towerOf c = tower.toNat
      | .l2 t => t = tower.toNat
      | .home => false
    let merged := (s.setLine ln { s.lineAt ln with pot := some { p with parts := p.parts.filter fun q => !lost q } }).mergeLine
      .ext ln
    let e := vget s.expanders port.toNat {}
    let lo := capBase + 4096 * framesBefore s.expanders port.toNat
    let hi := lo + 4096 * e.frames
    let parts := (s.parts.filter fun p => p.2.ranges.any fun r => localPa r.1 < hi && lo < localPa r.1 + r.2).map (·.1)
    (s.powered = false → ∀ x, exec (.lostControlFlit pa x) s = .next s) ∧
    (on → s.isLocal pa = false → exec (.lostControlFlit pa none) s = .next { s with flits := s.flits + 1 }) ∧
    (on → r.isLocal pa = false →
      exec (.lostControlFlit pa (some link)) s = .next ({ r with flits := r.flits + 1 } : State)) ∧
    (on → s.isLocal pa = true → s.backed pa = true → exec (.lostControlFlit pa none) s = .next ((s.poisonLine pa).machineCheck
      { kind := 3, sev := 1, sock := homeOf pa, part := s.partOfPa pa, addr := pa })) ∧
    (on → r.isLocal pa = true → r.backed pa = true → s.isLocal pa = true → s.backed pa = true →
      exec (.lostControlFlit pa (some link)) s = .next ((r.poisonLine pa).machineCheck
        { kind := 3, sev := 1, sock := homeOf pa, part := s.partOfPa pa, addr := pa })) ∧
    ((s.lineAt ln).pot = some p → p.parts.any lost = true → exec (.potluckRecallFailure pa tower) s =
      .next (((List.range 4).foldl (fun v i => v.markPoison (128 * ln + 32 * i)) merged).machineCheck
        { kind := 5, sev := 1, sock := homeOf pa, part := s.partOfPa pa, addr := pa })) ∧
    (s.powered = true → src.toNat < 18 → 18 ≤ dst.toNat → ∃ t, exec (.destinationError src dst) s = .next t ∧
      NSet.has t.astray src.toNat = true ∧ t.mem = s.mem ∧ t.groups = s.groups ∧
      t.mclog = (s.logMc { kind := 6, sev := 1, sock := src.toNat }).mclog) ∧
    (s.powered = false ∨ 18 ≤ src.toNat ∨ dst.toNat < 18 → exec (.destinationError src dst) s = .next s) ∧
    (l.up = true → l.replays < 8 → exec (.linkCrcReplay link) s =
      .next (replays (if Config.freeBit s.nonce then l.replays + 1 else 1))) ∧
    (8 ≤ l.replays → exec (.linkRetire link) s = .next r) ∧
    (l.replays < 8 → exec (.linkRetire link) s = .next s) ∧
    (dev ≠ s.devnum → NSet.has s.domain dev.toNat = true → exec (.deviceUnreachable dev) s =
      .next (({ s with unreachable := NSet.add s.unreachable dev.toNat } : State).failColls fun d => d = dev.toNat)) ∧
    (e.frames ≠ 0 → e.lost = false → exec (.expanderLoss port) s =
      .next (({ s with
          expanders := s.expanders.setIfInBounds port.toNat { e with lost := true }
          dram := Store.del s.dram (768 + port.toNat) } : State).mcheckAll
        { kind := 2, sev := 1, unit := port.toNat, sock := 16 + port.toNat / 2, addr := s.devnum.toNat * 2 ^ 47 + lo }
        parts)) ∧
    (e.lost = true → exec (.expanderLoss port) s = .next s)

/-! ### Requests from outside (25 R397, R398, R451, 29 R439 to R444, 00 R6) -/

/-- A request of a peer for a partition that this device holds is performed, or answered with an error where it is frozen or
refused, or freezes the peer with a FROZEN record where it is a violation, one beyond 256 outstanding included; for a
partition that it does not hold, before READY, and where the request goes astray, the answer is an error (01 R11, 09
R169, 11 R221, 25 R397 to R399, R451, 29 R444). A host function reaches its partition's memory through BAR2: an access
within it is performed; a violation, one beyond 256 outstanding included, freezes the function and leaves a FROZEN
record; before READY, and for a function that is frozen or refused, the answer is Completer Abort; a function of no
partition and an atomic other than FetchAdd, Swap and CAS are unsupported (29 R439, R440, R444, 25 R398, R399). Where
the spec is open this states the choices of the model: log 49, 50 and 61. -/
def Obligations.OutsideRequests : Prop :=
  (∀ (s s1 : State) (dev : BitVec 9) (part : BitVec 4) (pa : Nat) (ask : Ask) (a : AtomAsk) (p : Part) (code : Nat),
    let id := dev.toNat * 16 + part.toNat
    let room := s.asked (32 + id) = some s1
    let known := s.powered = true ∧ dev ≠ s.devnum ∧ NSet.has s.domain dev.toNat = true
    let open_ := s.bstate = 5 ∧ NSet.has s.peerFrozen id = false ∧ NSet.has s.peerRefused id = false
    let bad (x : Ask) : Option Nat := s.outViolation p pa (askSize x) (askWrites x) 0
    let stop (code : Nat) := (s.freezePeer dev.toNat part.toNat code pa).answer .error
    (known → s.part? part.toNat = some p → ¬open_ → exec (.peerRequest dev part pa ask) s = .next (s.answer .error)) ∧
    (known → s.part? part.toNat = some p → open_ → room → (∀ c g b l, ask ≠ .signal c g b l) → bad ask = none →
      exec (.peerRequest dev part pa ask) s = .next (s1.perform pa ask)) ∧
    (known → s.part? part.toNat = some p → open_ → room → (∀ c g b l, ask ≠ .signal c g b l) → bad ask = some code →
      exec (.peerRequest dev part pa ask) s = .next (stop code)) ∧
    (known → s.part? part.toNat = some p → open_ → 256 ≤ Store.getD s.asking (32 + id) 0 →
      exec (.peerRequest dev part pa ask) s = .next (stop 5) ∧ NSet.has (stop 5).peerFrozen id = true) ∧
    (∀ c g b l, known → s.part? part.toNat = some p → open_ → room → ask = .signal c g b l → cidPart c = part.toNat →
      exec (.peerRequest dev part pa ask) s = .next (s1.perform pa ask)) ∧
    (Store.getD s.asking (32 + id) 0 < 256 → ∃ t, s.asked (32 + id) = some t ∧ t.mem = s.mem ∧ t.groups = s.groups) ∧
    (s.powered = true → dev ≠ s.devnum → s.bstate ≠ 5 →
      exec (.peerRequest dev part pa ask) s = .next (s.answer .error) ∧
        exec (.peerUnknownPartition dev part pa ask) s = .next (s.answer .error)) ∧
    (∀ v, s.meets .ext pa = (true, v) → s.perform pa ask = v.answer .error) ∧
    (known → s.part? part.toNat = none → exec (.peerUnknownPartition dev part pa ask) s = .next (s.answer .error)) ∧
    (known → s.part? part.toNat = some p → open_ → room → bad (.atom a) = none →
      exec (.homeAtomic dev part pa a) s = .next (s1.perform pa (.atom a)))) ∧
  (∀ (s s1 : State) (fn : BitVec 5) (offset : Nat) (ask : Ask) (a : AtomAsk) (part : BitVec 4) (p : Part) (code : Nat),
    let n := fn.toNat
    let pa := s.devnum.toNat * 2 ^ 47 + offset % 2 ^ 47
    let b : AtomAsk := if a.compare.isSome then { a with fn := 6 } else a
    let plain := s.powered = true ∧ ((∃ k, ask = .read k) ∨ ∃ l, ask = .write l)
    let ones := List.replicate (if askWrites ask then 0 else askSize ask) (0xFF : Byte)
    let mine := 1 ≤ n ∧ n ≤ 16 ∧ s.bstate = 5 ∧ Store.get? s.vfs n = some part ∧ s.part? part.toNat = some p
    let open_ := NSet.has s.vfFrozen n = false ∧ NSet.has s.vfRefused n = false
    let bad := s.outViolation p pa (askSize ask) (askWrites ask) 4
    let room := s.asked n = some s1
    let stop (code : Nat) := (s.freezeHost n part.toNat code pa).answer .abort ones
    (plain → mine → open_ → room → bad = none → exec (.hostBar2Access fn offset ask) s = .next (s1.perform pa ask)) ∧
    (plain → mine → open_ → room → bad = some code → exec (.hostBar2Access fn offset ask) s = .next (stop code)) ∧
    (plain → mine → open_ → 256 ≤ Store.getD s.asking n 0 →
      exec (.hostBar2Access fn offset ask) s = .next (stop 5) ∧ NSet.has (stop 5).vfFrozen n = true) ∧
    (plain → mine → ¬open_ → exec (.hostBar2Access fn offset ask) s = .next (s.answer .abort ones)) ∧
    (plain → n ≤ 16 → s.bstate ≠ 5 → exec (.hostBar2Access fn offset ask) s = .next (s.answer .abort ones)) ∧
    (plain → 1 ≤ n → n ≤ 16 → s.bstate = 5 → Store.get? s.vfs n = none →
      exec (.hostBar2Access fn offset ask) s = .next (s.answer .unsupported)) ∧
    (s.powered = true → ask = .atom b → pcieAtomic b = true → mine → open_ → room → bad = none →
      exec (.hostAtomic fn offset a) s = .next (s1.perform pa ask)) ∧
    (s.powered = false → exec (.hostBar2Access fn offset ask) s = .next s ∧ exec (.hostAtomic fn offset a) s = .next s) ∧
    (s.powered = true → pcieAtomic b = false → exec (.hostAtomic fn offset a) s = .next (s.answer .unsupported)))

/-- Before READY an access other than to an early register is answered with Completer Abort and all ones, and a write is
dropped; an early register answers; a write reaches the mailbox alone (00 R6, 29 R441, R443, R444). Power brings the
machine up through VERIFY, HBM, PORTS and LINKS to READY, one STATE at a step, or to FAILED with the error of the step
that failed; its loss and a thermal shutdown leave the checkpoint slots and, of memory, the bytes that firmware wrote to
the capacity tier and that still stand; the clocks run at sixteenths of the full rate (01 R13, R14, R17, 29 R442, R443).
Where the spec is open this states the choices of the model: log 50, 54 and 65. -/
def Obligations.BoardSteps : Prop :=
  (∀ (s : State) (bar2 : Bool) (offset n : Nat) (d : List Byte),
    let early := bar2 = false ∧ ∀ i < n, answersEarly (offset + i) = true
    let v := s.sample
    (s.powered = true → s.bstate ≠ 5 → ¬early →
      exec (.notReadyAccess bar2 offset (.read n)) s = .next (s.answer .abort (List.replicate n 0xFF))) ∧
    (s.powered = true → s.bstate ≠ 5 → early →
      exec (.notReadyAccess bar2 offset (.read n)) s = .next (v.answer .ok ((List.range n).map fun i => v.bar0 (offset + i)))) ∧
    (s.powered = true → s.bstate ≠ 5 → exec (.notReadyAccess bar2 offset (.write d)) s = .next (s.answer .abort)) ∧
    (s.powered = true → s.bstate ≠ 5 → exec (.registerWrite offset d) s = .next (s.answer .abort)) ∧
    (∀ ask, s.powered = false → exec (.notReadyAccess bar2 offset ask) s = .next s ∧
      exec (.registerWrite offset d) s = .next s) ∧
    (s.powered = true → s.bstate = 5 → ∃ t, exec (.registerWrite offset d) s = .next t ∧ { t with mbox := s.mbox } = s ∧
      ((offset + d.length ≤ 0x200000 ∨ 0x202000 ≤ offset) → t = s))) ∧
  (∀ (s : State) (b : BringUp) (level sock : BitVec 5),
    let at_ (n : Nat) : Prop := s.bstate.toNat = n
    let up (t : State) : Prop := exec (.powerOn b) s = .next t
    let on : State := { s with powered := true }
    let failed (e : Byte) : State := { on with bstate := 15, berr := e }
    (at_ 0 → up { on with bstate := 1 }) ∧
    (at_ 1 → b.signature = false → up (failed 1)) ∧
    (at_ 1 → b.signature = true → up { on with bstate := 2, fwdig := b.fwdig, devnum := b.devnum }) ∧
    (at_ 2 → b.hbm = false → up (failed 2)) ∧ (at_ 2 → b.hbm = true → up { on with bstate := 3 }) ∧
    (at_ 3 → b.ports = false → up (failed 3)) ∧
    (at_ 3 → b.ports = true → ∃ t, up t ∧ t.bstate = 4 ∧ { t with bstate := s.bstate, expanders := s.expanders } = on ∧
      ∀ k, (h : k < 4) → t.expanders[k] = { frames := b.frames[k] }) ∧
    (at_ 4 → ∃ t, up t ∧ t.bstate = 5 ∧
      { t with bstate := s.bstate, lup := s.lup, links := s.links, domain := s.domain } = on ∧
      ∀ k, (h : k < 36) → t.links[k] = { up := b.links.getLsbD k }) ∧
    (5 ≤ s.bstate.toNat → up on) ∧
    (∃ t, exec .powerLoss s = .next t ∧ t.powered = false ∧ t.slots = s.slots ∧ t.groups = [] ∧ t.parts = [] ∧
      t.bstate = State.reset.bstate ∧ (∀ x ∈ t.mem, ∃ b, (x.1, b) ∈ s.firm ∧ s.byteAt x.1 = b) ∧
      ((∀ y ∈ s.parts, y.2.encl = false) → ∀ x, x ∈ t.mem ↔ x ∈ s.firm ∧ s.byteAt x.1 = x.2)) ∧
    (sock.toNat < 18 → exec (.thermalShutdown sock) s = exec .powerLoss s) ∧
    (18 ≤ sock.toNat → exec (.thermalShutdown sock) s = .next s) ∧
    (s.powered = false → exec (.clockThrottle level) s = .next s) ∧
    (s.powered = true → s.bstate ≠ 5 → exec (.clockThrottle level) s = .next s) ∧
    (s.powered = true → s.bstate = 5 → 1 ≤ level.toNat → level.toNat ≤ 16 →
      exec (.clockThrottle level) s = .next { s with throttle := level.toNat }))

/-! ### Mailbox commands, power and clocks (29 R445, 25 R394 to R403, 28 R436 to R438, 01 R13 to R17) -/

/-- The mailbox runs the command that its word names, refuses one that may not be, and calls a short or ill-formed argument
bad: CREATE makes a partition, an enclave's memory then read under its keys, DESTROY erases it with its masters, QUEUE,
SETWDOG, SETTCS and ASSIGN set what they name, SETTCS in a step that sets BUSY and one that clears it, unless it is
refused (29 R445, 25 R394, R396, 20 R332, 28 R436, 07 R123). Where the spec is open this states the choices of the
model: log 51 and 52. -/
def Obligations.MailboxPartitions : Prop :=
  ∀ (s : State) (p : Part),
    let m := s.mbox
    let runs (code var need : Nat) : Prop :=
      m.running = true ∧ m.known = true ∧ m.code = code ∧ m.var = var ∧ need ≤ m.alen ∧ m.alen ≤ 4096
    let new : Part := { desc := m.argBytes 0 128 }
    let queue : Queue := { desc := m.arg 0 8, sup := m.arg 8 1 = 1, asid := BitVec.ofNat 16 (m.arg 10 2) }
    let merged := s.mergeLine .ext (lineOf (m.arg 0 8))
    let queueOk := m.arg 8 1 < 2 ∧ m.arg 9 1 < 16 ∧ m.arg 12 4 = 0 ∧ p.hasAsid (m.arg 10 2) = true ∧
      p.owns (m.arg 0 8) 64 = true ∧ merged.numAt (m.arg 0 8 + 9) 7 = 0 ∧ merged.numAt (m.arg 0 8 + 32) 32 = 0
    let own (k : GKey) : Bool := (s.group? k).any fun g => g.id.part.toNat = m.part
    let drained := ((s.departWhere fun w => own w.g).drainWhere fun c => match c.owner with
      | .group k => own k
      | .cohort i => (s.inst? i).any fun x => x.part.toNat = m.part).deliverOut fun o => own o.g
    let plain := ((drained.lines.map (·.1)).filter fun ln => p.owns (128 * ln) 128).foldl (fun v ln => v.ordinary .ext ln) drained
    let tower := m.arg 0 1
    let old := vget s.tcs tower 0
    let fn := m.arg 0 1
    let part := BitVec.ofNat 4 m.part
    let named := 1 ≤ fn ∧ fn ≤ 16 ∧ s.part? m.part = some p
    (runs 1 0 128 → new.fieldsOk = true → s.part? new.pid = none → s.partOk new = true →
      let made : Part := { new with keys := s.nextId, meas := extendMeas 0 new.desc }
      exec .mbCreate s = .next (((({ s with nextId := s.nextId + 1 } : State).recode made openSector).setPart new.pid
        made).respond 0)) ∧
    (runs 1 0 128 → new.fieldsOk = true → s.part? new.pid = none → s.partOk new = true →
      ∃ t, exec .mbCreate s = .next t ∧ (new.encl = false → t.mem = s.mem) ∧ (t.part? new.pid).isSome = true ∧
        ∀ j, j ≠ new.pid → t.part? j = s.part? j) ∧
    (runs 1 0 128 → new.fieldsOk = false → exec .mbCreate s = .next (s.respond 2)) ∧
    (runs 1 0 128 → new.fieldsOk = true → s.partOk new = false → exec .mbCreate s = .next (s.respond 1)) ∧
    (runs 2 0 0 → s.part? m.part = some p →
      exec .mbDestroy s = .next (((plain.sealAway p).erasePart m.part).respond 0)) ∧
    (runs 3 0 16 → s.part? m.part = some p → queueOk → Store.get? p.queues (m.arg 9 1) = none →
      exec .mbQueue s = .next ((merged.setPart m.part { p with queues := Store.put p.queues (m.arg 9 1) queue }).respond 0)) ∧
    (runs 8 0 2 → tower < 4 → m.arg 1 1 ≤ 10 → old &&& 16 = 0 →
      exec .mbSettcs s = .next { s with tcs := s.tcs.setIfInBounds tower (old ||| 16) }) ∧
    (runs 8 0 2 → tower < 4 → m.arg 1 1 ≤ 10 → old &&& 16 ≠ 0 →
      exec .mbSettcs s = .next ((s.resplit tower (m.arg 1 1)).respond 0)) ∧
    (runs 8 0 2 → tower < 4 → 10 < m.arg 1 1 → m.arg 1 1 ≤ 15 → exec .mbSettcs s = .next (s.respond 1)) ∧
    (runs 8 0 2 → 4 ≤ tower ∨ 15 < m.arg 1 1 → exec .mbSettcs s = .next (s.respond 2)) ∧
    (runs 8 1 4 → s.part? m.part = some p →
      exec .mbSetwdog s = .next ((s.setPart m.part { p with wdog := BitVec.ofNat 32 (m.arg 0 4) }).respond 0)) ∧
    (runs 9 0 2 → named → m.arg 1 1 = 0 → Store.get? s.vfs fn = none →
      exec .mbAssign s = .next (({ s with
        vfs := Store.put s.vfs fn part
        vfFrozen := NSet.rem s.vfFrozen fn
        vfRefused := NSet.rem s.vfRefused fn } : State).respond 0)) ∧
    (runs 9 0 2 → named → m.arg 1 1 = 128 → Store.get? s.vfs fn = some part →
      exec .mbAssign s = .next (({ s with vfs := Store.del s.vfs fn } : State).respond 0)) ∧
    (m.running = true → m.known = false → exec .mbCreate s = .next (s.respond 2)) ∧
    (m.running = false → exec .mbCreate s = .next s)

/-- LOAD copies a document into an unsealed enclave and extends its measurement, SEAL closes it, ATTEST gives the signed
report, IMPORT writes what opens under the keys and measurement (25 R401 to R403). A checkpoint halts every group,
writes body and header over the older slot, then marks it complete and lets them go on; a restore puts the newest image
in place, or is refused and reported where its body, its firmware or its device does not match (28 R437, R438). Where
the spec is open this states the choices of the model: log 5, 51 and 53. -/
def Obligations.MailboxEnclaves : Prop :=
  (∀ (s t : State) (p : Part) (d x : List Byte),
    let m := s.mbox
    let runs (code var need : Nat) : Prop :=
      m.running = true ∧ m.known = true ∧ m.code = code ∧ m.var = var ∧ need ≤ m.alen ∧ m.alen ≤ 4096 ∧
        s.part? m.part = some p
    let src := m.arg 0 8
    let dst := m.arg 8 8
    let len := m.arg 16 8
    let report := s.report191 p (m.argBytes 0 32)
    let opened := openEnvelope p.keys p.meas (BitVec.ofNat 256 (m.arg 0 32)) (m.argBytes 32 12) d (m.argBytes 64 16)
    let importOk := m.arg 44 4 = 0 ∧ m.arg 48 8 ≤ 2 ^ 32 ∧ m.arg 56 8 % 32 = 0 ∧ p.encl = true ∧
      p.owns (m.arg 56 8) (m.arg 48 8) = true ∧ s.outside (m.arg 80 8) (m.arg 48 8) = true
    (runs 4 0 24 → p.sealed = false → dst % 32 = 0 → len % 32 = 0 → s.outside src len = true → p.owns dst len = true →
      s.outRead src len = (d, false, t) →
      exec .mbLoad s =
        .next (((t.firmWrite dst d).onPart m.part fun q => { q with meas := extendMeas q.meas d }).respond 0)) ∧
    (runs 4 1 0 → p.sealed = false →
      exec .mbSeal s = .next ((s.setPart m.part
        { p with sealed := true, desc := p.desc.set 42 (BitVec.ofNat 8 (recNat p.desc 42 1 ||| 2)) }).respond 0)) ∧
    (runs 4 1 0 → p.sealed = true → exec .mbSeal s = .next (s.respond 1)) ∧
    (runs 4 1 0 → ∃ v, exec .mbSeal s = .next v ∧ v.mem = s.mem ∧ ((v.part? m.part).map (·.sealed)) = some true ∧
      ((v.part? m.part).map (·.meas)) = some p.meas ∧ ∀ j, j ≠ m.part → v.part? j = s.part? j) ∧
    (runs 5 0 32 → p.sealed = true →
      exec .mbAttest s = .next
        ((s.putResult (report ++ identitySign report)).respond 0 256)) ∧
    (runs 5 0 32 → p.sealed = false → exec .mbAttest s = .next (s.respond 1)) ∧
    (runs 6 0 88 → importOk → s.outRead (m.arg 80 8) (m.arg 48 8) = (d, false, t) → opened = some x →
      exec .mbImport s = .next ((t.firmWrite (m.arg 56 8) x).respond 0)) ∧
    (runs 6 0 88 → importOk → s.outRead (m.arg 80 8) (m.arg 48 8) = (d, false, t) → opened = none →
      exec .mbImport s = .next (t.respond 1))) ∧
  (∀ (s : State) (b : Body) (old : Slot) (n : Nat),
    let m := s.mbox
    let runs (var : Nat) : Prop := m.running = true ∧ m.known = true ∧ m.code = 7 ∧ m.var = var ∧ m.alen ≤ 4096
    let halted := s.haltAll
    let plain := (halted.lines.map (·.1)).foldl (fun v ln => v.ordinary .ext ln) halted
    let body := plain.image
    let slot (seq : Nat) : Slot :=
      { complete := false, seq := seq, blen := (Config.bodyBytes body).length, bodyd := bodyDigest body, fwd := plain.fwdig,
        idk := identityKey, body := some body, power := plain.power }
    let writes (i seq : Nat) : State :=
      { plain with slots := plain.slots.setIfInBounds i (slot seq), mbox := { plain.mbox with written := true } }
    let whole (i : Nat) : State :=
      { s with
        slots := s.slots.setIfInBounds i { vget s.slots i {} with complete := true }
        mbox := { s.mbox with written := false } }
    let idle := s.parts.any (fun p => p.2.exchanging.isSome) = false
    (runs 0 → m.written = false → idle → halted.allHalted = true → plain.newest = none →
      exec .mbCheckpoint s = .next (writes 0 1)) ∧
    (runs 0 → m.written = false → idle → halted.allHalted = true → plain.newest = some n →
      exec .mbCheckpoint s = .next (writes (1 - n) ((vget plain.slots n {}).seq + 1))) ∧
    (runs 0 → m.written = true → s.newest = none → exec .mbCheckpoint s = .next ((whole 0).resumeAll.respond 0)) ∧
    (runs 0 → m.written = true → s.newest = some n →
      exec .mbCheckpoint s = .next ((whole (1 - n)).resumeAll.respond 0)) ∧
    (runs 0 → m.written = false → idle → halted.allHalted = false → exec .mbCheckpoint s = .next halted) ∧
    (runs 1 → s.newest = some n → vget s.slots n {} = old → old.body = some b → s.restorable old = true →
      exec .mbRestore s = .next ((s.restore b old.power).respond 0)) ∧
    (runs 1 → s.newest = some n → vget s.slots n {} = old → old.body = some b →
      (bodyDigest b ≠ old.bodyd ∨ old.fwd ≠ s.fwdig ∨ old.idk ≠ identityKey) →
      exec .mbRestore s = .next s.refuseRestore) ∧
    (runs 1 → s.newest = none → exec .mbRestore s =
      .next ((({ s with berr := 4 } : State).logMc { kind := 9, sev := 2, sock := 16 }).respond 1)))

/-! ### Encoding (03 R45, R50, R52, R65, 04 R67) -/

/-- Words that the spec gives decode to the instructions that they stand for (04 R73, 26 R416, 18 R318, 19 R328). -/
def Obligations.WordsDecode : Prop :=
  decodeTableWord 64 0x00000004802883C9 = some (.mfs { d := .s 2, b := .v 0x12 }) ∧
  decodeTableWord 64 0x00000002E90003CD = some (.mts { a := .s 4, b := .v 0x0B }) ∧
  decodeTableWord 64 0x00000000000003C1 = some (.trap {}) ∧
  decodeTableWord 64 0x00000000002943D9 = some (.tlbsync { d := .s 5 }) ∧
  decodeTableWord 96 (0x00C0003C29294042 + 0x40 * 2 ^ 64) =
    some (.sadd { d := .s 5, a := .s 4, b := .imm, t := 6, imm := .i32 0x40 }) ∧
  decodeTableWord 96 (0x00C0002928C0080E + 0xFFFFFFC0 * 2 ^ 64) =
    some (.brc { fn := 2, a := .s 3, b := .s 4, t := 6, imm := .i32 0xFFFFFFC0 }) ∧
  decodeTableWord 64 0x02202A29E9A94649 =
    some (.sffma { fn := 1, d := .s 5, a := .s 6, b := .s 7, c := .s 8, t := 1, m := 2 }) ∧
  decodeTableWord 96 (0x080000296900038A + 0x40 * 2 ^ 64) =
    some (.rowCopy { a := .s 4, b := .s 5, x := 1, imm := .i32 0x40 }) ∧
  decodeTableWord 64 0x28000000000002C1 = some (.mzero { x := 5 }) ∧
  decodeTableWord 64 0x0000000000000004 = none

/-- Decoding the bytes of an instruction that bytes can hold gives it back, whatever stands behind them: no field and no
value of an operand is lost. -/
def Obligations.DecodeOfEncode : Prop :=
  ∀ (i : Instr) (rest : List Byte), encodable i = true → decode (encode i ++ rest) = .ok i

/-- NOP exists at three lengths, its only non-zero fields LEN and OP and its immediate zero; any other word of its opcode
traps ILLEGAL_ENCODING when a group that runs reads it at its program counter; NOP changes no register but the program
counter, no latch and nothing of the chain (03 R62, 06 R95). Where the spec is open this states the choices of the
model: log 66. -/
def Obligations.NopEncoding : Prop :=
  let other (n w : Nat) : Prop :=
    n ∈ [8, 12, 16] ∧ w < 2 ^ (8 * n) ∧ w / 4 % 256 = 1 ∧ w % 4 = n / 4 - 1 ∧ w ∉ [5, 6, 7]
  (∀ rest, decode (leBytes 8 5 ++ rest) = .ok (.nop {})) ∧
  (∀ rest, decode (leBytes 12 6 ++ rest) = .ok (.nop { imm := .i32 0 })) ∧
  (∀ rest, decode (leBytes 16 7 ++ rest) = .ok (.nop { imm := .i64 0 })) ∧
  (∀ n w rest, other n w → decode (leBytes n w ++ rest) = .error .encoding) ∧
  (∀ (s v : State) (k : GKey) (later : List GKey) (g : Group) (pa n w : Nat) (rest : List Byte),
    let u : State := { s with grant := later }
    s.agenda = [] → s.grant = k :: later → u.group? k = some g → g.mayIssue = true → g.pending = false → g.spec = none →
    u.toFetch k g = (false, v) →
    v.translate g.ctx .fetch g.regs.pc.toNat = .ok pa → v.poisonAt pa = false → v.blockBytes pa = leBytes n w ++ rest →
    other n w →
    step s = .next (v.trapGroup k { cause := cEncoding, xinfo := w % 2 ^ 64 } (rawLatch (w % 2 ^ 64)))) ∧
  ∀ (s : State) (k : GKey) (g : Group) (f : Fields), Ready s k g (.nop f) →
    exec (.nop f) s = .next ((s.ctlTrail k false g.regs.pc).setGroup k
      { g with regs := { g.regs with pc := g.regs.pc + BitVec.ofNat 64 f.len } })

/-! ### One step (03 R65, R66, 20 R343) -/

/-- A step runs what stands first: a step of the agenda; else the instruction that the group with the next issue slot reads
at its program counter, when the bytes there decode to it and nothing waits for a switch point; else what waits for one
(03 R63, R65, 20 R343). A fetch from this device changes nothing before it unless a destination error stands against it
(01 R11); one that ends with error traps. Where the spec is open this states the choices of the model: log 1, 61, 65 and
66. -/
def Obligations.StepRunsDecoded : Prop :=
  ∀ (s v : State) (k : GKey) (rest : List GKey) (later : List Instr) (g : Group) (i : Instr) (pa : Nat),
    let u : State := { s with grant := rest }
    let turn : Prop := s.agenda = [] ∧ s.grant = k :: rest ∧ u.group? k = some g ∧ g.mayIssue = true
    let onward : Prop := g.pending = false ∨ u.mayHalt g = false
    (s.agenda = i :: later → step s = exec i { s with agenda := later }) ∧
    (turn → onward → u.toFetch k g = (false, v) →
      v.translate g.ctx .fetch g.regs.pc.toNat = .ok pa → v.poisonAt pa = false → decode (v.blockBytes pa) = .ok i →
      step s = exec i { v.fetched g with cur := some k } ∧
      ((∀ x ∈ v.lines, x.2.pot = none) → v.fetched g = v) ∧
      (v.fetched g = v ∨ v.fetched g = v.mergeLine .ext (lineOf pa))) ∧
    (turn → g.pending = true → u.mayHalt g = true → step s = .next (u.switchEvent k)) ∧
    (u.translate g.ctx .fetch g.regs.pc.toNat = .ok pa → u.isLocal pa = true → u.strays (.group k) = false →
      u.toFetch k g = (false, u)) ∧
    (turn → onward → g.spec = none → u.toFetch k g = (true, v) →
      step s = .next (v.trapGroup k { cause := cPoison, xaddr := (u.lostFetch g).xaddr } false))

/-- An instruction that names a register or latch that its group does not have raises ILLEGAL_OPERAND, and one that only a
supervisor may run raises PRIVILEGED in a user group, each precisely and with the word in XINFO; so do MFS and MTS that
name a privileged register in a user group, and a number that is not assigned, or that MTS may not write, raises
ILLEGAL_OPERAND (02 R39, 03 R65, R66, 28 R428). -/
def Obligations.DecodeOrderTraps : Prop :=
  ∀ (s : State) (k : GKey) (g : Group) (i : Instr) (r : Row) (f : Fields),
    let word := (baseWord r.op f).toNat
    s.cur = some k → s.group? k = some g → g.spec = none → row i = some r → fields i = some f → wellFormed i = true →
    (g.step5 r f = false → exec i s = trapResult s k i { cause := cOperand, xinfo := word }) ∧
    (g.step5 r f = true → r.priv = true → g.id.sup = false →
      exec i s = trapResult s k i { cause := cPrivileged, xinfo := word }) ∧
    (g.step5 r f = true → i = .mts f → writable (regNo f) = true → privReg (regNo f) = true → g.id.sup = false →
      exec i s = trapResult s k i { cause := cPrivileged, xinfo := word }) ∧
    (g.step5 r f = true → i = .mts f → writable (regNo f) = false →
      exec i s = trapResult s k i { cause := cOperand, xinfo := word }) ∧
    (g.step5 r f = true → i = .mfs f → mfsOk f = true → privReg (regNo f) = true → g.id.sup = false →
      exec i s = trapResult s k i { cause := cPrivileged, xinfo := word }) ∧
    (g.step5 r f = true → i = .mfs f → mfsOk f = false →
      exec i s = trapResult s k i { cause := cOperand, xinfo := word }) ∧
    (∀ n, privReg n = true ↔ n ∈ [0x00, 0x01, 0x02, 0x03, 0x0D, 0x0E, 0x0F]) ∧
    (∀ n, writable n = true ↔ n ∈ [0x00, 0x01, 0x02, 0x03, 0x0B, 0x0D, 0x0E, 0x0F])

/-! ### Taking a trap (28 R426 to R428, 26 R414) -/

/-- A trap of a group outside ordered launches is delivered at its instruction: the group is suspended, its latches lost,
xcause, xpc, xaddr and xinfo take the values of the record, and the record goes to the trap queue; a FROZEN record
freezes the group; a record finds its slot by the write index when there is room, else it waits with HELD; a record that
no supervisor group of its partition can act on raises a mailbox event (28 R426 to R428, 26 R414, 25 R398). The trap
record has 64 bytes, with its fields where R427 puts them. Where the spec is open this states the choices of the model:
log 22, 23 and 60. -/
def Obligations.TrapTaken : Prop :=
  (∀ (s : State) (k : GKey) (g u : Group) (t : Trap) (chain : Bool) (r : TrapRec) (n : Nat) (p : Part) (h : HeldRec),
     let rec_ := s.groupRec k g t chain g.regs.pc
     let v := s.departWhere fun w => w.g = k
     let stopped : Group :=
       { u with regs := u.regs.loseLatches, xcause := r.cause, xpc := r.xpc, xaddr := r.xaddr, xinfo := r.xinfo, stepOnce := false }
     let sent (x : Group) : State :=
       ((v.setGroup k x).trail (keyCore k) k.rs.toNat 6 r.cause.toNat r.xpc.toNat).pushRec u.id.part.toNat
         { r := r, g := some k }
     let at_ := p.tqBase + 64 * (p.tqw.toNat % p.tqSize)
     let room := p.tqw.toNat - p.tqr.toNat < p.tqSize
     (s.group? k = some g → g.ord = none → s.trapGroup k t chain = s.deliver k rec_) ∧
     (t.tag = none → rec_.cause = BitVec.ofNat 8 t.cause ∧ rec_.xpc = g.regs.pc ∧ rec_.xaddr = BitVec.ofNat 64 t.xaddr ∧
       rec_.xinfo = BitVec.ofNat 64 t.xinfo ∧ rec_.supv = g.id.sup ∧ rec_.chain = chain ∧ rec_.cyc = s.cyc ∧
       rec_.master = BitVec.ofNat 64 (k.rs.toNat * 2 ^ 32 + k.y.toNat * 2 ^ 8 + k.x.toNat)) ∧
     (v.group? k = some u → r.cause ≠ 0x15 → s.deliver k r = sent { stopped with run := .trapped r none }) ∧
     (v.group? k = some u → r.cause = 0x15 → s.deliver k r = sent { stopped with frozen := some (r, none) }) ∧
     (s.part? n = some p → p.recs = [] → room → s.pushRec n h =
       ((((s.setPart n { p with recs := [{ h with r := { h.r with held := false } }] }).writeSectors .ext
         (bytesAt at_ { h.r with held := false }.bytes) false).setPart n { p with recs := [], tqw := p.tqw + 1 }).noteRec
         { h with r := { h.r with held := false } } p.tqw.toNat).hostEvent n) ∧
     (s.part? n = some p → (p.recs ≠ [] ∨ ¬room) →
       s.pushRec n h = s.setPart n { p with recs := p.recs ++ [{ h with r := { h.r with held := true } }] }) ∧
     ((∃ x ∈ s.groups, x.2.resolves n = true) → s.hostEvent n = s) ∧
     ((∀ x ∈ s.groups, x.2.resolves n = false) → s.hostEvent n = { s with hostEvents := s.hostEvents ++ [n] })) ∧
  (∀ (r : TrapRec),
     let b := r.bytes
     let num (i n : Nat) : Nat := recNat b i n
     b.length = 64 ∧ num 0 8 = r.xpc.toNat ∧ num 8 8 = r.xaddr.toNat ∧ num 16 8 = r.xinfo.toNat ∧ num 24 8 = r.master.toNat ∧
     num 32 1 = r.cause.toNat ∧ num 33 1 = r.chain.toNat + 2 * r.supv.toNat + 4 * r.held.toNat ∧ num 34 1 = r.didx.toNat ∧
     num 35 1 = r.dcause.toNat ∧ num 36 4 = 0 ∧ num 40 8 = r.head.toNat ∧ num 48 8 = r.daddr.toNat ∧ num 56 8 = r.cyc.toNat)

/-! ### Registers (02 R26 to R29, 03 R54, 10 R198) -/

/-- s0 reads zero and p0 ones, and both discard writes; a scalar destination takes the result and b0 with it, also where N
or s0 discards the write; the latches move up; a vector destination takes results at the elements that are written and
keeps the others, and every other register stands (02 R26, R28, R29, 03 R54). -/
def Obligations.RegisterWrites : Prop :=
  ∀ (r : Regs) (d : BitVec 6) (j : Nat) (x : SReg) (y : PReg) (i : BitVec 7) (act : Nat → Bool) (res : Nat → Elem)
    (e : Nat),
    let sd := r.sdst (.s d) x
    let vd := r.vdst (.v i) false (writesOf act res)
    let wd := r.vdst (.v i) true (writesOf act res)
    r.sget 0 = {} ∧ (r.pget 0).val = BitVec.allOnes 1024 ∧ r.sset 0 x = r ∧ r.pset 0 y = r ∧
    (d ≠ 0 → sd.sget d.toNat = x) ∧ (j ≠ d.toNat → sd.sget j = r.sget j) ∧
    sd.latchAt 0 = .scal x ∧ sd.latchAt 1 = r.latchAt 0 ∧ sd.latchAt 2 = r.latchAt 1 ∧ sd.latchAt 3 = r.latchAt 2 ∧
    r.sdst .zero x = r.fillLatch (.scal x) ∧ r.sdst (.s 0) x = r.fillLatch (.scal x) ∧
    { sd with s := r.s, latch := r.latch } = r ∧
    (e < 1024 → ((vd.vreg i.toNat).at e).v =
      (if act e then ((res e).v.setWidth 32 : Word32).setWidth 64 else ((r.vreg i.toNat).at e).v)) ∧
    (e < 1024 → ((vd.vreg i.toNat).at e).tag = (if act e then (res e).tag else ((r.vreg i.toNat).at e).tag)) ∧
    (j ≠ i.toNat → vd.vreg j = r.vreg j) ∧ { vd with v := r.v, latch := r.latch } = r ∧
    (e < 1024 → i.toNat < 127 → (pairAt (wd.vreg i.toNat) (wd.vreg (i.toNat + 1)) e).v =
      (if act e then (res e).v else (pairAt (r.vreg i.toNat) (r.vreg (i.toNat + 1)) e).v)) ∧
    (j ≠ i.toNat → j ≠ i.toNat + 1 → wd.vreg j = r.vreg j)

/-- TLRD writes the completion count, the issue number or the error latch to its destination and acquires nothing; CLRERR
clears the latch that it reads in the same step, and a command that fails afterwards sets it again (10 R198). -/
def Obligations.TimelineReads : Prop :=
  ∀ (s : State) (k : GKey) (g : Group) (f : Fields) (n lt : Nat),
    let tl := f.x.toNat % 16
    let tm := vget g.tl tl {}
    let err : Word64 := if tm.err then 1 else 0
    let read (i : Instr) (v : Word64) : Prop :=
      Ready s k g i → ∃ x, exec i s = .next (s.setGroup k x) ∧ x.regs.latchAt 0 = .scal { val := v } ∧
        (∀ d, f.d = .s d → d ≠ 0 → x.regs.sget d.toNat = { val := v }) ∧ x.regs.lt = g.regs.lt ∧ x.tl = g.tl
    read (.tlrdDone f) tm.done ∧ read (.tlrdIssued f) tm.issued ∧ read (.tlrdErr f) err ∧
    (Ready s k g (.tlrdClrerr f) → ∃ x, exec (.tlrdClrerr f) s = .next (s.setGroup k x) ∧
      x.regs.latchAt 0 = .scal { val := err } ∧ (∀ d, f.d = .s d → d ≠ 0 → x.regs.sget d.toNat = { val := err }) ∧
      x.regs.lt = g.regs.lt ∧ vget x.tl tl {} = { tm with err := false } ∧
      ∀ j, j ≠ tl → vget x.tl j {} = vget g.tl j {}) ∧
    (tm.finish n lt true).err = true

/-- A scalar instruction that works on registers changes its group's program counter, chain, latches and destination, and
nothing else: no other register, no other group, no byte of memory. -/
def Obligations.ScalarFrame : Prop :=
  ∀ (s : State) (k : GKey) (g : Group) (f : Fields) (i : Instr),
    i ∈ [.sadd f, .ssub f, .smul f, .smulh f, .smadd f, .slog f, .sshf f, .sbit f, .smnx f, .sset f, .ssel f, .smov f,
      .slea f, .sbfx f, .sbfi f, .sfadd f, .sfmul f, .sffma f, .sfdiv f, .sfsqrt f, .sfcmp f, .sfcvt f, .tlrdDone f,
      .tlrdIssued f, .tlrdErr f, .trmScalar f] →
    Ready s k g i →
    ∃ x, exec i s = .next (s.setGroup k x) ∧ { x with regs := g.regs } = g ∧
      { x.regs with pc := g.regs.pc, chain := g.regs.chain, latch := g.regs.latch, s := g.regs.s } = g.regs ∧
      x.regs.pc = g.regs.pc + BitVec.ofNat 64 f.len ∧
      (∀ j, (∀ d, f.d = .s d → d.toNat ≠ j) → x.regs.sget j = g.regs.sget j) ∧
      (∀ a, (s.setGroup k x).byteAt a = s.byteAt a) ∧ ∀ j, j ≠ k → (s.setGroup k x).group? j = s.group? j

/-- A vector instruction that writes a vector destination at its active elements keeps every other element, with its flags;
it changes besides them its group's program counter, chain, latches and dic, and nothing else: no other register, no
other group, no byte of memory (02 R28, R40). -/
def Obligations.VectorFrame : Prop :=
  ∀ (s : State) (k : GKey) (g : Group) (f : Fields) (i : Instr) (d : BitVec 7),
    i ∈ [.vadd f, .vsub f, .vmul f, .vfadd f, .vfsub f, .vfmul f, .vfdiv f, .vfma f, .vfsqrt f, .vfexp f, .vflog f,
      .vfrnd f, .vfxp f, .vfmnx f, .vfsgn f, .vfscl f] →
    Ready s k g i → f.d = .v d →
    ∃ x, exec i s = .next (s.setGroup k x) ∧ { x with regs := g.regs } = g ∧
      { x.regs with
        pc := g.regs.pc, chain := g.regs.chain, latch := g.regs.latch, v := g.regs.v, flags := g.regs.flags,
        dic := g.regs.dic } = g.regs ∧
      (∀ j, j ≠ d.toNat → j ≠ d.toNat + 1 → x.regs.vreg j = g.regs.vreg j) ∧
      (∀ e, e < 1024 → g.active f e = false → (x.regs.vreg d.toNat).at e = (g.regs.vreg d.toNat).at e ∧
        flagsAt x.regs.flags e = flagsAt g.regs.flags e) ∧
      (∀ m, m < 16 → vget x.regs.dic m 0 = vget g.regs.dic m 0 + if g.inMask m then 1 else 0) ∧
      (∀ a, (s.setGroup k x).byteAt a = s.byteAt a) ∧ ∀ j, j ≠ k → (s.setGroup k x).group? j = s.group? j

/-! ### Memory (02 R24, R35, R36, 07 R122, 08 R147, 10 R184) -/

/-- Every element's offset is checked against its segment before any address is checked for alignment; an element that
leaves its segment raises SEGMENT with its offset, an address that is no multiple of the size MISALIGNED; what passes
lies at its base plus its offset. In space W the address so found names a group's scratchpad by DIE, ROW and COL and an
offset there; it is legal where DIE is 1 only for a cohort of width 16, COL lies in the die-half and ROW in the height,
and the access in the scratchpad allocated, else it raises SEGMENT (02 R24, R35 to R37, 10 R184, 28 R428). -/
def Obligations.AddressChecks : Prop :=
  ∀ (sg : Segs) (x : Inst) (pos size : Nat) (sp : Space) (els : List El) (off : Word64) (gmi : Nat),
    let place (e : El) : Except Nat (Nat × Place) := placeOf sg x pos sp size e.off e.gmi
    let fits (y : Seg) : Prop := off.toNat + size ≤ y.limit.toNat
    let at_ (sp : Space) : Except Nat (Nat × Place) := placeOf sg x pos sp size off gmi
    (fits sg.l → at_ spL = .ok ((sg.l.base + off).toNat, .pad pos (sg.l.base + off).toNat)) ∧ (¬fits sg.l → at_ spL = .error 0) ∧
    (¬fits sg.w → at_ spW = .error 1) ∧
    (fits sg.w →
      let wa := (sg.w.base + off).toNat
      let half := if x.width = 16 then 8 else x.width
      let col := wa / 2 ^ 20 % 8
      let row := wa / 2 ^ 23 % 8
      let die := wa / 2 ^ 26 % 2
      let o := wa % 2 ^ 20
      let legal : Prop := wa < 2 ^ 27 ∧ (die = 1 → x.width = 16) ∧ col < half ∧ row < x.height ∧ o + size ≤ x.spd * 32768
      (legal → at_ spW = .ok (o, .pad (row * x.width + 8 * die + col) o)) ∧ (¬legal → at_ spW = .error 1)) ∧
    (fits sg.k → at_ spK = .ok ((sg.k.base + off).toNat, .va (sg.k.base + off).toNat)) ∧ (¬fits sg.k → at_ spK = .error 2) ∧
    (fits sg.m → let a := (sg.m.base + BitVec.ofNat 64 (gmi * sg.m.stride.toNat) + off).toNat
      at_ spM = .ok (a, .va a)) ∧ (¬fits sg.m → at_ spM = .error 3) ∧
    at_ spG = .ok (off.toNat, .va off.toNat) ∧ at_ spS = .ok (off.toNat, .va off.toNat) ∧
    (∀ pre e post n, els = pre ++ e :: post → (∀ y ∈ pre, ∃ z, place y = .ok z) → place e = .error n →
      placesOf sg x pos sp size els = .error { cause := cSegment, xaddr := e.off.toNat, xinfo := n + e.e * 2 ^ 16 }) ∧
    (∀ ps, placesOf sg x pos sp size els = .ok ps →
      ps.map (·.1) = els.map (·.e) ∧ ∀ e ∈ els, ∃ a p, place e = .ok (a, p) ∧ a % size = 0 ∧ (e.e, p) ∈ ps) ∧
    (∀ t, (∀ e ∈ els, ∃ z, place e = .ok z) → placesOf sg x pos sp size els = .error t →
      t.cause = cMisaligned ∧ t.xaddr % size ≠ 0)

/-- A plain write of bytes of one sector to a line without a P state that can be reached: the bytes read back, every other
byte of memory reads as before, a sector that is written whole loses its poison and no other sector changes; one that is
written in part keeps its poison too, unless the copy that the write dirties had met an error of its own or was sound
where the backing location was not (log 44); the canonical form stands, and the line takes a write timestamp above its
lease end and at or above the writer's time (07 R122, 08 R147). A write whose request ends with error is lost (01 R11,
29 R447, R448). Where the spec is open this states the choices of the model: log 44, 61 and 65. -/
def Obligations.WriteReadsBack : Prop :=
  ∀ (s : State) (a : Agent) (pa : Nat) (d : List Byte) (tracked : Bool),
    let t := s.writeOp a (bytesAt pa d) tracked
    let ln := lineOf pa
    let l := s.lineAt ln
    (d ≠ [] → s.lostAt pa = true → t = s) ∧
    (d ≠ [] → s.lostAt pa = false → (s.meets a pa).1 = true → t = (s.meets a pa).2) ∧
    (Memory.wf s.mem = true → Store.wf s.poison = true → d ≠ [] → pa % 32 + d.length ≤ 32 → s.lostAt pa = false →
    (s.meets a pa).1 = false → l.pot = none →
    (∀ i, (h : i < d.length) → t.byteAt (pa + i) = d[i]) ∧
    (∀ q, q < pa ∨ pa + d.length ≤ q → t.byteAt q = s.byteAt q) ∧
    (d.length = 32 → NSet.has t.poison (sectorOf pa) = false) ∧
    (∀ n, n ≠ sectorOf pa → NSet.has t.poison n = NSet.has s.poison n) ∧
    (l.struck a.tower? a.l1? = 0 → l.soundIn a.tower? a.l1? = 0 → d.length ≠ 32 →
      NSet.has t.poison (sectorOf pa) = NSet.has s.poison (sectorOf pa)) ∧
    Store.wf t.poison = true ∧ Memory.wf t.mem = true ∧ (s.lineAt ln).rts < (t.lineAt ln).wts ∧ s.ltOf a ≤ (t.lineAt ln).wts)

/-! ### Reset (01 R13, 29 R442, 02 R43, 20 R331) -/

/-- The machine after power comes on and before it is brought up: POWERED, with no partition, no group, no command and no
record, memory in its canonical form with nothing listed (01 R13, 29 R442). Which bytes unlisted memory reads as, that
the machine-check log is empty and that the clock is full are the model's choices (log 2, 13), and so are the empty list
of slots given and the empty agenda (log 12). A group starts with its argument pointer in s1, the other scalars, the
vector registers and the predicates but p0 zero, mk at its members, the mask stack, flags, deferral table and latches
empty, accumulators and tiles zero, and its program counter at the entry of its launch (02 R43, 20 R331). Where the spec
is open this states the choices of the model: log 2, 12 and 13. -/
def Obligations.ResetAndGroupStart : Prop :=
  (let s := State.reset
   s.powered = true ∧ s.bstate = 0 ∧ s.berr = 0 ∧ s.fwdig = 0 ∧ s.parts = [] ∧ s.groups = [] ∧ s.insts = [] ∧
   s.launches = [] ∧ s.cmds = [] ∧ s.mclog = [] ∧ s.mcw = 0 ∧ s.cyc = 0 ∧ s.throttle = 16 ∧ s.mem = [] ∧
   Canonical s ∧ (∀ a, s.byteAt a = 0 ∧ NSet.has s.poison (sectorOf a) = false) ∧ s.grant = [] ∧ s.agenda = []) ∧
  (∀ (id : Ident) (sg : Segs) (prio dl : Nat) (lt : Word64) (ord : Option Ordered),
     let g := freshGroup id sg prio dl lt ord
     let r := g.regs
     g.id = id ∧ g.segs = sg ∧ g.prio = BitVec.ofNat 3 prio ∧ g.svc = BitVec.ofNat 64 (id.svcMax.toNat + 4 * dl) ∧
     r.pc = id.entry ∧ r.sget 1 = { val := id.args } ∧ (∀ j, j ≠ 1 → r.sget j = {}) ∧
     (∀ j, r.vreg j = {} ∧ r.wreg j = {} ∧ vget g.tiles j {} = {}) ∧ (∀ j, j ≠ 0 → r.pget j = {}) ∧
     (∀ m, m < 16 → r.mask.getLsbD m = decide (m < id.mcount)) ∧ r.mstack = [] ∧ (∀ j, vget r.acc j {} = {}) ∧
     (∀ e, flagsAt r.flags e = 0) ∧ (∀ j, vget r.defer j none = none) ∧ (∀ j, r.latchAt j = .empty) ∧ r.lt = lt ∧
     (∀ m, m < 16 → vget r.dic m 0 = 0) ∧ r.fcr = 1 ∧ g.xcause = 0 ∧ g.xpc = 0 ∧ g.xaddr = 0 ∧ g.xinfo = 0 ∧ g.rp = 0 ∧
     g.mcls = g.prio ∧ g.run = .ready ∧ g.frozen = none)
end

