-- ==== Sys2Proof/Laws/Store.lean ====
section
/-!
SUPPORT. Laws of the canonical maps and of memory: read after write, and that every operation keeps the canonical form.
-/
namespace Sys2Proof.Machine
open Sys2Proof

/-! ### Maps -/

/-- A key put reads back; the others are untouched. -/
theorem Store.get?_put {α : Type} (m : Store α) (i j : Nat) (a : α) :
    Store.get? (Store.put m i a) j = if j = i then some a else Store.get? m j := by
  induction m with
  | nil => by_cases h : j = i <;> simp [Store.put, Store.get?, h]
  | cons x r ih =>
    obtain ⟨k, b⟩ := x
    simp only [Store.put]
    split
    · simp [Store.get?]
    · split
      · subst_vars
        simp only [Store.get?]
        split <;> rfl
      · simp only [Store.get?]
        split
        · subst_vars
          split
          · omega
          · rfl
        · exact ih

@[simp] theorem Store.get?_put_self {α : Type} (m : Store α) (i : Nat) (a : α) :
    Store.get? (Store.put m i a) i = some a := by simp [Store.get?_put]

theorem Store.get?_put_ne {α : Type} (m : Store α) {i j : Nat} (a : α) (h : j ≠ i) :
    Store.get? (Store.put m i a) j = Store.get? m j := by simp [Store.get?_put, h]

/-- The last of two writes to one key stands. -/
@[simp] theorem Store.put_put {α : Type} (m : Store α) (i : Nat) (a b : α) :
    Store.put (Store.put m i a) i b = Store.put m i b := by
  induction m with
  | nil => simp [Store.put]
  | cons x r ih =>
    obtain ⟨k, c⟩ := x
    simp only [Store.put]
    split
    · simp [Store.put]
    · split
      · simp [Store.put]
      · simp [Store.put, *]

theorem Store.above_put {α : Type} (m : Store α) (i : Nat) (a : α) (o : Option Nat)
    (h : Store.above o m = true) (ho : ∀ b, o = some b → b < i) : Store.above o (Store.put m i a) = true := by
  induction m generalizing o with
  | nil => cases o <;> simp_all [Store.put, Store.above]
  | cons x r ih =>
    obtain ⟨k, c⟩ := x
    simp only [Store.put]
    split
    · cases o <;> simp_all [Store.above]
    · split
      · subst_vars; cases o <;> simp_all [Store.above]
      · have hk : k < i := by omega
        cases o <;> simp_all [Store.above]

/-- Putting a key keeps the canonical form. -/
theorem Store.wf_put {α : Type} (m : Store α) (i : Nat) (a : α) (h : Store.wf m = true) :
    Store.wf (Store.put m i a) = true := Store.above_put m i a none h (by simp)

theorem Store.above_mono {α : Type} (m : Store α) {b c : Nat} (hbc : b ≤ c) (h : Store.above (some c) m = true) :
    Store.above (some b) m = true := by
  cases m with
  | nil => rfl
  | cons x r => obtain ⟨k, d⟩ := x; simp_all [Store.above]; omega

theorem Store.above_del {α : Type} (m : Store α) (i : Nat) (o : Option Nat)
    (h : Store.above o m = true) : Store.above o (Store.del m i) = true := by
  induction m generalizing o with
  | nil => cases o <;> rfl
  | cons x r ih =>
    obtain ⟨k, c⟩ := x
    simp only [Store.del]
    split
    · cases o with
      | none =>
        cases r with
        | nil => rfl
        | cons y r => obtain ⟨j, d⟩ := y; simp_all [Store.above]
      | some b =>
        simp only [Store.above, Bool.and_eq_true, decide_eq_true_eq] at h
        exact Store.above_mono r (Nat.le_of_lt h.1) h.2
    · cases o <;> simp_all [Store.above]

/-- Removing a key keeps the canonical form. -/
theorem Store.wf_del {α : Type} (m : Store α) (i : Nat) (h : Store.wf m = true) :
    Store.wf (Store.del m i) = true := Store.above_del m i none h

theorem Store.get?_above {α : Type} (m : Store α) (b i : Nat) (h : Store.above (some b) m = true) (hi : i ≤ b) :
    Store.get? m i = none := by
  induction m generalizing b with
  | nil => rfl
  | cons x r ih =>
    obtain ⟨k, c⟩ := x
    simp only [Store.above, Bool.and_eq_true, decide_eq_true_eq] at h
    simp only [Store.get?]
    split
    · omega
    · exact ih k h.2 (by omega)

/-- A key removed from a canonical map is absent; the others are untouched. -/
theorem Store.get?_del {α : Type} (m : Store α) (i j : Nat) (h : Store.wf m = true) :
    Store.get? (Store.del m i) j = if j = i then none else Store.get? m j := by
  suffices H : ∀ (m : Store α) (o : Option Nat), Store.above o m = true →
      Store.get? (Store.del m i) j = if j = i then none else Store.get? m j from H m none h
  intro m
  induction m with
  | nil => intro o _; simp [Store.del, Store.get?]
  | cons x r ih =>
    obtain ⟨k, c⟩ := x
    intro o h
    have hr : Store.above (some k) r = true := by cases o <;> simp_all [Store.above]
    simp only [Store.del]
    by_cases hik : i = k
    · subst hik
      by_cases hj : j = i
      · subst hj; simp [Store.get?_above r j j hr (Nat.le_refl _)]
      · simp [Store.get?, hj]
    · by_cases hj : j = k
      · subst hj; simp [Store.get?, hik, Ne.symm hik]
      · simp [Store.get?, hik, hj, ih (some k) hr]

theorem Store.all_put {α : Type} (m : Store α) (p : α → Bool) (i : Nat) (a : α) (h : m.all (fun x => p x.2) = true)
    (ha : p a = true) : (Store.put m i a).all (fun x => p x.2) = true := by
  induction m with
  | nil => simp [Store.put, ha]
  | cons x r ih =>
    obtain ⟨k, c⟩ := x
    simp only [List.all_cons, Bool.and_eq_true] at h
    simp only [Store.put]
    split
    · simp only [List.all_cons, Bool.and_eq_true]; exact ⟨ha, h⟩
    · split
      · simp only [List.all_cons, Bool.and_eq_true]; exact ⟨ha, h.2⟩
      · simp only [List.all_cons, Bool.and_eq_true]; exact ⟨h.1, ih h.2⟩

theorem Store.all_del {α : Type} (m : Store α) (p : α → Bool) (i : Nat) (h : m.all (fun x => p x.2) = true) :
    (Store.del m i).all (fun x => p x.2) = true := by
  induction m with
  | nil => rfl
  | cons x r ih =>
    obtain ⟨k, c⟩ := x
    simp only [List.all_cons, Bool.and_eq_true] at h
    simp only [Store.del]
    split
    · exact h.2
    · simp only [List.all_cons, Bool.and_eq_true]; exact ⟨h.1, ih h.2⟩

/-- Keeping some entries keeps the order of the keys. -/
theorem Store.above_filter {α : Type} (m : Store α) (p : Nat × α → Bool) (o : Option Nat) (h : Store.above o m = true) :
    Store.above o (m.filter p) = true := by
  induction m generalizing o with
  | nil => cases o <;> rfl
  | cons x r ih =>
    obtain ⟨k, c⟩ := x
    have hr : Store.above (some k) r = true := by cases o <;> simp_all [Store.above]
    by_cases hp : p (k, c) = true
    · rw [List.filter_cons_of_pos hp]
      cases o <;> simp_all [Store.above]
    · rw [List.filter_cons_of_neg hp]
      cases o with
      | none => exact ih none (by cases r with | nil => rfl | cons y r => obtain ⟨j, d⟩ := y; simp_all [Store.above])
      | some b =>
        simp only [Store.above, Bool.and_eq_true, decide_eq_true_eq] at h
        exact ih (some b) (Store.above_mono r (Nat.le_of_lt h.1) h.2)

/-! ### Memory -/

/-- A byte written keeps the canonical form. -/
theorem Memory.wf_put (m : Store Byte) (pa : Nat) (b : Byte) (h : Memory.wf m = true) :
    Memory.wf (Memory.put m pa b) = true := by
  simp only [Memory.wf, Bool.and_eq_true] at h ⊢
  unfold Memory.put
  split
  · exact ⟨Store.wf_del m pa h.1, Store.all_del m (· != 0) pa h.2⟩
  · exact ⟨Store.wf_put m pa b h.1, Store.all_put m (· != 0) pa b h.2 (by simp_all)⟩

/-- Bytes written as one operation keep the canonical form. -/
theorem Memory.wf_putAll (l : List (Nat × Byte)) (m : Store Byte) (h : Memory.wf m = true) :
    Memory.wf (putAll m l) = true := by
  induction l generalizing m with
  | nil => exact h
  | cons x r ih => exact ih _ (Memory.wf_put m x.1 x.2 h)

/-- Clearing a range of memory keeps the canonical form. -/
theorem Memory.wf_filter (m : Store Byte) (p : Nat × Byte → Bool) (h : Memory.wf m = true) :
    Memory.wf (m.filter p) = true := by
  simp only [Memory.wf, Bool.and_eq_true, List.all_eq_true, List.mem_filter] at h ⊢
  exact ⟨Store.above_filter m p none h.1, fun x hx => h.2 x hx.1⟩

/-- The byte written is read back; the others are untouched. -/
theorem Memory.getD_put (m : Store Byte) (pa a : Nat) (b : Byte) (h : Memory.wf m = true) :
    Store.getD (Memory.put m pa b) a 0 = if a = pa then b else Store.getD m a 0 := by
  simp only [Memory.wf, Bool.and_eq_true] at h
  unfold Memory.put Store.getD
  split
  · rw [Store.get?_del m pa a h.1]; split <;> simp_all
  · rw [Store.get?_put]; split <;> simp_all

/-- An address that no byte of a write names keeps its byte. -/
theorem Memory.getD_putAll_ne (l : List (Nat × Byte)) (m : Store Byte) (a : Nat) (h : Memory.wf m = true)
    (ha : ∀ x ∈ l, x.1 ≠ a) : Store.getD (putAll m l) a 0 = Store.getD m a 0 := by
  induction l generalizing m with
  | nil => rfl
  | cons x r ih =>
    obtain ⟨pa, b⟩ := x
    have h1 : a ≠ pa := fun e => ha (pa, b) (by simp) e.symm
    simp only [putAll]
    rw [ih _ (Memory.wf_put m pa b h) (fun x hx => ha x (by simp [hx])), Memory.getD_put m pa a b h]
    simp [h1]

/-- The bytes put into backing memory keep its canonical form. -/
theorem State.putBytes_wf (s : State) (l : List (Nat × Byte)) (h : Memory.wf s.mem = true) :
    Memory.wf (s.putBytes l).mem = true := Memory.wf_putAll l s.mem h

/-- Memory after reset is in canonical form. -/
theorem State.reset_wf : Memory.wf State.reset.mem = true := by decide

end Sys2Proof.Machine
end

