-- ==== Sys2Proof/Laws/State.lean ====
section
/-!
SUPPORT. What each update of the state leaves as it was, one lemma for each field.
-/
namespace Sys2Proof.Machine
open Sys2Proof

/-! ### Updates of the machine -/

@[simp] theorem State.setGroup_cyc (s : State) (k : GKey) (g : Group) : (s.setGroup k g).cyc = s.cyc := rfl
@[simp] theorem State.setGroup_time (s : State) (k : GKey) (g : Group) : (s.setGroup k g).time = s.time := rfl
@[simp] theorem State.setGroup_flits (s : State) (k : GKey) (g : Group) : (s.setGroup k g).flits = s.flits := rfl
@[simp] theorem State.setGroup_mem (s : State) (k : GKey) (g : Group) : (s.setGroup k g).mem = s.mem := rfl
@[simp] theorem State.setGroup_poison (s : State) (k : GKey) (g : Group) : (s.setGroup k g).poison = s.poison := rfl
@[simp] theorem State.setGroup_dirty (s : State) (k : GKey) (g : Group) : (s.setGroup k g).dirty = s.dirty := rfl
@[simp] theorem State.setGroup_lines (s : State) (k : GKey) (g : Group) : (s.setGroup k g).lines = s.lines := rfl
@[simp] theorem State.setGroup_bases (s : State) (k : GKey) (g : Group) : (s.setGroup k g).bases = s.bases := rfl
@[simp] theorem State.setGroup_floor (s : State) (k : GKey) (g : Group) : (s.setGroup k g).floor = s.floor := rfl
@[simp] theorem State.setGroup_ccopies (s : State) (k : GKey) (g : Group) : (s.setGroup k g).ccopies = s.ccopies := rfl
@[simp] theorem State.setGroup_wc (s : State) (k : GKey) (g : Group) : (s.setGroup k g).wc = s.wc := rfl
@[simp] theorem State.setGroup_versions (s : State) (k : GKey) (g : Group) : (s.setGroup k g).versions = s.versions := rfl
@[simp] theorem State.setGroup_outbox (s : State) (k : GKey) (g : Group) : (s.setGroup k g).outbox = s.outbox := rfl
@[simp] theorem State.setGroup_dram (s : State) (k : GKey) (g : Group) : (s.setGroup k g).dram = s.dram := rfl
@[simp] theorem State.setGroup_served (s : State) (k : GKey) (g : Group) : (s.setGroup k g).served = s.served := rfl
@[simp] theorem State.setGroup_tlb (s : State) (k : GKey) (g : Group) : (s.setGroup k g).tlb = s.tlb := rfl
@[simp] theorem State.setGroup_walkCache (s : State) (k : GKey) (g : Group) : (s.setGroup k g).walkCache = s.walkCache := rfl
@[simp] theorem State.setGroup_gens (s : State) (k : GKey) (g : Group) : (s.setGroup k g).gens = s.gens := rfl
@[simp] theorem State.setGroup_walks (s : State) (k : GKey) (g : Group) : (s.setGroup k g).walks = s.walks := rfl
@[simp] theorem State.setGroup_tlbis (s : State) (k : GKey) (g : Group) : (s.setGroup k g).tlbis = s.tlbis := rfl
@[simp] theorem State.setGroup_migrations (s : State) (k : GKey) (g : Group) : (s.setGroup k g).migrations = s.migrations := rfl
@[simp] theorem State.setGroup_left (s : State) (k : GKey) (g : Group) : (s.setGroup k g).left = s.left := rfl
@[simp] theorem State.setGroup_insts (s : State) (k : GKey) (g : Group) : (s.setGroup k g).insts = s.insts := rfl
@[simp] theorem State.setGroup_launches (s : State) (k : GKey) (g : Group) : (s.setGroup k g).launches = s.launches := rfl
@[simp] theorem State.setGroup_children (s : State) (k : GKey) (g : Group) : (s.setGroup k g).children = s.children := rfl
@[simp] theorem State.setGroup_cmds (s : State) (k : GKey) (g : Group) : (s.setGroup k g).cmds = s.cmds := rfl
@[simp] theorem State.setGroup_parts (s : State) (k : GKey) (g : Group) : (s.setGroup k g).parts = s.parts := rfl
@[simp] theorem State.setGroup_cores (s : State) (k : GKey) (g : Group) : (s.setGroup k g).cores = s.cores := rfl
@[simp] theorem State.setGroup_fslots (s : State) (k : GKey) (g : Group) : (s.setGroup k g).fslots = s.fslots := rfl
@[simp] theorem State.setGroup_nextId (s : State) (k : GKey) (g : Group) : (s.setGroup k g).nextId = s.nextId := rfl
@[simp] theorem State.setGroup_order (s : State) (k : GKey) (g : Group) : (s.setGroup k g).order = s.order := rfl
@[simp] theorem State.setGroup_powered (s : State) (k : GKey) (g : Group) : (s.setGroup k g).powered = s.powered := rfl
@[simp] theorem State.setGroup_bstate (s : State) (k : GKey) (g : Group) : (s.setGroup k g).bstate = s.bstate := rfl
@[simp] theorem State.setGroup_berr (s : State) (k : GKey) (g : Group) : (s.setGroup k g).berr = s.berr := rfl
@[simp] theorem State.setGroup_lup (s : State) (k : GKey) (g : Group) : (s.setGroup k g).lup = s.lup := rfl
@[simp] theorem State.setGroup_halt (s : State) (k : GKey) (g : Group) : (s.setGroup k g).halt = s.halt := rfl
@[simp] theorem State.setGroup_fwdig (s : State) (k : GKey) (g : Group) : (s.setGroup k g).fwdig = s.fwdig := rfl
@[simp] theorem State.setGroup_devnum (s : State) (k : GKey) (g : Group) : (s.setGroup k g).devnum = s.devnum := rfl
@[simp] theorem State.setGroup_domain (s : State) (k : GKey) (g : Group) : (s.setGroup k g).domain = s.domain := rfl
@[simp] theorem State.setGroup_unreachable (s : State) (k : GKey) (g : Group) : (s.setGroup k g).unreachable = s.unreachable := rfl
@[simp] theorem State.setGroup_temp (s : State) (k : GKey) (g : Group) : (s.setGroup k g).temp = s.temp := rfl
@[simp] theorem State.setGroup_tcs (s : State) (k : GKey) (g : Group) : (s.setGroup k g).tcs = s.tcs := rfl
@[simp] theorem State.setGroup_mbox (s : State) (k : GKey) (g : Group) : (s.setGroup k g).mbox = s.mbox := rfl
@[simp] theorem State.setGroup_links (s : State) (k : GKey) (g : Group) : (s.setGroup k g).links = s.links := rfl
@[simp] theorem State.setGroup_expanders (s : State) (k : GKey) (g : Group) : (s.setGroup k g).expanders = s.expanders := rfl
@[simp] theorem State.setGroup_vfs (s : State) (k : GKey) (g : Group) : (s.setGroup k g).vfs = s.vfs := rfl
@[simp] theorem State.setGroup_vfFrozen (s : State) (k : GKey) (g : Group) : (s.setGroup k g).vfFrozen = s.vfFrozen := rfl
@[simp] theorem State.setGroup_vfRefused (s : State) (k : GKey) (g : Group) : (s.setGroup k g).vfRefused = s.vfRefused := rfl
@[simp] theorem State.setGroup_peerFrozen (s : State) (k : GKey) (g : Group) : (s.setGroup k g).peerFrozen = s.peerFrozen := rfl
@[simp] theorem State.setGroup_peerRefused (s : State) (k : GKey) (g : Group) : (s.setGroup k g).peerRefused = s.peerRefused := rfl
@[simp] theorem State.setGroup_mclog (s : State) (k : GKey) (g : Group) : (s.setGroup k g).mclog = s.mclog := rfl
@[simp] theorem State.setGroup_mcw (s : State) (k : GKey) (g : Group) : (s.setGroup k g).mcw = s.mcw := rfl
@[simp] theorem State.setGroup_corrected (s : State) (k : GKey) (g : Group) : (s.setGroup k g).corrected = s.corrected := rfl
@[simp] theorem State.setGroup_slots (s : State) (k : GKey) (g : Group) : (s.setGroup k g).slots = s.slots := rfl
@[simp] theorem State.setGroup_firm (s : State) (k : GKey) (g : Group) : (s.setGroup k g).firm = s.firm := rfl
@[simp] theorem State.setGroup_astray (s : State) (k : GKey) (g : Group) : (s.setGroup k g).astray = s.astray := rfl
@[simp] theorem State.setGroup_asking (s : State) (k : GKey) (g : Group) : (s.setGroup k g).asking = s.asking := rfl
@[simp] theorem State.setGroup_throttle (s : State) (k : GKey) (g : Group) : (s.setGroup k g).throttle = s.throttle := rfl
@[simp] theorem State.setGroup_reply (s : State) (k : GKey) (g : Group) : (s.setGroup k g).reply = s.reply := rfl
@[simp] theorem State.setGroup_hostEvents (s : State) (k : GKey) (g : Group) : (s.setGroup k g).hostEvents = s.hostEvents := rfl
@[simp] theorem State.setGroup_agenda (s : State) (k : GKey) (g : Group) : (s.setGroup k g).agenda = s.agenda := rfl
@[simp] theorem State.setGroup_grant (s : State) (k : GKey) (g : Group) : (s.setGroup k g).grant = s.grant := rfl
@[simp] theorem State.setGroup_cur (s : State) (k : GKey) (g : Group) : (s.setGroup k g).cur = s.cur := rfl
@[simp] theorem State.setGroup_nonce (s : State) (k : GKey) (g : Group) : (s.setGroup k g).nonce = s.nonce := rfl
@[simp] theorem State.setGroup_power (s : State) (k : GKey) (g : Group) : (s.setGroup k g).power = s.power := rfl

@[simp] theorem State.setCore_cyc (s : State) (c : Nat) (k : Core) : (s.setCore c k).cyc = s.cyc := rfl
@[simp] theorem State.setCore_time (s : State) (c : Nat) (k : Core) : (s.setCore c k).time = s.time := rfl
@[simp] theorem State.setCore_flits (s : State) (c : Nat) (k : Core) : (s.setCore c k).flits = s.flits := rfl
@[simp] theorem State.setCore_mem (s : State) (c : Nat) (k : Core) : (s.setCore c k).mem = s.mem := rfl
@[simp] theorem State.setCore_poison (s : State) (c : Nat) (k : Core) : (s.setCore c k).poison = s.poison := rfl
@[simp] theorem State.setCore_dirty (s : State) (c : Nat) (k : Core) : (s.setCore c k).dirty = s.dirty := rfl
@[simp] theorem State.setCore_lines (s : State) (c : Nat) (k : Core) : (s.setCore c k).lines = s.lines := rfl
@[simp] theorem State.setCore_bases (s : State) (c : Nat) (k : Core) : (s.setCore c k).bases = s.bases := rfl
@[simp] theorem State.setCore_floor (s : State) (c : Nat) (k : Core) : (s.setCore c k).floor = s.floor := rfl
@[simp] theorem State.setCore_ccopies (s : State) (c : Nat) (k : Core) : (s.setCore c k).ccopies = s.ccopies := rfl
@[simp] theorem State.setCore_wc (s : State) (c : Nat) (k : Core) : (s.setCore c k).wc = s.wc := rfl
@[simp] theorem State.setCore_versions (s : State) (c : Nat) (k : Core) : (s.setCore c k).versions = s.versions := rfl
@[simp] theorem State.setCore_outbox (s : State) (c : Nat) (k : Core) : (s.setCore c k).outbox = s.outbox := rfl
@[simp] theorem State.setCore_dram (s : State) (c : Nat) (k : Core) : (s.setCore c k).dram = s.dram := rfl
@[simp] theorem State.setCore_served (s : State) (c : Nat) (k : Core) : (s.setCore c k).served = s.served := rfl
@[simp] theorem State.setCore_tlb (s : State) (c : Nat) (k : Core) : (s.setCore c k).tlb = s.tlb := rfl
@[simp] theorem State.setCore_walkCache (s : State) (c : Nat) (k : Core) : (s.setCore c k).walkCache = s.walkCache := rfl
@[simp] theorem State.setCore_gens (s : State) (c : Nat) (k : Core) : (s.setCore c k).gens = s.gens := rfl
@[simp] theorem State.setCore_walks (s : State) (c : Nat) (k : Core) : (s.setCore c k).walks = s.walks := rfl
@[simp] theorem State.setCore_tlbis (s : State) (c : Nat) (k : Core) : (s.setCore c k).tlbis = s.tlbis := rfl
@[simp] theorem State.setCore_migrations (s : State) (c : Nat) (k : Core) : (s.setCore c k).migrations = s.migrations := rfl
@[simp] theorem State.setCore_groups (s : State) (c : Nat) (k : Core) : (s.setCore c k).groups = s.groups := rfl
@[simp] theorem State.setCore_left (s : State) (c : Nat) (k : Core) : (s.setCore c k).left = s.left := rfl
@[simp] theorem State.setCore_insts (s : State) (c : Nat) (k : Core) : (s.setCore c k).insts = s.insts := rfl
@[simp] theorem State.setCore_launches (s : State) (c : Nat) (k : Core) : (s.setCore c k).launches = s.launches := rfl
@[simp] theorem State.setCore_children (s : State) (c : Nat) (k : Core) : (s.setCore c k).children = s.children := rfl
@[simp] theorem State.setCore_cmds (s : State) (c : Nat) (k : Core) : (s.setCore c k).cmds = s.cmds := rfl
@[simp] theorem State.setCore_parts (s : State) (c : Nat) (k : Core) : (s.setCore c k).parts = s.parts := rfl
@[simp] theorem State.setCore_fslots (s : State) (c : Nat) (k : Core) : (s.setCore c k).fslots = s.fslots := rfl
@[simp] theorem State.setCore_nextId (s : State) (c : Nat) (k : Core) : (s.setCore c k).nextId = s.nextId := rfl
@[simp] theorem State.setCore_order (s : State) (c : Nat) (k : Core) : (s.setCore c k).order = s.order := rfl
@[simp] theorem State.setCore_powered (s : State) (c : Nat) (k : Core) : (s.setCore c k).powered = s.powered := rfl
@[simp] theorem State.setCore_bstate (s : State) (c : Nat) (k : Core) : (s.setCore c k).bstate = s.bstate := rfl
@[simp] theorem State.setCore_berr (s : State) (c : Nat) (k : Core) : (s.setCore c k).berr = s.berr := rfl
@[simp] theorem State.setCore_lup (s : State) (c : Nat) (k : Core) : (s.setCore c k).lup = s.lup := rfl
@[simp] theorem State.setCore_halt (s : State) (c : Nat) (k : Core) : (s.setCore c k).halt = s.halt := rfl
@[simp] theorem State.setCore_fwdig (s : State) (c : Nat) (k : Core) : (s.setCore c k).fwdig = s.fwdig := rfl
@[simp] theorem State.setCore_devnum (s : State) (c : Nat) (k : Core) : (s.setCore c k).devnum = s.devnum := rfl
@[simp] theorem State.setCore_domain (s : State) (c : Nat) (k : Core) : (s.setCore c k).domain = s.domain := rfl
@[simp] theorem State.setCore_unreachable (s : State) (c : Nat) (k : Core) : (s.setCore c k).unreachable = s.unreachable := rfl
@[simp] theorem State.setCore_temp (s : State) (c : Nat) (k : Core) : (s.setCore c k).temp = s.temp := rfl
@[simp] theorem State.setCore_tcs (s : State) (c : Nat) (k : Core) : (s.setCore c k).tcs = s.tcs := rfl
@[simp] theorem State.setCore_mbox (s : State) (c : Nat) (k : Core) : (s.setCore c k).mbox = s.mbox := rfl
@[simp] theorem State.setCore_links (s : State) (c : Nat) (k : Core) : (s.setCore c k).links = s.links := rfl
@[simp] theorem State.setCore_expanders (s : State) (c : Nat) (k : Core) : (s.setCore c k).expanders = s.expanders := rfl
@[simp] theorem State.setCore_vfs (s : State) (c : Nat) (k : Core) : (s.setCore c k).vfs = s.vfs := rfl
@[simp] theorem State.setCore_vfFrozen (s : State) (c : Nat) (k : Core) : (s.setCore c k).vfFrozen = s.vfFrozen := rfl
@[simp] theorem State.setCore_vfRefused (s : State) (c : Nat) (k : Core) : (s.setCore c k).vfRefused = s.vfRefused := rfl
@[simp] theorem State.setCore_peerFrozen (s : State) (c : Nat) (k : Core) : (s.setCore c k).peerFrozen = s.peerFrozen := rfl
@[simp] theorem State.setCore_peerRefused (s : State) (c : Nat) (k : Core) : (s.setCore c k).peerRefused = s.peerRefused := rfl
@[simp] theorem State.setCore_mclog (s : State) (c : Nat) (k : Core) : (s.setCore c k).mclog = s.mclog := rfl
@[simp] theorem State.setCore_mcw (s : State) (c : Nat) (k : Core) : (s.setCore c k).mcw = s.mcw := rfl
@[simp] theorem State.setCore_corrected (s : State) (c : Nat) (k : Core) : (s.setCore c k).corrected = s.corrected := rfl
@[simp] theorem State.setCore_slots (s : State) (c : Nat) (k : Core) : (s.setCore c k).slots = s.slots := rfl
@[simp] theorem State.setCore_firm (s : State) (c : Nat) (k : Core) : (s.setCore c k).firm = s.firm := rfl
@[simp] theorem State.setCore_astray (s : State) (c : Nat) (k : Core) : (s.setCore c k).astray = s.astray := rfl
@[simp] theorem State.setCore_asking (s : State) (c : Nat) (k : Core) : (s.setCore c k).asking = s.asking := rfl
@[simp] theorem State.setCore_throttle (s : State) (c : Nat) (k : Core) : (s.setCore c k).throttle = s.throttle := rfl
@[simp] theorem State.setCore_reply (s : State) (c : Nat) (k : Core) : (s.setCore c k).reply = s.reply := rfl
@[simp] theorem State.setCore_hostEvents (s : State) (c : Nat) (k : Core) : (s.setCore c k).hostEvents = s.hostEvents := rfl
@[simp] theorem State.setCore_agenda (s : State) (c : Nat) (k : Core) : (s.setCore c k).agenda = s.agenda := rfl
@[simp] theorem State.setCore_grant (s : State) (c : Nat) (k : Core) : (s.setCore c k).grant = s.grant := rfl
@[simp] theorem State.setCore_cur (s : State) (c : Nat) (k : Core) : (s.setCore c k).cur = s.cur := rfl
@[simp] theorem State.setCore_nonce (s : State) (c : Nat) (k : Core) : (s.setCore c k).nonce = s.nonce := rfl
@[simp] theorem State.setCore_power (s : State) (c : Nat) (k : Core) : (s.setCore c k).power = s.power := rfl

@[simp] theorem State.setInst_cyc (s : State) (i : Nat) (x : Inst) : (s.setInst i x).cyc = s.cyc := rfl
@[simp] theorem State.setInst_time (s : State) (i : Nat) (x : Inst) : (s.setInst i x).time = s.time := rfl
@[simp] theorem State.setInst_flits (s : State) (i : Nat) (x : Inst) : (s.setInst i x).flits = s.flits := rfl
@[simp] theorem State.setInst_mem (s : State) (i : Nat) (x : Inst) : (s.setInst i x).mem = s.mem := rfl
@[simp] theorem State.setInst_poison (s : State) (i : Nat) (x : Inst) : (s.setInst i x).poison = s.poison := rfl
@[simp] theorem State.setInst_dirty (s : State) (i : Nat) (x : Inst) : (s.setInst i x).dirty = s.dirty := rfl
@[simp] theorem State.setInst_lines (s : State) (i : Nat) (x : Inst) : (s.setInst i x).lines = s.lines := rfl
@[simp] theorem State.setInst_bases (s : State) (i : Nat) (x : Inst) : (s.setInst i x).bases = s.bases := rfl
@[simp] theorem State.setInst_floor (s : State) (i : Nat) (x : Inst) : (s.setInst i x).floor = s.floor := rfl
@[simp] theorem State.setInst_ccopies (s : State) (i : Nat) (x : Inst) : (s.setInst i x).ccopies = s.ccopies := rfl
@[simp] theorem State.setInst_wc (s : State) (i : Nat) (x : Inst) : (s.setInst i x).wc = s.wc := rfl
@[simp] theorem State.setInst_versions (s : State) (i : Nat) (x : Inst) : (s.setInst i x).versions = s.versions := rfl
@[simp] theorem State.setInst_outbox (s : State) (i : Nat) (x : Inst) : (s.setInst i x).outbox = s.outbox := rfl
@[simp] theorem State.setInst_dram (s : State) (i : Nat) (x : Inst) : (s.setInst i x).dram = s.dram := rfl
@[simp] theorem State.setInst_served (s : State) (i : Nat) (x : Inst) : (s.setInst i x).served = s.served := rfl
@[simp] theorem State.setInst_tlb (s : State) (i : Nat) (x : Inst) : (s.setInst i x).tlb = s.tlb := rfl
@[simp] theorem State.setInst_walkCache (s : State) (i : Nat) (x : Inst) : (s.setInst i x).walkCache = s.walkCache := rfl
@[simp] theorem State.setInst_gens (s : State) (i : Nat) (x : Inst) : (s.setInst i x).gens = s.gens := rfl
@[simp] theorem State.setInst_walks (s : State) (i : Nat) (x : Inst) : (s.setInst i x).walks = s.walks := rfl
@[simp] theorem State.setInst_tlbis (s : State) (i : Nat) (x : Inst) : (s.setInst i x).tlbis = s.tlbis := rfl
@[simp] theorem State.setInst_migrations (s : State) (i : Nat) (x : Inst) : (s.setInst i x).migrations = s.migrations := rfl
@[simp] theorem State.setInst_groups (s : State) (i : Nat) (x : Inst) : (s.setInst i x).groups = s.groups := rfl
@[simp] theorem State.setInst_left (s : State) (i : Nat) (x : Inst) : (s.setInst i x).left = s.left := rfl
@[simp] theorem State.setInst_launches (s : State) (i : Nat) (x : Inst) : (s.setInst i x).launches = s.launches := rfl
@[simp] theorem State.setInst_children (s : State) (i : Nat) (x : Inst) : (s.setInst i x).children = s.children := rfl
@[simp] theorem State.setInst_cmds (s : State) (i : Nat) (x : Inst) : (s.setInst i x).cmds = s.cmds := rfl
@[simp] theorem State.setInst_parts (s : State) (i : Nat) (x : Inst) : (s.setInst i x).parts = s.parts := rfl
@[simp] theorem State.setInst_cores (s : State) (i : Nat) (x : Inst) : (s.setInst i x).cores = s.cores := rfl
@[simp] theorem State.setInst_fslots (s : State) (i : Nat) (x : Inst) : (s.setInst i x).fslots = s.fslots := rfl
@[simp] theorem State.setInst_nextId (s : State) (i : Nat) (x : Inst) : (s.setInst i x).nextId = s.nextId := rfl
@[simp] theorem State.setInst_order (s : State) (i : Nat) (x : Inst) : (s.setInst i x).order = s.order := rfl
@[simp] theorem State.setInst_powered (s : State) (i : Nat) (x : Inst) : (s.setInst i x).powered = s.powered := rfl
@[simp] theorem State.setInst_bstate (s : State) (i : Nat) (x : Inst) : (s.setInst i x).bstate = s.bstate := rfl
@[simp] theorem State.setInst_berr (s : State) (i : Nat) (x : Inst) : (s.setInst i x).berr = s.berr := rfl
@[simp] theorem State.setInst_lup (s : State) (i : Nat) (x : Inst) : (s.setInst i x).lup = s.lup := rfl
@[simp] theorem State.setInst_halt (s : State) (i : Nat) (x : Inst) : (s.setInst i x).halt = s.halt := rfl
@[simp] theorem State.setInst_fwdig (s : State) (i : Nat) (x : Inst) : (s.setInst i x).fwdig = s.fwdig := rfl
@[simp] theorem State.setInst_devnum (s : State) (i : Nat) (x : Inst) : (s.setInst i x).devnum = s.devnum := rfl
@[simp] theorem State.setInst_domain (s : State) (i : Nat) (x : Inst) : (s.setInst i x).domain = s.domain := rfl
@[simp] theorem State.setInst_unreachable (s : State) (i : Nat) (x : Inst) : (s.setInst i x).unreachable = s.unreachable := rfl
@[simp] theorem State.setInst_temp (s : State) (i : Nat) (x : Inst) : (s.setInst i x).temp = s.temp := rfl
@[simp] theorem State.setInst_tcs (s : State) (i : Nat) (x : Inst) : (s.setInst i x).tcs = s.tcs := rfl
@[simp] theorem State.setInst_mbox (s : State) (i : Nat) (x : Inst) : (s.setInst i x).mbox = s.mbox := rfl
@[simp] theorem State.setInst_links (s : State) (i : Nat) (x : Inst) : (s.setInst i x).links = s.links := rfl
@[simp] theorem State.setInst_expanders (s : State) (i : Nat) (x : Inst) : (s.setInst i x).expanders = s.expanders := rfl
@[simp] theorem State.setInst_vfs (s : State) (i : Nat) (x : Inst) : (s.setInst i x).vfs = s.vfs := rfl
@[simp] theorem State.setInst_vfFrozen (s : State) (i : Nat) (x : Inst) : (s.setInst i x).vfFrozen = s.vfFrozen := rfl
@[simp] theorem State.setInst_vfRefused (s : State) (i : Nat) (x : Inst) : (s.setInst i x).vfRefused = s.vfRefused := rfl
@[simp] theorem State.setInst_peerFrozen (s : State) (i : Nat) (x : Inst) : (s.setInst i x).peerFrozen = s.peerFrozen := rfl
@[simp] theorem State.setInst_peerRefused (s : State) (i : Nat) (x : Inst) : (s.setInst i x).peerRefused = s.peerRefused := rfl
@[simp] theorem State.setInst_mclog (s : State) (i : Nat) (x : Inst) : (s.setInst i x).mclog = s.mclog := rfl
@[simp] theorem State.setInst_mcw (s : State) (i : Nat) (x : Inst) : (s.setInst i x).mcw = s.mcw := rfl
@[simp] theorem State.setInst_corrected (s : State) (i : Nat) (x : Inst) : (s.setInst i x).corrected = s.corrected := rfl
@[simp] theorem State.setInst_slots (s : State) (i : Nat) (x : Inst) : (s.setInst i x).slots = s.slots := rfl
@[simp] theorem State.setInst_firm (s : State) (i : Nat) (x : Inst) : (s.setInst i x).firm = s.firm := rfl
@[simp] theorem State.setInst_astray (s : State) (i : Nat) (x : Inst) : (s.setInst i x).astray = s.astray := rfl
@[simp] theorem State.setInst_asking (s : State) (i : Nat) (x : Inst) : (s.setInst i x).asking = s.asking := rfl
@[simp] theorem State.setInst_throttle (s : State) (i : Nat) (x : Inst) : (s.setInst i x).throttle = s.throttle := rfl
@[simp] theorem State.setInst_reply (s : State) (i : Nat) (x : Inst) : (s.setInst i x).reply = s.reply := rfl
@[simp] theorem State.setInst_hostEvents (s : State) (i : Nat) (x : Inst) : (s.setInst i x).hostEvents = s.hostEvents := rfl
@[simp] theorem State.setInst_agenda (s : State) (i : Nat) (x : Inst) : (s.setInst i x).agenda = s.agenda := rfl
@[simp] theorem State.setInst_grant (s : State) (i : Nat) (x : Inst) : (s.setInst i x).grant = s.grant := rfl
@[simp] theorem State.setInst_cur (s : State) (i : Nat) (x : Inst) : (s.setInst i x).cur = s.cur := rfl
@[simp] theorem State.setInst_nonce (s : State) (i : Nat) (x : Inst) : (s.setInst i x).nonce = s.nonce := rfl
@[simp] theorem State.setInst_power (s : State) (i : Nat) (x : Inst) : (s.setInst i x).power = s.power := rfl

@[simp] theorem State.setPart_cyc (s : State) (p : Nat) (x : Part) : (s.setPart p x).cyc = s.cyc := rfl
@[simp] theorem State.setPart_time (s : State) (p : Nat) (x : Part) : (s.setPart p x).time = s.time := rfl
@[simp] theorem State.setPart_flits (s : State) (p : Nat) (x : Part) : (s.setPart p x).flits = s.flits := rfl
@[simp] theorem State.setPart_mem (s : State) (p : Nat) (x : Part) : (s.setPart p x).mem = s.mem := rfl
@[simp] theorem State.setPart_poison (s : State) (p : Nat) (x : Part) : (s.setPart p x).poison = s.poison := rfl
@[simp] theorem State.setPart_dirty (s : State) (p : Nat) (x : Part) : (s.setPart p x).dirty = s.dirty := rfl
@[simp] theorem State.setPart_lines (s : State) (p : Nat) (x : Part) : (s.setPart p x).lines = s.lines := rfl
@[simp] theorem State.setPart_bases (s : State) (p : Nat) (x : Part) : (s.setPart p x).bases = s.bases := rfl
@[simp] theorem State.setPart_floor (s : State) (p : Nat) (x : Part) : (s.setPart p x).floor = s.floor := rfl
@[simp] theorem State.setPart_ccopies (s : State) (p : Nat) (x : Part) : (s.setPart p x).ccopies = s.ccopies := rfl
@[simp] theorem State.setPart_wc (s : State) (p : Nat) (x : Part) : (s.setPart p x).wc = s.wc := rfl
@[simp] theorem State.setPart_versions (s : State) (p : Nat) (x : Part) : (s.setPart p x).versions = s.versions := rfl
@[simp] theorem State.setPart_outbox (s : State) (p : Nat) (x : Part) : (s.setPart p x).outbox = s.outbox := rfl
@[simp] theorem State.setPart_dram (s : State) (p : Nat) (x : Part) : (s.setPart p x).dram = s.dram := rfl
@[simp] theorem State.setPart_served (s : State) (p : Nat) (x : Part) : (s.setPart p x).served = s.served := rfl
@[simp] theorem State.setPart_tlb (s : State) (p : Nat) (x : Part) : (s.setPart p x).tlb = s.tlb := rfl
@[simp] theorem State.setPart_walkCache (s : State) (p : Nat) (x : Part) : (s.setPart p x).walkCache = s.walkCache := rfl
@[simp] theorem State.setPart_gens (s : State) (p : Nat) (x : Part) : (s.setPart p x).gens = s.gens := rfl
@[simp] theorem State.setPart_walks (s : State) (p : Nat) (x : Part) : (s.setPart p x).walks = s.walks := rfl
@[simp] theorem State.setPart_tlbis (s : State) (p : Nat) (x : Part) : (s.setPart p x).tlbis = s.tlbis := rfl
@[simp] theorem State.setPart_migrations (s : State) (p : Nat) (x : Part) : (s.setPart p x).migrations = s.migrations := rfl
@[simp] theorem State.setPart_groups (s : State) (p : Nat) (x : Part) : (s.setPart p x).groups = s.groups := rfl
@[simp] theorem State.setPart_left (s : State) (p : Nat) (x : Part) : (s.setPart p x).left = s.left := rfl
@[simp] theorem State.setPart_insts (s : State) (p : Nat) (x : Part) : (s.setPart p x).insts = s.insts := rfl
@[simp] theorem State.setPart_launches (s : State) (p : Nat) (x : Part) : (s.setPart p x).launches = s.launches := rfl
@[simp] theorem State.setPart_children (s : State) (p : Nat) (x : Part) : (s.setPart p x).children = s.children := rfl
@[simp] theorem State.setPart_cmds (s : State) (p : Nat) (x : Part) : (s.setPart p x).cmds = s.cmds := rfl
@[simp] theorem State.setPart_cores (s : State) (p : Nat) (x : Part) : (s.setPart p x).cores = s.cores := rfl
@[simp] theorem State.setPart_fslots (s : State) (p : Nat) (x : Part) : (s.setPart p x).fslots = s.fslots := rfl
@[simp] theorem State.setPart_nextId (s : State) (p : Nat) (x : Part) : (s.setPart p x).nextId = s.nextId := rfl
@[simp] theorem State.setPart_order (s : State) (p : Nat) (x : Part) : (s.setPart p x).order = s.order := rfl
@[simp] theorem State.setPart_powered (s : State) (p : Nat) (x : Part) : (s.setPart p x).powered = s.powered := rfl
@[simp] theorem State.setPart_bstate (s : State) (p : Nat) (x : Part) : (s.setPart p x).bstate = s.bstate := rfl
@[simp] theorem State.setPart_berr (s : State) (p : Nat) (x : Part) : (s.setPart p x).berr = s.berr := rfl
@[simp] theorem State.setPart_lup (s : State) (p : Nat) (x : Part) : (s.setPart p x).lup = s.lup := rfl
@[simp] theorem State.setPart_halt (s : State) (p : Nat) (x : Part) : (s.setPart p x).halt = s.halt := rfl
@[simp] theorem State.setPart_fwdig (s : State) (p : Nat) (x : Part) : (s.setPart p x).fwdig = s.fwdig := rfl
@[simp] theorem State.setPart_devnum (s : State) (p : Nat) (x : Part) : (s.setPart p x).devnum = s.devnum := rfl
@[simp] theorem State.setPart_domain (s : State) (p : Nat) (x : Part) : (s.setPart p x).domain = s.domain := rfl
@[simp] theorem State.setPart_unreachable (s : State) (p : Nat) (x : Part) : (s.setPart p x).unreachable = s.unreachable := rfl
@[simp] theorem State.setPart_temp (s : State) (p : Nat) (x : Part) : (s.setPart p x).temp = s.temp := rfl
@[simp] theorem State.setPart_tcs (s : State) (p : Nat) (x : Part) : (s.setPart p x).tcs = s.tcs := rfl
@[simp] theorem State.setPart_mbox (s : State) (p : Nat) (x : Part) : (s.setPart p x).mbox = s.mbox := rfl
@[simp] theorem State.setPart_links (s : State) (p : Nat) (x : Part) : (s.setPart p x).links = s.links := rfl
@[simp] theorem State.setPart_expanders (s : State) (p : Nat) (x : Part) : (s.setPart p x).expanders = s.expanders := rfl
@[simp] theorem State.setPart_vfs (s : State) (p : Nat) (x : Part) : (s.setPart p x).vfs = s.vfs := rfl
@[simp] theorem State.setPart_vfFrozen (s : State) (p : Nat) (x : Part) : (s.setPart p x).vfFrozen = s.vfFrozen := rfl
@[simp] theorem State.setPart_vfRefused (s : State) (p : Nat) (x : Part) : (s.setPart p x).vfRefused = s.vfRefused := rfl
@[simp] theorem State.setPart_peerFrozen (s : State) (p : Nat) (x : Part) : (s.setPart p x).peerFrozen = s.peerFrozen := rfl
@[simp] theorem State.setPart_peerRefused (s : State) (p : Nat) (x : Part) : (s.setPart p x).peerRefused = s.peerRefused := rfl
@[simp] theorem State.setPart_mclog (s : State) (p : Nat) (x : Part) : (s.setPart p x).mclog = s.mclog := rfl
@[simp] theorem State.setPart_mcw (s : State) (p : Nat) (x : Part) : (s.setPart p x).mcw = s.mcw := rfl
@[simp] theorem State.setPart_corrected (s : State) (p : Nat) (x : Part) : (s.setPart p x).corrected = s.corrected := rfl
@[simp] theorem State.setPart_slots (s : State) (p : Nat) (x : Part) : (s.setPart p x).slots = s.slots := rfl
@[simp] theorem State.setPart_firm (s : State) (p : Nat) (x : Part) : (s.setPart p x).firm = s.firm := rfl
@[simp] theorem State.setPart_astray (s : State) (p : Nat) (x : Part) : (s.setPart p x).astray = s.astray := rfl
@[simp] theorem State.setPart_asking (s : State) (p : Nat) (x : Part) : (s.setPart p x).asking = s.asking := rfl
@[simp] theorem State.setPart_throttle (s : State) (p : Nat) (x : Part) : (s.setPart p x).throttle = s.throttle := rfl
@[simp] theorem State.setPart_reply (s : State) (p : Nat) (x : Part) : (s.setPart p x).reply = s.reply := rfl
@[simp] theorem State.setPart_hostEvents (s : State) (p : Nat) (x : Part) : (s.setPart p x).hostEvents = s.hostEvents := rfl
@[simp] theorem State.setPart_agenda (s : State) (p : Nat) (x : Part) : (s.setPart p x).agenda = s.agenda := rfl
@[simp] theorem State.setPart_grant (s : State) (p : Nat) (x : Part) : (s.setPart p x).grant = s.grant := rfl
@[simp] theorem State.setPart_cur (s : State) (p : Nat) (x : Part) : (s.setPart p x).cur = s.cur := rfl
@[simp] theorem State.setPart_nonce (s : State) (p : Nat) (x : Part) : (s.setPart p x).nonce = s.nonce := rfl
@[simp] theorem State.setPart_power (s : State) (p : Nat) (x : Part) : (s.setPart p x).power = s.power := rfl

@[simp] theorem State.setLaunch_cyc (s : State) (l : Nat) (x : Launch) : (s.setLaunch l x).cyc = s.cyc := rfl
@[simp] theorem State.setLaunch_time (s : State) (l : Nat) (x : Launch) : (s.setLaunch l x).time = s.time := rfl
@[simp] theorem State.setLaunch_flits (s : State) (l : Nat) (x : Launch) : (s.setLaunch l x).flits = s.flits := rfl
@[simp] theorem State.setLaunch_mem (s : State) (l : Nat) (x : Launch) : (s.setLaunch l x).mem = s.mem := rfl
@[simp] theorem State.setLaunch_poison (s : State) (l : Nat) (x : Launch) : (s.setLaunch l x).poison = s.poison := rfl
@[simp] theorem State.setLaunch_dirty (s : State) (l : Nat) (x : Launch) : (s.setLaunch l x).dirty = s.dirty := rfl
@[simp] theorem State.setLaunch_lines (s : State) (l : Nat) (x : Launch) : (s.setLaunch l x).lines = s.lines := rfl
@[simp] theorem State.setLaunch_bases (s : State) (l : Nat) (x : Launch) : (s.setLaunch l x).bases = s.bases := rfl
@[simp] theorem State.setLaunch_floor (s : State) (l : Nat) (x : Launch) : (s.setLaunch l x).floor = s.floor := rfl
@[simp] theorem State.setLaunch_ccopies (s : State) (l : Nat) (x : Launch) : (s.setLaunch l x).ccopies = s.ccopies := rfl
@[simp] theorem State.setLaunch_wc (s : State) (l : Nat) (x : Launch) : (s.setLaunch l x).wc = s.wc := rfl
@[simp] theorem State.setLaunch_versions (s : State) (l : Nat) (x : Launch) : (s.setLaunch l x).versions = s.versions := rfl
@[simp] theorem State.setLaunch_outbox (s : State) (l : Nat) (x : Launch) : (s.setLaunch l x).outbox = s.outbox := rfl
@[simp] theorem State.setLaunch_dram (s : State) (l : Nat) (x : Launch) : (s.setLaunch l x).dram = s.dram := rfl
@[simp] theorem State.setLaunch_served (s : State) (l : Nat) (x : Launch) : (s.setLaunch l x).served = s.served := rfl
@[simp] theorem State.setLaunch_tlb (s : State) (l : Nat) (x : Launch) : (s.setLaunch l x).tlb = s.tlb := rfl
@[simp] theorem State.setLaunch_walkCache (s : State) (l : Nat) (x : Launch) : (s.setLaunch l x).walkCache = s.walkCache := rfl
@[simp] theorem State.setLaunch_gens (s : State) (l : Nat) (x : Launch) : (s.setLaunch l x).gens = s.gens := rfl
@[simp] theorem State.setLaunch_walks (s : State) (l : Nat) (x : Launch) : (s.setLaunch l x).walks = s.walks := rfl
@[simp] theorem State.setLaunch_tlbis (s : State) (l : Nat) (x : Launch) : (s.setLaunch l x).tlbis = s.tlbis := rfl
@[simp] theorem State.setLaunch_migrations (s : State) (l : Nat) (x : Launch) : (s.setLaunch l x).migrations = s.migrations := rfl
@[simp] theorem State.setLaunch_groups (s : State) (l : Nat) (x : Launch) : (s.setLaunch l x).groups = s.groups := rfl
@[simp] theorem State.setLaunch_left (s : State) (l : Nat) (x : Launch) : (s.setLaunch l x).left = s.left := rfl
@[simp] theorem State.setLaunch_insts (s : State) (l : Nat) (x : Launch) : (s.setLaunch l x).insts = s.insts := rfl
@[simp] theorem State.setLaunch_children (s : State) (l : Nat) (x : Launch) : (s.setLaunch l x).children = s.children := rfl
@[simp] theorem State.setLaunch_cmds (s : State) (l : Nat) (x : Launch) : (s.setLaunch l x).cmds = s.cmds := rfl
@[simp] theorem State.setLaunch_parts (s : State) (l : Nat) (x : Launch) : (s.setLaunch l x).parts = s.parts := rfl
@[simp] theorem State.setLaunch_cores (s : State) (l : Nat) (x : Launch) : (s.setLaunch l x).cores = s.cores := rfl
@[simp] theorem State.setLaunch_fslots (s : State) (l : Nat) (x : Launch) : (s.setLaunch l x).fslots = s.fslots := rfl
@[simp] theorem State.setLaunch_nextId (s : State) (l : Nat) (x : Launch) : (s.setLaunch l x).nextId = s.nextId := rfl
@[simp] theorem State.setLaunch_order (s : State) (l : Nat) (x : Launch) : (s.setLaunch l x).order = s.order := rfl
@[simp] theorem State.setLaunch_powered (s : State) (l : Nat) (x : Launch) : (s.setLaunch l x).powered = s.powered := rfl
@[simp] theorem State.setLaunch_bstate (s : State) (l : Nat) (x : Launch) : (s.setLaunch l x).bstate = s.bstate := rfl
@[simp] theorem State.setLaunch_berr (s : State) (l : Nat) (x : Launch) : (s.setLaunch l x).berr = s.berr := rfl
@[simp] theorem State.setLaunch_lup (s : State) (l : Nat) (x : Launch) : (s.setLaunch l x).lup = s.lup := rfl
@[simp] theorem State.setLaunch_halt (s : State) (l : Nat) (x : Launch) : (s.setLaunch l x).halt = s.halt := rfl
@[simp] theorem State.setLaunch_fwdig (s : State) (l : Nat) (x : Launch) : (s.setLaunch l x).fwdig = s.fwdig := rfl
@[simp] theorem State.setLaunch_devnum (s : State) (l : Nat) (x : Launch) : (s.setLaunch l x).devnum = s.devnum := rfl
@[simp] theorem State.setLaunch_domain (s : State) (l : Nat) (x : Launch) : (s.setLaunch l x).domain = s.domain := rfl
@[simp] theorem State.setLaunch_unreachable (s : State) (l : Nat) (x : Launch) : (s.setLaunch l x).unreachable = s.unreachable := rfl
@[simp] theorem State.setLaunch_temp (s : State) (l : Nat) (x : Launch) : (s.setLaunch l x).temp = s.temp := rfl
@[simp] theorem State.setLaunch_tcs (s : State) (l : Nat) (x : Launch) : (s.setLaunch l x).tcs = s.tcs := rfl
@[simp] theorem State.setLaunch_mbox (s : State) (l : Nat) (x : Launch) : (s.setLaunch l x).mbox = s.mbox := rfl
@[simp] theorem State.setLaunch_links (s : State) (l : Nat) (x : Launch) : (s.setLaunch l x).links = s.links := rfl
@[simp] theorem State.setLaunch_expanders (s : State) (l : Nat) (x : Launch) : (s.setLaunch l x).expanders = s.expanders := rfl
@[simp] theorem State.setLaunch_vfs (s : State) (l : Nat) (x : Launch) : (s.setLaunch l x).vfs = s.vfs := rfl
@[simp] theorem State.setLaunch_vfFrozen (s : State) (l : Nat) (x : Launch) : (s.setLaunch l x).vfFrozen = s.vfFrozen := rfl
@[simp] theorem State.setLaunch_vfRefused (s : State) (l : Nat) (x : Launch) : (s.setLaunch l x).vfRefused = s.vfRefused := rfl
@[simp] theorem State.setLaunch_peerFrozen (s : State) (l : Nat) (x : Launch) : (s.setLaunch l x).peerFrozen = s.peerFrozen := rfl
@[simp] theorem State.setLaunch_peerRefused (s : State) (l : Nat) (x : Launch) : (s.setLaunch l x).peerRefused = s.peerRefused := rfl
@[simp] theorem State.setLaunch_mclog (s : State) (l : Nat) (x : Launch) : (s.setLaunch l x).mclog = s.mclog := rfl
@[simp] theorem State.setLaunch_mcw (s : State) (l : Nat) (x : Launch) : (s.setLaunch l x).mcw = s.mcw := rfl
@[simp] theorem State.setLaunch_corrected (s : State) (l : Nat) (x : Launch) : (s.setLaunch l x).corrected = s.corrected := rfl
@[simp] theorem State.setLaunch_slots (s : State) (l : Nat) (x : Launch) : (s.setLaunch l x).slots = s.slots := rfl
@[simp] theorem State.setLaunch_firm (s : State) (l : Nat) (x : Launch) : (s.setLaunch l x).firm = s.firm := rfl
@[simp] theorem State.setLaunch_astray (s : State) (l : Nat) (x : Launch) : (s.setLaunch l x).astray = s.astray := rfl
@[simp] theorem State.setLaunch_asking (s : State) (l : Nat) (x : Launch) : (s.setLaunch l x).asking = s.asking := rfl
@[simp] theorem State.setLaunch_throttle (s : State) (l : Nat) (x : Launch) : (s.setLaunch l x).throttle = s.throttle := rfl
@[simp] theorem State.setLaunch_reply (s : State) (l : Nat) (x : Launch) : (s.setLaunch l x).reply = s.reply := rfl
@[simp] theorem State.setLaunch_hostEvents (s : State) (l : Nat) (x : Launch) : (s.setLaunch l x).hostEvents = s.hostEvents := rfl
@[simp] theorem State.setLaunch_agenda (s : State) (l : Nat) (x : Launch) : (s.setLaunch l x).agenda = s.agenda := rfl
@[simp] theorem State.setLaunch_grant (s : State) (l : Nat) (x : Launch) : (s.setLaunch l x).grant = s.grant := rfl
@[simp] theorem State.setLaunch_cur (s : State) (l : Nat) (x : Launch) : (s.setLaunch l x).cur = s.cur := rfl
@[simp] theorem State.setLaunch_nonce (s : State) (l : Nat) (x : Launch) : (s.setLaunch l x).nonce = s.nonce := rfl
@[simp] theorem State.setLaunch_power (s : State) (l : Nat) (x : Launch) : (s.setLaunch l x).power = s.power := rfl

@[simp] theorem State.setLine_cyc (s : State) (n : Nat) (l : Line) : (s.setLine n l).cyc = s.cyc := rfl
@[simp] theorem State.setLine_time (s : State) (n : Nat) (l : Line) : (s.setLine n l).time = s.time := rfl
@[simp] theorem State.setLine_flits (s : State) (n : Nat) (l : Line) : (s.setLine n l).flits = s.flits := rfl
@[simp] theorem State.setLine_mem (s : State) (n : Nat) (l : Line) : (s.setLine n l).mem = s.mem := rfl
@[simp] theorem State.setLine_poison (s : State) (n : Nat) (l : Line) : (s.setLine n l).poison = s.poison := rfl
@[simp] theorem State.setLine_dirty (s : State) (n : Nat) (l : Line) : (s.setLine n l).dirty = s.dirty := rfl
@[simp] theorem State.setLine_bases (s : State) (n : Nat) (l : Line) : (s.setLine n l).bases = s.bases := rfl
@[simp] theorem State.setLine_floor (s : State) (n : Nat) (l : Line) : (s.setLine n l).floor = s.floor := rfl
@[simp] theorem State.setLine_ccopies (s : State) (n : Nat) (l : Line) : (s.setLine n l).ccopies = s.ccopies := rfl
@[simp] theorem State.setLine_wc (s : State) (n : Nat) (l : Line) : (s.setLine n l).wc = s.wc := rfl
@[simp] theorem State.setLine_versions (s : State) (n : Nat) (l : Line) : (s.setLine n l).versions = s.versions := rfl
@[simp] theorem State.setLine_outbox (s : State) (n : Nat) (l : Line) : (s.setLine n l).outbox = s.outbox := rfl
@[simp] theorem State.setLine_dram (s : State) (n : Nat) (l : Line) : (s.setLine n l).dram = s.dram := rfl
@[simp] theorem State.setLine_served (s : State) (n : Nat) (l : Line) : (s.setLine n l).served = s.served := rfl
@[simp] theorem State.setLine_tlb (s : State) (n : Nat) (l : Line) : (s.setLine n l).tlb = s.tlb := rfl
@[simp] theorem State.setLine_walkCache (s : State) (n : Nat) (l : Line) : (s.setLine n l).walkCache = s.walkCache := rfl
@[simp] theorem State.setLine_gens (s : State) (n : Nat) (l : Line) : (s.setLine n l).gens = s.gens := rfl
@[simp] theorem State.setLine_walks (s : State) (n : Nat) (l : Line) : (s.setLine n l).walks = s.walks := rfl
@[simp] theorem State.setLine_tlbis (s : State) (n : Nat) (l : Line) : (s.setLine n l).tlbis = s.tlbis := rfl
@[simp] theorem State.setLine_migrations (s : State) (n : Nat) (l : Line) : (s.setLine n l).migrations = s.migrations := rfl
@[simp] theorem State.setLine_groups (s : State) (n : Nat) (l : Line) : (s.setLine n l).groups = s.groups := rfl
@[simp] theorem State.setLine_left (s : State) (n : Nat) (l : Line) : (s.setLine n l).left = s.left := rfl
@[simp] theorem State.setLine_insts (s : State) (n : Nat) (l : Line) : (s.setLine n l).insts = s.insts := rfl
@[simp] theorem State.setLine_launches (s : State) (n : Nat) (l : Line) : (s.setLine n l).launches = s.launches := rfl
@[simp] theorem State.setLine_children (s : State) (n : Nat) (l : Line) : (s.setLine n l).children = s.children := rfl
@[simp] theorem State.setLine_cmds (s : State) (n : Nat) (l : Line) : (s.setLine n l).cmds = s.cmds := rfl
@[simp] theorem State.setLine_parts (s : State) (n : Nat) (l : Line) : (s.setLine n l).parts = s.parts := rfl
@[simp] theorem State.setLine_cores (s : State) (n : Nat) (l : Line) : (s.setLine n l).cores = s.cores := rfl
@[simp] theorem State.setLine_fslots (s : State) (n : Nat) (l : Line) : (s.setLine n l).fslots = s.fslots := rfl
@[simp] theorem State.setLine_nextId (s : State) (n : Nat) (l : Line) : (s.setLine n l).nextId = s.nextId := rfl
@[simp] theorem State.setLine_order (s : State) (n : Nat) (l : Line) : (s.setLine n l).order = s.order := rfl
@[simp] theorem State.setLine_powered (s : State) (n : Nat) (l : Line) : (s.setLine n l).powered = s.powered := rfl
@[simp] theorem State.setLine_bstate (s : State) (n : Nat) (l : Line) : (s.setLine n l).bstate = s.bstate := rfl
@[simp] theorem State.setLine_berr (s : State) (n : Nat) (l : Line) : (s.setLine n l).berr = s.berr := rfl
@[simp] theorem State.setLine_lup (s : State) (n : Nat) (l : Line) : (s.setLine n l).lup = s.lup := rfl
@[simp] theorem State.setLine_halt (s : State) (n : Nat) (l : Line) : (s.setLine n l).halt = s.halt := rfl
@[simp] theorem State.setLine_fwdig (s : State) (n : Nat) (l : Line) : (s.setLine n l).fwdig = s.fwdig := rfl
@[simp] theorem State.setLine_devnum (s : State) (n : Nat) (l : Line) : (s.setLine n l).devnum = s.devnum := rfl
@[simp] theorem State.setLine_domain (s : State) (n : Nat) (l : Line) : (s.setLine n l).domain = s.domain := rfl
@[simp] theorem State.setLine_unreachable (s : State) (n : Nat) (l : Line) : (s.setLine n l).unreachable = s.unreachable := rfl
@[simp] theorem State.setLine_temp (s : State) (n : Nat) (l : Line) : (s.setLine n l).temp = s.temp := rfl
@[simp] theorem State.setLine_tcs (s : State) (n : Nat) (l : Line) : (s.setLine n l).tcs = s.tcs := rfl
@[simp] theorem State.setLine_mbox (s : State) (n : Nat) (l : Line) : (s.setLine n l).mbox = s.mbox := rfl
@[simp] theorem State.setLine_links (s : State) (n : Nat) (l : Line) : (s.setLine n l).links = s.links := rfl
@[simp] theorem State.setLine_expanders (s : State) (n : Nat) (l : Line) : (s.setLine n l).expanders = s.expanders := rfl
@[simp] theorem State.setLine_vfs (s : State) (n : Nat) (l : Line) : (s.setLine n l).vfs = s.vfs := rfl
@[simp] theorem State.setLine_vfFrozen (s : State) (n : Nat) (l : Line) : (s.setLine n l).vfFrozen = s.vfFrozen := rfl
@[simp] theorem State.setLine_vfRefused (s : State) (n : Nat) (l : Line) : (s.setLine n l).vfRefused = s.vfRefused := rfl
@[simp] theorem State.setLine_peerFrozen (s : State) (n : Nat) (l : Line) : (s.setLine n l).peerFrozen = s.peerFrozen := rfl
@[simp] theorem State.setLine_peerRefused (s : State) (n : Nat) (l : Line) : (s.setLine n l).peerRefused = s.peerRefused := rfl
@[simp] theorem State.setLine_mclog (s : State) (n : Nat) (l : Line) : (s.setLine n l).mclog = s.mclog := rfl
@[simp] theorem State.setLine_mcw (s : State) (n : Nat) (l : Line) : (s.setLine n l).mcw = s.mcw := rfl
@[simp] theorem State.setLine_corrected (s : State) (n : Nat) (l : Line) : (s.setLine n l).corrected = s.corrected := rfl
@[simp] theorem State.setLine_slots (s : State) (n : Nat) (l : Line) : (s.setLine n l).slots = s.slots := rfl
@[simp] theorem State.setLine_firm (s : State) (n : Nat) (l : Line) : (s.setLine n l).firm = s.firm := rfl
@[simp] theorem State.setLine_astray (s : State) (n : Nat) (l : Line) : (s.setLine n l).astray = s.astray := rfl
@[simp] theorem State.setLine_asking (s : State) (n : Nat) (l : Line) : (s.setLine n l).asking = s.asking := rfl
@[simp] theorem State.setLine_throttle (s : State) (n : Nat) (l : Line) : (s.setLine n l).throttle = s.throttle := rfl
@[simp] theorem State.setLine_reply (s : State) (n : Nat) (l : Line) : (s.setLine n l).reply = s.reply := rfl
@[simp] theorem State.setLine_hostEvents (s : State) (n : Nat) (l : Line) : (s.setLine n l).hostEvents = s.hostEvents := rfl
@[simp] theorem State.setLine_agenda (s : State) (n : Nat) (l : Line) : (s.setLine n l).agenda = s.agenda := rfl
@[simp] theorem State.setLine_grant (s : State) (n : Nat) (l : Line) : (s.setLine n l).grant = s.grant := rfl
@[simp] theorem State.setLine_cur (s : State) (n : Nat) (l : Line) : (s.setLine n l).cur = s.cur := rfl
@[simp] theorem State.setLine_nonce (s : State) (n : Nat) (l : Line) : (s.setLine n l).nonce = s.nonce := rfl
@[simp] theorem State.setLine_power (s : State) (n : Nat) (l : Line) : (s.setLine n l).power = s.power := rfl

/-- A Trail record changes its core at most. -/
theorem State.trail_or (s : State) (c rs typ aux pay : Nat) :
    s.trail c rs typ aux pay = s ∨ ∃ k, s.trail c rs typ aux pay = s.setCore c k := by
  unfold State.trail
  extract_lets on
  split
  · exact .inl rfl
  · split
    · exact .inr ⟨_, rfl⟩
    · exact .inr ⟨_, rfl⟩

@[simp] theorem State.onGroup_cyc (s : State) (k : GKey) (h : Group → Group) : (s.onGroup k h).cyc = s.cyc := by
  unfold State.onGroup; split <;> rfl
@[simp] theorem State.onGroup_time (s : State) (k : GKey) (h : Group → Group) : (s.onGroup k h).time = s.time := by
  unfold State.onGroup; split <;> rfl
@[simp] theorem State.onGroup_flits (s : State) (k : GKey) (h : Group → Group) : (s.onGroup k h).flits = s.flits := by
  unfold State.onGroup; split <;> rfl
@[simp] theorem State.onGroup_mem (s : State) (k : GKey) (h : Group → Group) : (s.onGroup k h).mem = s.mem := by
  unfold State.onGroup; split <;> rfl
@[simp] theorem State.onGroup_poison (s : State) (k : GKey) (h : Group → Group) : (s.onGroup k h).poison = s.poison := by
  unfold State.onGroup; split <;> rfl
@[simp] theorem State.onGroup_lines (s : State) (k : GKey) (h : Group → Group) : (s.onGroup k h).lines = s.lines := by
  unfold State.onGroup; split <;> rfl
@[simp] theorem State.onGroup_insts (s : State) (k : GKey) (h : Group → Group) : (s.onGroup k h).insts = s.insts := by
  unfold State.onGroup; split <;> rfl
@[simp] theorem State.onGroup_launches (s : State) (k : GKey) (h : Group → Group) : (s.onGroup k h).launches = s.launches := by
  unfold State.onGroup; split <;> rfl
@[simp] theorem State.onGroup_cmds (s : State) (k : GKey) (h : Group → Group) : (s.onGroup k h).cmds = s.cmds := by
  unfold State.onGroup; split <;> rfl
@[simp] theorem State.onGroup_parts (s : State) (k : GKey) (h : Group → Group) : (s.onGroup k h).parts = s.parts := by
  unfold State.onGroup; split <;> rfl
@[simp] theorem State.onGroup_cores (s : State) (k : GKey) (h : Group → Group) : (s.onGroup k h).cores = s.cores := by
  unfold State.onGroup; split <;> rfl
@[simp] theorem State.onGroup_slots (s : State) (k : GKey) (h : Group → Group) : (s.onGroup k h).slots = s.slots := by
  unfold State.onGroup; split <;> rfl
@[simp] theorem State.onGroup_tlb (s : State) (k : GKey) (h : Group → Group) : (s.onGroup k h).tlb = s.tlb := by
  unfold State.onGroup; split <;> rfl
@[simp] theorem State.onGroup_migrations (s : State) (k : GKey) (h : Group → Group) : (s.onGroup k h).migrations = s.migrations := by
  unfold State.onGroup; split <;> rfl
@[simp] theorem State.onGroup_versions (s : State) (k : GKey) (h : Group → Group) : (s.onGroup k h).versions = s.versions := by
  unfold State.onGroup; split <;> rfl
@[simp] theorem State.onGroup_agenda (s : State) (k : GKey) (h : Group → Group) : (s.onGroup k h).agenda = s.agenda := by
  unfold State.onGroup; split <;> rfl
@[simp] theorem State.onGroup_grant (s : State) (k : GKey) (h : Group → Group) : (s.onGroup k h).grant = s.grant := by
  unfold State.onGroup; split <;> rfl
@[simp] theorem State.onGroup_cur (s : State) (k : GKey) (h : Group → Group) : (s.onGroup k h).cur = s.cur := by
  unfold State.onGroup; split <;> rfl
@[simp] theorem State.onGroup_nonce (s : State) (k : GKey) (h : Group → Group) : (s.onGroup k h).nonce = s.nonce := by
  unfold State.onGroup; split <;> rfl

@[simp] theorem State.onInst_cyc (s : State) (i : Nat) (h : Inst → Inst) : (s.onInst i h).cyc = s.cyc := by
  unfold State.onInst; split <;> rfl
@[simp] theorem State.onInst_time (s : State) (i : Nat) (h : Inst → Inst) : (s.onInst i h).time = s.time := by
  unfold State.onInst; split <;> rfl
@[simp] theorem State.onInst_flits (s : State) (i : Nat) (h : Inst → Inst) : (s.onInst i h).flits = s.flits := by
  unfold State.onInst; split <;> rfl
@[simp] theorem State.onInst_mem (s : State) (i : Nat) (h : Inst → Inst) : (s.onInst i h).mem = s.mem := by
  unfold State.onInst; split <;> rfl
@[simp] theorem State.onInst_poison (s : State) (i : Nat) (h : Inst → Inst) : (s.onInst i h).poison = s.poison := by
  unfold State.onInst; split <;> rfl
@[simp] theorem State.onInst_lines (s : State) (i : Nat) (h : Inst → Inst) : (s.onInst i h).lines = s.lines := by
  unfold State.onInst; split <;> rfl
@[simp] theorem State.onInst_groups (s : State) (i : Nat) (h : Inst → Inst) : (s.onInst i h).groups = s.groups := by
  unfold State.onInst; split <;> rfl
@[simp] theorem State.onInst_launches (s : State) (i : Nat) (h : Inst → Inst) : (s.onInst i h).launches = s.launches := by
  unfold State.onInst; split <;> rfl
@[simp] theorem State.onInst_cmds (s : State) (i : Nat) (h : Inst → Inst) : (s.onInst i h).cmds = s.cmds := by
  unfold State.onInst; split <;> rfl
@[simp] theorem State.onInst_parts (s : State) (i : Nat) (h : Inst → Inst) : (s.onInst i h).parts = s.parts := by
  unfold State.onInst; split <;> rfl
@[simp] theorem State.onInst_cores (s : State) (i : Nat) (h : Inst → Inst) : (s.onInst i h).cores = s.cores := by
  unfold State.onInst; split <;> rfl
@[simp] theorem State.onInst_slots (s : State) (i : Nat) (h : Inst → Inst) : (s.onInst i h).slots = s.slots := by
  unfold State.onInst; split <;> rfl
@[simp] theorem State.onInst_tlb (s : State) (i : Nat) (h : Inst → Inst) : (s.onInst i h).tlb = s.tlb := by
  unfold State.onInst; split <;> rfl
@[simp] theorem State.onInst_migrations (s : State) (i : Nat) (h : Inst → Inst) : (s.onInst i h).migrations = s.migrations := by
  unfold State.onInst; split <;> rfl
@[simp] theorem State.onInst_versions (s : State) (i : Nat) (h : Inst → Inst) : (s.onInst i h).versions = s.versions := by
  unfold State.onInst; split <;> rfl
@[simp] theorem State.onInst_agenda (s : State) (i : Nat) (h : Inst → Inst) : (s.onInst i h).agenda = s.agenda := by
  unfold State.onInst; split <;> rfl
@[simp] theorem State.onInst_grant (s : State) (i : Nat) (h : Inst → Inst) : (s.onInst i h).grant = s.grant := by
  unfold State.onInst; split <;> rfl
@[simp] theorem State.onInst_cur (s : State) (i : Nat) (h : Inst → Inst) : (s.onInst i h).cur = s.cur := by
  unfold State.onInst; split <;> rfl
@[simp] theorem State.onInst_nonce (s : State) (i : Nat) (h : Inst → Inst) : (s.onInst i h).nonce = s.nonce := by
  unfold State.onInst; split <;> rfl

@[simp] theorem State.onPart_cyc (s : State) (p : Nat) (h : Part → Part) : (s.onPart p h).cyc = s.cyc := by
  unfold State.onPart; split <;> rfl
@[simp] theorem State.onPart_time (s : State) (p : Nat) (h : Part → Part) : (s.onPart p h).time = s.time := by
  unfold State.onPart; split <;> rfl
@[simp] theorem State.onPart_flits (s : State) (p : Nat) (h : Part → Part) : (s.onPart p h).flits = s.flits := by
  unfold State.onPart; split <;> rfl
@[simp] theorem State.onPart_mem (s : State) (p : Nat) (h : Part → Part) : (s.onPart p h).mem = s.mem := by
  unfold State.onPart; split <;> rfl
@[simp] theorem State.onPart_poison (s : State) (p : Nat) (h : Part → Part) : (s.onPart p h).poison = s.poison := by
  unfold State.onPart; split <;> rfl
@[simp] theorem State.onPart_lines (s : State) (p : Nat) (h : Part → Part) : (s.onPart p h).lines = s.lines := by
  unfold State.onPart; split <;> rfl
@[simp] theorem State.onPart_groups (s : State) (p : Nat) (h : Part → Part) : (s.onPart p h).groups = s.groups := by
  unfold State.onPart; split <;> rfl
@[simp] theorem State.onPart_insts (s : State) (p : Nat) (h : Part → Part) : (s.onPart p h).insts = s.insts := by
  unfold State.onPart; split <;> rfl
@[simp] theorem State.onPart_launches (s : State) (p : Nat) (h : Part → Part) : (s.onPart p h).launches = s.launches := by
  unfold State.onPart; split <;> rfl
@[simp] theorem State.onPart_cmds (s : State) (p : Nat) (h : Part → Part) : (s.onPart p h).cmds = s.cmds := by
  unfold State.onPart; split <;> rfl
@[simp] theorem State.onPart_cores (s : State) (p : Nat) (h : Part → Part) : (s.onPart p h).cores = s.cores := by
  unfold State.onPart; split <;> rfl
@[simp] theorem State.onPart_slots (s : State) (p : Nat) (h : Part → Part) : (s.onPart p h).slots = s.slots := by
  unfold State.onPart; split <;> rfl
@[simp] theorem State.onPart_tlb (s : State) (p : Nat) (h : Part → Part) : (s.onPart p h).tlb = s.tlb := by
  unfold State.onPart; split <;> rfl
@[simp] theorem State.onPart_migrations (s : State) (p : Nat) (h : Part → Part) : (s.onPart p h).migrations = s.migrations := by
  unfold State.onPart; split <;> rfl
@[simp] theorem State.onPart_versions (s : State) (p : Nat) (h : Part → Part) : (s.onPart p h).versions = s.versions := by
  unfold State.onPart; split <;> rfl
@[simp] theorem State.onPart_agenda (s : State) (p : Nat) (h : Part → Part) : (s.onPart p h).agenda = s.agenda := by
  unfold State.onPart; split <;> rfl
@[simp] theorem State.onPart_grant (s : State) (p : Nat) (h : Part → Part) : (s.onPart p h).grant = s.grant := by
  unfold State.onPart; split <;> rfl
@[simp] theorem State.onPart_cur (s : State) (p : Nat) (h : Part → Part) : (s.onPart p h).cur = s.cur := by
  unfold State.onPart; split <;> rfl
@[simp] theorem State.onPart_nonce (s : State) (p : Nat) (h : Part → Part) : (s.onPart p h).nonce = s.nonce := by
  unfold State.onPart; split <;> rfl

@[simp] theorem State.onLaunch_cyc (s : State) (l : Nat) (h : Launch → Launch) : (s.onLaunch l h).cyc = s.cyc := by
  unfold State.onLaunch; split <;> rfl
@[simp] theorem State.onLaunch_time (s : State) (l : Nat) (h : Launch → Launch) : (s.onLaunch l h).time = s.time := by
  unfold State.onLaunch; split <;> rfl
@[simp] theorem State.onLaunch_flits (s : State) (l : Nat) (h : Launch → Launch) : (s.onLaunch l h).flits = s.flits := by
  unfold State.onLaunch; split <;> rfl
@[simp] theorem State.onLaunch_mem (s : State) (l : Nat) (h : Launch → Launch) : (s.onLaunch l h).mem = s.mem := by
  unfold State.onLaunch; split <;> rfl
@[simp] theorem State.onLaunch_poison (s : State) (l : Nat) (h : Launch → Launch) : (s.onLaunch l h).poison = s.poison := by
  unfold State.onLaunch; split <;> rfl
@[simp] theorem State.onLaunch_lines (s : State) (l : Nat) (h : Launch → Launch) : (s.onLaunch l h).lines = s.lines := by
  unfold State.onLaunch; split <;> rfl
@[simp] theorem State.onLaunch_groups (s : State) (l : Nat) (h : Launch → Launch) : (s.onLaunch l h).groups = s.groups := by
  unfold State.onLaunch; split <;> rfl
@[simp] theorem State.onLaunch_insts (s : State) (l : Nat) (h : Launch → Launch) : (s.onLaunch l h).insts = s.insts := by
  unfold State.onLaunch; split <;> rfl
@[simp] theorem State.onLaunch_cmds (s : State) (l : Nat) (h : Launch → Launch) : (s.onLaunch l h).cmds = s.cmds := by
  unfold State.onLaunch; split <;> rfl
@[simp] theorem State.onLaunch_parts (s : State) (l : Nat) (h : Launch → Launch) : (s.onLaunch l h).parts = s.parts := by
  unfold State.onLaunch; split <;> rfl
@[simp] theorem State.onLaunch_cores (s : State) (l : Nat) (h : Launch → Launch) : (s.onLaunch l h).cores = s.cores := by
  unfold State.onLaunch; split <;> rfl
@[simp] theorem State.onLaunch_slots (s : State) (l : Nat) (h : Launch → Launch) : (s.onLaunch l h).slots = s.slots := by
  unfold State.onLaunch; split <;> rfl
@[simp] theorem State.onLaunch_tlb (s : State) (l : Nat) (h : Launch → Launch) : (s.onLaunch l h).tlb = s.tlb := by
  unfold State.onLaunch; split <;> rfl
@[simp] theorem State.onLaunch_migrations (s : State) (l : Nat) (h : Launch → Launch) : (s.onLaunch l h).migrations = s.migrations := by
  unfold State.onLaunch; split <;> rfl
@[simp] theorem State.onLaunch_versions (s : State) (l : Nat) (h : Launch → Launch) : (s.onLaunch l h).versions = s.versions := by
  unfold State.onLaunch; split <;> rfl
@[simp] theorem State.onLaunch_agenda (s : State) (l : Nat) (h : Launch → Launch) : (s.onLaunch l h).agenda = s.agenda := by
  unfold State.onLaunch; split <;> rfl
@[simp] theorem State.onLaunch_grant (s : State) (l : Nat) (h : Launch → Launch) : (s.onLaunch l h).grant = s.grant := by
  unfold State.onLaunch; split <;> rfl
@[simp] theorem State.onLaunch_cur (s : State) (l : Nat) (h : Launch → Launch) : (s.onLaunch l h).cur = s.cur := by
  unfold State.onLaunch; split <;> rfl
@[simp] theorem State.onLaunch_nonce (s : State) (l : Nat) (h : Launch → Launch) : (s.onLaunch l h).nonce = s.nonce := by
  unfold State.onLaunch; split <;> rfl

@[simp] theorem State.onCmd_cyc (s : State) (c : CKey) (h : Cmd → Cmd) : (s.onCmd c h).cyc = s.cyc := rfl
@[simp] theorem State.onCmd_time (s : State) (c : CKey) (h : Cmd → Cmd) : (s.onCmd c h).time = s.time := rfl
@[simp] theorem State.onCmd_flits (s : State) (c : CKey) (h : Cmd → Cmd) : (s.onCmd c h).flits = s.flits := rfl
@[simp] theorem State.onCmd_mem (s : State) (c : CKey) (h : Cmd → Cmd) : (s.onCmd c h).mem = s.mem := rfl
@[simp] theorem State.onCmd_poison (s : State) (c : CKey) (h : Cmd → Cmd) : (s.onCmd c h).poison = s.poison := rfl
@[simp] theorem State.onCmd_lines (s : State) (c : CKey) (h : Cmd → Cmd) : (s.onCmd c h).lines = s.lines := rfl
@[simp] theorem State.onCmd_groups (s : State) (c : CKey) (h : Cmd → Cmd) : (s.onCmd c h).groups = s.groups := rfl
@[simp] theorem State.onCmd_insts (s : State) (c : CKey) (h : Cmd → Cmd) : (s.onCmd c h).insts = s.insts := rfl
@[simp] theorem State.onCmd_launches (s : State) (c : CKey) (h : Cmd → Cmd) : (s.onCmd c h).launches = s.launches := rfl
@[simp] theorem State.onCmd_parts (s : State) (c : CKey) (h : Cmd → Cmd) : (s.onCmd c h).parts = s.parts := rfl
@[simp] theorem State.onCmd_cores (s : State) (c : CKey) (h : Cmd → Cmd) : (s.onCmd c h).cores = s.cores := rfl
@[simp] theorem State.onCmd_slots (s : State) (c : CKey) (h : Cmd → Cmd) : (s.onCmd c h).slots = s.slots := rfl
@[simp] theorem State.onCmd_tlb (s : State) (c : CKey) (h : Cmd → Cmd) : (s.onCmd c h).tlb = s.tlb := rfl
@[simp] theorem State.onCmd_migrations (s : State) (c : CKey) (h : Cmd → Cmd) : (s.onCmd c h).migrations = s.migrations := rfl
@[simp] theorem State.onCmd_versions (s : State) (c : CKey) (h : Cmd → Cmd) : (s.onCmd c h).versions = s.versions := rfl
@[simp] theorem State.onCmd_agenda (s : State) (c : CKey) (h : Cmd → Cmd) : (s.onCmd c h).agenda = s.agenda := rfl
@[simp] theorem State.onCmd_grant (s : State) (c : CKey) (h : Cmd → Cmd) : (s.onCmd c h).grant = s.grant := rfl
@[simp] theorem State.onCmd_cur (s : State) (c : CKey) (h : Cmd → Cmd) : (s.onCmd c h).cur = s.cur := rfl
@[simp] theorem State.onCmd_nonce (s : State) (c : CKey) (h : Cmd → Cmd) : (s.onCmd c h).nonce = s.nonce := rfl

@[simp] theorem State.putBytes_cyc (s : State) (l : List (Nat × Byte)) : (s.putBytes l).cyc = s.cyc := rfl
@[simp] theorem State.putBytes_time (s : State) (l : List (Nat × Byte)) : (s.putBytes l).time = s.time := rfl
@[simp] theorem State.putBytes_flits (s : State) (l : List (Nat × Byte)) : (s.putBytes l).flits = s.flits := rfl
@[simp] theorem State.putBytes_lines (s : State) (l : List (Nat × Byte)) : (s.putBytes l).lines = s.lines := rfl
@[simp] theorem State.putBytes_groups (s : State) (l : List (Nat × Byte)) : (s.putBytes l).groups = s.groups := rfl
@[simp] theorem State.putBytes_insts (s : State) (l : List (Nat × Byte)) : (s.putBytes l).insts = s.insts := rfl
@[simp] theorem State.putBytes_launches (s : State) (l : List (Nat × Byte)) : (s.putBytes l).launches = s.launches := rfl
@[simp] theorem State.putBytes_cmds (s : State) (l : List (Nat × Byte)) : (s.putBytes l).cmds = s.cmds := rfl
@[simp] theorem State.putBytes_parts (s : State) (l : List (Nat × Byte)) : (s.putBytes l).parts = s.parts := rfl
@[simp] theorem State.putBytes_cores (s : State) (l : List (Nat × Byte)) : (s.putBytes l).cores = s.cores := rfl
@[simp] theorem State.putBytes_slots (s : State) (l : List (Nat × Byte)) : (s.putBytes l).slots = s.slots := rfl
@[simp] theorem State.putBytes_tlb (s : State) (l : List (Nat × Byte)) : (s.putBytes l).tlb = s.tlb := rfl
@[simp] theorem State.putBytes_migrations (s : State) (l : List (Nat × Byte)) : (s.putBytes l).migrations = s.migrations := rfl
@[simp] theorem State.putBytes_versions (s : State) (l : List (Nat × Byte)) : (s.putBytes l).versions = s.versions := rfl
@[simp] theorem State.putBytes_agenda (s : State) (l : List (Nat × Byte)) : (s.putBytes l).agenda = s.agenda := rfl
@[simp] theorem State.putBytes_grant (s : State) (l : List (Nat × Byte)) : (s.putBytes l).grant = s.grant := rfl
@[simp] theorem State.putBytes_cur (s : State) (l : List (Nat × Byte)) : (s.putBytes l).cur = s.cur := rfl
@[simp] theorem State.putBytes_nonce (s : State) (l : List (Nat × Byte)) : (s.putBytes l).nonce = s.nonce := rfl

@[simp] theorem State.trail_cyc (s : State) (c rs typ aux pay : Nat) : (s.trail c rs typ aux pay).cyc = s.cyc := by
  obtain h | ⟨k, h⟩ := s.trail_or c rs typ aux pay <;> rw [h] <;> rfl
@[simp] theorem State.trail_time (s : State) (c rs typ aux pay : Nat) : (s.trail c rs typ aux pay).time = s.time := by
  obtain h | ⟨k, h⟩ := s.trail_or c rs typ aux pay <;> rw [h] <;> rfl
@[simp] theorem State.trail_flits (s : State) (c rs typ aux pay : Nat) : (s.trail c rs typ aux pay).flits = s.flits := by
  obtain h | ⟨k, h⟩ := s.trail_or c rs typ aux pay <;> rw [h] <;> rfl
@[simp] theorem State.trail_mem (s : State) (c rs typ aux pay : Nat) : (s.trail c rs typ aux pay).mem = s.mem := by
  obtain h | ⟨k, h⟩ := s.trail_or c rs typ aux pay <;> rw [h] <;> rfl
@[simp] theorem State.trail_poison (s : State) (c rs typ aux pay : Nat) : (s.trail c rs typ aux pay).poison = s.poison := by
  obtain h | ⟨k, h⟩ := s.trail_or c rs typ aux pay <;> rw [h] <;> rfl
@[simp] theorem State.trail_lines (s : State) (c rs typ aux pay : Nat) : (s.trail c rs typ aux pay).lines = s.lines := by
  obtain h | ⟨k, h⟩ := s.trail_or c rs typ aux pay <;> rw [h] <;> rfl
@[simp] theorem State.trail_groups (s : State) (c rs typ aux pay : Nat) : (s.trail c rs typ aux pay).groups = s.groups := by
  obtain h | ⟨k, h⟩ := s.trail_or c rs typ aux pay <;> rw [h] <;> rfl
@[simp] theorem State.trail_insts (s : State) (c rs typ aux pay : Nat) : (s.trail c rs typ aux pay).insts = s.insts := by
  obtain h | ⟨k, h⟩ := s.trail_or c rs typ aux pay <;> rw [h] <;> rfl
@[simp] theorem State.trail_launches (s : State) (c rs typ aux pay : Nat) : (s.trail c rs typ aux pay).launches = s.launches := by
  obtain h | ⟨k, h⟩ := s.trail_or c rs typ aux pay <;> rw [h] <;> rfl
@[simp] theorem State.trail_cmds (s : State) (c rs typ aux pay : Nat) : (s.trail c rs typ aux pay).cmds = s.cmds := by
  obtain h | ⟨k, h⟩ := s.trail_or c rs typ aux pay <;> rw [h] <;> rfl
@[simp] theorem State.trail_parts (s : State) (c rs typ aux pay : Nat) : (s.trail c rs typ aux pay).parts = s.parts := by
  obtain h | ⟨k, h⟩ := s.trail_or c rs typ aux pay <;> rw [h] <;> rfl
@[simp] theorem State.trail_slots (s : State) (c rs typ aux pay : Nat) : (s.trail c rs typ aux pay).slots = s.slots := by
  obtain h | ⟨k, h⟩ := s.trail_or c rs typ aux pay <;> rw [h] <;> rfl
@[simp] theorem State.trail_tlb (s : State) (c rs typ aux pay : Nat) : (s.trail c rs typ aux pay).tlb = s.tlb := by
  obtain h | ⟨k, h⟩ := s.trail_or c rs typ aux pay <;> rw [h] <;> rfl
@[simp] theorem State.trail_migrations (s : State) (c rs typ aux pay : Nat) : (s.trail c rs typ aux pay).migrations = s.migrations := by
  obtain h | ⟨k, h⟩ := s.trail_or c rs typ aux pay <;> rw [h] <;> rfl
@[simp] theorem State.trail_versions (s : State) (c rs typ aux pay : Nat) : (s.trail c rs typ aux pay).versions = s.versions := by
  obtain h | ⟨k, h⟩ := s.trail_or c rs typ aux pay <;> rw [h] <;> rfl
@[simp] theorem State.trail_agenda (s : State) (c rs typ aux pay : Nat) : (s.trail c rs typ aux pay).agenda = s.agenda := by
  obtain h | ⟨k, h⟩ := s.trail_or c rs typ aux pay <;> rw [h] <;> rfl
@[simp] theorem State.trail_grant (s : State) (c rs typ aux pay : Nat) : (s.trail c rs typ aux pay).grant = s.grant := by
  obtain h | ⟨k, h⟩ := s.trail_or c rs typ aux pay <;> rw [h] <;> rfl
@[simp] theorem State.trail_cur (s : State) (c rs typ aux pay : Nat) : (s.trail c rs typ aux pay).cur = s.cur := by
  obtain h | ⟨k, h⟩ := s.trail_or c rs typ aux pay <;> rw [h] <;> rfl
@[simp] theorem State.trail_nonce (s : State) (c rs typ aux pay : Nat) : (s.trail c rs typ aux pay).nonce = s.nonce := by
  obtain h | ⟨k, h⟩ := s.trail_or c rs typ aux pay <;> rw [h] <;> rfl

@[simp] theorem State.ctlTrail_cyc (s : State) (k : GKey) (b : Bool) (a : Word64) : (s.ctlTrail k b a).cyc = s.cyc := by
  simp [State.ctlTrail]
@[simp] theorem State.ctlTrail_time (s : State) (k : GKey) (b : Bool) (a : Word64) : (s.ctlTrail k b a).time = s.time := by
  simp [State.ctlTrail]
@[simp] theorem State.ctlTrail_flits (s : State) (k : GKey) (b : Bool) (a : Word64) : (s.ctlTrail k b a).flits = s.flits := by
  simp [State.ctlTrail]
@[simp] theorem State.ctlTrail_mem (s : State) (k : GKey) (b : Bool) (a : Word64) : (s.ctlTrail k b a).mem = s.mem := by
  simp [State.ctlTrail]
@[simp] theorem State.ctlTrail_poison (s : State) (k : GKey) (b : Bool) (a : Word64) : (s.ctlTrail k b a).poison = s.poison := by
  simp [State.ctlTrail]
@[simp] theorem State.ctlTrail_lines (s : State) (k : GKey) (b : Bool) (a : Word64) : (s.ctlTrail k b a).lines = s.lines := by
  simp [State.ctlTrail]
@[simp] theorem State.ctlTrail_groups (s : State) (k : GKey) (b : Bool) (a : Word64) : (s.ctlTrail k b a).groups = s.groups := by
  simp [State.ctlTrail]
@[simp] theorem State.ctlTrail_insts (s : State) (k : GKey) (b : Bool) (a : Word64) : (s.ctlTrail k b a).insts = s.insts := by
  simp [State.ctlTrail]
@[simp] theorem State.ctlTrail_launches (s : State) (k : GKey) (b : Bool) (a : Word64) : (s.ctlTrail k b a).launches = s.launches := by
  simp [State.ctlTrail]
@[simp] theorem State.ctlTrail_cmds (s : State) (k : GKey) (b : Bool) (a : Word64) : (s.ctlTrail k b a).cmds = s.cmds := by
  simp [State.ctlTrail]
@[simp] theorem State.ctlTrail_parts (s : State) (k : GKey) (b : Bool) (a : Word64) : (s.ctlTrail k b a).parts = s.parts := by
  simp [State.ctlTrail]
@[simp] theorem State.ctlTrail_slots (s : State) (k : GKey) (b : Bool) (a : Word64) : (s.ctlTrail k b a).slots = s.slots := by
  simp [State.ctlTrail]
@[simp] theorem State.ctlTrail_tlb (s : State) (k : GKey) (b : Bool) (a : Word64) : (s.ctlTrail k b a).tlb = s.tlb := by
  simp [State.ctlTrail]
@[simp] theorem State.ctlTrail_migrations (s : State) (k : GKey) (b : Bool) (a : Word64) : (s.ctlTrail k b a).migrations = s.migrations := by
  simp [State.ctlTrail]
@[simp] theorem State.ctlTrail_versions (s : State) (k : GKey) (b : Bool) (a : Word64) : (s.ctlTrail k b a).versions = s.versions := by
  simp [State.ctlTrail]
@[simp] theorem State.ctlTrail_agenda (s : State) (k : GKey) (b : Bool) (a : Word64) : (s.ctlTrail k b a).agenda = s.agenda := by
  simp [State.ctlTrail]
@[simp] theorem State.ctlTrail_grant (s : State) (k : GKey) (b : Bool) (a : Word64) : (s.ctlTrail k b a).grant = s.grant := by
  simp [State.ctlTrail]
@[simp] theorem State.ctlTrail_cur (s : State) (k : GKey) (b : Bool) (a : Word64) : (s.ctlTrail k b a).cur = s.cur := by
  simp [State.ctlTrail]
@[simp] theorem State.ctlTrail_nonce (s : State) (k : GKey) (b : Bool) (a : Word64) : (s.ctlTrail k b a).nonce = s.nonce := by
  simp [State.ctlTrail]

/-- A group put in place is the one found. -/
@[simp] theorem State.group?_setGroup (s : State) (k : GKey) (g : Group) : (s.setGroup k g).group? k = some g := by
  simp [State.group?, State.setGroup]
@[simp] theorem State.setGroup_setGroup (s : State) (k : GKey) (g h : Group) :
    (s.setGroup k g).setGroup k h = s.setGroup k h := by simp [State.setGroup]
/-- A change to a resident group puts it in place. -/
theorem State.onGroup_of {s : State} {k : GKey} {g : Group} (hg : s.group? k = some g) (h : Group → Group) :
    s.onGroup k h = s.setGroup k (h g) := by simp [State.onGroup, hg]
@[simp] theorem State.onGroup_setGroup (s : State) (k : GKey) (g : Group) (h : Group → Group) :
    (s.setGroup k g).onGroup k h = s.setGroup k (h g) := by simp [State.onGroup]
@[simp] theorem State.group?_trail (s : State) (c rs typ aux pay : Nat) (k : GKey) :
    (s.trail c rs typ aux pay).group? k = s.group? k := by simp [State.group?]
@[simp] theorem State.group?_ctlTrail (s : State) (k' : GKey) (b : Bool) (a : Word64) (k : GKey) :
    (s.ctlTrail k' b a).group? k = s.group? k := by simp [State.group?]
@[simp] theorem State.inst?_setGroup (s : State) (k : GKey) (g : Group) (i : Nat) :
    (s.setGroup k g).inst? i = s.inst? i := rfl
@[simp] theorem State.part?_setGroup (s : State) (k : GKey) (g : Group) (i : Nat) :
    (s.setGroup k g).part? i = s.part? i := rfl
@[simp] theorem State.launch?_setGroup (s : State) (k : GKey) (g : Group) (i : Nat) :
    (s.setGroup k g).launch? i = s.launch? i := rfl
@[simp] theorem State.byteAt_setGroup (s : State) (k : GKey) (g : Group) (a : Nat) :
    (s.setGroup k g).byteAt a = s.byteAt a := rfl
@[simp] theorem State.inst?_setInst (s : State) (i : Nat) (x : Inst) : (s.setInst i x).inst? i = some x := by
  simp [State.inst?, State.setInst]
@[simp] theorem State.part?_setPart (s : State) (i : Nat) (x : Part) : (s.setPart i x).part? i = some x := by
  simp [State.part?, State.setPart]
@[simp] theorem State.launch?_setLaunch (s : State) (i : Nat) (x : Launch) : (s.setLaunch i x).launch? i = some x := by
  simp [State.launch?, State.setLaunch]

/-! ### Updates of a group's registers -/

@[simp] theorem Regs.fillLatch_pc (r : Regs) (x : Latch) : (r.fillLatch x).pc = r.pc := rfl
@[simp] theorem Regs.fillLatch_s (r : Regs) (x : Latch) : (r.fillLatch x).s = r.s := rfl
@[simp] theorem Regs.fillLatch_v (r : Regs) (x : Latch) : (r.fillLatch x).v = r.v := rfl
@[simp] theorem Regs.fillLatch_w (r : Regs) (x : Latch) : (r.fillLatch x).w = r.w := rfl
@[simp] theorem Regs.fillLatch_p (r : Regs) (x : Latch) : (r.fillLatch x).p = r.p := rfl
@[simp] theorem Regs.fillLatch_mask (r : Regs) (x : Latch) : (r.fillLatch x).mask = r.mask := rfl
@[simp] theorem Regs.fillLatch_mstack (r : Regs) (x : Latch) : (r.fillLatch x).mstack = r.mstack := rfl
@[simp] theorem Regs.fillLatch_acc (r : Regs) (x : Latch) : (r.fillLatch x).acc = r.acc := rfl
@[simp] theorem Regs.fillLatch_flags (r : Regs) (x : Latch) : (r.fillLatch x).flags = r.flags := rfl
@[simp] theorem Regs.fillLatch_chain (r : Regs) (x : Latch) : (r.fillLatch x).chain = r.chain := rfl
@[simp] theorem Regs.fillLatch_dic (r : Regs) (x : Latch) : (r.fillLatch x).dic = r.dic := rfl
@[simp] theorem Regs.fillLatch_gmi (r : Regs) (x : Latch) : (r.fillLatch x).gmi = r.gmi := rfl
@[simp] theorem Regs.fillLatch_fcr (r : Regs) (x : Latch) : (r.fillLatch x).fcr = r.fcr := rfl
@[simp] theorem Regs.fillLatch_lt (r : Regs) (x : Latch) : (r.fillLatch x).lt = r.lt := rfl
@[simp] theorem Regs.fillLatch_defer (r : Regs) (x : Latch) : (r.fillLatch x).defer = r.defer := rfl
@[simp] theorem Regs.fillLatch_progress (r : Regs) (x : Latch) : (r.fillLatch x).progress = r.progress := rfl
@[simp] theorem Regs.fillLatch_olds (r : Regs) (x : Latch) : (r.fillLatch x).olds = r.olds := rfl

@[simp] theorem Regs.sset_pc (r : Regs) (i : Nat) (x : SReg) : (r.sset i x).pc = r.pc := by
  unfold Regs.sset; split <;> rfl
@[simp] theorem Regs.sset_v (r : Regs) (i : Nat) (x : SReg) : (r.sset i x).v = r.v := by
  unfold Regs.sset; split <;> rfl
@[simp] theorem Regs.sset_w (r : Regs) (i : Nat) (x : SReg) : (r.sset i x).w = r.w := by
  unfold Regs.sset; split <;> rfl
@[simp] theorem Regs.sset_p (r : Regs) (i : Nat) (x : SReg) : (r.sset i x).p = r.p := by
  unfold Regs.sset; split <;> rfl
@[simp] theorem Regs.sset_mask (r : Regs) (i : Nat) (x : SReg) : (r.sset i x).mask = r.mask := by
  unfold Regs.sset; split <;> rfl
@[simp] theorem Regs.sset_mstack (r : Regs) (i : Nat) (x : SReg) : (r.sset i x).mstack = r.mstack := by
  unfold Regs.sset; split <;> rfl
@[simp] theorem Regs.sset_acc (r : Regs) (i : Nat) (x : SReg) : (r.sset i x).acc = r.acc := by
  unfold Regs.sset; split <;> rfl
@[simp] theorem Regs.sset_flags (r : Regs) (i : Nat) (x : SReg) : (r.sset i x).flags = r.flags := by
  unfold Regs.sset; split <;> rfl
@[simp] theorem Regs.sset_latch (r : Regs) (i : Nat) (x : SReg) : (r.sset i x).latch = r.latch := by
  unfold Regs.sset; split <;> rfl
@[simp] theorem Regs.sset_chain (r : Regs) (i : Nat) (x : SReg) : (r.sset i x).chain = r.chain := by
  unfold Regs.sset; split <;> rfl
@[simp] theorem Regs.sset_dic (r : Regs) (i : Nat) (x : SReg) : (r.sset i x).dic = r.dic := by
  unfold Regs.sset; split <;> rfl
@[simp] theorem Regs.sset_gmi (r : Regs) (i : Nat) (x : SReg) : (r.sset i x).gmi = r.gmi := by
  unfold Regs.sset; split <;> rfl
@[simp] theorem Regs.sset_fcr (r : Regs) (i : Nat) (x : SReg) : (r.sset i x).fcr = r.fcr := by
  unfold Regs.sset; split <;> rfl
@[simp] theorem Regs.sset_lt (r : Regs) (i : Nat) (x : SReg) : (r.sset i x).lt = r.lt := by
  unfold Regs.sset; split <;> rfl
@[simp] theorem Regs.sset_defer (r : Regs) (i : Nat) (x : SReg) : (r.sset i x).defer = r.defer := by
  unfold Regs.sset; split <;> rfl
@[simp] theorem Regs.sset_progress (r : Regs) (i : Nat) (x : SReg) : (r.sset i x).progress = r.progress := by
  unfold Regs.sset; split <;> rfl
@[simp] theorem Regs.sset_olds (r : Regs) (i : Nat) (x : SReg) : (r.sset i x).olds = r.olds := by
  unfold Regs.sset; split <;> rfl

@[simp] theorem Regs.pset_pc (r : Regs) (i : Nat) (x : PReg) : (r.pset i x).pc = r.pc := by
  unfold Regs.pset; split <;> rfl
@[simp] theorem Regs.pset_s (r : Regs) (i : Nat) (x : PReg) : (r.pset i x).s = r.s := by
  unfold Regs.pset; split <;> rfl
@[simp] theorem Regs.pset_v (r : Regs) (i : Nat) (x : PReg) : (r.pset i x).v = r.v := by
  unfold Regs.pset; split <;> rfl
@[simp] theorem Regs.pset_w (r : Regs) (i : Nat) (x : PReg) : (r.pset i x).w = r.w := by
  unfold Regs.pset; split <;> rfl
@[simp] theorem Regs.pset_mask (r : Regs) (i : Nat) (x : PReg) : (r.pset i x).mask = r.mask := by
  unfold Regs.pset; split <;> rfl
@[simp] theorem Regs.pset_mstack (r : Regs) (i : Nat) (x : PReg) : (r.pset i x).mstack = r.mstack := by
  unfold Regs.pset; split <;> rfl
@[simp] theorem Regs.pset_acc (r : Regs) (i : Nat) (x : PReg) : (r.pset i x).acc = r.acc := by
  unfold Regs.pset; split <;> rfl
@[simp] theorem Regs.pset_flags (r : Regs) (i : Nat) (x : PReg) : (r.pset i x).flags = r.flags := by
  unfold Regs.pset; split <;> rfl
@[simp] theorem Regs.pset_latch (r : Regs) (i : Nat) (x : PReg) : (r.pset i x).latch = r.latch := by
  unfold Regs.pset; split <;> rfl
@[simp] theorem Regs.pset_chain (r : Regs) (i : Nat) (x : PReg) : (r.pset i x).chain = r.chain := by
  unfold Regs.pset; split <;> rfl
@[simp] theorem Regs.pset_dic (r : Regs) (i : Nat) (x : PReg) : (r.pset i x).dic = r.dic := by
  unfold Regs.pset; split <;> rfl
@[simp] theorem Regs.pset_gmi (r : Regs) (i : Nat) (x : PReg) : (r.pset i x).gmi = r.gmi := by
  unfold Regs.pset; split <;> rfl
@[simp] theorem Regs.pset_fcr (r : Regs) (i : Nat) (x : PReg) : (r.pset i x).fcr = r.fcr := by
  unfold Regs.pset; split <;> rfl
@[simp] theorem Regs.pset_lt (r : Regs) (i : Nat) (x : PReg) : (r.pset i x).lt = r.lt := by
  unfold Regs.pset; split <;> rfl
@[simp] theorem Regs.pset_defer (r : Regs) (i : Nat) (x : PReg) : (r.pset i x).defer = r.defer := by
  unfold Regs.pset; split <;> rfl
@[simp] theorem Regs.pset_progress (r : Regs) (i : Nat) (x : PReg) : (r.pset i x).progress = r.progress := by
  unfold Regs.pset; split <;> rfl
@[simp] theorem Regs.pset_olds (r : Regs) (i : Nat) (x : PReg) : (r.pset i x).olds = r.olds := by
  unfold Regs.pset; split <;> rfl

@[simp] theorem Regs.sdst_pc (r : Regs) (d : Sel) (x : SReg) : (r.sdst d x).pc = r.pc := by
  unfold Regs.sdst; cases d <;> simp
@[simp] theorem Regs.sdst_v (r : Regs) (d : Sel) (x : SReg) : (r.sdst d x).v = r.v := by
  unfold Regs.sdst; cases d <;> simp
@[simp] theorem Regs.sdst_w (r : Regs) (d : Sel) (x : SReg) : (r.sdst d x).w = r.w := by
  unfold Regs.sdst; cases d <;> simp
@[simp] theorem Regs.sdst_p (r : Regs) (d : Sel) (x : SReg) : (r.sdst d x).p = r.p := by
  unfold Regs.sdst; cases d <;> simp
@[simp] theorem Regs.sdst_mask (r : Regs) (d : Sel) (x : SReg) : (r.sdst d x).mask = r.mask := by
  unfold Regs.sdst; cases d <;> simp
@[simp] theorem Regs.sdst_mstack (r : Regs) (d : Sel) (x : SReg) : (r.sdst d x).mstack = r.mstack := by
  unfold Regs.sdst; cases d <;> simp
@[simp] theorem Regs.sdst_acc (r : Regs) (d : Sel) (x : SReg) : (r.sdst d x).acc = r.acc := by
  unfold Regs.sdst; cases d <;> simp
@[simp] theorem Regs.sdst_flags (r : Regs) (d : Sel) (x : SReg) : (r.sdst d x).flags = r.flags := by
  unfold Regs.sdst; cases d <;> simp
@[simp] theorem Regs.sdst_chain (r : Regs) (d : Sel) (x : SReg) : (r.sdst d x).chain = r.chain := by
  unfold Regs.sdst; cases d <;> simp
@[simp] theorem Regs.sdst_dic (r : Regs) (d : Sel) (x : SReg) : (r.sdst d x).dic = r.dic := by
  unfold Regs.sdst; cases d <;> simp
@[simp] theorem Regs.sdst_gmi (r : Regs) (d : Sel) (x : SReg) : (r.sdst d x).gmi = r.gmi := by
  unfold Regs.sdst; cases d <;> simp
@[simp] theorem Regs.sdst_fcr (r : Regs) (d : Sel) (x : SReg) : (r.sdst d x).fcr = r.fcr := by
  unfold Regs.sdst; cases d <;> simp
@[simp] theorem Regs.sdst_lt (r : Regs) (d : Sel) (x : SReg) : (r.sdst d x).lt = r.lt := by
  unfold Regs.sdst; cases d <;> simp
@[simp] theorem Regs.sdst_defer (r : Regs) (d : Sel) (x : SReg) : (r.sdst d x).defer = r.defer := by
  unfold Regs.sdst; cases d <;> simp
@[simp] theorem Regs.sdst_progress (r : Regs) (d : Sel) (x : SReg) : (r.sdst d x).progress = r.progress := by
  unfold Regs.sdst; cases d <;> simp
@[simp] theorem Regs.sdst_olds (r : Regs) (d : Sel) (x : SReg) : (r.sdst d x).olds = r.olds := by
  unfold Regs.sdst; cases d <;> simp

@[simp] theorem Regs.pdst_pc (r : Regs) (d : Sel) (w : Nat → Bool) (e : Nat → Bool × Option Tag) : (r.pdst d w e).pc = r.pc := by
  unfold Regs.pdst; cases d <;> simp
@[simp] theorem Regs.pdst_s (r : Regs) (d : Sel) (w : Nat → Bool) (e : Nat → Bool × Option Tag) : (r.pdst d w e).s = r.s := by
  unfold Regs.pdst; cases d <;> simp
@[simp] theorem Regs.pdst_v (r : Regs) (d : Sel) (w : Nat → Bool) (e : Nat → Bool × Option Tag) : (r.pdst d w e).v = r.v := by
  unfold Regs.pdst; cases d <;> simp
@[simp] theorem Regs.pdst_w (r : Regs) (d : Sel) (w : Nat → Bool) (e : Nat → Bool × Option Tag) : (r.pdst d w e).w = r.w := by
  unfold Regs.pdst; cases d <;> simp
@[simp] theorem Regs.pdst_mask (r : Regs) (d : Sel) (w : Nat → Bool) (e : Nat → Bool × Option Tag) : (r.pdst d w e).mask = r.mask := by
  unfold Regs.pdst; cases d <;> simp
@[simp] theorem Regs.pdst_mstack (r : Regs) (d : Sel) (w : Nat → Bool) (e : Nat → Bool × Option Tag) : (r.pdst d w e).mstack = r.mstack := by
  unfold Regs.pdst; cases d <;> simp
@[simp] theorem Regs.pdst_acc (r : Regs) (d : Sel) (w : Nat → Bool) (e : Nat → Bool × Option Tag) : (r.pdst d w e).acc = r.acc := by
  unfold Regs.pdst; cases d <;> simp
@[simp] theorem Regs.pdst_flags (r : Regs) (d : Sel) (w : Nat → Bool) (e : Nat → Bool × Option Tag) : (r.pdst d w e).flags = r.flags := by
  unfold Regs.pdst; cases d <;> simp
@[simp] theorem Regs.pdst_chain (r : Regs) (d : Sel) (w : Nat → Bool) (e : Nat → Bool × Option Tag) : (r.pdst d w e).chain = r.chain := by
  unfold Regs.pdst; cases d <;> simp
@[simp] theorem Regs.pdst_dic (r : Regs) (d : Sel) (w : Nat → Bool) (e : Nat → Bool × Option Tag) : (r.pdst d w e).dic = r.dic := by
  unfold Regs.pdst; cases d <;> simp
@[simp] theorem Regs.pdst_gmi (r : Regs) (d : Sel) (w : Nat → Bool) (e : Nat → Bool × Option Tag) : (r.pdst d w e).gmi = r.gmi := by
  unfold Regs.pdst; cases d <;> simp
@[simp] theorem Regs.pdst_fcr (r : Regs) (d : Sel) (w : Nat → Bool) (e : Nat → Bool × Option Tag) : (r.pdst d w e).fcr = r.fcr := by
  unfold Regs.pdst; cases d <;> simp
@[simp] theorem Regs.pdst_lt (r : Regs) (d : Sel) (w : Nat → Bool) (e : Nat → Bool × Option Tag) : (r.pdst d w e).lt = r.lt := by
  unfold Regs.pdst; cases d <;> simp
@[simp] theorem Regs.pdst_defer (r : Regs) (d : Sel) (w : Nat → Bool) (e : Nat → Bool × Option Tag) : (r.pdst d w e).defer = r.defer := by
  unfold Regs.pdst; cases d <;> simp
@[simp] theorem Regs.pdst_progress (r : Regs) (d : Sel) (w : Nat → Bool) (e : Nat → Bool × Option Tag) : (r.pdst d w e).progress = r.progress := by
  unfold Regs.pdst; cases d <;> simp
@[simp] theorem Regs.pdst_olds (r : Regs) (d : Sel) (w : Nat → Bool) (e : Nat → Bool × Option Tag) : (r.pdst d w e).olds = r.olds := by
  unfold Regs.pdst; cases d <;> simp

@[simp] theorem Regs.pfill_pc (r : Regs) (i : Nat) (b : Bool) : (r.pfill i b).pc = r.pc := by
  simp [Regs.pfill]
@[simp] theorem Regs.pfill_s (r : Regs) (i : Nat) (b : Bool) : (r.pfill i b).s = r.s := by
  simp [Regs.pfill]
@[simp] theorem Regs.pfill_v (r : Regs) (i : Nat) (b : Bool) : (r.pfill i b).v = r.v := by
  simp [Regs.pfill]
@[simp] theorem Regs.pfill_w (r : Regs) (i : Nat) (b : Bool) : (r.pfill i b).w = r.w := by
  simp [Regs.pfill]
@[simp] theorem Regs.pfill_mask (r : Regs) (i : Nat) (b : Bool) : (r.pfill i b).mask = r.mask := by
  simp [Regs.pfill]
@[simp] theorem Regs.pfill_mstack (r : Regs) (i : Nat) (b : Bool) : (r.pfill i b).mstack = r.mstack := by
  simp [Regs.pfill]
@[simp] theorem Regs.pfill_acc (r : Regs) (i : Nat) (b : Bool) : (r.pfill i b).acc = r.acc := by
  simp [Regs.pfill]
@[simp] theorem Regs.pfill_flags (r : Regs) (i : Nat) (b : Bool) : (r.pfill i b).flags = r.flags := by
  simp [Regs.pfill]
@[simp] theorem Regs.pfill_latch (r : Regs) (i : Nat) (b : Bool) : (r.pfill i b).latch = r.latch := by
  simp [Regs.pfill]
@[simp] theorem Regs.pfill_chain (r : Regs) (i : Nat) (b : Bool) : (r.pfill i b).chain = r.chain := by
  simp [Regs.pfill]
@[simp] theorem Regs.pfill_dic (r : Regs) (i : Nat) (b : Bool) : (r.pfill i b).dic = r.dic := by
  simp [Regs.pfill]
@[simp] theorem Regs.pfill_gmi (r : Regs) (i : Nat) (b : Bool) : (r.pfill i b).gmi = r.gmi := by
  simp [Regs.pfill]
@[simp] theorem Regs.pfill_fcr (r : Regs) (i : Nat) (b : Bool) : (r.pfill i b).fcr = r.fcr := by
  simp [Regs.pfill]
@[simp] theorem Regs.pfill_lt (r : Regs) (i : Nat) (b : Bool) : (r.pfill i b).lt = r.lt := by
  simp [Regs.pfill]
@[simp] theorem Regs.pfill_defer (r : Regs) (i : Nat) (b : Bool) : (r.pfill i b).defer = r.defer := by
  simp [Regs.pfill]
@[simp] theorem Regs.pfill_progress (r : Regs) (i : Nat) (b : Bool) : (r.pfill i b).progress = r.progress := by
  simp [Regs.pfill]
@[simp] theorem Regs.pfill_olds (r : Regs) (i : Nat) (b : Bool) : (r.pfill i b).olds = r.olds := by
  simp [Regs.pfill]

@[simp] theorem Regs.putVec_pc (r : Regs) (d : Sel) (b : Bool) (l h : VReg) : (r.putVec d b l h).pc = r.pc := by
  unfold Regs.putVec; cases d <;> first | rfl | (simp only []; split <;> rfl)
@[simp] theorem Regs.putVec_s (r : Regs) (d : Sel) (b : Bool) (l h : VReg) : (r.putVec d b l h).s = r.s := by
  unfold Regs.putVec; cases d <;> first | rfl | (simp only []; split <;> rfl)
@[simp] theorem Regs.putVec_p (r : Regs) (d : Sel) (b : Bool) (l h : VReg) : (r.putVec d b l h).p = r.p := by
  unfold Regs.putVec; cases d <;> first | rfl | (simp only []; split <;> rfl)
@[simp] theorem Regs.putVec_mask (r : Regs) (d : Sel) (b : Bool) (l h : VReg) : (r.putVec d b l h).mask = r.mask := by
  unfold Regs.putVec; cases d <;> first | rfl | (simp only []; split <;> rfl)
@[simp] theorem Regs.putVec_mstack (r : Regs) (d : Sel) (b : Bool) (l h : VReg) : (r.putVec d b l h).mstack = r.mstack := by
  unfold Regs.putVec; cases d <;> first | rfl | (simp only []; split <;> rfl)
@[simp] theorem Regs.putVec_acc (r : Regs) (d : Sel) (b : Bool) (l h : VReg) : (r.putVec d b l h).acc = r.acc := by
  unfold Regs.putVec; cases d <;> first | rfl | (simp only []; split <;> rfl)
@[simp] theorem Regs.putVec_flags (r : Regs) (d : Sel) (b : Bool) (l h : VReg) : (r.putVec d b l h).flags = r.flags := by
  unfold Regs.putVec; cases d <;> first | rfl | (simp only []; split <;> rfl)
@[simp] theorem Regs.putVec_latch (r : Regs) (d : Sel) (b : Bool) (l h : VReg) : (r.putVec d b l h).latch = r.latch := by
  unfold Regs.putVec; cases d <;> first | rfl | (simp only []; split <;> rfl)
@[simp] theorem Regs.putVec_chain (r : Regs) (d : Sel) (b : Bool) (l h : VReg) : (r.putVec d b l h).chain = r.chain := by
  unfold Regs.putVec; cases d <;> first | rfl | (simp only []; split <;> rfl)
@[simp] theorem Regs.putVec_dic (r : Regs) (d : Sel) (b : Bool) (l h : VReg) : (r.putVec d b l h).dic = r.dic := by
  unfold Regs.putVec; cases d <;> first | rfl | (simp only []; split <;> rfl)
@[simp] theorem Regs.putVec_gmi (r : Regs) (d : Sel) (b : Bool) (l h : VReg) : (r.putVec d b l h).gmi = r.gmi := by
  unfold Regs.putVec; cases d <;> first | rfl | (simp only []; split <;> rfl)
@[simp] theorem Regs.putVec_fcr (r : Regs) (d : Sel) (b : Bool) (l h : VReg) : (r.putVec d b l h).fcr = r.fcr := by
  unfold Regs.putVec; cases d <;> first | rfl | (simp only []; split <;> rfl)
@[simp] theorem Regs.putVec_lt (r : Regs) (d : Sel) (b : Bool) (l h : VReg) : (r.putVec d b l h).lt = r.lt := by
  unfold Regs.putVec; cases d <;> first | rfl | (simp only []; split <;> rfl)
@[simp] theorem Regs.putVec_defer (r : Regs) (d : Sel) (b : Bool) (l h : VReg) : (r.putVec d b l h).defer = r.defer := by
  unfold Regs.putVec; cases d <;> first | rfl | (simp only []; split <;> rfl)
@[simp] theorem Regs.putVec_progress (r : Regs) (d : Sel) (b : Bool) (l h : VReg) : (r.putVec d b l h).progress = r.progress := by
  unfold Regs.putVec; cases d <;> first | rfl | (simp only []; split <;> rfl)
@[simp] theorem Regs.putVec_olds (r : Regs) (d : Sel) (b : Bool) (l h : VReg) : (r.putVec d b l h).olds = r.olds := by
  unfold Regs.putVec; cases d <;> first | rfl | (simp only []; split <;> rfl)

@[simp] theorem Regs.vdst_pc (r : Regs) (d : Sel) (b : Bool) (ws : Writes) : (r.vdst d b ws).pc = r.pc := by
  simp [Regs.vdst]
@[simp] theorem Regs.vdst_s (r : Regs) (d : Sel) (b : Bool) (ws : Writes) : (r.vdst d b ws).s = r.s := by
  simp [Regs.vdst]
@[simp] theorem Regs.vdst_p (r : Regs) (d : Sel) (b : Bool) (ws : Writes) : (r.vdst d b ws).p = r.p := by
  simp [Regs.vdst]
@[simp] theorem Regs.vdst_mask (r : Regs) (d : Sel) (b : Bool) (ws : Writes) : (r.vdst d b ws).mask = r.mask := by
  simp [Regs.vdst]
@[simp] theorem Regs.vdst_mstack (r : Regs) (d : Sel) (b : Bool) (ws : Writes) : (r.vdst d b ws).mstack = r.mstack := by
  simp [Regs.vdst]
@[simp] theorem Regs.vdst_acc (r : Regs) (d : Sel) (b : Bool) (ws : Writes) : (r.vdst d b ws).acc = r.acc := by
  simp [Regs.vdst]
@[simp] theorem Regs.vdst_flags (r : Regs) (d : Sel) (b : Bool) (ws : Writes) : (r.vdst d b ws).flags = r.flags := by
  simp [Regs.vdst]
@[simp] theorem Regs.vdst_chain (r : Regs) (d : Sel) (b : Bool) (ws : Writes) : (r.vdst d b ws).chain = r.chain := by
  simp [Regs.vdst]
@[simp] theorem Regs.vdst_dic (r : Regs) (d : Sel) (b : Bool) (ws : Writes) : (r.vdst d b ws).dic = r.dic := by
  simp [Regs.vdst]
@[simp] theorem Regs.vdst_gmi (r : Regs) (d : Sel) (b : Bool) (ws : Writes) : (r.vdst d b ws).gmi = r.gmi := by
  simp [Regs.vdst]
@[simp] theorem Regs.vdst_fcr (r : Regs) (d : Sel) (b : Bool) (ws : Writes) : (r.vdst d b ws).fcr = r.fcr := by
  simp [Regs.vdst]
@[simp] theorem Regs.vdst_lt (r : Regs) (d : Sel) (b : Bool) (ws : Writes) : (r.vdst d b ws).lt = r.lt := by
  simp [Regs.vdst]
@[simp] theorem Regs.vdst_defer (r : Regs) (d : Sel) (b : Bool) (ws : Writes) : (r.vdst d b ws).defer = r.defer := by
  simp [Regs.vdst]
@[simp] theorem Regs.vdst_progress (r : Regs) (d : Sel) (b : Bool) (ws : Writes) : (r.vdst d b ws).progress = r.progress := by
  simp [Regs.vdst]
@[simp] theorem Regs.vdst_olds (r : Regs) (d : Sel) (b : Bool) (ws : Writes) : (r.vdst d b ws).olds = r.olds := by
  simp [Regs.vdst]

@[simp] theorem Regs.countDic_pc (r : Regs) (b : Bool) : (r.countDic b).pc = r.pc := by
  unfold Regs.countDic; split <;> rfl
@[simp] theorem Regs.countDic_s (r : Regs) (b : Bool) : (r.countDic b).s = r.s := by
  unfold Regs.countDic; split <;> rfl
@[simp] theorem Regs.countDic_v (r : Regs) (b : Bool) : (r.countDic b).v = r.v := by
  unfold Regs.countDic; split <;> rfl
@[simp] theorem Regs.countDic_w (r : Regs) (b : Bool) : (r.countDic b).w = r.w := by
  unfold Regs.countDic; split <;> rfl
@[simp] theorem Regs.countDic_p (r : Regs) (b : Bool) : (r.countDic b).p = r.p := by
  unfold Regs.countDic; split <;> rfl
@[simp] theorem Regs.countDic_mask (r : Regs) (b : Bool) : (r.countDic b).mask = r.mask := by
  unfold Regs.countDic; split <;> rfl
@[simp] theorem Regs.countDic_mstack (r : Regs) (b : Bool) : (r.countDic b).mstack = r.mstack := by
  unfold Regs.countDic; split <;> rfl
@[simp] theorem Regs.countDic_acc (r : Regs) (b : Bool) : (r.countDic b).acc = r.acc := by
  unfold Regs.countDic; split <;> rfl
@[simp] theorem Regs.countDic_flags (r : Regs) (b : Bool) : (r.countDic b).flags = r.flags := by
  unfold Regs.countDic; split <;> rfl
@[simp] theorem Regs.countDic_latch (r : Regs) (b : Bool) : (r.countDic b).latch = r.latch := by
  unfold Regs.countDic; split <;> rfl
@[simp] theorem Regs.countDic_chain (r : Regs) (b : Bool) : (r.countDic b).chain = r.chain := by
  unfold Regs.countDic; split <;> rfl
@[simp] theorem Regs.countDic_gmi (r : Regs) (b : Bool) : (r.countDic b).gmi = r.gmi := by
  unfold Regs.countDic; split <;> rfl
@[simp] theorem Regs.countDic_fcr (r : Regs) (b : Bool) : (r.countDic b).fcr = r.fcr := by
  unfold Regs.countDic; split <;> rfl
@[simp] theorem Regs.countDic_lt (r : Regs) (b : Bool) : (r.countDic b).lt = r.lt := by
  unfold Regs.countDic; split <;> rfl
@[simp] theorem Regs.countDic_defer (r : Regs) (b : Bool) : (r.countDic b).defer = r.defer := by
  unfold Regs.countDic; split <;> rfl
@[simp] theorem Regs.countDic_progress (r : Regs) (b : Bool) : (r.countDic b).progress = r.progress := by
  unfold Regs.countDic; split <;> rfl
@[simp] theorem Regs.countDic_olds (r : Regs) (b : Bool) : (r.countDic b).olds = r.olds := by
  unfold Regs.countDic; split <;> rfl

@[simp] theorem Regs.loseLatches_pc (r : Regs) : (r.loseLatches).pc = r.pc := rfl
@[simp] theorem Regs.loseLatches_s (r : Regs) : (r.loseLatches).s = r.s := rfl
@[simp] theorem Regs.loseLatches_v (r : Regs) : (r.loseLatches).v = r.v := rfl
@[simp] theorem Regs.loseLatches_w (r : Regs) : (r.loseLatches).w = r.w := rfl
@[simp] theorem Regs.loseLatches_p (r : Regs) : (r.loseLatches).p = r.p := rfl
@[simp] theorem Regs.loseLatches_mask (r : Regs) : (r.loseLatches).mask = r.mask := rfl
@[simp] theorem Regs.loseLatches_mstack (r : Regs) : (r.loseLatches).mstack = r.mstack := rfl
@[simp] theorem Regs.loseLatches_acc (r : Regs) : (r.loseLatches).acc = r.acc := rfl
@[simp] theorem Regs.loseLatches_flags (r : Regs) : (r.loseLatches).flags = r.flags := rfl
@[simp] theorem Regs.loseLatches_dic (r : Regs) : (r.loseLatches).dic = r.dic := rfl
@[simp] theorem Regs.loseLatches_gmi (r : Regs) : (r.loseLatches).gmi = r.gmi := rfl
@[simp] theorem Regs.loseLatches_fcr (r : Regs) : (r.loseLatches).fcr = r.fcr := rfl
@[simp] theorem Regs.loseLatches_lt (r : Regs) : (r.loseLatches).lt = r.lt := rfl
@[simp] theorem Regs.loseLatches_defer (r : Regs) : (r.loseLatches).defer = r.defer := rfl
@[simp] theorem Regs.loseLatches_progress (r : Regs) : (r.loseLatches).progress = r.progress := rfl
@[simp] theorem Regs.loseLatches_olds (r : Regs) : (r.loseLatches).olds = r.olds := rfl

@[simp] theorem Regs.switchAt_pc (r : Regs) (b : Bool) : (r.switchAt b).pc = r.pc := rfl
@[simp] theorem Regs.switchAt_s (r : Regs) (b : Bool) : (r.switchAt b).s = r.s := rfl
@[simp] theorem Regs.switchAt_v (r : Regs) (b : Bool) : (r.switchAt b).v = r.v := rfl
@[simp] theorem Regs.switchAt_w (r : Regs) (b : Bool) : (r.switchAt b).w = r.w := rfl
@[simp] theorem Regs.switchAt_p (r : Regs) (b : Bool) : (r.switchAt b).p = r.p := rfl
@[simp] theorem Regs.switchAt_mask (r : Regs) (b : Bool) : (r.switchAt b).mask = r.mask := rfl
@[simp] theorem Regs.switchAt_mstack (r : Regs) (b : Bool) : (r.switchAt b).mstack = r.mstack := rfl
@[simp] theorem Regs.switchAt_acc (r : Regs) (b : Bool) : (r.switchAt b).acc = r.acc := rfl
@[simp] theorem Regs.switchAt_flags (r : Regs) (b : Bool) : (r.switchAt b).flags = r.flags := rfl
@[simp] theorem Regs.switchAt_dic (r : Regs) (b : Bool) : (r.switchAt b).dic = r.dic := rfl
@[simp] theorem Regs.switchAt_gmi (r : Regs) (b : Bool) : (r.switchAt b).gmi = r.gmi := rfl
@[simp] theorem Regs.switchAt_fcr (r : Regs) (b : Bool) : (r.switchAt b).fcr = r.fcr := rfl
@[simp] theorem Regs.switchAt_lt (r : Regs) (b : Bool) : (r.switchAt b).lt = r.lt := rfl
@[simp] theorem Regs.switchAt_defer (r : Regs) (b : Bool) : (r.switchAt b).defer = r.defer := rfl
@[simp] theorem Regs.switchAt_progress (r : Regs) (b : Bool) : (r.switchAt b).progress = r.progress := rfl
@[simp] theorem Regs.switchAt_olds (r : Regs) (b : Bool) : (r.switchAt b).olds = r.olds := rfl

@[simp] theorem Regs.keepS_pc (r : Regs) (d : Sel) : (r.keepS d).pc = r.pc := rfl
@[simp] theorem Regs.keepS_s (r : Regs) (d : Sel) : (r.keepS d).s = r.s := rfl
@[simp] theorem Regs.keepS_v (r : Regs) (d : Sel) : (r.keepS d).v = r.v := rfl
@[simp] theorem Regs.keepS_w (r : Regs) (d : Sel) : (r.keepS d).w = r.w := rfl
@[simp] theorem Regs.keepS_p (r : Regs) (d : Sel) : (r.keepS d).p = r.p := rfl
@[simp] theorem Regs.keepS_mask (r : Regs) (d : Sel) : (r.keepS d).mask = r.mask := rfl
@[simp] theorem Regs.keepS_mstack (r : Regs) (d : Sel) : (r.keepS d).mstack = r.mstack := rfl
@[simp] theorem Regs.keepS_acc (r : Regs) (d : Sel) : (r.keepS d).acc = r.acc := rfl
@[simp] theorem Regs.keepS_flags (r : Regs) (d : Sel) : (r.keepS d).flags = r.flags := rfl
@[simp] theorem Regs.keepS_chain (r : Regs) (d : Sel) : (r.keepS d).chain = r.chain := rfl
@[simp] theorem Regs.keepS_dic (r : Regs) (d : Sel) : (r.keepS d).dic = r.dic := rfl
@[simp] theorem Regs.keepS_gmi (r : Regs) (d : Sel) : (r.keepS d).gmi = r.gmi := rfl
@[simp] theorem Regs.keepS_fcr (r : Regs) (d : Sel) : (r.keepS d).fcr = r.fcr := rfl
@[simp] theorem Regs.keepS_lt (r : Regs) (d : Sel) : (r.keepS d).lt = r.lt := rfl
@[simp] theorem Regs.keepS_defer (r : Regs) (d : Sel) : (r.keepS d).defer = r.defer := rfl
@[simp] theorem Regs.keepS_progress (r : Regs) (d : Sel) : (r.keepS d).progress = r.progress := rfl
@[simp] theorem Regs.keepS_olds (r : Regs) (d : Sel) : (r.keepS d).olds = r.olds := rfl

/-! ### The beginning of an instruction -/

@[simp] theorem Group.enter_id (g : Group) (r : Row) (f : Fields) : (g.enter r f).id = g.id := rfl
@[simp] theorem Group.enter_segs (g : Group) (r : Row) (f : Fields) : (g.enter r f).segs = g.segs := rfl
@[simp] theorem Group.enter_tiles (g : Group) (r : Row) (f : Fields) : (g.enter r f).tiles = g.tiles := rfl
@[simp] theorem Group.enter_tl (g : Group) (r : Row) (f : Fields) : (g.enter r f).tl = g.tl := rfl
@[simp] theorem Group.enter_xcause (g : Group) (r : Row) (f : Fields) : (g.enter r f).xcause = g.xcause := rfl
@[simp] theorem Group.enter_xpc (g : Group) (r : Row) (f : Fields) : (g.enter r f).xpc = g.xpc := rfl
@[simp] theorem Group.enter_xaddr (g : Group) (r : Row) (f : Fields) : (g.enter r f).xaddr = g.xaddr := rfl
@[simp] theorem Group.enter_xinfo (g : Group) (r : Row) (f : Fields) : (g.enter r f).xinfo = g.xinfo := rfl
@[simp] theorem Group.enter_prio (g : Group) (r : Row) (f : Fields) : (g.enter r f).prio = g.prio := rfl
@[simp] theorem Group.enter_svc (g : Group) (r : Row) (f : Fields) : (g.enter r f).svc = g.svc := rfl
@[simp] theorem Group.enter_dlm (g : Group) (r : Row) (f : Fields) : (g.enter r f).dlm = g.dlm := rfl
@[simp] theorem Group.enter_rp (g : Group) (r : Row) (f : Fields) : (g.enter r f).rp = g.rp := rfl
@[simp] theorem Group.enter_mcls (g : Group) (r : Row) (f : Fields) : (g.enter r f).mcls = g.mcls := rfl
@[simp] theorem Group.enter_mq (g : Group) (r : Row) (f : Fields) : (g.enter r f).mq = g.mq := rfl
@[simp] theorem Group.enter_mqAge (g : Group) (r : Row) (f : Fields) : (g.enter r f).mqAge = g.mqAge := rfl
@[simp] theorem Group.enter_mqSince (g : Group) (r : Row) (f : Fields) : (g.enter r f).mqSince = g.mqSince := rfl
@[simp] theorem Group.enter_run (g : Group) (r : Row) (f : Fields) : (g.enter r f).run = g.run := rfl
@[simp] theorem Group.enter_frozen (g : Group) (r : Row) (f : Fields) : (g.enter r f).frozen = g.frozen := rfl
@[simp] theorem Group.enter_preempted (g : Group) (r : Row) (f : Fields) : (g.enter r f).preempted = g.preempted := rfl
@[simp] theorem Group.enter_wantPreempt (g : Group) (r : Row) (f : Fields) : (g.enter r f).wantPreempt = g.wantPreempt := rfl
@[simp] theorem Group.enter_wantFreeze (g : Group) (r : Row) (f : Fields) : (g.enter r f).wantFreeze = g.wantFreeze := rfl
@[simp] theorem Group.enter_wantKill (g : Group) (r : Row) (f : Fields) : (g.enter r f).wantKill = g.wantKill := rfl
@[simp] theorem Group.enter_mcheck (g : Group) (r : Row) (f : Fields) : (g.enter r f).mcheck = g.mcheck := rfl
@[simp] theorem Group.enter_killed (g : Group) (r : Row) (f : Fields) : (g.enter r f).killed = g.killed := rfl
@[simp] theorem Group.enter_stepOnce (g : Group) (r : Row) (f : Fields) : (g.enter r f).stepOnce = g.stepOnce := rfl
@[simp] theorem Group.enter_armed (g : Group) (r : Row) (f : Fields) : (g.enter r f).armed = g.armed := rfl
@[simp] theorem Group.enter_fence (g : Group) (r : Row) (f : Fields) : (g.enter r f).fence = g.fence := rfl
@[simp] theorem Group.enter_ord (g : Group) (r : Row) (f : Fields) : (g.enter r f).ord = g.ord := rfl
@[simp] theorem Group.enter_kids (g : Group) (r : Row) (f : Fields) : (g.enter r f).kids = g.kids := rfl
@[simp] theorem Group.enter_readyScalar (g : Group) (r : Row) (f : Fields) : (g.enter r f).readyScalar = g.readyScalar := rfl
@[simp] theorem Group.enter_readyVector (g : Group) (r : Row) (f : Fields) : (g.enter r f).readyVector = g.readyVector := rfl
@[simp] theorem Group.enter_wonScalar (g : Group) (r : Row) (f : Fields) : (g.enter r f).wonScalar = g.wonScalar := rfl
@[simp] theorem Group.enter_wonVector (g : Group) (r : Row) (f : Fields) : (g.enter r f).wonVector = g.wonVector := rfl
@[simp] theorem Group.enter_ticked (g : Group) (r : Row) (f : Fields) : (g.enter r f).ticked = g.ticked := rfl
@[simp] theorem Group.enter_regs_s (g : Group) (r : Row) (f : Fields) : (g.enter r f).regs.s = g.regs.s := rfl
@[simp] theorem Group.enter_regs_v (g : Group) (r : Row) (f : Fields) : (g.enter r f).regs.v = g.regs.v := rfl
@[simp] theorem Group.enter_regs_w (g : Group) (r : Row) (f : Fields) : (g.enter r f).regs.w = g.regs.w := rfl
@[simp] theorem Group.enter_regs_p (g : Group) (r : Row) (f : Fields) : (g.enter r f).regs.p = g.regs.p := rfl
@[simp] theorem Group.enter_regs_mask (g : Group) (r : Row) (f : Fields) : (g.enter r f).regs.mask = g.regs.mask := rfl
@[simp] theorem Group.enter_regs_mstack (g : Group) (r : Row) (f : Fields) : (g.enter r f).regs.mstack = g.regs.mstack := rfl
@[simp] theorem Group.enter_regs_acc (g : Group) (r : Row) (f : Fields) : (g.enter r f).regs.acc = g.regs.acc := rfl
@[simp] theorem Group.enter_regs_flags (g : Group) (r : Row) (f : Fields) : (g.enter r f).regs.flags = g.regs.flags := rfl
@[simp] theorem Group.enter_regs_latch (g : Group) (r : Row) (f : Fields) : (g.enter r f).regs.latch = g.regs.latch := rfl
@[simp] theorem Group.enter_regs_dic (g : Group) (r : Row) (f : Fields) : (g.enter r f).regs.dic = g.regs.dic := rfl
@[simp] theorem Group.enter_regs_gmi (g : Group) (r : Row) (f : Fields) : (g.enter r f).regs.gmi = g.regs.gmi := rfl
@[simp] theorem Group.enter_regs_fcr (g : Group) (r : Row) (f : Fields) : (g.enter r f).regs.fcr = g.regs.fcr := rfl
@[simp] theorem Group.enter_regs_lt (g : Group) (r : Row) (f : Fields) : (g.enter r f).regs.lt = g.regs.lt := rfl
@[simp] theorem Group.enter_regs_defer (g : Group) (r : Row) (f : Fields) : (g.enter r f).regs.defer = g.regs.defer := rfl
@[simp] theorem Group.enter_regs_progress (g : Group) (r : Row) (f : Fields) : (g.enter r f).regs.progress = g.regs.progress := rfl
@[simp] theorem Group.enter_regs_olds (g : Group) (r : Row) (f : Fields) : (g.enter r f).regs.olds = g.regs.olds := rfl
@[simp] theorem Group.enter_regs_pc (g : Group) (r : Row) (f : Fields) :
    (g.enter r f).regs.pc = g.regs.pc + BitVec.ofNat 64 f.len := rfl
@[simp] theorem Group.enter_ssrc (g : Group) (r : Row) (f : Fields) : (g.enter r f).ssrc = g.ssrc := rfl
@[simp] theorem Group.enter_vsrc (g : Group) (r : Row) (f : Fields) : (g.enter r f).vsrc = g.vsrc := rfl
@[simp] theorem Group.enter_psrc (g : Group) (r : Row) (f : Fields) : (g.enter r f).psrc = g.psrc := rfl
@[simp] theorem Group.enter_active (g : Group) (r : Row) (f : Fields) : (g.enter r f).active = g.active := rfl

end Sys2Proof.Machine
end

