-- ==== Sys2Proof/Laws/Ops.lean ====
section
/-!
SUPPORT. What the shared operations do, said once for each.
-/
namespace Sys2Proof.Machine
open Sys2Proof Sys2Proof.Safety

/-! ### The monad of effects -/

@[simp] theorem M.run_pure {α : Type} (a : α) (s : State) : (pure a : M α) s = .ok (a, s) := rfl
@[simp] theorem M.run_bind {α β : Type} (x : M α) (f : α → M β) (s : State) :
    (x >>= f) s = match x s with | .ok (a, s') => f a s' | .error e => .error e := by
  show StateT.bind x f s = _
  unfold StateT.bind
  show Except.bind (x s) _ = _
  cases h : x s <;> rfl
@[simp] theorem M.run_modify (f : State → State) (s : State) : M.modify f s = .ok ((), f s) := rfl
@[simp] theorem M.run_run' {α : Type} (f : State → α × State) (s : State) : M.run' f s = .ok (f s) := rfl
@[simp] theorem M.run_setGroup (k : GKey) (g : Group) (s : State) : M.setGroup k g s = .ok ((), s.setGroup k g) := rfl
@[simp] theorem M.run_onGroup (k : GKey) (f : Group → Group) (s : State) :
    M.onGroup k f s = .ok ((), s.onGroup k f) := rfl
@[simp] theorem M.run_trap {α : Type} (t : Trap) (s : State) : (M.trap t : M α) s = .error (.trap t none) := rfl
@[simp] theorem M.run_stall {α : Type} (s : State) : (M.stall : M α) s = .error .stall := rfl
@[simp] theorem M.lift_ok {α : Type} (a : α) : M.lift (.ok a) = pure a := rfl
@[simp] theorem M.lift_error {α : Type} (t : Trap) : (M.lift (.error t) : M α) = M.trap t := rfl
@[simp] theorem M.check_true (t : Trap) : M.check true t = pure () := rfl
@[simp] theorem M.check_false (t : Trap) : M.check false t = M.trap t := rfl
theorem M.run_group {s : State} {k : GKey} {g : Group} (h : s.group? k = some g) : M.group k s = .ok (g, s) := by
  simp [M.group, h]
@[simp] theorem M.run_group_setGroup (s : State) (k : GKey) (g : Group) :
    M.group k (s.setGroup k g) = .ok (g, s.setGroup k g) := M.run_group (State.group?_setGroup ..)
/-- A clean scalar gives its value. -/
theorem M.clean_of {r : SReg} (h : r.tag = none) : M.clean r = pure r.val := by simp [M.clean, h]
/-- A poisoned scalar is consumed. -/
theorem M.clean_tag {r : SReg} {t : Tag} (h : r.tag = some t) : M.clean r = M.trap (poisonTrap t) := by
  simp [M.clean, h]

/-- A group that neither a renewal, nor a fence, nor an ordered launch holds back passes the gates. -/
theorem M.noSpec_of {s : State} {k : GKey} {g : Group} (hg : s.group? k = some g) (h : g.spec = none) :
    M.noSpec k s = .ok ((), s) := by simp [M.noSpec, M.run_group hg, h]
theorem M.noFence_of {s : State} {k : GKey} {g : Group} (hg : s.group? k = some g) (h : g.fence = none) :
    M.noFence k s = .ok ((), s) := by simp [M.noFence, M.run_group hg, h]
theorem State.ordOf_none {s : State} {k : GKey} {g : Group} (hg : s.group? k = some g) (h : g.ord = none) :
    s.ordOf (.group k) = none := by simp [State.ordOf, hg, h]
theorem M.oldest_of {s : State} {k : GKey} {g : Group} (hg : s.group? k = some g) (h : g.ord = none) :
    M.oldest k s = .ok ((), s) := by simp [M.oldest, State.ordOf_none hg h]
theorem M.gate_of {s : State} {k : GKey} {g : Group} (hg : s.group? k = some g) (hs : g.spec = none)
    (hf : g.fence = none) (ho : g.ord = none) : M.gate k s = .ok ((), s) := by
  simp [M.gate, M.noSpec_of hg hs, M.noFence_of hg hf, M.oldest_of hg ho]

/-! ### The frame of an instruction -/

/-- A ready group goes on to its effect. -/
theorem State.begin_ready {s : State} {k : GKey} {g : Group} {i : Instr} {r : Row} {f : Fields} {c : Chk}
    (h : Ready s k g i) (hr : row i = some r) (hf : fields i = some f) (hc : c.ok5 g f = true)
    (hp : c.priv f = true → g.id.sup = true) : s.begin_ i c = .go k g r f := by
  have hl := h.legal
  simp only [legal, hr, hf, Bool.and_eq_true, Bool.or_eq_true, Bool.not_eq_true'] at hl
  simp only [State.begin_, h.cur, hr, hf, h.group, hl.1, hc, h.spec]
  have : ((r.priv || c.priv f) && !g.id.sup) = false := by
    cases hs : g.id.sup
    · have h1 : c.priv f = false := Bool.eq_false_iff.mpr fun e => by simp [hs] at hp; simp_all
      simp_all
    · simp
  simp [this]

/-- A group without a single step under way is left as it is at the end of an instruction. -/
theorem State.stepped_of {s : State} {k : GKey} {g : Group} (hg : s.group? k = some g) (ho : g.stepOnce = false) :
    s.stepped k = s := by simp [State.stepped, hg, ho]

/-- An instruction completes: dic counts it. -/
theorem State.complete_of {s : State} {k : GKey} {g : Group} (r : Row) (hg : s.group? k = some g)
    (ho : g.stepOnce = false) : s.complete k r = s.setGroup k { g with regs := g.regs.countDic r.vec } := by
  rw [State.complete, State.onGroup_of hg]
  exact State.stepped_of (State.group?_setGroup ..) ho

/-- A register instruction whose body answers a group puts it in place. -/
theorem runRegs_ready {s : State} {k : GKey} {g g' : Group} {i : Instr} {r : Row} {f : Fields} {c : Chk}
    {body : Fields → Group → Except Trap Group}
    (h : Ready s k g i) (hr : row i = some r) (hf : fields i = some f) (hc : c.ok5 g f = true)
    (hp : c.priv f = true → g.id.sup = true) (hb : body f (g.enter r f) = .ok g') (ho : g'.stepOnce = false) :
    runRegs i body s c = .next (s.setGroup k { g' with regs := g'.regs.countDic r.vec }) := by
  rw [runRegs, State.begin_ready h hr hf hc hp]
  simp only [hb]
  rw [State.complete_of r (State.group?_setGroup ..) ho, State.setGroup_setGroup]

/-- A register instruction whose body traps delivers the trap. -/
theorem runRegs_trap {s : State} {k : GKey} {g : Group} {i : Instr} {r : Row} {f : Fields} {c : Chk} {t : Trap}
    {body : Fields → Group → Except Trap Group}
    (h : Ready s k g i) (hr : row i = some r) (hf : fields i = some f) (hc : c.ok5 g f = true)
    (hp : c.priv f = true → g.id.sup = true) (hb : body f (g.enter r f) = .error t) :
    runRegs i body s c = .next (s.trapGroup k t (namesLatch r f)) := by
  rw [runRegs, State.begin_ready h hr hf hc hp]
  simp [hb, State.trapOrWait, h.spec]

/-- A machine instruction whose body answers a state completes in it. -/
theorem runM_ready {s s' : State} {k : GKey} {g : Group} {i : Instr} {r : Row} {f : Fields} {c : Chk}
    {body : Fields → GKey → M Unit}
    (h : Ready s k g i) (hr : row i = some r) (hf : fields i = some f) (hc : c.ok5 g f = true)
    (hp : c.priv f = true → g.id.sup = true) (hb : body f k (s.setGroup k (g.enter r f)) = .ok ((), s')) :
    runM i body s c = .next (s'.complete k r) := by
  rw [runM, State.begin_ready h hr hf hc hp]
  simp only [hb]

/-- A machine instruction whose body traps with nothing done delivers the trap. -/
theorem runM_trap {s : State} {k : GKey} {g : Group} {i : Instr} {r : Row} {f : Fields} {c : Chk} {t : Trap}
    {body : Fields → GKey → M Unit}
    (h : Ready s k g i) (hr : row i = some r) (hf : fields i = some f) (hc : c.ok5 g f = true)
    (hp : c.priv f = true → g.id.sup = true) (hb : body f k (s.setGroup k (g.enter r f)) = .error (.trap t none)) :
    runM i body s c = .next (s.trapGroup k t (namesLatch r f)) := by
  rw [runM, State.begin_ready h hr hf hc hp]
  simp [hb, State.trapOrWait, h.spec, keepOf]

/-- A machine instruction that is not ready leaves the machine as it is. -/
theorem runM_stall {s : State} {k : GKey} {g : Group} {i : Instr} {r : Row} {f : Fields} {c : Chk}
    {body : Fields → GKey → M Unit}
    (h : Ready s k g i) (hr : row i = some r) (hf : fields i = some f) (hc : c.ok5 g f = true)
    (hp : c.priv f = true → g.id.sup = true) (hb : body f k (s.setGroup k (g.enter r f)) = .error .stall) :
    runM i body s c = .next s := by
  rw [runM, State.begin_ready h hr hf hc hp]
  simp only [hb]

/-- A machine instruction whose body is a pure effect answers it. -/
theorem runM_effect {s s' : State} {k : GKey} {g : Group} {i : Instr} {r : Row} {f : Fields} {c : Chk}
    {body : Fields → GKey → M Unit} {h' : State → State}
    (h : Ready s k g i) (hr : row i = some r) (hf : fields i = some f) (hc : c.ok5 g f = true)
    (hp : c.priv f = true → g.id.sup = true) (hb : body f k (s.setGroup k (g.enter r f)) = .ok ((), s'))
    (he : s' = h' (s.setGroup k (g.enter r f))) : runM i body s c = effect s k g i h' := by
  rw [runM_ready h hr hf hc hp hb]
  simp [effect, finished, entered, hr, hf, he]

/-! ### Reads that no group changes -/

theorem State.trail_setGroup (s : State) (k : GKey) (g : Group) (c rs typ aux pay : Nat) :
    (s.setGroup k g).trail c rs typ aux pay = (s.trail c rs typ aux pay).setGroup k g := by
  unfold State.trail
  extract_lets on1 co1 on2 co2
  have h1 : on1 = on2 := rfl
  have h2 : co1 = co2 := rfl
  rw [h1, h2]
  split
  · rfl
  · split <;> rfl

theorem State.ctlTrail_setGroup (s : State) (k k' : GKey) (g : Group) (b : Bool) (a : Word64) :
    (s.setGroup k g).ctlTrail k' b a = (s.ctlTrail k' b a).setGroup k g := State.trail_setGroup ..

/-- A Trail record changes the core that takes it, and nothing else. -/
theorem State.trail_cores (s : State) (c rs typ aux pay : Nat) : ∃ x, s.trail c rs typ aux pay = { s with cores := x } := by
  unfold State.trail
  extract_lets on co
  split
  · exact ⟨_, rfl⟩
  · split <;> exact ⟨_, rfl⟩

/-- A rebase changes the bases, and nothing else. -/
theorem State.rebase_bases (s : State) (ln n : Nat) : ∃ b, s.rebase ln n = { s with bases := b } := by
  unfold State.rebase
  extract_lets home
  split <;> exact ⟨_, rfl⟩

/-- A sweep changes the lines, and nothing else. -/
theorem State.sweepLine_lines (s : State) (ln : Nat) : ∃ l, s.sweepLine ln = { s with lines := l } := by
  unfold State.sweepLine
  extract_lets b l
  split <;> exact ⟨_, rfl⟩

/-- The mark of a dirty frame changes the dirty bits, and nothing else. -/
theorem State.markDirty_dirty (s : State) (ln : Nat) : ∃ d, s.markDirty ln = { s with dirty := d } := by
  unfold State.markDirty
  split <;> exact ⟨_, rfl⟩

/-- A stamp that no group or command asks for changes lines, bases and dirty bits, and nothing else. -/
theorem State.stamp_ext (s : State) (ln n : Nat) :
    ∃ l b d, s.stamp .ext ln n = { s with lines := l, bases := b, dirty := d } := by
  unfold State.stamp
  extract_lets lt l ts le s1
  obtain ⟨d, hd⟩ := s1.markDirty_dirty ln
  obtain ⟨b, hb⟩ := (s1.markDirty ln).rebase_bases ln ts
  obtain ⟨x, hx⟩ := ((s1.markDirty ln).rebase ln ts).sweepLine_lines ln
  refine ⟨x, b, d, ?_⟩
  show ((s1.markDirty ln).rebase ln ts).sweepLine ln = _
  rw [hx, hb, hd]
  rfl

/-- What a full cache gives up changes lines, the counter of free values and the steps that come next, and nothing else. -/
theorem State.spillHome_lines (s : State) (ln : Nat) :
    ∃ l n a, s.spillHome ln = { s with lines := l, nonce := n, agenda := a } := by
  have h1 (t : State) (h c : Nat) : ∃ l n a, t.spill h c true = { t with lines := l, nonce := n, agenda := a } := by
    unfold State.spill
    simp only [↓reduceIte]
    split <;> exact ⟨_, _, _, rfl⟩
  have h2 (t : State) (h : Nat) : ∃ l n a, t.spillMsc h = { t with lines := l, nonce := n, agenda := a } := by
    unfold State.spillMsc
    extract_lets
    split <;> exact ⟨_, _, _, rfl⟩
  unfold State.spillHome
  split
  · rename_i h _
    obtain ⟨l, n, a, e⟩ := h1 s h (towerCore h)
    obtain ⟨l', n', a', e'⟩ := h2 (s.spill h (towerCore h) true) h
    exact ⟨l', n', a', by rw [e', e]⟩
  · exact ⟨_, _, _, rfl⟩

/-- The merge of a P line that no group or command asks for changes memory, lines, bases, dirty bits and the core that takes the Trail
record, and where the home's caches have no room the counter of free values and the steps that come next; nothing else (08 R153). -/
theorem State.mergeLine_ext (s : State) (ln : Nat) :
    ∃ m l b d c n a, s.mergeLine .ext ln =
      { s with mem := m, lines := l, bases := b, dirty := d, cores := c, nonce := n, agenda := a } := by
  unfold State.mergeLine
  extract_lets l bytes l1 l2 core
  cases l.pot with
  | none => exact ⟨_, _, _, _, _, _, _, rfl⟩
  | some p =>
    dsimp only
    generalize hs : State.stamp _ _ _ _ = s1
    generalize h2 : ({ s1 with mem := putAll s1.mem bytes } : State) = s2
    obtain ⟨x, b, d, h⟩ := (s.setLine ln l2).stamp_ext ln p.lt.toNat
    rw [hs] at h
    subst h h2
    clear hs
    generalize hv : State.spillHome _ ln = v
    obtain ⟨y, n, a, e⟩ := State.spillHome_lines _ ln
    rw [hv] at e
    subst e
    clear hv
    cases core with
    | none => exact ⟨_, _, _, _, _, _, _, rfl⟩
    | some c =>
      dsimp only
      obtain ⟨y, hy⟩ := State.trail_cores _ c 0 5 (p.fn.toNat * 8 + p.t.toNat) (128 * ln)
      exact ⟨_, _, _, _, y, _, _, hy⟩

/-- The merges that a walk brings about change no more than one merge does (24 R381). -/
theorem State.walked_ext (s : State) (x : Ctx) (va : Nat) :
    ∃ m l b d c n a, s.walked x va =
      { s with mem := m, lines := l, bases := b, dirty := d, cores := c, nonce := n, agenda := a } := by
  unfold State.walked
  split
  · exact ⟨_, _, _, _, _, _, _, rfl⟩
  · split
    · exact ⟨_, _, _, _, _, _, _, rfl⟩
    · rename_i p _ _
      generalize (s.walkLines p x.asid va).filter _ = ls
      suffices h : ∀ t : State, ∃ m l b d c n a, ls.foldl (fun v ln => v.mergeLine .ext ln) t =
          { t with mem := m, lines := l, bases := b, dirty := d, cores := c, nonce := n, agenda := a } from h s
      induction ls with
      | nil => exact fun t => ⟨_, _, _, _, _, _, _, rfl⟩
      | cons x r ih =>
        intro t
        obtain ⟨m, l, b, d, c, n, a, h⟩ := t.mergeLine_ext x
        obtain ⟨m2, l2, b2, d2, c2, n2, a2, h2⟩ := ih (t.mergeLine .ext x)
        exact ⟨m2, l2, b2, d2, c2, n2, a2, by rw [List.foldl_cons, h2, h]⟩

theorem State.valueAt_setGroup (s : State) (k : GKey) (g : Group) (pa : Nat) :
    (s.setGroup k g).valueAt pa = s.valueAt pa := rfl

theorem State.walkWord_setGroup (s : State) (k : GKey) (g : Group) (pa : Nat) :
    (s.setGroup k g).walkWord pa = s.walkWord pa := rfl

theorem State.walkFrom_setGroup (s : State) (k : GKey) (g : Group) (p : Part) (va n : Nat) (t l : Nat) :
    (s.setGroup k g).walkFrom p va n t l = s.walkFrom p va n t l := by
  induction n generalizing t l with
  | zero => rfl
  | succ n ih =>
    simp only [State.walkFrom, ih, State.walkWord_setGroup]
    rfl

theorem State.walk_setGroup (s : State) (k : GKey) (g : Group) (p : Part) (a va : Nat) :
    (s.setGroup k g).walk p a va = s.walk p a va := by
  simp only [State.walk, State.walkWord_setGroup, State.walkFrom_setGroup]
  rfl

/-- Translation reads no group. -/
@[simp] theorem State.translate_setGroup (s : State) (k : GKey) (g : Group) (x : Ctx) (acc : Access) (va : Nat) :
    (s.setGroup k g).translate x acc va = s.translate x acc va := by
  simp only [State.translate, State.leafAt, State.walk_setGroup]
  rfl

/-! ### An instruction from the state in which it has entered -/

theorem State.onGroup_onGroup (s : State) (k : GKey) (f h : Group → Group) :
    (s.onGroup k f).onGroup k h = s.onGroup k fun x => h (f x) := by
  unfold State.onGroup
  cases hh : s.group? k <;> simp [hh]

/-- A machine instruction whose body answers a state from the entered one completes in it. -/
theorem runM_of {s s' : State} {k : GKey} {g : Group} {i : Instr} {r : Row} {f : Fields} {c : Chk}
    {body : Fields → GKey → M Unit} (h : Ready s k g i) (hr : row i = some r) (hf : fields i = some f)
    (hc : c.ok5 g f = true) (hp : c.priv f = true → g.id.sup = true)
    (hb : body f k (entered s k g i) = .ok ((), s')) : runM i body s c = .next (finished s' k i) := by
  simp only [entered, hr, hf] at hb
  rw [runM_ready h hr hf hc hp hb]
  simp [finished, hr]

/-- One whose body traps from the entered state traps. -/
theorem runM_trapResult {s : State} {k : GKey} {g : Group} {i : Instr} {r : Row} {f : Fields} {c : Chk} {t : Trap}
    {body : Fields → GKey → M Unit} (h : Ready s k g i) (hr : row i = some r) (hf : fields i = some f)
    (hc : c.ok5 g f = true) (hp : c.priv f = true → g.id.sup = true)
    (hb : body f k (entered s k g i) = .error (.trap t none)) : runM i body s c = trapResult s k i t := by
  simp only [entered, hr, hf] at hb
  rw [runM_trap h hr hf hc hp hb]
  simp [trapResult, hr, hf]

variable {s : State} {k : GKey} {g : Group} {i : Instr} {r : Row} {f : Fields}

theorem M.group_entered (hr : row i = some r) (hf : fields i = some f) :
    M.group k (entered s k g i) = .ok (g.enter r f, entered s k g i) := by
  simp only [entered, hr, hf]
  exact M.run_group (State.group?_setGroup ..)
theorem M.noSpec_entered (h : Ready s k g i) (hr : row i = some r) (hf : fields i = some f) :
    M.noSpec k (entered s k g i) = .ok ((), entered s k g i) := by
  simp only [entered, hr, hf]
  exact M.noSpec_of (State.group?_setGroup ..) (by simp [Group.enter, h.spec])
theorem M.noFence_entered (h : Free s k g i) (hr : row i = some r) (hf : fields i = some f) :
    M.noFence k (entered s k g i) = .ok ((), entered s k g i) := by
  simp only [entered, hr, hf]
  exact M.noFence_of (State.group?_setGroup ..) (by simp [Group.enter, h.fence])
theorem M.oldest_entered (h : Free s k g i) (hr : row i = some r) (hf : fields i = some f) :
    M.oldest k (entered s k g i) = .ok ((), entered s k g i) := by
  simp only [entered, hr, hf]
  exact M.oldest_of (State.group?_setGroup ..) (by simp [Group.enter, h.ord])
theorem M.gate_entered (h : Free s k g i) (hr : row i = some r) (hf : fields i = some f) :
    M.gate k (entered s k g i) = .ok ((), entered s k g i) := by
  simp [M.gate, M.noSpec_entered h.toReady hr hf, M.noFence_entered h hr hf, M.oldest_entered h hr hf]

/-- Entering an instruction changes only the program counter and the chain. -/
@[simp] theorem Group.enter_places (g : Group) (r : Row) (f : Fields) : M.places (g.enter r f) = M.places g := rfl
@[simp] theorem Group.enter_inst (g : Group) (r : Row) (f : Fields) : M.inst (g.enter r f) = M.inst g := rfl
@[simp] theorem Group.enter_ctx (g : Group) (r : Row) (f : Fields) : (g.enter r f).ctx = g.ctx := rfl
@[simp] theorem Group.enter_pos (g : Group) (r : Row) (f : Fields) (x : Inst) : (g.enter r f).pos x = g.pos x := rfl
theorem Group.enter_scalarEl (g : Group) (r : Row) (f : Fields) (off : Word64) :
    (g.enter r f).scalarEl off = g.scalarEl off := rfl
theorem Group.enter_vectorEls (g : Group) (r : Row) (f : Fields) :
    M.vectorEls (g.enter r f) = M.vectorEls g := rfl
@[simp] theorem Group.enter_atomSrc (g : Group) (r : Row) (f f' : Fields) (x : Sel) :
    (g.enter r f).atomSrc f' x = g.atomSrc f' x := rfl
@[simp] theorem Group.enter_at (g : Group) (r : Row) (f : Fields) : (g.enter r f).at_ f = g.regs.pc := by
  simp [Group.at_, BitVec.add_sub_cancel]
@[simp] theorem entered_inst? (s : State) (k : GKey) (g : Group) (i : Instr) (n : Nat) :
    (entered s k g i).inst? n = s.inst? n := by
  unfold entered; split <;> rfl
@[simp] theorem entered_part? (s : State) (k : GKey) (g : Group) (i : Instr) (n : Nat) :
    (entered s k g i).part? n = s.part? n := by
  unfold entered; split <;> rfl

end Sys2Proof.Machine
end

