-- ==== Sys2Proof/Tests/Slice0.lean ====
section
/-!
SUPPORT. Tests: what the decoder accepts and refuses, single steps with results computed by hand from the spec, and for
each statement states that meet its hypotheses.
-/
set_option Elab.async false
namespace Sys2Proof.Tests
open Sys2Proof Sys2Proof.Machine Sys2Proof.Safety

/-! ### A small machine -/

/-- The group of the placed program. -/
abbrev K : GKey := placedKey

/-- That group with registers set: s4, v4 and p4 carry the deferral tag 3, s5 = 0x100, s6 = 8, s7 = 2, s8 = 0x1F, p5 has bit 1 set,
v6 holds 1 in element 0, and fs0 is the word of a blocked format of 8 bits. -/
def grp : Group :=
  { placedGroup with
    id := { placedGroup.id with fs := placedGroup.id.fs.set 0 0x483DC }
    regs := { placedGroup.regs with
      s := ((((placedGroup.regs.s.set 4 { val := 0, tag := some 3 }).set 5 { val := 0x100 }).set 6 { val := 8 }).set 7
        { val := 2 }).set 8 { val := 0x1F }
      v := (placedGroup.regs.v.set 4 { tags := [(0, 3)] }).set 6 { val := 1 }
      p := (placedGroup.regs.p.set 4 { tags := [(0, 3)] }).set 5 { val := 2 } } }

/-- Lines that the L1 of the group's core holds in M, so that no free choice of a miss enters a test. -/
def warm (l : List Nat) : Store Line := l.map fun n => (n, { dirs := [(0, { st := .m, l1 := [(0, {})] })] })

/-- The machine of the placed program while that group runs an instruction. -/
def base : State :=
  { State.reset.placeWord 64 5 with
    grant := []
    cur := some K
    lines := warm (List.range 7 ++ List.range' 1024 8 ++ [1536, 1632, 2048]) }

/-- The same with a given group in its place. -/
def at_ (g : Group) : State := base.setGroup K g

/-- The instructions pass steps 4 to 6 of the decode order in the group, which nothing holds back. -/
def okIn (g : Group) (l : List Instr) : Bool :=
  l.all (fun i => wellFormed i && legal g i) && g.spec.isNone && !g.stepOnce && g.fence.isNone && g.ord.isNone

theorem free_in {s : State} {g : Group} (hc : s.cur = some K) (hg : s.group? K = some g) {l : List Instr}
    (h : okIn g l = true) : ∀ i ∈ l, Free s K g i := by
  intro i hi
  simp only [okIn, Bool.and_eq_true, List.all_eq_true, Option.isNone_iff_eq_none, Bool.not_eq_true'] at h
  exact ⟨⟨hc, hg, (h.1.1.1.1 i hi).1, (h.1.1.1.1 i hi).2, h.1.1.1.2, h.1.1.2⟩, h.1.2, h.2⟩

theorem free_at (g : Group) {l : List Instr} (h : okIn g l = true) : ∀ i ∈ l, Free (at_ g) K g i :=
  free_in rfl (State.group?_setGroup ..) h

/-- The machine with the registers above. -/
abbrev st : State := at_ grp

theorem free {l : List Instr} (h : okIn grp l = true) : ∀ i ∈ l, Free st K grp i := free_at grp h

theorem ready {l : List Instr} (h : okIn grp l = true) : ∀ i ∈ l, Ready st K grp i := fun i hi => (free h i hi).toReady

/-- The machine as one of its instructions begins. -/
abbrev u (i : Instr) : State := entered st K grp i

/-- An operation answers a value and a state of which something holds. -/
def gives {α : Type} (x : Except Stop (α × State)) (p : α → State → Bool) : Bool :=
  match x with
  | .ok (a, t) => p a t
  | .error _ => false

theorem of_gives {α : Type} {x : Except Stop (α × State)} {p : α → State → Bool} (h : gives x p = true) :
    ∃ a t, x = .ok (a, t) ∧ p a t = true := by
  unfold gives at h
  split at h
  · exact ⟨_, _, rfl, h⟩
  · simp at h

/-! ### Witnesses: scalar, control and predicate instructions -/

/-- Operands s5, s6, s7. -/
def sss : Fields := { d := .s 1, a := .s 5, b := .s 6, c := .s 7, t := 6 }
/-- Operands s5 and s6. -/
def ss : Fields := { d := .s 1, a := .s 5, b := .s 6, t := 6 }
/-- The operand s5. -/
def s1 : Fields := { d := .s 1, a := .s 5, t := 6 }
/-- s5 over s0. -/
def byZero : Fields := { ss with b := .s 0 }
/-- s4, which is poisoned, over s0. -/
def taggedByZero : Fields := { ss with a := .s 4, b := .s 0 }

theorem witness_ScalarArithmeticResults :
    (∀ i ∈ [.sadd ss, .ssub ss, .smul ss, .smulh ss, .smulh { ss with t := 7 }, .smadd sss, .ssel sss, .smov s1,
      .slea sss, .sdiv ss, .srem ss, .sdiv byZero, .srem byZero, .sdiv taggedByZero, .srem taggedByZero],
      Ready st K grp i) ∧
    (grp.ssrc ss false ss.b).val ≠ 0 ∧ (grp.ssrc byZero false byZero.b).val = 0 ∧
    (grp.ssrc byZero false byZero.a).tag = none ∧ (grp.ssrc byZero false byZero.b).tag = none ∧
    (grp.ssrc taggedByZero false taggedByZero.a).tag = some 3 :=
  ⟨ready (by decide +kernel), by and_intros <;> decide +kernel⟩

theorem witness_ScalarLogicResults :
    ∀ i ∈ [.slog ss, .sshf ss, .sbit s1, .smnx ss, .sset ss, .sbfx { s1 with imm := .i32 0x070C },
      .sbfi { ss with imm := .i32 0x070C }], Ready st K grp i := ready (by decide +kernel)

/-- A branch forward by 0x40. -/
def fwd : Fields := { imm := .i32 0x40 }
/-- A branch forward by 0x42. -/
def odd : Fields := { imm := .i32 0x42 }
/-- A comparison of s5 with s6. -/
def cmpF : Fields := { a := .s 5, b := .s 6, t := 6, imm := .i32 0x40 }
/-- The operand s4, which is poisoned. -/
def bad4 : Fields := { a := .s 4 }
/-- The operand s7, which holds 2. -/
def two7 : Fields := { a := .s 7 }

/-- s63 set. -/
def link (x : SReg) : Group := { grp with regs := { grp.regs with s := grp.regs.s.set 63 x } }

theorem witness_ControlResults :
    (∀ i ∈ [.nop {}, .br fwd, .brc cmpF, .jmp { a := .s 5 }, .call fwd, .call { a := .s 5 }, .ret {},
      .loop { d := .s 5, imm := .i32 0x40 }, .clk { d := .s 1 }, .brm { a := .v 5, imm := .i32 0x40 }, .exit {}, .yield {},
      .sleep { a := .s 6 }], Free st K grp i) ∧
    (grp.regs.pc + fwd.i32.signExtend 64).toNat % 4 = 0 ∧ (grp.ssrc cmpF false cmpF.a).tag = none ∧
    (grp.ssrc cmpF false cmpF.b).tag = none ∧ (grp.ssrc {} true (.s 5)).tag = none ∧
    (grp.ssrc {} true (.s 5)).val.toNat % 4 = 0 ∧ fwd.is96 = true ∧ ({ a := .s 5 } : Fields).is96 = false ∧
    (grp.regs.sget 63).tag = none ∧ (grp.regs.sget 63).val.toNat % 4 = 0 ∧ (grp.ssrc {} true (.s 6)).tag = none ∧
    (∀ e, e < 1024 → grp.active { a := .v 5, imm := .i32 0x40 } e = true → Store.get? (grp.psrc (.v 5)).tags e = none) :=
  ⟨free (by decide +kernel), by decide +kernel, by decide +kernel, by decide +kernel, by decide +kernel,
    by decide +kernel, rfl, rfl, by decide +kernel, by decide +kernel, by decide +kernel, fun _ _ _ => rfl⟩

theorem witness_ControlTraps :
    (∀ i ∈ [.br odd, .brc { cmpF with a := .s 4 }, .brc { cmpF with imm := .i32 0x42 }, .jmp bad4, .jmp two7,
      .call odd, .call bad4, .call two7, .loop { d := .s 4, imm := .i32 0x40 }, .loop { d := .s 5, imm := .i32 0x42 }],
      Ready st K grp i) ∧
    Ready (at_ (link { val := 0, tag := some 3 })) K (link { val := 0, tag := some 3 }) (.ret {}) ∧
    Ready (at_ (link { val := 2 })) K (link { val := 2 }) (.ret {}) ∧
    (grp.regs.pc + odd.i32.signExtend 64).toNat % 4 ≠ 0 ∧
    firstTag [(grp.ssrc { cmpF with a := .s 4 } false (.s 4)).tag, (grp.ssrc cmpF false (.s 6)).tag] = some 3 ∧
    (grp.ssrc {} true (.s 4)).tag = some 3 ∧ (grp.ssrc {} true (.s 7)).val.toNat % 4 ≠ 0 ∧
    ((link { val := 0, tag := some 3 }).regs.sget 63).tag = some 3 ∧
    ((link { val := 2 }).regs.sget 63).val.toNat % 4 ≠ 0 :=
  ⟨ready (by decide +kernel), (free_at _ (l := [.ret {}]) (by decide +kernel) _ (by simp)).toReady,
    (free_at _ (l := [.ret {}]) (by decide +kernel) _ (by simp)).toReady, by and_intros <;> decide +kernel⟩

/-- A group of an ordered launch that has not committed. -/
def ordG : Group := { grp with ord := some { ts := 0 } }
/-- A group that GCTL.STEP let run for one instruction. -/
def onceG : Group := { grp with stepOnce := true }

theorem witness_ControlResults_ordered :
    Ready (at_ ordG) K ordG (.exit {}) ∧ ordG.fence = none ∧ ((at_ ordG).ordOf (.group K)).isSome = true :=
  ⟨⟨rfl, State.group?_setGroup .., by decide +kernel, by decide +kernel, rfl, rfl⟩, rfl, by decide +kernel⟩

theorem witness_ControlTraps_brm :
    Ready st K grp (.brm { a := .v 4, imm := .i32 0x40 }) ∧ grp.active { a := .v 4, imm := .i32 0x40 } 0 = true ∧
    Store.get? (grp.psrc (.v 4)).tags 0 = some 3 ∧ Ready st K grp (.brm { a := .v 5, imm := .i32 0x42 }) ∧
    (∀ e, e < 1024 ∧ grp.active { a := .v 5, imm := .i32 0x42 } e = true → Store.get? (grp.psrc (.v 5)).tags e = none) ∧
    (grp.regs.pc + (0x42 : Word32).signExtend 64).toNat % 4 ≠ 0 :=
  ⟨ready (l := [.brm { a := .v 4, imm := .i32 0x40 }]) (by decide +kernel) _ (by simp), by decide +kernel, by decide +kernel,
    ready (l := [.brm { a := .v 5, imm := .i32 0x42 }]) (by decide +kernel) _ (by simp), fun _ _ => rfl, by decide +kernel⟩

/-- The mask stack full. -/
def deep : Group := { grp with regs := { grp.regs with mstack := List.replicate 8 1 } }

theorem witness_PredicateAndMaskResults :
    (∀ i ∈ [.plog { d := .v 1, a := .v 5, b := .v 4 }, .pcnt { d := .s 1, a := .v 5 }, .pcnt { d := .v 1, a := .v 5 },
      .pfirst { d := .v 1, a := .v 5 }, .pmem { d := .s 1, a := .v 5 }, .pmem { d := .v 1, a := .v 5 },
      .mmskSet { a := .s 6 }, .mmskAnd { a := .s 6, fn := 1 }, .mmskOr { a := .s 6, fn := 2 },
      .mmskPush { a := .s 6, fn := 3 }, .mmskPop { fn := 4 }], Ready st K grp i) ∧
    (∀ i ∈ [.mmskPush { a := .s 6, fn := 3 }, .mmskPop { fn := 4 }], Free (at_ deep) K deep i) ∧
    (grp.ssrc {} true (.s 6)).tag = none ∧ grp.regs.mstack = [] ∧ deep.regs.mstack = 1 :: List.replicate 7 1 ∧
    8 ≤ deep.regs.mstack.length ∧ ({ d := .s 1 } : Fields).dScalar = true ∧ ({ d := .v 1 } : Fields).dScalar = false :=
  ⟨ready (by decide +kernel), free_at deep (by decide +kernel), by decide +kernel, rfl, rfl, by decide, rfl, rfl⟩

theorem witness_FirstLanes :
    Ready st K grp (.pfirst { d := .v 1, a := .v 5 }) ∧ grp.id.mcount = 1 ∧ grp.lanes = 1024 ∧
    grp.active { d := .v 1, a := .v 5 } 1 = true ∧ grp.active { d := .v 1, a := .v 5, p := 5 } 0 = false :=
  ⟨ready (l := [.pfirst { d := .v 1, a := .v 5 }]) (by decide +kernel) _ (by simp), rfl, rfl, by decide +kernel,
    by decide +kernel⟩

/-! ### Witnesses: vector, floating-point and accumulator instructions -/

/-- Operands v6 and v8. -/
def vv : Fields := { d := .v 2, a := .v 6, b := .v 8 }
/-- Operands v6, v8 and v10. -/
def vvv : Fields := { vv with c := .v 10 }
/-- The operand v6. -/
def v1 : Fields := { d := .v 2, a := .v 6 }

theorem witness_VectorIntegerResults :
    ∀ i ∈ [.vadd vv, .vsub vv, .vmul vv, .vmul { vv with fn := 1 }, .vmad vvv, .vmnx vv, .vabs v1, .vlog vv, .vshf vv, .vbit v1,
      .vmov v1, .vcmp { vv with d := .v 1 }, .vsel { vv with c := .v 5 }, .vcvti v1], Ready st K grp i :=
  ready (by decide +kernel)

theorem witness_LaneResults :
    ∀ i ∈ [.vperm vv, .vslide { vv with c := .s 7 }, .vblut { v1 with b := .s 6, c := .s 7, t := 5 }, .vredi v1, .vscan v1,
      .vext { d := .s 1, a := .v 6, b := .s 7 }, .vins { d := .v 2, a := .s 6, b := .s 7 }, .vcompCompress v1,
      .vcompExpand { v1 with fn := 1 }], Ready st K grp i := ready (by decide +kernel)

theorem witness_VectorFloatResults :
    ∀ i ∈ [.vfadd vv, .vfsub vv, .vfmul vv, .vfdiv vv, .vfma vvv, .vfsqrt v1, .vfexp v1, .vflog v1, .vfrnd v1, .vfxp v1,
      .vfmnx vv, .vfsgn vv, .vfsgn { v1 with fn := 1 }, .vfscl vv], Ready st K grp i := ready (by decide +kernel)

theorem witness_FloatTestAndFlagResults :
    (∀ i ∈ [.vfcmp { vv with d := .v 1 }, .vfcls { v1 with d := .v 1, b := .s 6 }, .rdfl { d := .v 2 }, .clfl { a := .s 6 },
      .clfl { a := .s 4 }], Ready st K grp i) ∧
    (grp.ssrc {} true (.s 6)).tag = none ∧ (grp.ssrc {} true (.s 4)).tag = some 3 :=
  ⟨ready (by decide +kernel), by decide +kernel, by decide +kernel⟩

theorem witness_ScalarFloatResults :
    ∀ i ∈ [.sfadd { ss with t := 1 }, .sfmul { ss with t := 1 }, .sffma { sss with t := 1 }, .sfdiv { ss with t := 1 },
      .sfsqrt { s1 with t := 1 }, .sfcmp { ss with t := 1 }, .sfcvt { s1 with t := 0, x := 1 }, .sfcvt { s1 with x := 0x09 },
      .sfcvt { s1 with t := 0, x := 0x16 }], Ready st K grp i := ready (by decide +kernel)

/-- Slot conversion under fs0, its scales in v8. -/
def slotF : Fields := { vv with imm := .i32 0 }

theorem witness_ConversionResults :
    (∀ i ∈ [.vcvtFpfp v1, .vcvtFpint { v1 with fn := 1 }, .vcvtIntfp { v1 with fn := 2 },
      .vcvtFpslot { slotF with fn := 3 }, .vcvtSlotfp { slotF with fn := 4 }, .vrq { slotF with c := .v 10 },
      .vbsc { slotF with b := .v 0 }], Ready st K grp i) ∧
    slotOk grp slotF = true ∧ blockOk grp slotF = true :=
  ⟨ready (by decide +kernel), by decide +kernel, by decide +kernel⟩

/-- An accumulator instruction with a base in s5. -/
def g5 : Fields := { a := .s 5 }
/-- The same at address 0, for a merge into memory. -/
def g0 : Fields := { a := .s 0, x := 16 }
/-- No member is set in mk. -/
def noMember : Group := { grp with regs := { grp.regs with mask := 0 } }

set_option maxRecDepth 20000 in
theorem witness_AgateResults :
    (∀ i ∈ [.gclr {}, .gadd { a := .v 6 }, .gdot { a := .v 6, b := .v 8 }, .grnd { d := .v 2, c := .v 1 }, .gstat { d := .s 1 },
      .gstat { d := .v 2 }, .gst g5, .gld g5, .gmrg g5, .gmrgMem g0], Free st K grp i) ∧
    Ready (at_ noMember) K noMember (.gstat { d := .s 1 }) ∧ noMember.lowest = none ∧ grp.lowest = some 0 ∧
    accOk grp {} = true ∧ accOk grp g0 = true ∧ (∀ m ∈ grp.members, (grp.regs.accAt m 0).tag = none) ∧
    (∃ l spots, M.images grp g5 32 true (u (.gst g5)) = .ok (l, u (.gst g5)) ∧
      M.xlatPage grp.ctx .write (imageSectors l) (u (.gst g5)) = .ok (spots, u (.gst g5))) ∧
    (∃ l got tag t, M.images grp g5 32 false (u (.gld g5)) = .ok (l, u (.gld g5)) ∧
      M.loadGot K 0 32 grp.regs.pc (imageSectors l) (u (.gld g5)) = .ok ((got, tag), t)) ∧
    ∃ l spots, M.images grp g0 1024 true (u (.gmrgMem g0)) = .ok (l, u (.gmrgMem g0)) ∧
      M.xlatPage grp.ctx .rmw l (u (.gmrgMem g0)) = .ok (spots, u (.gmrgMem g0)) :=
  ⟨free (by decide +kernel), (free_at noMember (l := [.gstat { d := .s 1 }]) (by decide +kernel) _ (by simp)).toReady,
    by decide +kernel, by decide +kernel, by decide +kernel, by decide +kernel, by decide +kernel,
    ⟨_, _, rfl, rfl⟩, ⟨_, _, _, _, rfl, rfl⟩, ⟨_, _, rfl, rfl⟩⟩

/-! ### Witnesses: memory instructions -/

/-- A load into s1 at 0x100. -/
def ld : Fields := { d := .s 1, a := .s 5 }
/-- A store of s6 at 0x100. -/
def sv : Fields := { a := .s 5, b := .s 6 }
/-- A vector load of element 1. -/
def vl : Fields := { d := .v 2, a := .s 5, p := 5 }
/-- A vector store of element 1. -/
def vs : Fields := { a := .s 5, b := .v 6, p := 5 }
/-- A group of one lane a member, so that a row is short. -/
def narrow16 : Group := { grp with id := { grp.id with mcount := 1024 } }

/-- A load of w2. -/
def wl : Fields := { d := .w 2, a := .s 5 }
/-- Its elements. -/
def wels : List El := (List.range narrow16.lanes).map fun n => { e := n, off := 0x100 + BitVec.ofNat 64 (4 * n), gmi := 0 }

set_option maxRecDepth 20000 in
theorem witness_LoadAndStoreResults :
    (∀ i ∈ [.sld ld, .vld vl, .sst sv, .vst vs], Free st K grp i) ∧
    Free (at_ narrow16) K narrow16 (.wld wl) ∧
    (grp.ssrc ld true (.s 5)).tag = none ∧ (grp.ssrc sv true (.s 6)).tag = none ∧ grp.regs.progress = 0 ∧
    (∃ ps l t, M.places grp 0 4 [grp.scalarEl 0x100] false (u (.sld ld)) = .ok (ps, u (.sld ld)) ∧
      M.load K 0 4 grp.regs.pc ps (u (.sld ld)) = .ok (l, t)) ∧
    st.translate grp.ctx .read 0x100 = .ok 0x100 ∧ (u (.sld ld)).expiredCopy K 0x100 = none ∧
    (∃ els ps l t, M.vectorEls grp vl false 4 (fun _ => none) (u (.vld vl)) = .ok (els, u (.vld vl)) ∧
      M.places grp 0 4 els false (u (.vld vl)) = .ok (ps, u (.vld vl)) ∧
      M.load K 0 4 grp.regs.pc ps (u (.vld vl)) = .ok (l, t)) ∧
    (∃ ps spots, M.places grp 0 4 [grp.scalarEl 0x100] true (u (.sst sv)) = .ok (ps, u (.sst sv)) ∧
      M.xlatPage grp.ctx .write ps (u (.sst sv)) = .ok (spots, u (.sst sv))) ∧
    (∃ ps l t, M.places narrow16 0 4 wels false (entered (at_ narrow16) K narrow16 (.wld wl)) =
        .ok (ps, entered (at_ narrow16) K narrow16 (.wld wl)) ∧
      M.load K 0 4 grp.regs.pc ps (entered (at_ narrow16) K narrow16 (.wld wl)) = .ok (l, t)) ∧
    ∃ els ps spots,
      M.vectorEls grp vs false 4 (fun e => (grp.vsrc vs (.i 0) (.v 6) e).tag) (u (.vst vs)) = .ok (els, u (.vst vs)) ∧
      M.places grp 0 4 els true (u (.vst vs)) = .ok (ps, u (.vst vs)) ∧ (u (.vst vs)).byPage grp.ctx ps = [ps] ∧
      (u (.vst vs)).held grp.ctx .write ps = false ∧
      M.xlatPage grp.ctx .write ps (u (.vst vs)) = .ok (spots, u (.vst vs)) :=
  ⟨free (by decide +kernel), free_at narrow16 (l := [.wld wl]) (by decide +kernel) _ (by simp),
    by decide +kernel, by decide +kernel, rfl, ⟨_, _, _, rfl, rfl⟩, by decide +kernel, rfl, ⟨_, _, _, _, rfl, rfl, rfl⟩,
    ⟨_, _, rfl, rfl⟩, ⟨_, _, _, rfl, rfl⟩, ⟨_, _, _, rfl, rfl, rfl, rfl, rfl⟩⟩

set_option maxRecDepth 20000 in
theorem witness_LoadAndStoreResults_bytes :
    st.group? K = some grp ∧ grp.spec = none ∧ grp.ord = none ∧ st.translate grp.ctx .read 0x800 = .ok 0x800 ∧
    st.walked grp.ctx 0x800 = st ∧ st.isLocal 0x800 = true ∧ 0x800 % 32 + 8 ≤ 32 ∧ st.lostAt 0x800 = false ∧
    ((st.lineAt 16).dirs = [] ∧ (st.lineAt 16).msc = none ∧ (st.lineAt 16).copies = [] ∧ (st.lineAt 16).notices = [] ∧
      (st.lineAt 16).pot = none) ∧
    (∀ i < 4, NSet.has st.poison (4 * 16 + i) = false ∧ st.lostAt (128 * 16 + 32 * i) = false) ∧
    (st.ccopies = [] ∧ st.outbox = [] ∧ st.strays (.group K) = false ∧ st.wc = []) ∧
    NSet.has (st.padAt grp.id.inst 0).poison (0x100 / 32) = false :=
  ⟨State.group?_setGroup .., rfl, rfl, by decide +kernel, rfl, by decide +kernel, by decide, by decide +kernel,
    ⟨rfl, rfl, rfl, rfl, rfl⟩, by decide +kernel, ⟨rfl, rfl, by decide +kernel, rfl⟩, by decide +kernel⟩

/-- What a vector store does with the elements of one page. -/
def vstPage (g : Group) (y : State) (l : List (Nat × Place)) : Option State :=
  match M.xlatPage g.ctx .write l y with
  | .ok (spots, z) =>
    some (((z.storeSpots K g.id.inst 0 4 (fun e => (g.vsrc vs (.i 0) (.v 6) e).v) spots).noteVas K l spots).onGroup K
      fun x => { x with regs := x.regs.record spots [] })
  | .error _ => none
/-- A base address in s5 that no entry maps. -/
def beyond : Group := { grp with regs := { grp.regs with s := grp.regs.s.set 5 { val := 0x300000 } } }

set_option maxRecDepth 20000 in
theorem witness_LoadAndStoreResults_pages :
    (∃ els ps, M.vectorEls grp vs false 4 (fun e => (grp.vsrc vs (.i 0) (.v 6) e).tag) (u (.vst vs)) =
        .ok (els, u (.vst vs)) ∧
      M.places grp 0 4 els true (u (.vst vs)) = .ok (ps, u (.vst vs)) ∧
      (u (.vst vs)).held grp.ctx .write (grp.unrecorded ps) = false ∧
      (((u (.vst vs)).byPage grp.ctx (grp.unrecorded ps)).foldlM (vstPage grp) (u (.vst vs))).isSome = true) ∧
    Free (at_ beyond) K beyond (.vst vs) ∧
    ∃ els ps x w,
      M.vectorEls beyond vs false 4 (fun e => (beyond.vsrc vs (.i 0) (.v 6) e).tag) (entered (at_ beyond) K beyond (.vst vs)) =
        .ok (els, entered (at_ beyond) K beyond (.vst vs)) ∧
      M.places beyond 0 4 els true (entered (at_ beyond) K beyond (.vst vs)) = .ok (ps, entered (at_ beyond) K beyond (.vst vs)) ∧
      (entered (at_ beyond) K beyond (.vst vs)).held beyond.ctx .write (beyond.unrecorded ps) = false ∧
      (entered (at_ beyond) K beyond (.vst vs)).byPage beyond.ctx (beyond.unrecorded ps) = [] ++ ps :: [] ∧
      M.xlatPage beyond.ctx .write ps (entered (at_ beyond) K beyond (.vst vs)) = .error (.trap x (some w)) :=
  ⟨⟨_, _, rfl, rfl, rfl, rfl⟩, free_at beyond (l := [.vst vs]) (by decide +kernel) _ (by simp),
    ⟨_, _, _, _, rfl, rfl, rfl, rfl, rfl⟩⟩

/-- A load into s1 at 0x1000, which another tower homes. -/
def ldFar : Fields := { ld with a := .s 0, imm := .i32 0x1000 }
/-- A group past the lease of its tower's copy of that line. -/
def lateG : Group := { grp with regs := { grp.regs with lt := 9 } }
/-- That copy. -/
def stale : Leased := { tower := 0, wts := 0, rts := 0, data := 0, poison := 0 }
/-- The machine with both. -/
def expired : State :=
  { at_ lateG with
    lines := Store.put (at_ lateG).lines 32 { dirs := [(0, { st := .s, l1 := [(0, {})] })], copies := [stale] } }
/-- That machine as the load begins, its free choice made. -/
def chosen : State :=
  { entered expired K lateG (.sld ldFar) with nonce := (entered expired K lateG (.sld ldFar)).nonce + 1 }

set_option maxRecDepth 20000 in
theorem witness_LoadAndStoreResults_speculation :
    Free expired K lateG (.sld ldFar) ∧ (lateG.ssrc ldFar true ldFar.a).tag = none ∧
    M.places lateG 0 4 [lateG.scalarEl 0x1000] false (entered expired K lateG (.sld ldFar)) =
      .ok ([(0, .va 0x1000)], entered expired K lateG (.sld ldFar)) ∧
    (entered expired K lateG (.sld ldFar)).translate lateG.ctx .read 0x1000 = .ok 0x1000 ∧
    (entered expired K lateG (.sld ldFar)).expiredCopy K 0x1000 = some stale ∧
    ∃ l t, M.load K 0 4 lateG.regs.pc [(0, .va 0x1000)] chosen = .ok (l, t) :=
  ⟨free_in (l := [.sld ldFar]) rfl (by decide +kernel) (by decide +kernel) _ (by simp), by decide +kernel, rfl,
    by decide +kernel, by decide +kernel, ⟨_, _, rfl⟩⟩

/-- An atomic on s6 at 0x100. -/
def at6 : Fields := { d := .s 1, a := .s 5, b := .s 6 }
/-- A compare-and-swap of s6 by s7. -/
def cas : Fields := { at6 with c := .s 7 }
/-- An atomic of element 1. -/
def va1 : Fields := { d := .v 2, a := .s 5, b := .v 6, p := 5 }
/-- A contribution of element 1. -/
def plkV : Fields := { a := .s 5, b := .v 6, p := 5 }
/-- A contribution of s6. -/
def plkS : Fields := { a := .s 5, b := .s 6 }

set_option maxRecDepth 20000 in
theorem witness_AtomicResults :
    (∀ i ∈ [.satom at6, .scas cas, .vatom va1, .plk plkV, .plk plkS], Free st K grp i) ∧
    (grp.ssrc at6 true (.s 5)).tag = none ∧ (grp.ssrc cas true (.s 6)).tag = none ∧ (grp.ssrc cas true (.s 7)).tag = none ∧
    (grp.atomSrc at6 (.s 6)).tag = none ∧ grp.regs.progress = 0 ∧ plkVector plkV = true ∧ plkVector plkS = false ∧
    (∃ ps spot, M.places grp 0 4 [grp.scalarEl 0x100] true (u (.satom at6)) = .ok (ps, u (.satom at6)) ∧
      M.xlatPage grp.ctx .rmw ps (u (.satom at6)) = .ok ([(0, spot)], u (.satom at6))) ∧
    (∃ ps spot, M.places grp 0 4 [grp.scalarEl 0x100] true (u (.scas cas)) = .ok (ps, u (.scas cas)) ∧
      M.xlatPage grp.ctx .rmw ps (u (.scas cas)) = .ok ([(0, spot)], u (.scas cas))) ∧
    (∃ ps spot, M.places grp 0 4 [grp.scalarEl 0x100] true (u (.plk plkS)) = .ok (ps, u (.plk plkS)) ∧
      M.xlatPage grp.ctx .write ps (u (.plk plkS)) = .ok ([(0, spot)], u (.plk plkS))) ∧
    (∃ els ps spots, M.vectorEls grp va1 true 4 (fun e => (grp.vsrc va1 (atomTy va1) (.v 6) e).tag) (u (.vatom va1)) =
        .ok (els, u (.vatom va1)) ∧
      M.places grp 0 4 els true (u (.vatom va1)) = .ok (ps, u (.vatom va1)) ∧ (u (.vatom va1)).byPage grp.ctx ps = [ps] ∧
      (u (.vatom va1)).held grp.ctx .rmw ps = false ∧
      M.xlatPage grp.ctx .rmw ps (u (.vatom va1)) = .ok (spots, u (.vatom va1))) ∧
    ∃ els ps spots, M.vectorEls grp plkV false 4 (fun e => (grp.vsrc plkV (atomTy plkV) (.v 6) e).tag) (u (.plk plkV)) =
        .ok (els, u (.plk plkV)) ∧
      M.places grp 0 4 els true (u (.plk plkV)) = .ok (ps, u (.plk plkV)) ∧ (u (.plk plkV)).byPage grp.ctx ps = [ps] ∧
      (u (.plk plkV)).held grp.ctx .write ps = false ∧
      M.xlatPage grp.ctx .write ps (u (.plk plkV)) = .ok (spots, u (.plk plkV)) :=
  ⟨free (by decide +kernel), by decide +kernel, by decide +kernel, by decide +kernel, by decide +kernel, rfl, rfl, rfl,
    ⟨_, _, rfl, rfl⟩, ⟨_, _, rfl, rfl⟩, ⟨_, _, rfl, rfl⟩, ⟨_, _, _, rfl, rfl, rfl, rfl, rfl⟩,
    ⟨_, _, _, rfl, rfl, rfl, rfl, rfl⟩⟩

set_option maxRecDepth 20000 in
/-- One page of a vector atomic and of a contribution translates, so that the fold over the pages answers. -/
theorem witness_AtomicResults_pages :
    (∃ els ps spots, M.vectorEls grp va1 true 4 (fun e => (grp.vsrc va1 (atomTy va1) (.v 6) e).tag) (u (.vatom va1)) =
        .ok (els, u (.vatom va1)) ∧
      M.places grp 0 4 els true (u (.vatom va1)) = .ok (ps, u (.vatom va1)) ∧
      (u (.vatom va1)).held grp.ctx .rmw (grp.unrecorded ps) = false ∧
      (u (.vatom va1)).byPage grp.ctx (grp.unrecorded ps) = [ps] ∧
      M.xlatPage grp.ctx .rmw ps (u (.vatom va1)) = .ok (spots, u (.vatom va1))) ∧
    ∃ els ps spots, M.vectorEls grp plkV false 4 (fun e => (grp.vsrc plkV (atomTy plkV) (.v 6) e).tag) (u (.plk plkV)) =
        .ok (els, u (.plk plkV)) ∧
      M.places grp 0 4 els true (u (.plk plkV)) = .ok (ps, u (.plk plkV)) ∧
      (u (.plk plkV)).held grp.ctx .write (grp.unrecorded ps) = false ∧
      (u (.plk plkV)).byPage grp.ctx (grp.unrecorded ps) = [ps] ∧
      M.xlatPage grp.ctx .write ps (u (.plk plkV)) = .ok (spots, u (.plk plkV)) :=
  ⟨⟨_, _, _, rfl, rfl, rfl, rfl, rfl⟩, ⟨_, _, _, rfl, rfl, rfl, rfl, rfl⟩⟩

/-- Scratchpad word 0x100 is full. -/
def full : State := st.onPad 0 0 fun p => { p with full := NSet.add p.full 0x40 }
/-- LDF into s1 from 0x100. -/
def ldfF : Fields := { d := .s 1, a := .s 5, m := 1 }
/-- STE of s6, and CHKW of its bits, at 0x100. -/
def ldfS : Fields := { a := .s 5, b := .s 6, m := 1 }
/-- FESET at 0x100. -/
def fe : Fields := { a := .s 5, m := 1 }
/-- CHKW of no bits at 0x100. -/
def chk0 : Fields := { a := .s 5, b := .s 0, m := 1 }

set_option maxRecDepth 20000 in
theorem witness_FullEmptyResults :
    (∀ i ∈ [.ldfKeep ldfF, .ldfTake { ldfF with fn := 1 }], Free full K grp i) ∧
    (∀ i ∈ [.ste ldfS, .fesetEmpty fe, .fesetFull { fe with fn := 1 }, .chkwWait chk0, .chkwTest { chk0 with fn := 1 },
      .chkwTest { ldfS with fn := 1 }], Free st K grp i) ∧
    timeoutIs grp ldfF (.v 0) none ∧ NSet.has (full.padAt 0 0).full (0x100 / 4) = true ∧
    NSet.has (st.padAt 0 0).full (0x100 / 4) = false ∧ NSet.has (st.padAt 0 0).poison (0x100 / 32) = false ∧
    BitVec.ofNat 64 (ofLeBytes ((List.range 8).map fun i => (st.padAt 0 0).byteAt (0x100 + i))) = 0 ∧
    (∃ l t, M.places grp 1 4 [grp.scalarEl 0x100] false (entered full K grp (.ldfKeep ldfF)) =
        .ok ([(0, .pad 0 0x100)], entered full K grp (.ldfKeep ldfF)) ∧
      M.load K 1 4 grp.regs.pc [(0, .pad 0 0x100)] (entered full K grp (.ldfKeep ldfF)) = .ok (l, t)) ∧
    M.places grp 1 4 [grp.scalarEl 0x100] true (u (.ste ldfS)) = .ok ([(0, .pad 0 0x100)], u (.ste ldfS)) ∧
    M.places grp 1 4 [grp.scalarEl 0x100] true (u (.fesetEmpty fe)) = .ok ([(0, .pad 0 0x100)], u (.fesetEmpty fe)) ∧
    M.places grp 1 8 [grp.scalarEl 0x100] false (u (.chkwWait chk0)) = .ok ([(0, .pad 0 0x100)], u (.chkwWait chk0)) :=
  ⟨free_in (s := full) (g := grp) rfl rfl (by decide +kernel), free (by decide +kernel), rfl, by decide +kernel,
    by decide +kernel, by decide +kernel, by decide +kernel, ⟨_, _, rfl, rfl⟩, rfl, rfl, rfl⟩

/-- FENCE.PROMOTE of a group of core (0, 1). -/
def prom : Fields := { fn := 3, a := .s 5, x := 2 }
/-- TLWAIT for the count in s0. -/
def tw0 : Fields := { d := .v 1, a := .s 0, c := .v 2 }
/-- TLWAIT for the count 2. -/
def tw2 : Fields := { tw0 with a := .s 7 }

set_option maxRecDepth 20000 in
theorem witness_FenceAndTimelineResults :
    (∀ i ∈ [.fenceAcq {}, .fenceRel { fn := 1 }, .fenceFull { fn := 2, x := 4 }, .fencePromote prom,
      .fencePromote { prom with a := .s 8 }, .tlwaitWait tw0, .tlwaitWait tw2, .tlwaitTest { tw0 with fn := 1 },
      .tlwaitTest { tw2 with fn := 1 }, .tlrdDone { d := .s 1 }, .tlrdIssued { d := .s 1, fn := 1 },
      .tlrdErr { d := .s 1, fn := 2 }, .tlrdClrerr { d := .s 1, fn := 3 }, .tlinc { d := .s 1 },
      .fencePromote { prom with x := 3 }], Free st K grp i) ∧
    ({ grp with fence := some { fn := 0, scope := 2 } } : Group).fence = some { fn := 0, scope := 2 } ∧ (0 : BitVec 4) ≠ 1 ∧
    (grp.ssrc prom true (.s 5)).tag = none ∧ st.partOfCore (keyCore ⟨0, 1, 0⟩) = some 0 ∧
    (grp.ssrc prom true (.s 8)).tag = none ∧ st.partOfCore (keyCore ⟨31, 0, 0⟩) ≠ some 0 ∧
    timeoutIs grp tw0 (.v 0) none ∧ (grp.ssrc tw2 true (.s 7)).val.toNat = 2 ∧
    (vget grp.tl 0 {}).issued.toNat < 2 ∧ (vget grp.tl 0 {}).done.toNat < 2 ∧
    ∃ n t, M.issue K 0 0xCF .null 0 (u (.tlinc { d := .s 1 })) = .ok (n, t) :=
  ⟨free (by decide +kernel), rfl, by decide, by decide +kernel, by decide +kernel, by decide +kernel, by decide +kernel, rfl,
    by decide +kernel, by decide +kernel, by decide +kernel, ⟨_, _, rfl⟩⟩

theorem witness_TimelineReads :
    ∀ i ∈ [.tlrdDone { d := .s 1 }, .tlrdIssued { d := .s 1, fn := 1 }, .tlrdErr { d := .s 1, fn := 2 },
      .tlrdClrerr { d := .s 1, fn := 3 }], Ready st K grp i := ready (by decide +kernel)

/-- A range of 8 bytes at 0x100. -/
def rng : Fields := { a := .s 5, b := .s 6 }

theorem witness_CacheControlResults :
    (∀ i ∈ [.cmoClean rng, .cmoInval { rng with fn := 1 }, .cmoFlush { rng with fn := 2 }, .cmoPin { rng with fn := 3 },
      .cmoUnpin { rng with fn := 4 }, .pref { a := .s 5 }, .pref { a := .s 4 }, .lifeMark { rng with c := .s 7 },
      .lifeStep { a := .s 7, fn := 1 }, .svc { a := .s 6, b := .s 7 }], Free st K grp i) ∧
    (grp.ssrc rng true (.s 5)).tag = none ∧ (grp.ssrc rng true (.s 6)).tag = none ∧ (grp.ssrc rng true (.s 7)).tag = none ∧
    (grp.ssrc {} true (.s 4)).tag ≠ none ∧ st.inst? 0 = some placedInst ∧
    placesOf grp.segs placedInst (grp.pos placedInst) 0 1 [grp.scalarEl 0x100] = .ok [(0, .va 0x100)] ∧
    st.translate grp.ctx .read 0x100 = .ok 0x100 ∧ st.poisonAt 0x100 = false ∧
    ∃ ls, M.leaves K (0x100, 0x108) (u (.cmoPin { rng with fn := 3 })) = .ok (ls, u (.cmoPin { rng with fn := 3 })) ∧
      0x108 ≤ ((u (.cmoPin { rng with fn := 3 })).pinFrom ls 0x100 0x108).1 :=
  ⟨free (by decide +kernel), by decide +kernel, by decide +kernel, by decide +kernel, by decide +kernel,
    Store.get?_put_self .., rfl, by decide +kernel, rfl, ⟨_, rfl, by decide +kernel⟩⟩

/-! ### Records in memory -/

/-- A shape record of one FP32 element at 0x40000, two dimensions (18 R305). -/
def rec0 : Store Byte :=
  [(0x20002, 4), (0x20008, 4), (0x20010, 4), (0x20030, 1), (0x20033, 1), (0x2003C, 4), (0x2003D, 2)]
/-- The same with three dimensions. -/
def rec1 : Store Byte :=
    [(0x20042, 4), (0x20048, 4), (0x20050, 4), (0x20058, 4), (0x20070, 1), (0x20073, 1), (0x20076, 1), (0x2007C, 4),
   (0x2007D, 3)]
/-- A matrix command record of one step on the shape at 0x20000 (18 R309). -/
def rec2 : Store Byte :=
  [(0x20082, 2), (0x2008A, 2), (0x200A4, 1)]
/-- A window record of one tap, its shapes at 0x20040 and 0x20000 (18 R324). -/
def rec3 : Store Byte :=
    [(0x200C0, 64), (0x200C2, 2), (0x200CA, 2), (0x200D0, 1), (0x200D1, 1), (0x200D2, 1), (0x200D3, 1), (0x200D4, 1),
   (0x200D5, 1), (0x200E6, 1)]
/-- A reduce descriptor of rows of one FP32 element (11 R223). -/
def rec4 : Store Byte :=
  [(0x20102, 3), (0x20109, 16), (0x2010A, 3), (0x20110, 4), (0x20114, 4), (0x20118, 1), (0x2011C, 1)]
/-- A collective descriptor of one FP32 element (12 R236). -/
def rec5 : Store Byte :=
  [(0x20142, 3), (0x20149, 32), (0x2014A, 3), (0x20158, 1)]
/-- A communicator of this device alone (12 R228). -/
def rec6 : Store Byte :=
  [(0x20188, 1), (0x20190, 192), (0x20191, 1), (0x20192, 2)]
/-- A launch packet by its type (20 R334). -/
def rec7 : Store Byte :=
  [(0x20200, 1)]
/-- A queue descriptor with a ring of two slots (20 R330). -/
def rec8 : Store Byte :=
  [(0x20241, 16), (0x20242, 2), (0x20248, 1)]
/-- A segment image of 16 bytes of space (02 R37). -/
def rec9 : Store Byte :=
  [(0x20288, 16)]
/-- A collective descriptor of one image. -/
def rec10 : Store Byte :=
  [(0x202C2, 3), (0x202C9, 32), (0x202CA, 3), (0x202D8, 1), (0x202DC, 5)]
/-- A collective descriptor with one member. -/
def rec11 : Store Byte :=
  [(0x20302, 3), (0x20309, 32), (0x2030A, 3), (0x20318, 1), (0x20320, 1), (0x20324, 4)]
/-- The same with one probability at 0x30000, which is zero. -/
def rec12 : Store Byte :=
  [(0x20342, 3), (0x20349, 32), (0x2034A, 3), (0x20358, 1), (0x20360, 1), (0x20364, 4), (0x2036A, 3), (0x20370, 1)]
/-- A collective descriptor of a progressive tile, its status record at 0x33000. -/
def rec13 : Store Byte :=
  [(0x20382, 3), (0x20389, 32), (0x2038A, 3), (0x20391, 48), (0x20392, 3), (0x20399, 4)]

/-- The records that instructions name, as the bytes of memory other than zero. -/
def records : Store Byte :=
  rec0 ++ rec1 ++ rec2 ++ rec3 ++ rec4 ++ rec5 ++ rec6 ++ rec7 ++
  rec8 ++ rec9 ++ rec10 ++ rec11 ++ rec12 ++ rec13

/-- The group with registers that name them: s9 = 1, s10 the shape, s12 the matrix command, s13 the window, s14 the reduce,
s15 the collective, s16 the communicator, s17 to s20 the other collectives, s21 the queue, s22 the packet, s23 the
segment image, s24 a row address, s25 a status record, s26 a cohort of partition 1. -/
def gr : Group :=
  { grp with
    regs := { grp.regs with
      s := [(9, 1), (10, 0x20000), (12, 0x20080), (13, 0x200C0), (14, 0x20100), (15, 0x20140), (16, 0x20180), (17, 0x202C0),
        (18, 0x20300), (19, 0x20340), (20, 0x20380), (21, 0x20240), (22, 0x20200), (23, 0x20280), (24, 0x40000),
        (25, 0x33000), (26, 2 ^ 51)].foldl
        (fun v x => v.setIfInBounds x.1 { val := BitVec.ofNat 64 x.2 }) grp.regs.s } }

/-- The partition with a queue at s21. -/
def part : Part := { desc := placedDesc, queues := [(0, { desc := 0x20240, sup := true, asid := 0 })] }

/-- The machine with the records. -/
def sr0 : State := { base with mem := base.mem ++ records, parts := Store.put base.parts 0 part }

/-- The same with that group. -/
def sr : State := sr0.setGroup K gr

theorem free_r {l : List Instr} (h : okIn gr l = true) : ∀ i ∈ l, Free sr K gr i :=
  free_in rfl (State.group?_setGroup ..) h

/-- The machine as an instruction begins there. -/
abbrev ur (i : Instr) : State := entered sr K gr i

/-! ### Witnesses: engine and matrix commands, collectives -/

/-- CPY.COPY of s6 bytes. -/
def cpy : Fields := { a := .s 24, b := .s 5, c := .s 6 }
/-- CPY of no bytes. -/
def cpyN : Fields := { cpy with c := .zero }
/-- ROW of 0x40 rows with two sources. -/
def row2 : Fields := { a := .s 24, b := .s 24, c := .s 24, imm := .i32 0x40 }
/-- ROW with one source. -/
def row1 : Fields := { row2 with c := .v 0 }
/-- ROW with no source. -/
def row0 : Fields := { row1 with b := .v 0 }
/-- The copy. -/
def copyOf (f : Fields) (n : Nat) : Copy :=
  { dsp := 0, ssp := 0, dst := 0x40000, src := 0x100, len := n, fill := if f.fn = 1 then some 0x100 else none }

theorem witness_CopyAndRowIssue :
    (sr.group? K = some gr ∧ gr.spec = none ∧ gr.fence = none ∧ gr.ord = none ∧ (sr.cmdsOf K).length < 64 ∧
      ∃ p, sr.part? 0 = some p ∧ sr.cmdsOfPart 0 < p.engQuota) ∧
    (∀ i ∈ [.cpyCopy cpy, .cpyFill { cpy with fn := 1 }, .cpyCopy cpyN, .rowCopy row1, .rowFill0 { row0 with fn := 1 },
      .rowFill1 { row0 with fn := 2 }, .rowAnd { row2 with fn := 3 }, .rowOr { row2 with fn := 4 },
      .rowXor { row2 with fn := 5 }, .rowNot { row1 with fn := 6 }, .rowCopy { row1 with imm := .i32 0 }], Free sr K gr i) ∧
    (gr.ssrc cpy true (.s 24)).tag = none ∧ (gr.ssrc cpy true (.s 6)).val.toNat = 8 ∧
    (gr.ssrc row2 true (.s 24)).val.toNat % 1024 = 0 ∧ (gr.ssrc row1 true (.v 0)).val.toNat % 1024 = 0 ∧
    (∀ f ∈ [cpy, { cpy with fn := 1 }, cpyN], copyCheck gr.segs placedInst (gr.pos placedInst)
      (copyOf f (gr.ssrc f true f.c).val.toNat) matches .ok _) ∧
    sr.inst? 0 = some placedInst ∧
    gives (M.issue K 0 0xE0 (.copy (copyOf cpy 8)) 1 (ur (.cpyCopy cpy))) (fun _ _ => true) = true ∧
    gives (M.nullCmd K 0 0xE0 (ur (.cpyCopy cpyN))) (fun _ _ => true) = true ∧
    gives (M.issue K 0 0xE2 (.row { fn := 0, d := 0x40000, b := 0x40000, c := 0, n := 0x40 }) 0x40 (ur (.rowCopy row1)))
      (fun _ _ => true) = true :=
  ⟨⟨State.group?_setGroup .., rfl, rfl, rfl, by decide +kernel, _, Store.get?_put_self .., by decide +kernel⟩,
    free_r (by decide +kernel), by decide +kernel, by decide +kernel, by decide +kernel, by decide +kernel,
    by decide +kernel,
    Store.get?_put_self .., by and_intros <;> decide +kernel⟩

/-- IRED of s9 entries at 0x100. -/
def ird : Fields := { a := .s 14, b := .s 24, c := .s 9 }
/-- CPYT of the shape to itself. -/
def cpt : Fields := { a := .s 10, b := .s 10 }
/-- LAYX of the window. -/
def lay : Fields := { a := .s 13 }

/-- The copy of the shape. -/
def tileOf (r : Rec) : TileCopy := { dsp := 0, ssp := 0, drec := r, srec := r, pad := 0, reps := [(0, 0)], follow := false }

/-- A shape lies in its segment, aligned. -/
def fitsIn (sp : Space) (r : Rec) : Bool :=
  (shapeSeg gr.segs placedInst (gr.pos placedInst) sp r 0 false matches .ok _) &&
  (shapeAlign gr.segs placedInst (gr.pos placedInst) sp r 0 false matches .ok _)

theorem witness_RecordCommandIssue :
    (∀ i ∈ [.ired ird, .ired { ird with c := .s 0 }, .cpyt cpt, .layx lay], Free sr K gr i) ∧
    (gr.ssrc ird true (.s 14)).tag = none ∧ (gr.ssrc ird true (.s 24)).tag = none ∧ (gr.ssrc ird true (.s 9)).val = 1 ∧
    gives (M.readRec K 0x20100 64 (ur (.ired ird))) (fun r u1 => Ired.legal gr.id.fs r &&
      gives (M.issue K 0 0xE3 (.ired { desc := r, entries := 0x40000, n := 1 }) 1 u1) (fun _ _ => true) &&
      gives (M.nullCmd K 0 0xE3 u1) fun _ _ => true) = true ∧
    gives (M.recs64 K [0x20000, 0x20000] (ur (.cpyt cpt))) (fun l u1 => gives (M.recs64 K [] u1) fun l2 u2 =>
      let r := recOf l 0
      r == recOf l 1 && l2.isEmpty && Shape.legal r && tileOk r r 0 && Shape.aligned r && u2.inst? 0 == some placedInst &&
      tileReps gr r r == [(0, 0)] && fitsIn 0 r &&
      gives (M.carry K cpt 0xE1 (.tile (tileOf r)) (u2.tileUnits gr.draft (tileOf r)).length none u2) fun _ _ => true) = true ∧
    gives (M.recs64 K [0x200C0] (ur (.layx lay))) (fun l u1 =>
      let w := recOf l 0
      gives (M.recs64 K [Win.inrec w, Win.outrec w] u1) fun l2 u2 =>
        let i := recOf l2 0
        let o := recOf l2 1
        Win.byte w 26 == 0 && Win.byte w 27 == 0 && Win.legal w i o && Shape.aligned i && Shape.aligned o &&
        u2.inst? 0 == some placedInst && fitsIn 0 i && fitsIn 0 o &&
        gives (M.carry K lay 0xB7 (.layout { wrec := w, inrec := i, outrec := o, follow := false }) (Shape.ext o 1) none u2)
          fun _ _ => true) = true ∧
    (∀ m (t : State), M.followLegal K cpt (wordOf (.cpyt cpt)) m t = .ok ((), t) ∧
      M.followOffsets K cpt m (pure ()) (pure ()) t = .ok (none, t)) ∧ gr.mq.length < mqCap :=
  ⟨free_r (by decide +kernel), by decide +kernel, by decide +kernel, by decide +kernel, by decide +kernel,
    by decide +kernel, by decide +kernel, fun _ _ => ⟨rfl, rfl⟩, by decide +kernel⟩

/-- A tile transfer of the shape. -/
def mv : Fields := { a := .s 10, imm := .i32 0 }
/-- No member set in mk. -/
def gr0 : Group := { gr with regs := { gr.regs with mask := 0 } }
/-- MMA of the command. -/
def mmaF : Fields := { a := .s 12 }
/-- A command is issued with a code, the group there. -/
def issued (code : BitVec 8) (t : State) : Bool :=
  (t.group? K).any (fun g => g.mq.length < mqCap) && gives (M.issue K 0 code .matrix 0 t) fun _ _ => true

theorem witness_MatrixIssue :
    (∀ i ∈ [.mzero {}, .mma mmaF, .mldt mv, .mstt mv, .mdrnOwn mv, .mdrnPeer { mv with fn := 1 }, .mrp { a := .s 7 },
      .mpri { a := .s 7 }], Free sr K gr i) ∧
    Free (sr.setGroup K gr0) K gr0 (.mma mmaF) ∧
    (gr.ssrc {} true (.s 12)).tag = none ∧ moveChk.ok5 gr mv = true ∧ bitsNat (gr.ssrc {} true (.s 7)).val.toNat 15 8 ≤ 128 ∧
    gr.mq.length < mqCap ∧ (0 : Nat) < gr.id.tiles ∧ gr.lowest.isNone = false ∧
    (match mvWord gr.id.fs mv.i32 with | some w => w != 0 | none => true) = true ∧
    gives (M.matRec K (wordOf (.mma mmaF)) 0x20080 (ur (.mma mmaF))) (fun m t => !m.none && issued 0xB1 t) = true ∧
    gives (M.matRec K (wordOf (.mma mmaF)) 0x20080 (entered (sr.setGroup K gr0) K gr0 (.mma mmaF)))
      (fun m t => m.none && gives (M.nullCmd K 0 0xB1 t) fun _ _ => true) = true ∧
    gives (M.tileMove K mv (wordOf (.mldt mv)) false (ur (.mldt mv))) (fun v t => !v.none && issued 0xB2 t) = true ∧
    gives (M.tileMove K mv (wordOf (.mstt mv)) true (ur (.mstt mv))) (fun v t => !v.none && issued 0xB3 t) = true ∧
    gives (M.tileMove K mv (wordOf (.mdrnOwn mv)) true (ur (.mdrnOwn mv))) (fun v t => !v.none && issued 0xB4 t) = true ∧
    issued 0xB4 (ur (.mdrnPeer { mv with fn := 1 })) = true :=
  ⟨free_r (by decide +kernel), free_in (s := sr.setGroup K gr0) (g := gr0) (l := [.mma mmaF]) rfl
      (State.group?_setGroup ..) (by decide +kernel) _ (by simp), by and_intros <;> decide +kernel⟩

/-! ### Witnesses: collectives, barriers, launches -/

/-- COLL on the descriptor in a register. -/
def colF (d : BitVec 6) (fn : BitVec 4) : Fields := { fn := fn, a := .s d, b := .s 16 }
/-- The progressive form. -/
def colP : Fields := { colF 20 0 with x := 16 }

/-- COLL finds its records legal and issues. -/
def collOk (i : Instr) (f : Fields) (at_ : Nat) : Bool :=
  gives (M.readRec K at_ 64 (ur i)) fun d u1 => gives (M.readRec K 0x20180 64 u1) fun c u2 =>
  gives (M.readRec K (Comm.list c) (8 * Comm.npart c) u2) fun t u3 =>
  gives (M.readRec K (Coll.auxAt d) (Coll.auxLen f.fn d) u3) fun aux u4 =>
    Comm.legal c && Comm.tableOk c t u4.devnum.toNat placedInst && Coll.legal f.fn (f.x.getLsbD 4) (Comm.npart c) d &&
    (f.fn != 6 || (List.range (Coll.nq d)).all fun j => Coll.probOk (recNat aux (8 * j) 8)) &&
    (u4.translate gr.ctx .write (Coll.status d) matches .ok _) &&
    gives (M.nextSeq K gr 0x20180 u4) fun n u5 =>
      gives (M.issue K 0 0xE4 (.coll
        { fn := f.fn, prog := f.x.getLsbD 4, desc := d, comm := c, table := t, aux := aux, seq := n }) 0 u5) fun _ _ => true

/-- A record as its 64 bytes. -/
def bytesOf (m : Store Byte) (at_ : Nat) : Rec := (List.range 64).map fun i => Store.getD m (at_ + i) 0
/-- A progressive collective whose status record stands at s25. -/
def collCmd : Cmd :=
  { key := .group K 0 1, part := 0, asid := 0, sup := true, total := 1,
    kind := .coll
      { fn := 0, prog := true, desc := bytesOf rec13 0x20380, comm := bytesOf rec6 0x20180, aux := [], seq := 0, matched := true, opened := 1 } }
/-- The machine with that collective. -/
def sc : State := { sr with cmds := [collCmd] }

/-- CPREC of the record at s24. -/
def cpr : Fields := { d := .s 1, a := .s 24 }
/-- CWAITP for two planes there. -/
def cwp : Fields := { d := .v 1, a := .s 24, b := .s 7 }
/-- CCAN there. -/
def can : Fields := { d := .v 1, a := .s 24 }

theorem witness_CollectiveIssue :
    (∀ i ∈ [.collAllred (colF 15 0), .collReduce (colF 15 1), .collBcast (colF 15 2), .collAllgath (colF 15 3),
      .collXsum (colF 17 4), .collSpread (colF 18 5), .collQuant (colF 19 6), .collRankh (colF 18 7), .collAllred colP,
      .cprec cpr, .cwaitp cwp, .ccan can], Free sr K gr i) ∧
    Free sc K gr (.ccan { can with a := .s 25 }) ∧
    (gr.ssrc {} true (.s 15)).tag = none ∧ (gr.ssrc {} true (.s 16)).val.toNat % 64 = 0 ∧
    collOk (.collAllred (colF 15 0)) (colF 15 0) 0x20140 = true ∧ collOk (.collXsum (colF 17 4)) (colF 17 4) 0x202C0 = true ∧
    collOk (.collRankh (colF 18 7)) (colF 18 7) 0x20300 = true ∧ collOk (.collQuant (colF 19 6)) (colF 19 6) 0x20340 = true ∧
    collOk (.collAllred colP) colP 0x20380 = true ∧ timeoutIs gr cwp (.v 0) none ∧
    M.xlatPage gr.ctx .read [(0, .va 0x40000)] (ur (.cprec cpr)) = .ok ([(0, .pa 0x40000)], ur (.cprec cpr)) ∧
    ((ur (.cprec cpr)).atomicHome (.group K) 0x40000 8 (fun _ => none) false).1 = some 0 ∧
    (ur (.ccan can)).ownerOf 0x40000 = none ∧
    ((entered sc K gr (.ccan { can with a := .s 25 })).ownerOf 0x33000).isSome = true ∧
    ((entered sc K gr (.ccan { can with a := .s 25 })).atomicHome (.group K) 0x33000 12
      (fun x => if decide (x / 2 ^ 16 % 2 ^ 8 ≤ stRefining) then some (statusCancelled x 0) else none) false).1.isSome = true ∧
    ((ur (.ccan can)).atomicHome (.group K) 0x40000 12 (fun _ => none) false).1.isSome = true :=
  ⟨free_r (by decide +kernel), free_in (s := sc) (g := gr) (l := [.ccan { can with a := .s 25 }]) rfl
      (State.group?_setGroup ..) (by decide +kernel) _ (by simp), by and_intros <;> first | decide +kernel | rfl⟩

/-- A wait for the phase in s7, two on, with the timeout predicate p1. -/
def bw : Fields := { a := .s 7, b := .v 1 }
/-- BAR.ARRIVE_WAIT. -/
def baw : Fields := { d := .s 1, b := .v 1, fn := 1 }
/-- Barriers that expect two arrivals. -/
def two : Inst := { placedInst with bars := Vector.replicate 16 { exp := 2 } }
/-- The machine with them. -/
def s2 : State := sr.setInst 0 two
/-- The machine once BAR.ARRIVE_WAIT has arrived. -/
def arrivedIn (s : State) : State :=
  let v := (entered s K gr (.barArriveWait baw)).releaseDrain K 0 1
  match v.inst? 0 with
  | some x => (v.setBarrier 0 0 ((x.bar 0).arrive x (gr.pos x) (v.ltOf (.group K)))).onGroup K fun y => { y with armed := none }
  | none => v

theorem witness_BarrierResults :
    (∀ i ∈ [.barArrive { d := .s 1 }, .barArriveWait baw, .barWait { bw with a := .s 0, fn := 2 }, .barWait { bw with fn := 2 },
      .barWait { bw with c := .s 0, fn := 2 }, .barWaitLocal { bw with a := .s 0, fn := 3 }, .barWaitLocal { bw with fn := 3 }],
      Free sr K gr i) ∧
    Free s2 K gr (.barArriveWait baw) ∧ sr.inst? 0 = some placedInst ∧ s2.inst? 0 = some two ∧
    (placedInst.bar 0).broken = false ∧ NSet.has (placedInst.bar 0).arrived (gr.pos placedInst) = false ∧
    (two.bar 0).broken = false ∧ NSet.has (two.bar 0).arrived (gr.pos two) = false ∧
    (((ur (.barArrive { d := .s 1 })).releaseDrain K 0 1).inst? 0).isSome = true ∧ gr.armed = none ∧
    timeoutIs gr baw (.v 0) none ∧ timeoutIs gr { bw with c := .s 0 } (.s 0) (some 0) ∧
    ((arrivedIn sr).group? K).any (fun g => g.id == gr.id) = true ∧
    ((arrivedIn sr).inst? 0).any (fun x => !(x.bar 0).broken && Barrier.reached (x.bar 0).phase 1) = true ∧
    ((arrivedIn s2).inst? 0).any (fun x => !(x.bar 0).broken && !Barrier.reached (x.bar 0).phase 1) = true ∧
    Barrier.reached (placedInst.bar 0).phase 0 = true ∧ Barrier.reached (placedInst.bar 0).phase 2 = false ∧
    Barrier.reached ((placedInst.bar 0).localOf (placedInst.half (gr.pos placedInst))) 0 = true ∧
    Barrier.reached ((placedInst.bar 0).localOf (placedInst.half (gr.pos placedInst))) 2 = false :=
  ⟨free_r (by decide +kernel), free_in (s := s2) (g := gr) (l := [.barArriveWait baw]) rfl (State.group?_setGroup ..)
      (by decide +kernel) _ (by simp), Store.get?_put_self .., Store.get?_put_self .., by decide +kernel, by decide +kernel,
    by decide +kernel, by decide +kernel, by decide +kernel, rfl, rfl, ⟨by decide +kernel, by decide +kernel⟩, by and_intros <;> decide +kernel⟩

/-- SIG of the cohort in s0. -/
def sg : Fields := { a := .s 0, b := .s 0, imm := .i32 0 }

theorem witness_BarrierResults_traps :
    ({ grp with armed := none } : Group).armed = none ∧ timeoutIs gr baw (.v 0) none ∧
    NSet.has ({ exp := 2, arrived := NSet.add [] 0 } : Barrier).arrived (gr.pos placedInst) = true ∧
    ({ exp := 2, arrived := NSet.add [] 0 } : Barrier).broken = false ∧ ({ broken := true } : Barrier).broken = true ∧
    (∀ b, (sr.setInst 0 { placedInst with bars := Vector.replicate 16 b }).inst? 0 =
      some { placedInst with bars := Vector.replicate 16 b }) :=
  ⟨rfl, rfl, by decide +kernel, rfl, rfl, fun _ => Store.get?_put_self ..⟩

theorem witness_BarrierReadsAndSignals :
    (∀ i ∈ [.barqStatus { d := .s 1, b := .zero }, .barqStatus { d := .s 1, b := .s 7 }, .barqCid { d := .s 1, b := .zero, m := 1 },
      .barqGen { d := .s 1, b := .zero, m := 2 }, .sig sg, .sig { sg with a := .s 26 }], Free sr K gr i) ∧
    sr.inst? 0 = some placedInst ∧ (gr.ssrc {} true (.s 7)).tag = none ∧ (gr.ssrc {} true (.s 7)).val.toNat = 2 ∧
    (gr.ssrc sg true (.s 26)).tag = none ∧ sr.isLocal (cidDev 0 * 2 ^ 47) = true ∧
    sr.isLocal (cidDev (gr.ssrc sg true (.s 26)).val * 2 ^ 47) = true ∧ cidPart 0 = gr.id.part.toNat ∧
    cidPart (gr.ssrc sg true (.s 26)).val ≠ gr.id.part.toNat ∧
    gives (M.issue K 0 0xEA (.signal { cid := 0, gen := 0, bar := 0, lt := 0 }) 0 (ur (.sig sg))) (fun _ _ => true) = true :=
  ⟨free_r (by decide +kernel), Store.get?_put_self .., by and_intros <;> decide +kernel⟩

/-- LNCH of the packet at s22 on the queue at s21. -/
def lnF : Fields := { d := .s 1, a := .s 21, b := .s 22 }

/-- LNCH finds the queue and the packet legal, the ring with room, and its slot. -/
def lnchOk (start : State) : Bool :=
  gives (M.readRec K 0x20240 64 start) fun desc u1 => gives (M.readRec K 0x20200 64 u1) fun image u2 =>
    gives (M.xlatPage gr.ctx .rmw [(0, .va 0x20240)] u2) fun l u3 => l == [(0, .pa 0x20240)] &&
      (u3.part? 0).any (fun p => (p.queues.find? fun y => y.2.desc = 0x20240).isSome) && recNat image 0 1 != 0 &&
      zeros desc 9 7 && zeros desc 32 32 &&
      match u3.loadBytes .ext false 0x20240 32 with
      | (some now, u4) => recNat now 16 8 - recNat now 24 8 < 2 ^ recNat desc 8 1 &&
        gives (M.xlatPage { gr.ctx with asid := 0 } .write [(0, .va (recNat desc 0 8))] u4) fun l _ => l == [(0, .pa 0x21000)]
      | _ => false

theorem witness_LaunchAndJoin :
    (∀ i ∈ [.lnch lnF, .join { d := .s 2, b := .v 1 }], Free sr K gr i) ∧
    (gr.ssrc lnF true (.s 21)).tag = none ∧ (gr.ssrc lnF true (.s 22)).tag = none ∧ timeoutIs gr lnF (.v 0) none ∧
    gr.kids.length < 256 ∧ gr.id.sup = true ∧
    lnchOk (ur (.lnch lnF)) = true ∧
    (sr.children.filter fun c => gr.kids.contains c.id).all (fun c => c.outcome.isSome) = true :=
  ⟨free_r (by decide +kernel), by and_intros <;> first | decide +kernel | rfl⟩

/-- MRG.REGROUP by the predicate in a. -/
def mrgF (p : BitVec 7) : Fields := { a := .v p, b := .zero, c := .zero, imm := .i32 0 }
/-- The group waits in it. -/
def atMrgG (p : BitVec 7) : Group := { gr with run := .waiting { op := .mrg false, f := mrgF p, start := 0 } }
/-- The machine with that group. -/
def sm (p : BitVec 7) : State := sr.setGroup K (atMrgG p)
/-- The group of an ordered launch, its oldest. -/
def oldest : Group := { gr with ord := some { ts := 0 } }

theorem witness_RegroupAndOrderResults :
    (∀ i ∈ [.mrgRegroup (mrgF 1), .mrgReturn { mrgF 0 with fn := 1 }, .ordc { d := .s 1 }], Free sr K gr i) ∧
    (gr.ssrc (mrgF 1) true .zero).tag = none ∧ sr.inst? 0 = some placedInst ∧ placedInst.ended = [] ∧
    ((sm 1).inst? 0 = some placedInst ∧ ((sm 1).atMrg placedInst).any (fun xs => (mrgFaults xs).isNone) = true) ∧
    ((sm 4).atMrg placedInst).any (fun xs => (mrgFaults xs).isSome) = true ∧
    Ready (sr.setGroup K oldest) K oldest (.ordc { d := .s 1 }) ∧ oldest.fence = none ∧
    (sr.setGroup K oldest).ordOf (.group K) = some (0, { ts := 0 }) ∧ (sr.setGroup K oldest).isOldest 0 { ts := 0 } = true :=
  ⟨free_r (by decide +kernel), by decide +kernel, Store.get?_put_self .., rfl,
    ⟨Store.get?_put_self .., by decide +kernel⟩, by decide +kernel,
    ⟨rfl, State.group?_setGroup .., by decide +kernel, by decide +kernel, rfl, rfl⟩, rfl, by decide +kernel,
    by decide +kernel⟩

/-! ### Witnesses: system instructions -/

/-- GCTL and FRZ of the group in s0. -/
def gc : Fields := { d := .s 1, a := .s 0 }
/-- The same with a start at xpc. -/
def gcx : Fields := { gc with b := .zero }

theorem witness_TrapAndMasterControl :
    (∀ i ∈ [.trap {}, .gctlResume gcx, .gctlStep { gcx with fn := 2 }, .gctlKill { gc with fn := 1 }, .frzThaw gc,
      .frzKill { gc with fn := 1 }, .gctlResume { gcx with a := .s 8 }, .gctlStep { gcx with a := .s 8, fn := 2 },
      .gctlKill { gc with a := .s 8, fn := 1 }, .frzThaw { gc with a := .s 8 }, .frzKill { gc with a := .s 8, fn := 1 }],
      Free st K grp i) ∧
    (grp.ssrc gc true (.s 0)).tag = none ∧ (grp.ssrc gc true (.s 8)).tag = none ∧ masterClear 0 = true ∧
    masterClear (grp.ssrc gc true (.s 8)).val = true ∧ st.masterIn 0 (masterOf 0) = true ∧
    st.masterIn 0 (masterOf (grp.ssrc gc true (.s 8)).val) = false :=
  ⟨free (by decide +kernel), by and_intros <;> decide +kernel⟩

theorem witness_ResumeFromTrap :
    ({ grp with run := .trapped {} none } : Group).run = .trapped {} none ∧ (∀ r n, grp.run ≠ .trapped r n) ∧
    (∀ w r n, ({ grp with run := .waiting w } : Group).run ≠ .trapped r n) ∧
    (at_ onceG).cur = some K ∧ (at_ onceG).group? K = some onceG ∧ onceG.stepOnce = true ∧ onceG.run = .ready ∧ onceG.spec = none ∧
    st.group? K = some grp ∧ grp.stepOnce = false ∧ wellFormed (.nop {}) = true ∧ legal onceG (.nop {}) = true ∧
    wellFormed (.smov s1) = true ∧ legal onceG (.smov s1) = true ∧ (row (.nop {})).isSome = true :=
  ⟨rfl, fun _ _ => nofun, fun _ _ _ => nofun, rfl, State.group?_setGroup .., rfl, rfl, rfl, State.group?_setGroup .., rfl,
    by and_intros <;> decide +kernel⟩

/-- A group in user mode. -/
def user : Group := { grp with id := { grp.id with sup := false } }

theorem witness_SystemRegisters :
    (∀ i ∈ [.mfs { d := .s 1, b := .v 0x12 }, .mfs { d := .v 2, b := .v 8 }, .mts { a := .s 7, b := .v 0x0B },
      .mts { a := .s 4, b := .v 0x0B }, .mts { a := .s 7, b := .v 0x0D }], Ready st K grp i) ∧
    (∀ i ∈ [.mfs { d := .s 1, b := .v 0x0D }, .mts { a := .s 7, b := .v 0x0D }], Ready (at_ user) K user i) ∧
    mfsOk { d := .s 1, b := .v 0x0D } = true ∧ regNo { d := .s 1, b := .v 0x0D } = 0x0D ∧ privReg 0x0D = true ∧
    user.id.sup = false ∧
    mfsOk { d := .s 1, b := .v 0x12 } = true ∧ regNo { d := .v 2, b := .v 8 } = 8 ∧ writable 0x0B = true ∧
    writable 0x0D = true ∧ grp.id.sup = true ∧ (grp.ssrc {} true (.s 7)).tag = none ∧ (grp.ssrc {} true (.s 4)).tag = some 3 ∧
    grp.lowest = some 0 ∧ noMember.lowest = none ∧ (2 : Word64).extractLsb' 0 3 ≠ (0 : BitVec 3) ∧
    (2 : Word64).extractLsb' 0 3 ≠ (7 : BitVec 3) ∧ (8 : Word64).extractLsb' 0 3 = (0 : BitVec 3) :=
  ⟨ready (by decide +kernel), fun i h => (free_at user (by decide +kernel) i h).toReady, by and_intros <;> decide +kernel⟩

/-- SEGLD of segK from s23. -/
def sl : Fields := { a := .s 23, x := 2 }
/-- TLBI.RANGE of s6 bytes at s5. -/
def tr : Fields := { a := .s 0, b := .s 5, c := .s 6 }
/-- An invalidation of the group that is under way. -/
def stTlbi : State := { st with tlbis := [{ g := some K, part := 0, asid := none, lo := 0, hi := 2 ^ 64, targets := [(0, ())] }] }

theorem witness_SegmentAndTlbResults :
    Free sr K gr (.segld sl) ∧
    (∀ i ∈ [.tlbiRange tr, .tlbiRange { tr with c := .s 0 }, .tlbiAsid { a := .s 0, fn := 1 }, .tlbiAll { fn := 2 },
      .tlbsync { d := .s 1 }], Free st K grp i) ∧
    Free stTlbi K grp (.tlbsync { d := .s 1 }) ∧
    (gr.ssrc sl true (.s 23)).tag = none ∧ (gr.ssrc sl true (.s 23)).val = 0x20280 ∧
    gives (M.readRec K 0x20280 16 (ur (.segld sl))) (fun r _ => segLegal 2 (segOf r) gr.id.spd) = true ∧
    (grp.ssrc tr true (.s 5)).tag = none ∧ (grp.ssrc tr true (.s 6)).tag = none ∧ (grp.ssrc tr true (.s 6)).val ≠ 0 ∧
    (grp.ssrc tr true (.s 0)).val = 0 ∧ st.part? 0 = some { desc := placedDesc } ∧
    ({ desc := placedDesc } : Part).hasAsid 0 = true ∧ (st.tlbis.filter fun x => x.g = some K).all Tlbi.over = true ∧
    (stTlbi.tlbis.filter fun x => x.g = some K).all Tlbi.over = false :=
  ⟨free_r (l := [.segld sl]) (by decide +kernel) _ (by simp), free (by decide +kernel),
    free_in (s := stTlbi) (g := grp) (l := [.tlbsync { d := .s 1 }]) rfl (State.group?_setGroup ..) (by decide +kernel) _
      (by simp), by decide +kernel, by decide +kernel, by decide +kernel, by decide +kernel, by decide +kernel,
    by decide +kernel, by decide +kernel, Store.get?_put_self .., by and_intros <;> decide +kernel⟩

/-- ADHV of s9 frames at s24. -/
def ah : Fields := { a := .s 5, b := .s 24, c := .s 9 }
/-- PWAIT. -/
def pw : Fields := { d := .s 1, a := .zero }
/-- The machine with a record in the trap queue. -/
def sq : State := { st with parts := Store.put st.parts 0 { desc := placedDesc, tqw := 1 } }
/-- A user group of the partition on core (1, 0) that runs ahead of a renewal. -/
def other : Group :=
  { grp with
    id := { grp.id with key := ⟨1, 0, 0⟩, sup := false }
    spec := some { line := 8, wts := 0, saved := grp.regs } }
/-- The machine with that group, in an instance of its own. -/
def so : State := st.setGroup ⟨1, 0, 0⟩ other

theorem witness_SupervisorServiceResults :
    (∀ i ∈ [.adhv ah, .adhv { ah with c := .s 0 }], Free sr K gr i) ∧
    (∀ i ∈ [.ctxs { d := .s 1 }, .trmPredicate { d := .v 1, a := .v 6 }, .trmScalar { d := .s 1 }, .pwait pw], Free st K grp i) ∧
    Free sq K grp (.pwait pw) ∧ Free so K grp (.ctxs { d := .s 1 }) ∧
    (gr.ssrc ah true (.s 24)).tag = none ∧ (gr.ssrc ah true (.s 9)).val.toNat = 1 ∧
    (gr.ssrc ah true (.s 24)).val.toNat % 4096 = 0 ∧ sr.part? 0 = some part ∧
    sr.isLocal 0x40000 = true ∧ part.owns 0x40000 4096 = true ∧ 0x100 + 8 ≤ gr.segs.l.limit.toNat ∧ sr.inst? 0 = some placedInst ∧
    ((st.releaseDrain K 0 2).part? 0).any (fun p => p.exchanging.isNone) = true ∧
    (((u (.ctxs { d := .s 1 })).releaseDrain K 0 2).startExchange 0 K).halted 0 = true ∧
    (((((u (.ctxs { d := .s 1 })).releaseDrain K 0 2).startExchange 0 K).exchange 0).part? 0).isSome = true ∧
    (((entered so K grp (.ctxs { d := .s 1 })).releaseDrain K 0 2).startExchange 0 K).halted 0 = false ∧
    timeoutIs grp pw (.v 0) none ∧ ((entered sq K grp (.pwait pw)).part? 0).any (fun p => p.tqr.toNat < p.tqw.toNat) = true ∧
    ((u (.pwait pw)).part? 0).any (fun p => p.tqw.toNat ≤ p.tqr.toNat) = true :=
  ⟨free_r (by decide +kernel), free (by decide +kernel),
    free_in (s := sq) (g := grp) (l := [.pwait pw]) rfl (State.group?_setGroup ..) (by decide +kernel) _ (by simp),
    free_in (s := so) (g := grp) (l := [.ctxs { d := .s 1 }]) rfl rfl (by decide +kernel) _ (by simp), by decide +kernel,
    by decide +kernel, by decide +kernel, Store.get?_put_self .., by decide +kernel, by decide +kernel, by decide +kernel,
    Store.get?_put_self .., by and_intros <;> first | decide +kernel | rfl⟩

/-! ### Witnesses: arbitration and waits -/

/-- The group to be preempted. -/
def due : Group := { grp with wantPreempt := true }
/-- The group running ahead of a renewal of line 8, whose copy had a write timestamp. -/
def ahead (wts : Nat) : Group := { grp with spec := some { line := 8, wts := wts, saved := grp.regs } }

theorem witness_ArbitrationAndTime :
    st.group? K = some grp ∧ grp.run ≠ .ended ∧ grp.ticked + 16 ≤ ({ st with cyc := 16 } : State).cyc.toNat ∧
    st.cyc.toNat < grp.ticked + 16 ∧ due.pending = true ∧ (at_ due).atSwitchPoint due = true ∧ due.spec = none ∧
    grp.pending = false ∧ (st.lineAt 8).wts = 0 ∧ (st.lineAt 8).pot.isNone = true ∧ (0 : Nat) ≠ 1 :=
  ⟨State.group?_setGroup .., by decide +kernel, by decide +kernel, by decide +kernel, by decide +kernel, by decide +kernel,
    rfl, by decide +kernel, by decide +kernel, by decide +kernel, by decide⟩

theorem witness_ArbitrationAward :
    [(K, grp)] ≠ [] ∧ (∀ y ∈ [(K, grp)], y.2.readyScalar < 56) ∧
    ∃ y ∈ [(K, { grp with readyScalar := 56 })], 56 ≤ y.2.readyScalar :=
  ⟨by simp, by intro y h; rw [List.mem_singleton.mp h]; decide +kernel, _, List.mem_singleton.mpr rfl, by decide +kernel⟩

/-- The group in a wait with a timeout of no clocks. -/
def waits (op : WaitOp) : Group := { grp with run := .waiting { op := op, f := {}, start := 0, limit := some 0 } }
/-- The group in a wait without a timeout, in a partition with a watchdog of one millisecond, a second on. -/
def watched : Group := { grp with run := .waiting { op := .timeline, f := {}, start := 0 } }
/-- Its machine. -/
def sw : State := { at_ watched with time := usUnits 1001, parts := Store.put base.parts 0 { desc := placedDesc, wdog := 1 } }

theorem witness_WakeResults :
    (∀ op, (at_ (waits op)).group? K = some (waits op) ∧
      (waits op).waitOf = some { op := op, f := {}, start := 0, limit := some 0 }) ∧
    (∀ op ∈ [.fullEmpty (.ldfKeep {}), .fullEmpty (.ldfTake {}), .fullEmpty (.ste {}), .timeline, .chunk, .plane,
      .barrier 0 0 false, .join, .lnch, .ordc, .pwait],
      (lateEnd K { op := op, f := {}, start := 0, limit := some 0 }).isSome = true) ∧
    ({ op := .timeline, f := {}, start := 0, limit := some 0 } : Wait).over 0 = true ∧
    ({ op := .timeline, f := {}, start := 0, limit := some 1 } : Wait).over 0 = false ∧
    (sw.group? K = some watched ∧ sw.part? 0 = some { desc := placedDesc, wdog := 1 } ∧ WaitOp.timeline.watched = true ∧
      wdogUnits 1 < sw.time - 0) ∧
    (pure true : M Bool) st = .ok (true, st) ∧ (pure false : M Bool) st = .ok (false, st) ∧
    (M.stall : M Bool) st = .error .stall ∧ (M.trap { cause := 1 } : M Bool) st = .error (.trap { cause := 1 } none) :=
  ⟨fun _ => ⟨State.group?_setGroup .., rfl⟩, by decide +kernel, by decide +kernel, by decide +kernel,
    ⟨State.group?_setGroup .., Store.get?_put_self .., by decide +kernel, by decide +kernel⟩, rfl, rfl, rfl, rfl⟩

/-! ### Witnesses: signals and engines -/

/-- A command of the group. -/
def cmd (kind : CmdKind) (total : Nat) : Cmd := { key := .group K 0 1, part := 0, asid := 0, sup := true, kind := kind, total := total }
/-- The machine with a command. -/
def withCmd (c : Cmd) : State := { st with cmds := [c] }
/-- A signal of an instance, on a device, in a generation. -/
def sigTo (cid : Word64) (gen : Word32) : Signal := { cid := cid, gen := gen, bar := 0, lt := 0 }
/-- The instance of the group stands in the shadow context. -/
def sAway : State :=
  { withCmd (cmd (.signal (sigTo (placedInst.cid 0) 0)) 0) with
    insts := [], parts := Store.put base.parts 0 { desc := placedDesc, shadow := { insts := [(0, placedInst)] } } }

theorem witness_SignalDelivery :
    (withCmd (cmd (.signal (sigTo (placedInst.cid 0) 0)) 0)).cmd? (.group K 0 1) =
      some (cmd (.signal (sigTo (placedInst.cid 0) 0)) 0) ∧
    st.isLocal (cidDev (placedInst.cid 0) * 2 ^ 47) = true ∧ st.sigSpot (sigTo (placedInst.cid 0) 0) = .running 0 ∧
    st.sigSpot (sigTo (placedInst.cid 0) 1) = .stale ∧ sAway.sigSpot (sigTo (placedInst.cid 0) 0) = .away ∧
    (sAway.part? 0).any (fun p => p.inbound.length < 256) = true ∧
    st.isLocal (cidDev (2 ^ 55) * 2 ^ 47) = false ∧
    ({ st with domain := NSet.add [] 1, links := Vector.replicate 36 { up := true } } : State).lostAt (cidDev (2 ^ 55) * 2 ^ 47) =
      false :=
  by and_intros <;> decide +kernel

/-- A copy of four bytes from 0x100. -/
def copy4 (dst : Word64) : Cmd := cmd (.copy { dsp := 0, ssp := 0, dst := dst, src := 0x100, len := 4 }) 1
/-- A row fill. -/
def rowC : Cmd := cmd (.row { fn := 1, d := 0x40000, b := 0, c := 0, n := 1 }) 1
/-- A tile copy that carries a follow-on. -/
def carrier : Cmd :=
  { cmd (.tile { dsp := 0, ssp := 0, drec := [], srec := [], pad := 0, reps := [], follow := true }) 0 with failed := false }

/-- A broadcast whose root is elsewhere, its header seen. -/
def bcast : CollCmd :=
  { fn := 2, prog := true, desc := (bytesOf rec13 0x20380).set 30 1, comm := bytesOf rec6 0x20180, aux := [], seq := 0,
    matched := true, planes := [(0, 1)], opened := 1 }
/-- Its command. -/
def bcastC : Cmd := cmd (.coll bcast) 1

theorem witness_EngineSteps :
    (withCmd (copy4 0x40000)).cmd? (.group K 0 1) = some (copy4 0x40000) ∧
    ((withCmd (copy4 0x40000)).cmdUnit (copy4 0x40000) 0 matches .ok _) = true ∧
    ((withCmd rowC).rowStep rowC 0 matches .ok _) = true ∧
    ((withCmd (copy4 0x300000)).unitTry (copy4 0x300000) 0 matches (.error (.fault ..), _)) = true ∧
    st.mayFinish (cmd .null 0) = some false ∧ st.mayFinish { cmd .null 0 with failed := true } = some true ∧
    st.mayFinish (copy4 0) = none ∧ carrier.carries = true ∧ carrier.total ≤ carrier.units.length ∧
    bcastC.works = true ∧ ((withCmd bcastC).planeUnit bcastC bcast 0 matches .ok _) = true ∧ bcast.tiles = 1 ∧
    ((withCmd bcastC).collPeers bcastC bcast).map (fun p => Comm.self p.2.comm) = [0] ∧ Comm.npart bcast.comm = 1 ∧
    ({ self := 1, agree := true, nmem := 0, mstride := 0, data := [] } : PeerPart).self = 1 :=
  ⟨rfl, by decide +kernel, by decide +kernel, by decide +kernel, by decide +kernel, by decide +kernel, by decide +kernel, rfl,
    by decide +kernel, by decide +kernel, by decide +kernel, by decide +kernel, by decide +kernel, by decide +kernel, rfl⟩

/-- The group with an entry at the head of its matrix queue. -/
def queued (op : MqOp) (begun : Bool) : Group := { grp with mq := [{ op := op, cmd := some (0, 1), begun := begun }] }
/-- Its machine with the command. -/
def sx (op : MqOp) (begun : Bool) : State := { at_ (queued op begun) with cmds := [cmd .matrix 0] }
/-- A matrix command of one step on the shape. -/
def mat1 : MatCmd := { mrec := bytesOf rec2 0x20080, arec := bytesOf rec0 0x20000, brec := bytesOf rec0 0x20000 }

/-- 18 R320: of eight elements that the peer's own command has changed since the drain the old ones may stay; the others land. -/
theorem test_landing :
    let x : Tile := (({} : Tile).put 3 5 0x40000000 none).put 100 60 0x40000000 none
    let g : Group := { grp with tiles := Vector.replicate 8 (({} : Tile).put 3 5 0x3F800000 none) }
    let land (pick : Nat) : Tile := (g.land pick { tile := 2, new := x, old := {}, lt := 0 }).tile 2
    (land 0).at_ 3 5 = 0x3F800000 ∧ (land 0).at_ 100 60 = 0x40000000 ∧ (land (2 ^ 1024 - 1)).at_ 3 5 = 0x40000000 := by
  decide +kernel

theorem witness_MatrixSteps :
    (∀ op ∈ [.zero 0, .mrp 0, .peer 0 0, .mma mat1, .follow mat1, .load {}, .store {}, .drain {}],
      (sx op false).mxNext (keyCore K) = some K) ∧
    (∀ op b, (sx op b).group? K = some (queued op b)) ∧
    (∀ op ∈ [.zero 0, .mma mat1], (((sx op false).serve K).group? K).isSome = true) ∧
    (sx (.mma mat1) true).mxNext (keyCore K) = some K ∧ (sx (.mma mat1) true).headCmd K = some (cmd .matrix 0) ∧
    (((sx (.mma mat1) true).serve K).mmaRow K (cmd .matrix 0) { op := .mma mat1, cmd := some (0, 1), begun := true } mat1
      matches .ok _) = true ∧
    mmaOver mat1 (mmaNext mat1 0 0).1 (mmaNext mat1 0 0).2 = true ∧
    grp.mqSince + 65536 * (grp.mqAge + 1) ≤ ({ st with cyc := 65536 } : State).cyc.toNat ∧ grp.mcls.toNat + grp.mqAge < 7 :=
  ⟨by decide +kernel, fun _ _ => State.group?_setGroup .., by and_intros <;> decide +kernel⟩

/-! ### Witnesses: the memory system -/

/-- The machine before an atomic on L copies: s5 + 0, 32 bits, of scope group or cohort. -/
def sAtom (l : BitVec 5) : State :=
  (State.reset.placeWord 96 (ofLeBytes (encode (.satom { a := .s 5, b := .s 6, x := l })))).setGroup K grp
/-- A queue with one request that is on time, one with one that is late. -/
def queues : Store DramQueue :=
  [(0, { reqs := [{ cls := 3, stamp := 9, line := 8, g := some K, ins := 0 }] }),
    (1, { slot := 15, reqs := [{ cls := 0, stamp := 0, line := 8, g := some K, ins := 0 }] })]
/-- The machine with them. -/
def sDram : State := { st with dram := queues, cyc := 1 }
/-- The request of a queue. -/
def req (stamp : Nat) (cls : BitVec 2) : DramReq := { cls := cls, stamp := stamp, line := 8, g := some K, ins := 0 }

theorem witness_MemorySteps :
    st.askable 0x400 = true ∧ plkOk 0 6 = true ∧ st.isLocal 0x400 = true ∧
    (∀ l, (sAtom l).group? K = some grp) ∧ grp.ord = none ∧ 2 ∈ (sAtom 0).scopedLines K false ∧
    2 ∈ (sAtom 1).scopedLines K true ∧
    (Store.getD sDram.dram 0 {}).pick = some (req 9 3) ∧ sDram.cyc.toNat ≤ (req 9 3).stamp ∧
    (Store.getD sDram.dram 1 {}).pick = some (req 0 0) ∧ (req 0 0).stamp < sDram.cyc.toNat ∧ (req 0 0).g = some K ∧
    slotClass (Store.getD sDram.dram 0 {}).slot = some 3 ∧ slotClass (Store.getD sDram.dram 1 {}).slot = none ∧
    (∃ y ∈ (Store.getD sDram.dram 0 {}).reqs, y.cls.toNat = 3) ∧ grp.mayIssue = true ∧
    (∀ l, (sAtom l).strays (.group K) = false ∧ (sAtom l).isLocal 0x100 = true) ∧
    ({ sAtom 0 with astray := NSet.add [] 0 } : State).strays (.group K) = true ∧
    2 ∈ ({ sAtom 0 with astray := NSet.add [] 0 } : State).scopedLines K false ∧ (st.lineAt 8).pot = none ∧ st.outbox = [] ∧
    st.ccopies = [] :=
  by and_intros <;> first
    | exact fun _ => State.group?_setGroup ..
    | exact fun _ => ⟨rfl, rfl⟩
    | exact ⟨_, .head _, rfl⟩
    | decide +kernel
    | rfl

theorem witness_MemorySteps_canonical :
    Canonical st ∧ step { st with agenda := [.timestampSweep 0] } = .next (({ st with agenda := [] } : State).sweepLine 0) :=
  ⟨⟨by decide +kernel, rfl, fun i b h => by
      rw [show st.slots = Vector.replicate 2 ({} : Slot) from rfl, vget, Vector.getElem?_replicate] at h
      split at h <;> exact absurd h (by simp)⟩, rfl⟩

/-- Tables with one leaf, of a page of the capacity tier that may migrate. -/
def tierMem : Store Byte :=
  [(0x1000, 1), (0x1001, 0x20), (0x2000, 1), (0x2001, 0x30), (0x3000, 1), (0x3001, 0x40), (0x4000, 1), (0x4001, 0x50), (0x5000, 1),
    (0x5001, 0x60), (0x6000, 7), (0x6005, 0x10), (0x6007, 8)]
/-- The descriptor of the placed partition with a quota of 512 frames, to its first range. -/
def tierDesc : Rec :=
    [0, 16, 0, 0, 0, 0, 0, 0, 0, 0, 16, 0, 0, 0, 0, 0, 0, 0, 32, 0, 0, 0, 0, 0, 1, 0, 0, 0, 0, 2, 0, 0, 0, 0, 1, 0, 0, 0, 52, 8,
    1, 1] ++ List.replicate 27 0 ++ [4, 0, 0]
/-- A partition with a quota of a page in HBM and a hint. -/
def tierPart : Part := { desc := tierDesc, hints := [(hintKey 0 0, { prio := 0, next := 0 })] }
/-- The machine with them. -/
def sTier : State := { mem := tierMem, parts := [(0, tierPart)], expanders := Vector.replicate 4 { frames := 512 } }
/-- The page. -/
def page : TierPage :=
  { asid := 0, leaf := { va := 0, level := 4, pte := 0x0800100000000007, pteAt := 0x6000 }, hint := { prio := 0, next := 0 }, dist := 0 }

theorem word_plain {s : State} (h : s.lines = []) (pa : Nat) :
    s.walkWord pa = ofLeBytes ((List.range 8).map fun i => s.byteAt (pa + i)) := by
  simp [State.walkWord, State.valueAt, State.mergedBytes, State.lineAt, h, Store.getD, Store.get?]

theorem tier_zero {a : Nat} (h : (0x2008 ≤ a ∧ a < 0x3000) ∨ (0x3008 ≤ a ∧ a < 0x4000) ∨ (0x4008 ≤ a ∧ a < 0x5000) ∨
    (0x5008 ≤ a ∧ a < 0x6000) ∨ (0x6008 ≤ a ∧ a < 0x7000)) : sTier.byteAt a = 0 := by
  simp only [State.byteAt, sTier, tierMem, Store.getD, Store.get?]
  repeat rw [if_neg (by omega)]
  rfl

theorem leaves_first {s : State} {p : Part} {n table level : Nat} (h : s.lines = []) 
    (hc : (min (if level = 0 then 8 else 512) ((2 ^ 60 + 2 ^ spanLog level - 1) / 2 ^ spanLog level)) = (if level = 0 then 8 else 512))
    (hz : ∀ a, table + 8 ≤ a → a < table + 4096 → s.byteAt a = 0)
    (hl : s.isLocal table = true) (ho : p.owns table 8 = true) (hq : s.poisonAt table = false)
    (hv : bitNat (s.walkWord table) 0 = 1) (hm : s.malformed (s.walkWord table) level = false) :
    s.leavesFrom p 0 (2 ^ 60) (n + 1) table level 0 =
      if bitNat (s.walkWord table) 1 = 1 then [{ va := 0, level := level, pte := s.walkWord table, pteAt := table }]
      else s.leavesFrom p 0 (2 ^ 60) n (ptePfn (s.walkWord table)) (level + 1) 0 := by
  obtain ⟨m, hm', hm5⟩ : ∃ m, (if level = 0 then 8 else 512) = m + 1 ∧ m < 512 := by split <;> exact ⟨_, rfl, by decide⟩
  rw [hm'] at hc
  simp only [State.leavesFrom, Nat.zero_div, Nat.sub_zero, hm', hc, List.range_succ_eq_map, List.flatMap_cons, Nat.mul_zero,
    Nat.add_zero, Nat.zero_mul, hl, ho, hq, hv, hm, Bool.and_self, Bool.not_true, Bool.or_self, Bool.false_eq_true, if_false,
    decide_false, Nat.one_ne_zero, Nat.zero_add]
  rw [List.flatMap_eq_nil_iff.mpr, List.append_nil]
  intro j hj
  obtain ⟨i, hi, rfl⟩ := List.mem_map.mp hj
  have hi := List.mem_range.mp hi
  have hw : s.walkWord (table + 8 * i.succ) = 0 := by
    rw [word_plain h, List.map_congr_left (g := fun _ => 0) fun x hx =>
      hz _ (by omega) (by have := List.mem_range.mp hx; omega)]
    rfl
  simp [hw, bitNat]

theorem tier_leaves : sTier.leavesFrom tierPart 0 (2 ^ 60) 6 0x2000 0 0 = [page.leaf] := by
  rw [leaves_first rfl (by decide +kernel) (fun a _ _ => tier_zero (by omega)) (by decide +kernel) (by decide +kernel) (by decide +kernel)
      (by decide +kernel) (by decide +kernel), if_neg (by decide +kernel),
    show ptePfn (sTier.walkWord 0x2000) = 0x3000 by decide +kernel,
    leaves_first rfl (by decide +kernel) (fun a _ _ => tier_zero (by omega)) (by decide +kernel) (by decide +kernel) (by decide +kernel)
      (by decide +kernel) (by decide +kernel), if_neg (by decide +kernel),
    show ptePfn (sTier.walkWord 0x3000) = 0x4000 by decide +kernel,
    leaves_first rfl (by decide +kernel) (fun a _ _ => tier_zero (by omega)) (by decide +kernel) (by decide +kernel) (by decide +kernel)
      (by decide +kernel) (by decide +kernel), if_neg (by decide +kernel),
    show ptePfn (sTier.walkWord 0x4000) = 0x5000 by decide +kernel,
    leaves_first rfl (by decide +kernel) (fun a _ _ => tier_zero (by omega)) (by decide +kernel) (by decide +kernel) (by decide +kernel)
      (by decide +kernel) (by decide +kernel), if_neg (by decide +kernel),
    show ptePfn (sTier.walkWord 0x5000) = 0x6000 by decide +kernel,
    leaves_first rfl (by decide +kernel) (fun a _ _ => tier_zero (by omega)) (by decide +kernel) (by decide +kernel) (by decide +kernel)
      (by decide +kernel) (by decide +kernel), if_pos (by decide +kernel),
    show sTier.walkWord 0x6000 = page.leaf.pte by decide +kernel]
  rfl

theorem tier_pages : sTier.tierPages tierPart = [page] := by
  have h : sTier.leaves tierPart 0 0 (2 ^ 60) = [page.leaf] := by
    rw [← tier_leaves]
    simp only [State.leaves]
    rw [if_neg (by decide +kernel), if_neg (by decide +kernel)]
    rfl
  simp only [State.tierPages, show tierPart.nasid = 1 by decide +kernel, show tierPart.asid0 = 0 by decide +kernel]
  simp only [Nat.zero_add, show List.range 1 = [0] from rfl, List.flatMap_cons, List.flatMap_nil, List.append_nil, h]
  decide +kernel

/-- The migration of that page in a phase. -/
def mig (n : Nat) : Migration :=
  { part := 0, asid := 0, va := 0, size := 0x200000, pteAt := 0x6000, old := 0x100000000000, new := 0x400000, phase := n }
/-- An invalidation of a core's die that it has reached, or that waits. -/
def inval (reached acked : NSet) : Tlbi :=
  { g := none, part := 0, asid := some 0, lo := 0, hi := 0x200000, targets := NSet.add [] 0, reached := reached, acked := acked }
/-- The machine with migrations and an invalidation. -/
def sMig (n : Nat) (t : List Tlbi) : State := { sTier with migrations := [mig n], tlbis := t }

theorem witness_TranslationSteps_migration :
    (∀ n t, (sMig n t).migrations[0]? = some (mig n)) ∧ (mig 0).phase = 0 ∧ (mig 1).phase ≠ 0 ∧ 2 ≤ (mig 2).phase ∧
    (sMig 1 [inval [] []]).shot (mig 1) = false ∧ (sMig 1 []).shot (mig 1) = true ∧ (sMig 2 []).shot (mig 2) = true ∧
    (let e := (sMig 1 []).walkWord 0x6000; bitNat e 0 = 1 ∧ bitNat e 1 = 1 ∧ ptePfn e = (mig 1).old) ∧
    ¬ bitNat ((sMig 1 []).walkWord 0x6008) 0 = 1 :=
  ⟨fun _ _ => rfl, by and_intros <;> decide +kernel⟩

theorem witness_TranslationSteps_tier :
    sTier.part? 0 = some tierPart ∧ sTier.tierPages tierPart = [page] ∧ sTier.inTier false page = true ∧ page.hint.next ≠ never ∧ page.dist ≤ 1 ∧
    sTier.migrating 0 0 0 = false ∧ sTier.hbmUsed 0 [page] + framesOf [page] ≤ tierPart.tquota :=
  ⟨rfl, tier_pages, by and_intros <;> decide +kernel⟩

/-- A walk of an address for the group, on core (0, 0). -/
def walk0 (va : Nat) (started : Bool) (gen : Nat) : Walk :=
  { who := .group K, ins := grp.regs.chain.seq, at_ := coreTlb 0, part := 0, asid := 0, va := va, asked := 0, started := started, gen := gen }
/-- The machine with that walk. -/
def sWalk (l : List Walk) : State := { st with walks := l }
/-- The walk that a step asks for. -/
def sameWalk (y : Walk) : Bool := y.who == .group K && y.va = 0
/-- The walks of the machine that the walker of core (0, 0) has started. -/
def startedWalks (s : State) : Nat := (s.walks.filter fun y => sameWalker (coreTlb 0) y.at_ && y.started).length
/-- The machine with invalidations. -/
def sInval (l : List Tlbi) : State := { st with tlbis := l }
/-- The partitions of the invalidations that wait for a target. -/
def lostParts (s : State) (n : Nat) : List (BitVec 4) :=
  ((s.tlbis.filter fun t => NSet.has t.targets n && !NSet.has t.acked n && !NSet.has t.lost n).map (·.part)).eraseDups

theorem witness_TranslationSteps_walks :
    st.part? 0 = some { desc := placedDesc } ∧ (∀ l, (sWalk l).walkCtx (.group K) = some (grp.ctx, grp.regs.chain.seq)) ∧
    grp.ctx.walksAt 0 (some ⟨0, 0⟩) 0 = true ∧ (sWalk []).walks.find? sameWalk = none ∧
    (sWalk [walk0 0 false 0]).walks.find? sameWalk = some (walk0 0 false 0) ∧
    (sWalk [walk0 0 true 1]).walks.find? sameWalk = some (walk0 0 true 1) ∧ st.genAt 0 0 ≠ 1 ∧
    (sWalk [walk0 0 true 0]).walks.find? sameWalk = some (walk0 0 true 0) ∧ st.genAt 0 0 = 0 ∧
    (((sWalk [walk0 0 true 0]).walked grp.ctx 0).walkCached { desc := placedDesc } (walk0 0 true 0)).1 = .leaf 0x1F 4 ∧
    startedWalks (sWalk [walk0 0 false 0]) < 16 ∧ 16 ≤ startedWalks (sWalk ((List.range 16).map fun i => walk0 (4096 * i) true 0)) :=
  ⟨Store.get?_put_self .., fun _ => rfl, by and_intros <;> decide +kernel⟩

/-- The machine with a copy whose next unit reads 0x100 and writes 0x40000. -/
theorem witness_TranslationSteps_ahead :
    (∀ v, st.walkOk v (.group K) = true) ∧ (withCmd (copy4 0x40000)).walkOk 0x100 (.cmd (.group K 0 1)) = true ∧
    (withCmd (copy4 0x40000)).walkOk 0x7000000 (.cmd (.group K 0 1)) = false ∧ st.mute 14 = false ∧ st.lostPeers = [] ∧
    ({ st with domain := NSet.add [] 1 } : State).mute 14 = true ∧ ({ st with domain := NSet.add [] 1 } : State).lostPeers ≠ [] :=
  ⟨fun _ => rfl, by and_intros <;> decide +kernel⟩

theorem witness_TranslationSteps_targets :
    (∀ l, (sInval l).tlbis[0]? = l[0]?) ∧ NSet.has (inval [] []).targets 0 = true ∧ NSet.has (inval [] []).reached 0 = false ∧
    NSet.has (inval [] []).lost 0 = false ∧ NSet.has (inval (NSet.add [] 0) []).reached 0 = true ∧
    NSet.has (inval (NSet.add [] 0) []).acked 0 = false ∧ lostParts (sInval [inval [] []]) 0 ≠ [] ∧ lostParts (sInval []) 0 = [] ∧
    lostParts (sInval [{ inval [] [] with targets := NSet.add [] 14 }]) 14 ≠ [] :=
  ⟨fun _ => rfl, by and_intros <;> decide +kernel⟩
/-! ### Witnesses: packets and placement -/

/-- A queue descriptor with its ring at 0x21000, one packet in it. -/
def ring : Store Byte := [(0x20241, 0x10), (0x20242, 2), (0x20248, 1), (0x20250, 1)]
/-- A machine whose queue 0 holds a packet, by its bytes other than zero. -/
def sq_ (pkt : List (Nat × Byte)) : State :=
  { base with mem := base.mem ++ ring ++ pkt.map fun x => (0x21000 + x.1, x.2), parts := Store.put base.parts 0 part }
/-- The same with a live node of identity 7. -/
def sqn (pkt : List (Nat × Byte)) : State :=
  { sq_ pkt with launches := Store.put base.launches 1 { placedLaunch with nid := some 7, count := 2, dispatched := false } }
/-- That queue. -/
def q0 : QKey := ⟨0, 0⟩
/-- Its head shows something. -/
def shows (s : State) (p : Head → State → Rec → Bool) : Bool :=
  match s.head q0 with
  | some (h, t) => (h.pkt.map (p h t)).getD false
  | none => false

theorem witness_PacketSteps :
    (sr.head q0).isNone = true ∧ shows (sq_ [(0, 1)]) (fun h t _ => t.pktKind q0 h matches .launch) = true ∧
    shows (sq_ [(0, 2)]) (fun h t _ => (t.pktKind q0 h matches .node _ _) &&
      (t.launches.filter fun x => x.2.part = 0 && x.2.nid.isSome).length < 4096) = true ∧
    shows (sq_ [(0, 3)]) (fun h t _ => (t.pktKind q0 h matches .copy) && (t.cmd? (.queue 0 0)).isNone &&
      (t.part? 0).any fun p => t.cmdsOfPart 0 < p.engQuota) = true ∧
    shows (sq_ [(0, 4)]) (fun h t r => let v := t.consume q0 h
      let x := Pkt.signal r v.floor
      (t.pktKind q0 h matches .signal) && recNat r 8 1 = 0 && cidDev x.cid = t.devnum.toNat && (v.land x).isSome) = true ∧
    shows (sqn [(0, 4), (8, 1), (16, 7)]) (fun h t r => (t.pktKind q0 h matches .signal) && recNat r 8 1 = 1 &&
      ((t.consume q0 h).releaseNode 0 (BitVec.ofNat 32 (recNat r 16 4))).isSome) = true ∧
    shows (sq_ [(0, 5)]) (fun h t _ => t.pktKind q0 h matches .bad) = true :=
  by and_intros <;> decide +kernel

/-- Nodes enough to fill the pool. -/
def many : Store Launch := (List.range 4096).map fun i => (i, { placedLaunch with nid := some 7 })

theorem witness_PacketSteps_full :
    shows { sq_ [(0, 2)] with launches := many } (fun h t _ => (t.pktKind q0 h matches .node _ _) &&
      4096 ≤ (t.launches.filter fun x => x.2.part = 0 && x.2.nid.isSome).length) = true := by decide +kernel

/-- The command of a copy packet that has no units left, or whose queue was killed; it releases node 7, or none. -/
def pktCopy (killed : Bool) (snid : Word32) : Cmd :=
  { cmd (.copy { dsp := 4, ssp := 4, dst := 0x40000, src := 0x100, len := 0, done := 0x40000, snid := snid }) 0 with
    key := .queue 0 0, killed := killed }
/-- Its machine. -/
def sPkt (killed : Bool) (snid : Word32) : State := { sqn [] with cmds := [pktCopy killed snid] }
/-- What the command leaves once its record is written. -/
def pktDone (dead : Bool) (s : State) (d : Cmd) : State :=
  (s.finishCmd d.key dead).writeDone d.ctx 0x40000 d.lt.toNat
    (completion (if dead then .faulted else .completed) d.lt.toNat 0 d.killed.toNat 0 [])

/-- A launch of one group on core (1, 0), in the pool. -/
def ready1 : Launch :=
  { placedLaunch with
    rec256 := ((placedLaunch.rec256.set 56 1).set 64 1), pooled := some 0, dispatched := false, nextCi := 0, started := 0 }
/-- The machine with it. -/
def sReady : State := { st with launches := [(1, ready1)], time := usUnits 4096 }
/-- The machine with its one launch over, or its one instance. -/
def sOver : State := { st with launches := [(1, { ready1 with killed := true })], insts := [(0, { placedInst with ended := NSet.add [] 0 })] }
/-- Launches of the partition that may place an instance. -/
def fits (s : State) (p : Part) : Store Launch :=
  s.launches.filter fun x => x.2.part = 0 && x.2.eligible p && !s.blocked x.1 x.2 && (s.position x.1 x.2).isSome

theorem witness_PlacementSteps :
    (∀ b n, (sPkt b n).cmd? (.queue 0 0) = some (pktCopy b n)) ∧ (pktCopy true 7).killed = true ∧ (pktCopy false 7).state = .running ∧
    (∀ b n, (pktCopy b n).total ≤ (pktCopy b n).units.length) ∧ (7 : Word32) ≠ 0xFFFFFFFF ∧
    (∀ b ∈ [true, false], ((pktDone b (sPkt b 7) (pktCopy b 7)).releaseNode 0 7).isSome = true) ∧
    ([true, false].all fun b => ([7, 0xFFFFFFFF] : List Word32).all fun n =>
      !(sPkt b n).doneWaits (pktCopy b n).ctx 0x40000) = true ∧
    sReady.launch? 1 = some ready1 ∧ ready1.pooled = some 0 ∧ ready1.raised ≤ 1 ∧
    0 + 1 * usUnits 4096 ≤ sReady.time ∧ sReady.time < 0 + (1 + 1) * usUnits 4096 ∧ sReady.part? 0 = some { desc := placedDesc } ∧
    poolFirst sReady (fits sReady { desc := placedDesc }) = some (1, ready1) ∧ (sReady.position 1 ready1).isSome = true ∧
    (1, ready1) ∈ sReady.launches ∧ fits st { desc := placedDesc } = [] ∧ sOver.inst? 0 = some { placedInst with ended := NSet.add [] 0 } ∧
    (∀ j < placedInst.size, NSet.has (NSet.add [] 0) j = true) ∧ sOver.instBusy 0 = false ∧
    sOver.launch? 1 = some { ready1 with killed := true } ∧ sOver.launchOver 1 { ready1 with killed := true } = true ∧
    (sOver.endLaunch 1 { ready1 with killed := true } .killed).isSome = true ∧ sReady.launchOver 1 ready1 = false :=
  ⟨fun _ _ => rfl, rfl, rfl, fun _ _ => Nat.le_refl _, by decide, by decide +kernel, by decide +kernel, rfl, rfl,
    by decide +kernel, by decide +kernel, by decide +kernel, Store.get?_put_self .., by decide +kernel, by decide +kernel, .head _,
    by decide +kernel, rfl, by decide +kernel, by decide +kernel, rfl, by and_intros <;> decide +kernel⟩

/-- A group of an ordered launch, the oldest of it. -/
def oldestBy (f : Group → Group) (held : Option TrapRec) : Group := f { grp with ord := some { ts := 0, held := held } }
/-- Its machine. -/
def sOrd (g : Group) : State := { at_ g with groups := [(0, g)] }
/-- What the launch finds as its oldest group. -/
def finds (s : State) (p : GKey → Group → Ordered → Bool) : Bool := (s.oldestGroup 0).any fun x => p x.1 x.2.1 x.2.2

theorem witness_PlacementSteps_commit :
    (st.oldestGroup 0).isNone = true ∧
    finds (sOrd (oldestBy (fun g => { g with killed := true }) none)) (fun _ g _ => g.killed) = true ∧
    finds (sOrd (oldestBy (fun g => { g with run := .ended }) none)) (fun _ g _ => !g.killed && g.run == .ended) = true ∧
    finds (sOrd (oldestBy id (some {}))) (fun _ g o => !g.killed && g.run != .ended && o.held.isSome) = true ∧
    finds (sOrd (oldestBy id none)) (fun _ g o => !g.killed && g.run != .ended && o.held.isNone) = true :=
  by and_intros <;> decide +kernel
/-! ### Witnesses: Trail, errors, links -/

/-- The machine with a record in the trace buffer of core (0, 0), or with records that it dropped. -/
def sTrail (l : List (BitVec 128)) (dropped : Nat) : State := { st with cores := [(0, { trail := l, dropped := dropped })] }
/-- A group that waits at barrier 0. -/
def atBar : Group := { grp with run := .waiting { op := .barrier 0 1 false, f := {}, start := 0 } }

theorem witness_TrailAndErrorSteps :
    (∀ l n, ((sTrail l n).coreAt 0).trail = l ∧ ((sTrail l n).coreAt 0).dropped = n) ∧
    (sTrail [1] 0).partOfCore 0 = some 0 ∧ (sTrail [1] 0).part? 0 = some { desc := placedDesc } ∧
    ({ desc := placedDesc } : Part).slice 0 = some (0x200000, 0x4000) ∧ (3 : Nat) ≠ 0 ∧ ([] : List (BitVec 128)).length < trailCap ∧
    (Store.getD st.corrected 0 0 + 1) % 100 ≠ 0 ∧
    (Store.getD ({ st with corrected := [(0, 99)] } : State).corrected 0 0 + 1) % 100 = 0 ∧
    st.isLocal 0x40000 = true ∧ st.backed 0x40000 = true ∧ st.inst? 0 = some placedInst ∧ (at_ atBar).inst? 0 = some placedInst ∧
    (at_ atBar).group? K = some atBar ∧ st.group? K = some grp ∧ grp.run ≠ .ended :=
  ⟨fun _ _ => ⟨rfl, rfl⟩, by decide +kernel, Store.get?_put_self .., by decide +kernel, by decide, by decide, by decide +kernel,
    by decide +kernel, by decide +kernel, by decide +kernel, Store.get?_put_self .., Store.get?_put_self .., State.group?_setGroup ..,
    State.group?_setGroup .., by decide +kernel⟩

/-- The machine with a clean copy, or a dirty one, in the L1 of core (0, 0). -/
def sHolds (d : BitVec 4) : State := { st with lines := [(2048, { dirs := [(0, { st := .m, l1 := [(0, { dirty := d })] })] })] }

theorem witness_TrailAndErrorSteps_copies :
    (st.lineAt (lineOf 0x50000)).holders = [] ∧ st.isLocal 0x50000 = true ∧ st.backed 0x50000 = true ∧
    ((sHolds 1).lineAt (lineOf 0x40000)).holders = [some (0, some 0)] ∧
    (((sHolds 1).lineAt (lineOf 0x40000)).heldIn (some (0, some 0))).dirty.getLsbD (0x40000 % 128 / 32) = true ∧
    (sHolds 0).powered = true ∧ (sHolds 0).mayStrike 0x40000 = [none, some (some (0, some 0))] ∧
    (∀ n : Nat, n % 2 = 0 ∨ n % 2 = 1) := by
  and_intros
  all_goals first | decide +kernel | (intro n; omega)

/-- A P line of which a core of tower 0 holds a partial. -/
def potOf (t : Nat) : Potluck := { fn := 0, t := 0, parts := [{ loc := .l2 t, order := 0, elems := [] }] }
/-- The machine with it, and with one link up. -/
def sPot : State := { st with lines := [(8, { pot := some (potOf 0) })] }
/-- The machine with links in one state, a domain of one more device, and expanders. -/
def sLinks (l : Link) (lost : Bool) : State :=
  { st with links := Vector.replicate 36 l, domain := NSet.add [] 1, expanders := Vector.replicate 4 { frames := 1, lost := lost } }

theorem retire_reach : (st.retireLink 0).isLocal 0x400 = true ∧ (st.retireLink 0).backed 0x400 = true ∧
    (st.retireLink 0).isLocal (2 ^ 47) = false := by
  unfold State.retireLink
  dsimp only
  rw [if_neg (by decide +kernel)]
  split <;> decide +kernel

theorem witness_LinkSteps :
    st.isLocal 0x400 = true ∧ st.backed 0x400 = true ∧ (st.retireLink 0).isLocal 0x400 = true ∧ (st.retireLink 0).backed 0x400 = true ∧
    (sPot.lineAt 8).pot = some (potOf 0) ∧ (potOf 0).parts.any (fun q => q.loc = .l2 0) = true ∧
    18 ≤ (18 : BitVec 5).toNat ∧ (17 : BitVec 5).toNat < 18 ∧
    st.powered = true ∧ ({ st with powered := false } : State).powered = false ∧ st.isLocal (2 ^ 47) = false ∧
    (st.retireLink 0).isLocal (2 ^ 47) = false ∧ (∀ l b, (sLinks l b).linkAt 0 = l) ∧ ({ up := true } : Link).up = true ∧ ({ up := true } : Link).replays < 8 ∧
    8 ≤ ({ up := true, replays := 8 } : Link).replays ∧ (1 : BitVec 9) ≠ (sLinks {} false).devnum ∧
    NSet.has (sLinks {} false).domain 1 = true ∧ (∀ b, vget (sLinks {} b).expanders 0 {} = { frames := 1, lost := b }) :=
  ⟨by decide +kernel, by decide +kernel, retire_reach.1, retire_reach.2.1, rfl, by decide +kernel, by decide, by decide, rfl, rfl,
    by decide +kernel, retire_reach.2.2, fun _ _ => rfl, rfl, by decide, by decide, by decide +kernel, by decide +kernel, fun _ => rfl⟩

/-! ### Witnesses: requests from outside -/

/-- A read of eight bytes. -/
def rd : Ask := .read 8
/-- A FetchAdd of 32 bits, and an atomic that PCIe has not. -/
def fa : AtomAsk := { fn := 0, t := 0, operand := 1 }
/-- The machine with device 1 in its domain and function 1 in partition 0. -/
def sOut : State := { st with domain := NSet.add [] 1, vfs := [(1, 0)] }
/-- The same with the peer or the function frozen. -/
def sCold : State := { sOut with peerFrozen := NSet.add [] 16, vfFrozen := NSet.add [] 1 }
/-- The partition of the placed program. -/
abbrev part0 : Part := { desc := placedDesc }

theorem witness_OutsideRequests_peers :
    (1 : BitVec 9) ≠ sOut.devnum ∧ NSet.has sOut.domain 1 = true ∧ sOut.part? 0 = some part0 ∧ sOut.part? 1 = none ∧
    sOut.bstate = 5 ∧ NSet.has sOut.peerFrozen 16 = false ∧ NSet.has sOut.peerRefused 16 = false ∧
    NSet.has sCold.peerFrozen 16 = true ∧ (∀ c g b l, rd ≠ .signal c g b l) ∧ cidPart 0 = (0 : BitVec 4).toNat ∧
    sOut.outViolation part0 0x40000 8 false 0 = none ∧ sOut.outViolation part0 0xC000000000 8 false 0 = some 1 ∧
    sOut.outViolation part0 0x10000000 8 false 0 = some 0 ∧ sOut.outViolation part0 0x200000 8 true 0 = some 3 ∧
    sOut.outViolation part0 0x40000 (askSize (.atom fa)) true 0 = none :=
  ⟨by decide +kernel, by decide +kernel, Store.get?_put_self .., by decide +kernel, by decide +kernel, by decide +kernel,
    by decide +kernel, by decide +kernel, fun _ _ _ _ h => by simp [rd] at h, by and_intros <;> decide +kernel⟩

theorem witness_OutsideRequests_host :
    sOut.part? 0 = some part0 ∧ Store.get? sOut.vfs 1 = some 0 ∧ Store.get? sOut.vfs 2 = none ∧ sOut.bstate = 5 ∧
    NSet.has sOut.vfFrozen 1 = false ∧ NSet.has sOut.vfRefused 1 = false ∧ NSet.has sCold.vfFrozen 1 = true ∧
    sOut.outViolation part0 0x40000 8 false 4 = none ∧ sOut.outViolation part0 0x10000000 8 false 4 = some 4 ∧
    State.reset.bstate ≠ 5 ∧ pcieAtomic fa = true ∧ pcieAtomic { fa with fn := 1 } = false ∧
    sOut.outViolation part0 0x40000 (askSize (.atom fa)) true 4 = none :=
  ⟨Store.get?_put_self .., by and_intros <;> decide +kernel⟩

theorem witness_BoardSteps :
    State.reset.bstate ≠ 5 ∧ answersEarly 0 = true ∧ answersEarly 0x10000 = false ∧ st.bstate = 5 ∧
    (0 + 8 ≤ 0x200000) ∧ ¬(0x201000 + 8 ≤ 0x200000 ∨ 0x202000 ≤ 0x201000) ∧ State.reset.bstate.toNat = 0 ∧ st.powered = true ∧
    (∀ n ∈ [1, 2, 3, 4, 15], ({ State.reset with bstate := BitVec.ofNat 4 n } : State).bstate.toNat = n) ∧
    State.reset.powered = true ∧
    (17 : BitVec 5).toNat < 18 ∧ 18 ≤ (18 : BitVec 5).toNat ∧ 1 ≤ (16 : BitVec 5).toNat ∧ (16 : BitVec 5).toNat ≤ 16 :=
  ⟨by decide +kernel, by decide +kernel, by decide +kernel, by decide +kernel, by decide, by decide, by decide +kernel, rfl,
    by decide +kernel, rfl, by decide, by decide, by decide, by decide⟩
/-! ### Witnesses: the mailbox -/

/-- The mailbox running a command with arguments. -/
def box (code var part alen : Nat) (args : List Byte) : Mbox :=
  { cmd := BitVec.ofNat 64 (code + 256 * var + 65536 * part + 2 ^ 32 * alen), args := args.zipIdx.map fun x => (x.2, x.1), running := true }
/-- The machine with a mailbox. -/
def sBox (s : State) (m : Mbox) : State := { s with mbox := m }
/-- The word asks for a command of the partition with arguments enough. -/
def runs (m : Mbox) (code var need : Nat) : Bool :=
  m.running && m.known && m.code == code && m.var == var && need ≤ m.alen && m.alen ≤ 4096
/-- The arguments of CREATE, whose reserved word may be wrong; a partition 1 beyond the first, or upon it. -/
def mCreate (bad : Byte) (base : Nat) : Mbox :=
  box 1 0 0 128 (leBytes 8 (base + 0x1000) ++ leBytes 8 (base + 0x100000) ++ leBytes 8 (base + 0x200000) ++ leBytes 4 1 ++
    leBytes 4 0 ++ leBytes 2 1 ++ leBytes 2 1 ++ [16, 0, 0x34, 8, 1, 1, 0, 1] ++ leBytes 4 0 ++ bad :: List.replicate 15 0 ++
    leBytes 8 (base / 2 ^ 21 + 128 * 2 ^ 35) ++ List.replicate 56 0)
/-- The partition that it describes. -/
def created (m : Mbox) : Part := { desc := m.argBytes 0 128 }
/-- QUEUE of queue 1 at 0x20000. -/
def mQueue : Mbox := box 3 0 0 16 (leBytes 8 0x20000 ++ [1, 1] ++ leBytes 6 0)
/-- ASSIGN of function 1, or its revocation. -/
def mAssign (v : Byte) : Mbox := box 9 0 0 2 [1, v]

theorem witness_MailboxPartitions :
    runs (mCreate 0 0x10000000) 1 0 128 = true ∧ (created (mCreate 0 0x10000000)).fieldsOk = true ∧
    st.part? (created (mCreate 0 0x10000000)).pid = none ∧ st.partOk (created (mCreate 0 0x10000000)) = true ∧
    runs (mCreate 1 0) 1 0 128 = true ∧ (created (mCreate 1 0)).fieldsOk = false ∧
    (created (mCreate 0 0)).fieldsOk = true ∧ st.partOk (created (mCreate 0 0)) = false ∧
    runs (box 2 0 0 0 []) 2 0 0 = true ∧ (∀ m, (sBox st m).part? 0 = some part0) ∧
    (runs mQueue 3 0 16 = true ∧ mQueue.arg 8 1 < 2 ∧ mQueue.arg 9 1 < 16 ∧ mQueue.arg 12 4 = 0 ∧
      part0.hasAsid (mQueue.arg 10 2) = true ∧ part0.owns (mQueue.arg 0 8) 64 = true) ∧
    (runs (box 8 0 0 2 [3, 10]) 8 0 2 = true ∧ (box 8 0 0 2 [3, 10]).arg 0 1 < 4 ∧ (box 8 0 0 2 [3, 10]).arg 1 1 ≤ 10) ∧
    runs (box 8 1 0 4 []) 8 1 4 = true ∧
    (runs (mAssign 0) 9 0 2 = true ∧ (mAssign 0).arg 0 1 = 1 ∧ (mAssign 0).arg 1 1 = 0 ∧ st.vfs = []) ∧
    (runs (mAssign 128) 9 0 2 = true ∧ (mAssign 128).arg 1 1 = 128 ∧ Store.get? sOut.vfs 1 = some 0) ∧
    ((box 10 0 0 0 []).running = true ∧ (box 10 0 0 0 []).known = false) ∧ st.mbox.running = false :=
  ⟨by decide +kernel, by decide +kernel, by decide +kernel, by decide +kernel, by decide +kernel, by decide +kernel, by decide +kernel,
    by decide +kernel, by decide +kernel, fun _ => Store.get?_put_self .., by decide +kernel, by decide +kernel, by decide +kernel,
    ⟨by decide +kernel, by decide +kernel, by decide +kernel, rfl⟩, ⟨by decide +kernel, by decide +kernel, rfl⟩, by decide +kernel, rfl⟩

/-- An enclave, sealed or not. -/
def encl (sealed : Bool) : Part := { desc := placedDesc.set 42 1, sealed := sealed }
/-- The machine with it and a mailbox. -/
def sEncl (sealed : Bool) (m : Mbox) : State := { st with mbox := m, parts := Store.put base.parts 0 (encl sealed) }
/-- LOAD of 32 bytes from beyond the partition. -/
def mLoad : Mbox := box 4 0 0 24 (leBytes 8 0x10000000 ++ leBytes 8 0x40000 ++ leBytes 8 32)
/-- IMPORT of as many. -/
def mImport : Mbox :=
  box 6 0 0 88 (List.replicate 48 0 ++ leBytes 8 32 ++ leBytes 8 0x40000 ++ List.replicate 16 0 ++ leBytes 8 0x10000000)

theorem witness_MailboxEnclaves :
    (∀ b m, (sEncl b m).part? 0 = some (encl b)) ∧ runs mLoad 4 0 24 = true ∧ mLoad.arg 8 8 % 32 = 0 ∧ mLoad.arg 16 8 % 32 = 0 ∧
    (sEncl false mLoad).outside (mLoad.arg 0 8) (mLoad.arg 16 8) = true ∧ (encl false).owns (mLoad.arg 8 8) (mLoad.arg 16 8) = true ∧
    ((sEncl false mLoad).outRead (mLoad.arg 0 8) (mLoad.arg 16 8)).2.1 = false ∧
    runs (box 4 1 0 0 []) 4 1 0 = true ∧ runs (box 5 0 0 32 []) 5 0 32 = true ∧
    (runs mImport 6 0 88 = true ∧ mImport.arg 44 4 = 0 ∧ mImport.arg 48 8 ≤ 2 ^ 32 ∧ mImport.arg 56 8 % 32 = 0) ∧
    (encl false).encl = true ∧ (encl false).owns (mImport.arg 56 8) (mImport.arg 48 8) = true ∧
    (sEncl false mImport).outside (mImport.arg 80 8) (mImport.arg 48 8) = true ∧
    ((sEncl false mImport).outRead (mImport.arg 80 8) (mImport.arg 48 8)).2.1 = false :=
  ⟨fun _ _ => Store.get?_put_self .., by and_intros <;> decide +kernel⟩

/-- A complete image. -/
def good : Slot := { complete := true, seq := 1, bodyd := bodyDigest {}, idk := identityKey, body := some {} }
/-- The machine with a mailbox and an image in slot 0, or none. -/
def sSlot (m : Mbox) (x : Slot) : State := { st with mbox := m, slots := Vector.replicate 2 {} |>.set 0 x }
/-- Its lines are all in the ordinary states once it has halted. -/
def halts (s : State) (p : State → Bool) : Bool :=
  s.haltAll.allHalted && p ((s.haltAll.lines.map (·.1)).foldl (fun v ln => v.ordinary .ext ln) s.haltAll)

theorem one_ne : (1 : BitVec 512) ≠ 0 := by simp

theorem witness_MailboxEnclaves_checkpoint :
    runs (box 7 0 0 0 []) 7 0 0 = true ∧ runs (box 7 1 0 0 []) 7 1 0 = true ∧ (∀ m x, (sSlot m x).parts = st.parts) ∧
    st.parts.any (fun p => p.2.exchanging.isSome) = false ∧
    halts { st with groups := [(0, { grp with run := .ended })] } (fun s => s.newest.isNone) = true ∧
    halts { sSlot (box 7 0 0 0 []) { complete := true, seq := 1, body := some {} } with groups := [] }
      (fun s => s.newest == some 0) = true ∧
    (box 7 0 0 0 []).written = false ∧ ({ box 7 0 0 0 [] with written := true } : Mbox).written = true ∧
    (∀ m, ({ sSlot m good with fwdig := 1 } : State).fwdig ≠ good.fwd) ∧
    (sBox (at_ (ahead 0)) (box 7 0 0 0 [])).haltAll.allHalted = false ∧ (∀ m, (sSlot m good).newest = some 0) ∧
    (∀ m, vget (sSlot m good).slots 0 {} = good) ∧ good.body = some {} ∧ (∀ m, (sSlot m good).restorable good = true) ∧ st.newest = none := by
  refine ⟨by decide +kernel, by decide +kernel, fun _ _ => rfl, by decide +kernel, by decide +kernel, by decide +kernel, rfl, rfl,
    fun _ => one_ne, by decide +kernel, fun _ => rfl, fun _ => rfl, rfl, fun m => ?_, by decide +kernel⟩
  have h : (sSlot m good).fwdig = 0 := rfl
  simp only [State.restorable, h]
  simp [good]
/-! ### Witnesses: encoding and one step -/

theorem witness_DecodeOfEncode :
    encodable (.sadd { d := .s 5, a := .s 4, b := .imm, t := 6, imm := .i32 0x40 }) = true ∧
    encodable (.vfma { d := .v 5, a := .w 31, b := .v 6, c := .v 127, p := 3, pn := true }) = true := by
  decide +kernel

/-- A word of NOP with a bit of its X field set. -/
def badNop : Nat := 5 + 2 ^ 40
/-- The machine of the placed program at that word. -/
def sNop : State := State.reset.placeWord 64 badNop
/-- The same with no group given an issue slot. -/
def sNop0 : State := { sNop with grant := [] }
/-- Its group. -/
abbrev g0_ : Group := placedGroup

/-- A fetch from this device, with no destination error in the way, leaves the machine as it is. -/
theorem fetches {s : State} {g : Group} {pa : Nat} (ht : s.translate g.ctx .fetch g.regs.pc.toNat = .ok pa)
    (hl : (s.isLocal pa && s.isLocal (128 * lineOf pa)) = true) (hs : s.strays (.group K) = false) : s.toFetch K g = (false, s) := by
  rw [Bool.and_eq_true] at hl
  simp [State.toFetch, ht, State.meets, hs, hl.1, State.remoteNews, hl.2]

theorem witness_NopEncoding :
    (8 ∈ [8, 12, 16] ∧ badNop < 2 ^ 64 ∧ badNop / 4 % 256 = 1 ∧ badNop % 4 = 8 / 4 - 1 ∧ badNop ∉ [5, 6, 7]) ∧
    sNop.agenda = [] ∧ sNop.grant = [K] ∧ sNop0.group? K = some g0_ ∧ g0_.mayIssue = true ∧ g0_.pending = false ∧ g0_.spec = none ∧
    sNop0.toFetch K g0_ = (false, sNop0) ∧ sNop0.translate g0_.ctx .fetch g0_.regs.pc.toNat = .ok 0x10000 ∧
    sNop0.poisonAt 0x10000 = false ∧ sNop0.blockBytes 0x10000 = leBytes 8 badNop ++ (sNop0.blockBytes 0x10000).drop 8 ∧ Ready st K grp (.nop {}) :=
  ⟨by decide, rfl, rfl, State.group?_setGroup .., by decide +kernel, by decide +kernel, rfl,
    fetches (pa := 0x10000) (by decide +kernel) (by decide +kernel) (by decide +kernel), by decide +kernel, by decide +kernel,
    by decide +kernel, ready (l := [.nop {}]) (by decide +kernel) _ (by simp)⟩

/-- The machine at a NOP. -/
def sGood : State := { State.reset.placeWord 64 5 with grant := [] }

/-- The machine at a NOP with a destination error against its tower. -/
def strayed : State := { sGood with astray := NSet.add [] 0 }

theorem witness_StepRunsDecoded :
    (State.reset.placeWord 64 5).agenda = [] ∧ (State.reset.placeWord 64 5).grant = [K] ∧ sGood.group? K = some g0_ ∧
    g0_.mayIssue = true ∧ g0_.pending = false ∧ sGood.translate g0_.ctx .fetch g0_.regs.pc.toNat = .ok 0x10000 ∧
    sGood.toFetch K g0_ = (false, sGood) ∧ sGood.isLocal 0x10000 = true ∧ sGood.strays (.group K) = false ∧
    due.pending = true ∧ due.mayIssue = true ∧ (at_ due).mayHalt due = true ∧
    ((strayed.toFetch K g0_).1 = true ∧ strayed.group? K = some g0_ ∧ g0_.spec = none) ∧
    sGood.poisonAt 0x10000 = false ∧ (decode (sGood.blockBytes 0x10000) matches .ok (.nop _)) = true ∧
    ({ sGood with agenda := [.timestampSweep 0] } : State).agenda = [.timestampSweep 0] :=
  ⟨rfl, rfl, State.group?_setGroup .., by decide +kernel, by decide +kernel, by decide +kernel,
    fetches (pa := 0x10000) (by decide +kernel) (by decide +kernel) (by decide +kernel), by decide +kernel, by decide +kernel, by decide +kernel,
    by decide +kernel, by decide +kernel, ⟨by decide +kernel, State.group?_setGroup .., rfl⟩, by decide +kernel, by decide +kernel,
    rfl⟩

/-- A user group with 32 vector registers. -/
def few : Group := { grp with id := { grp.id with vregs := 32, sup := false } }
/-- VADD of a register that it does not have. -/
def far : Fields := { d := .v 40, a := .v 1, b := .v 2 }
/-- MTS from s7. -/
def mt (r : BitVec 7) : Fields := { a := .s 7, b := .v r }

/-- MFS into s5. -/
def mf (r : BitVec 7) : Fields := { d := .s 5, b := .v r }

theorem witness_DecodeOrderTraps :
    (at_ few).cur = some K ∧ (at_ few).group? K = some few ∧ few.spec = none ∧ wellFormed (.vadd far) = true ∧
    (∀ r, row (.vadd far) = some r → few.step5 r far = false) ∧ (row (.vadd far)).isSome = true ∧
    wellFormed (.tlbsync { d := .s 5 }) = true ∧
    (row (.tlbsync { d := .s 5 })).any (fun r => few.step5 r { d := .s 5 } && r.priv) = true ∧ few.id.sup = false ∧
    (∀ x ∈ [mt 0x0D, mt 0x12], wellFormed (.mts x) = true ∧ (row (.mts x)).any (fun r => few.step5 r x) = true) ∧
    writable (regNo (mt 0x0D)) = true ∧ privReg (regNo (mt 0x0D)) = true ∧ writable (regNo (mt 0x12)) = false ∧
    (∀ x ∈ [mf 0x0D, mf 0x04], wellFormed (.mfs x) = true ∧ (row (.mfs x)).any (fun r => few.step5 r x) = true) ∧
    mfsOk (mf 0x0D) = true ∧ privReg (regNo (mf 0x0D)) = true ∧ mfsOk (mf 0x04) = false := by
  refine ⟨rfl, State.group?_setGroup .., rfl, by decide +kernel, fun r h => ?_, by and_intros <;> decide +kernel⟩
  rw [← Option.some.inj h]
  decide +kernel

/-- A trap record, and one with cause FROZEN. -/
def rec_ (c : Byte) : TrapRec := { cause := c }
/-- The machine with a full trap queue. -/
def sFull : State := { st with parts := Store.put base.parts 0 { part0 with tqw := 256 } }

theorem witness_TrapTaken :
    st.group? K = some grp ∧ grp.ord = none ∧ ({ cause := 1 } : Trap).tag = none ∧
    ((st.departWhere fun w => w.g = K).group? K).isSome = true ∧ (rec_ 1).cause ≠ 0x15 ∧ (rec_ 0x15).cause = 0x15 ∧
    st.part? 0 = some part0 ∧ part0.recs = [] ∧ part0.tqw.toNat - part0.tqr.toNat < part0.tqSize ∧
    sFull.part? 0 = some { part0 with tqw := 256 } ∧ ¬ (256 - part0.tqr.toNat < part0.tqSize) ∧ st.groups.any (fun x => x.2.resolves 0) = true ∧
    (at_ { grp with run := .ended }).groups.any (fun x => x.2.resolves 0) = false :=
  ⟨State.group?_setGroup .., rfl, rfl, by decide +kernel, by decide +kernel, by decide +kernel, Store.get?_put_self .., rfl,
    by decide +kernel, Store.get?_put_self .., by and_intros <;> decide +kernel⟩

theorem witness_ScalarFrame : Ready st K grp (.sadd { d := .s 3, a := .s 5, b := .s 6, t := 6 }) :=
  ready (l := [.sadd { d := .s 3, a := .s 5, b := .s 6, t := 6 }]) (by decide +kernel) _ (by simp)

theorem witness_VectorFrame :
    Ready st K grp (.vadd { d := .v 3, a := .v 6, b := .v 6, p := 5 }) ∧ grp.active { p := 5 } 0 = false :=
  ⟨ready (l := [.vadd { d := .v 3, a := .v 6, b := .v 6, p := 5 }]) (by decide +kernel) _ (by simp), by decide +kernel⟩

/-- Segments of 16 bytes. -/
def narrow : Segs := { l := { limit := 16 }, w := { limit := 16 }, k := { limit := 16 }, m := { limit := 16, stride := 4 } }
/-- An element at an offset. -/
def elAt (e : Nat) (off : Word64) : El := { e := e, gmi := 0, off := off }

theorem witness_AddressChecks :
    (12 : Word64).toNat + 4 ≤ narrow.l.limit.toNat ∧ ¬ ((13 : Word64).toNat + 4 ≤ narrow.l.limit.toNat) ∧
    ¬ ((13 : Word64).toNat + 4 ≤ narrow.w.limit.toNat) ∧ (12 : Word64).toNat + 4 ≤ narrow.k.limit.toNat ∧
    ¬ ((13 : Word64).toNat + 4 ≤ narrow.k.limit.toNat) ∧ (12 : Word64).toNat + 4 ≤ narrow.m.limit.toNat ∧
    ¬ ((13 : Word64).toNat + 4 ≤ narrow.m.limit.toNat) ∧
    (placeOf narrow placedInst 0 spK 4 12 0 matches .ok _) = true ∧ (placeOf narrow placedInst 0 spK 4 13 0 matches .error 2) = true ∧
    (placesOf narrow placedInst 0 spK 4 [elAt 0 12, elAt 1 8] matches .ok _) = true ∧
    (placesOf narrow placedInst 0 spK 4 [elAt 0 12, elAt 1 7] matches .error _) = true ∧
    (12 : Word64).toNat + 4 ≤ narrow.w.limit.toNat ∧ (12 < 2 ^ 27 ∧ 0 < placedInst.width ∧ 0 < placedInst.height ∧
      12 + 4 ≤ placedInst.spd * 32768) ∧ ¬ (1 + 0 < placedInst.width) ∧ placedInst.width ≠ 16 :=
  by and_intros <;> decide +kernel

theorem witness_WriteReadsBack :
    Memory.wf st.mem = true ∧ Store.wf st.poison = true ∧ (st.meets (.group K) 0x4001E).1 = false ∧
    (st.lineAt (lineOf 0x4001E)).struck (Agent.group K).tower? (Agent.group K).l1? = 0 ∧
    (st.lineAt (lineOf 0x4001E)).soundIn (Agent.group K).tower? (Agent.group K).l1? = 0 ∧
    (0x40000 % 32 + (List.replicate 32 (1 : Byte)).length ≤ 32 ∧ (List.replicate 32 (1 : Byte)).length = 32) ∧
    ([1, 0] : List Byte) ≠ [] ∧ 0x4001E % 32 + ([1, 0] : List Byte).length ≤ 32 ∧
    st.lostAt 0x4001E = false ∧ (st.lineAt (lineOf 0x4001E)).pot = none :=
  by and_intros <;> decide +kernel

/-! ### Witnesses: the effects of wakes and steps -/

/-- A group in the wait of an instruction, its timeout over. -/
def inWait (g : Group) (op : WaitOp) (f : Fields) : Group :=
  { g with run := .waiting { op := op, f := f, start := 0, limit := some 0 } }
/-- That group, ready to run. -/
def back (g : Group) (op : WaitOp) (f : Fields) : Group := { inWait g op f with run := .ready }
/-- The machine with it, and the machine in which its instruction runs. -/
def sWait (op : WaitOp) (f : Fields) : State := at_ (inWait grp op f)
/-- The second. -/
def uWait (op : WaitOp) (f : Fields) : State := (sWait op f).setGroup K (back grp op f)
/-- Word 0x100 of the group's scratchpad is full. -/
def fullWait (op : WaitOp) (f : Fields) : State := (sWait op f).onPad 0 0 fun p => { p with full := NSet.add p.full 0x40 }
/-- The second. -/
def ufWait (op : WaitOp) (f : Fields) : State := (fullWait op f).setGroup K (back grp op f)

set_option maxRecDepth 20000 in
theorem witness_WakeResults_words :
    (∀ op f, (sWait op f).group? K = some (inWait grp op f) ∧ (fullWait op f).group? K = some (inWait grp op f) ∧
      (inWait grp op f).waitOf = some { op := op, f := f, start := 0, limit := some 0 }) ∧
    (grp.ssrc ldfF true (.s 5)).tag = none ∧
    (∀ op ∈ [.fullEmpty (.ldfKeep ldfF), .fullEmpty (.ldfTake ldfF)],
      NSet.has ((fullWait op ldfF).padAt 0 0).full (0x100 / 4) = true ∧
      NSet.has ((sWait op ldfF).padAt 0 0).full (0x100 / 4) = false) ∧
    (∃ l t, M.places (back grp (.fullEmpty (.ldfKeep ldfF)) ldfF) 1 4 [grp.scalarEl 0x100] false (ufWait (.fullEmpty (.ldfKeep ldfF)) ldfF) =
        .ok ([(0, .pad 0 0x100)], ufWait (.fullEmpty (.ldfKeep ldfF)) ldfF) ∧
      M.load K 1 4 grp.regs.pc [(0, .pad 0 0x100)] (ufWait (.fullEmpty (.ldfKeep ldfF)) ldfF) = .ok (l, t)) ∧
    (∃ l t, M.places (back grp (.fullEmpty (.ldfTake ldfF)) ldfF) 1 4 [grp.scalarEl 0x100] false (ufWait (.fullEmpty (.ldfTake ldfF)) ldfF) =
        .ok ([(0, .pad 0 0x100)], ufWait (.fullEmpty (.ldfTake ldfF)) ldfF) ∧
      M.load K 1 4 grp.regs.pc [(0, .pad 0 0x100)] (ufWait (.fullEmpty (.ldfTake ldfF)) ldfF) = .ok (l, t)) ∧
    M.places (back grp (.fullEmpty (.ste ldfS)) ldfS) 1 4 [grp.scalarEl 0x100] true (uWait (.fullEmpty (.ste ldfS)) ldfS) =
      .ok ([(0, .pad 0 0x100)], uWait (.fullEmpty (.ste ldfS)) ldfS) ∧
    (grp.ssrc ldfS true (.s 6)).tag = none ∧
    M.places (back grp .chunk chk0) 1 8 [grp.scalarEl 0x100] false (uWait .chunk chk0) = .ok ([(0, .pad 0 0x100)], uWait .chunk chk0) ∧
    (grp.ssrc chk0 true (.s 0)).val = 0 ∧ (0 : Word64) &&& 8 ≠ 8 ∧ (grp.ssrc ldfS true (.s 6)).val = 8 ∧
    NSet.has ((sWait .chunk chk0).padAt 0 0).poison (0x100 / 32) = false :=
  ⟨fun _ _ => ⟨State.group?_setGroup .., State.group?_setGroup .., rfl⟩, by decide +kernel, by decide +kernel, ⟨_, _, rfl, rfl⟩,
    ⟨_, _, rfl, rfl⟩, rfl, by decide +kernel, rfl, by and_intros <;> decide +kernel⟩

/-- The group with a child that has not ended. -/
def parentG (op : WaitOp) : Group := { inWait grp op {} with kids := [5] }
/-- Its machine. -/
def sParent (op : WaitOp) : State :=
  { at_ (parentG op) with children := [{ id := 5, part := 0, q := 0, idx := 0, parent := 0, group := K }] }
/-- The group of the ordered launch with a timestamp. -/
def ordWait (ts : Nat) : Group := { inWait grp .ordc {} with ord := some { ts := ts } }
/-- The machine with a record in the trap queue, the group in PWAIT. -/
def sqWait (n : Word64) : State := { sWait .pwait pw with parts := Store.put st.parts 0 { desc := placedDesc, tqw := n } }

theorem witness_WakeResults_waits :
    (grp.ssrc tw0 true (.s 0)).val.toNat ≤ (vget grp.tl 0 {}).done.toNat ∧
    (vget grp.tl 0 {}).done.toNat < (grp.ssrc tw2 true (.s 7)).val.toNat ∧
    (∀ z, (sWait (.barrier 0 z false) {}).inst? 0 = some placedInst) ∧ (placedInst.bar 0).broken = false ∧
    Barrier.reached (placedInst.bar 0).phase 0 = true ∧ Barrier.reached (placedInst.bar 0).phase 2 = false ∧
    ({ op := .barrier 0 2 false, f := {}, start := 0, limit := some 0 } : Wait).over (sWait (.barrier 0 2 false) {}).cyc = true ∧
    ((sWait .join {}).children.filter fun c => (inWait grp .join {}).kids.contains c.id).all (fun c => c.outcome.isSome) = true ∧
    ((sParent .join).children.filter fun c => (parentG .join).kids.contains c.id).all (fun c => c.outcome.isSome) = false ∧
    (∀ n, (at_ (ordWait n)).ordOf (.group K) = some (0, { ts := n })) ∧
    (at_ (ordWait 0)).isOldest 0 { ts := 0 } = true ∧
    ({ at_ (ordWait 1) with launches := [(0, placedLaunch)] } : State).isOldest 0 { ts := 1 } = false ∧
    (∀ n, (sqWait n).part? 0 = some { desc := placedDesc, tqw := n }) :=
  ⟨by decide +kernel, by decide +kernel, fun _ => Store.get?_put_self .., by decide +kernel, by decide +kernel, by decide +kernel,
    by decide +kernel, by decide +kernel, by decide +kernel, fun _ => rfl, by decide +kernel, by decide +kernel,
    fun _ => Store.get?_put_self ..⟩

/-- A machine with the records, its group in a wait, and a plane of the largest five awaited at s24. -/
def srWait (op : WaitOp) (f : Fields) (kmax : Byte) : State :=
  { sr0.setGroup K (inWait gr op f) with mem := base.mem ++ records ++ [(0x40003, kmax)] }
/-- The machine in which its instruction runs. -/
def urWait (op : WaitOp) (f : Fields) (kmax : Byte) : State := (srWait op f kmax).setGroup K (back gr op f)
/-- The value of the status record. -/
def planeAt (kmax : Byte) : Option Nat := ((urWait .plane cwp kmax).atomicHome (.group K) 0x40000 8 (fun _ => none) false).1

set_option maxRecDepth 20000 in
theorem witness_WakeResults_plane :
    (gr.ssrc cwp true (.s 24)).tag = none ∧ (gr.ssrc cwp true (.s 7)).val.toNat = 2 ∧ 0x40000 % 64 = 0 ∧
    (∀ n ∈ [0, 5], gives (M.xlatPage (back gr .plane cwp).ctx .read [(0, .va 0x40000)] (urWait .plane cwp n))
      (fun l _ => l == [(0, .pa 0x40000)]) = true) ∧
    planeAt 0 = some 0 ∧ planeAt 5 = some (5 * 2 ^ 24) ∧
    min 2 (0 / 2 ^ 24 % 2 ^ 8) ≤ 0 % 2 ^ 16 ∧ ¬min 2 (5 * 2 ^ 24 / 2 ^ 24 % 2 ^ 8) ≤ 5 * 2 ^ 24 % 2 ^ 16 := by
  and_intros <;> decide +kernel

theorem witness_LaunchAndJoin_wake :
    (srWait .lnch lnF 0).group? K = some (inWait gr .lnch lnF) ∧
    (inWait gr .lnch lnF).waitOf = some { op := .lnch, f := lnF, start := 0, limit := some 0 } ∧
    lnchOk (urWait .lnch lnF 0) = true :=
  ⟨State.group?_setGroup .., rfl, by decide +kernel⟩

/-- A partition that holds a trap record for its queue. -/
def sHeld : State := { st with parts := Store.put base.parts 0 { desc := placedDesc, recs := [{ r := {} }] } }

theorem witness_ArbitrationAndTime_record :
    sHeld.part? 0 = some { desc := placedDesc, recs := [{ r := {} }] } ∧ part0.tqw.toNat - part0.tqr.toNat < part0.tqSize ∧
    st.part? 0 = some part0 ∧ part0.recs = [] :=
  ⟨Store.get?_put_self .., by decide +kernel, Store.get?_put_self .., rfl⟩

theorem witness_SignalDelivery_of :
    st.group? K = some grp ∧ grp.run ≠ .ended ∧ (withCmd (cmd (.signal (sigTo (placedInst.cid 0) 0)) 0)).inst? 0 = some placedInst ∧
    cidPart (placedInst.cid 0) = 0 ∧ st.part? 0 = some part0 ∧ part0.inbound.length < 256 :=
  ⟨State.group?_setGroup .., by decide +kernel, Store.get?_put_self .., by decide +kernel, Store.get?_put_self .., by decide +kernel⟩

/-- A copy that fills, or copies. -/
def copyC (fill : Option Word32) : Copy := { dsp := 0, ssp := 0, dst := 0x40000, src := 0x100, len := 4, fill := fill }
/-- A row operation of one block, in local HBM. -/
def rowF (fn : BitVec 4) : RowCmd := { fn := fn, d := 0x40000, b := 0x40000, c := 0x40000, n := 1 }
/-- A command that has done its only unit. -/
def doneC (kind : CmdKind) : Cmd := { cmd kind 1 with units := NSet.add [] 0 }
/-- IRED of the entry at 0x40000, which names no row, by a descriptor that accumulates or does not. -/
def iredOf (acc : Bool) : IredCmd :=
  { desc := if acc then (bytesOf rec4 0x20100).set 33 1 else bytesOf rec4 0x20100, entries := 0x40000, n := 1 }
/-- Its command. -/
def iredC (acc : Bool) : Cmd := cmd (.ired (iredOf acc)) 1
/-- What holds of its entries. -/
def iredSees (acc : Bool) (p : List (Nat × Rec × Bool) → State → Bool) : Bool :=
  match (withCmd (iredC acc)).iredEntries (iredC acc) (iredOf acc) none 1 0 with
  | .ok (es, s1) => !es.isEmpty && p es s1
  | .error _ => false

/-- A copy at work whose words are found at both ends. -/
def copyOk (x : Option Word32) : Bool :=
  let d := cmd (.copy (copyC x)) 1
  d.works && chunkWords 4 0 == [0] && ((withCmd d).engSpots d .write 0 0x40000 [0] matches .ok _) &&
    ((withCmd d).engSpots d .read 0 0x100 [0] matches .ok _)

theorem witness_EngineSteps_effects :
    copyOk none = true ∧ copyOk (some 5) = true ∧
    ((withCmd (copy4 0x300000)).engSpots (copy4 0x300000) .write 0 0x300000 [0] matches .error (.fault ..)) = true ∧
    (∀ n ∈ ([0, 1, 2, 3, 4, 5, 6] : List (BitVec 4)), (cmd (.row (rowF n)) 1).works = true ∧
      ((withCmd (cmd (.row (rowF n)) 1)).hbmAt (cmd (.row (rowF n)) 1) .write 0x40000 matches .ok _) = true ∧
      ((withCmd (cmd (.row (rowF n)) 1)).hbmAt (cmd (.row (rowF n)) 1) .read 0x40000 matches .ok _) = true) ∧
    ((withCmd (cmd (.row { rowF 0 with d := 0x300000 }) 1)).hbmAt (cmd (.row { rowF 0 with d := 0x300000 }) 1) .write 0x300000
      matches .error (.fault ..)) = true ∧
    (∀ a ∈ [true, false], (withCmd (iredC a)).iredStarts (iredC a) (iredOf a) 0 = true) ∧
    iredSees true (fun es _ => Ired.acc (iredOf true).desc && es.all fun z =>
      !z.2.2 && !Ired.bad (iredOf true).desc z.2.1 && Ired.count z.2.1 == 0) = true ∧
    iredSees false (fun es s1 => !Ired.acc (iredOf false).desc && es.all (fun z => Ired.count z.2.1 == 0) &&
      (s1.iredCols (iredC false) (iredOf false).desc 0 [] (List.range 1) matches .ok _)) = true ∧
    (∀ k ∈ [.copy (copyC none), .row (rowF 0), .ired (iredOf true)], (doneC k).total ≤ (doneC k).units.length) := by
  and_intros <;> decide +kernel

/-- The first plane of the broadcast's tile is there. -/
def planeOk : Bool :=
  let s := withCmd bcastC
  let feeds := bcast.feeds (s.participants bcastC bcast) 0
  match s.tileCodes bcastC bcast feeds.1 feeds.2 (List.range 1024) with
  | .ok (_, s1) => (s1.homedSpot bcastC .write (bcast.statusVa 0) matches .ok _) && !s.heldPeer bcastC bcast
  | .error _ => false

theorem witness_EngineSteps_plane :
    bcast.prog = true ∧ bcastC.works = true ∧ 0 < bcastC.total ∧ NSet.has bcastC.units 0 = false ∧ 0 < bcast.opened ∧ planeOk = true := by
  and_intros <;> decide +kernel

theorem witness_MatrixSteps_operands :
    (match (sx (.mma mat1) true).mxOperands (cmd .matrix 0).asMatrix mat1 0 ((Mat.stepKs mat1.mrec 0).map fun j => (j, 0, 0, j)) with
      | .ok (as, v1) =>
        match v1.mxOperands (cmd .matrix 0).asMatrix mat1 1 ((List.range (Shape.ext mat1.brec 0)).flatMap fun n =>
          (Mat.stepKs mat1.mrec 0).map fun j => (n, j, n, j)) with
        | .ok (bs, v2) => (as ++ bs).all (fun y => y.bad.isNone) && (v2.group? K).isSome
        | .error _ => false
      | .error _ => false) = true := by decide +kernel

theorem witness_TrailAndErrorSteps_counts :
    st.powered = true ∧ (17 : BitVec 5).toNat < 18 ∧ ¬(18 : BitVec 5).toNat < 18 ∧ ((sTrail [] 3).coreAt 0).dropped ≠ 0 ∧
    ((sTrail [] 3).coreAt 0).trail.length < trailCap := by
  and_intros <;> decide +kernel

/-- The peer or function with as many requests outstanding as it may have. -/
def sBusy : State := { sOut with asking := [(1, 256), (48, 256)] }

theorem witness_OutsideRequests_errors :
    ({ sOut with bstate := 4 } : State).bstate ≠ 5 ∧ ({ sOut with bstate := 4 } : State).powered = true ∧
    (({ sOut with astray := NSet.add [] 17 } : State).meets .ext 0x40000).1 = true := by
  and_intros <;> decide +kernel

theorem witness_OutsideRequests_limits :
    (sOut.asked 48).isSome = true ∧ (sOut.asked 1).isSome = true ∧ 256 ≤ Store.getD sBusy.asking 48 0 ∧
    256 ≤ Store.getD sBusy.asking 1 0 ∧ Store.getD sOut.asking 48 0 < 256 ∧ sOut.powered = true ∧
    ({ sOut with powered := false } : State).powered = false := by
  and_intros <;> decide +kernel

theorem witness_BoardSteps_power :
    ({ st with powered := false } : State).powered = false ∧ (17 : BitVec 5).toNat < 18 ∧
    (∀ b, ({ st with powered := false, mbox := b } : State).powered = false) ∧ st.parts.all (fun y => !y.2.encl) = true :=
  ⟨rfl, by decide, fun _ => rfl, by decide +kernel⟩

theorem witness_MailboxPartitions_tcs :
    (runs (box 8 0 0 2 [3, 11]) 8 0 2 = true ∧ 10 < (box 8 0 0 2 [3, 11]).arg 1 1 ∧ (box 8 0 0 2 [3, 11]).arg 1 1 ≤ 15) ∧
    (runs (box 8 0 0 2 [4, 0]) 8 0 2 = true ∧ 4 ≤ (box 8 0 0 2 [4, 0]).arg 0 1 ∧ 15 < (box 8 0 0 2 [3, 16]).arg 1 1) ∧
    (created (mCreate 0 0x10000000)).encl = false ∧ vget st.tcs 3 0 &&& 16 = 0 ∧ vget ({ st with tcs := st.tcs.setIfInBounds 3 (vget st.tcs 3 0 ||| 16) } : State).tcs 3 0 &&& 16 ≠ 0 ∧
    (st.mergeLine .ext (lineOf (mQueue.arg 0 8))).numAt (mQueue.arg 0 8 + 9) 7 = 0 ∧
    (st.mergeLine .ext (lineOf (mQueue.arg 0 8))).numAt (mQueue.arg 0 8 + 32) 32 = 0 := by
  and_intros <;> decide +kernel

theorem witness_WriteReadsBack_strays :
    st.strays (.group K) = false ∧ (({ st with astray := NSet.add [] 0 } : State).meets (.group K) 0x4001E).1 = true ∧
    ({ st with astray := NSet.add [] 0 } : State).lostAt 0x4001E = false ∧ st.lostAt (2 ^ 47) = true := by
  and_intros <;> decide +kernel

theorem witness_PacketSteps_waits :
    ({ sq_ [] with migrations := [mig 0] } : State).doneWaits { part := 0, asid := 0, sup := true, tlb := coreTlb 0 } 64 = true ∧
    (sq_ []).doneWaits { part := 0, asid := 0, sup := true, tlb := coreTlb 0 } 64 = false := by
  and_intros <;> decide +kernel

/-! ### Well-formed words -/

/-- Each check of step 4 of the decode order refuses a term that breaks it alone (03 R51, R53 to R55, R65). -/
theorem test_ill_formed :
    -- an undefined function
    wellFormed (.nop { fn := 1 }) = false ∧
    -- a type field that the instruction does not use
    wellFormed (.br { t := 1, imm := .i32 0 }) = false ∧
    -- a destination field that is not used
    wellFormed (.br { d := .v 1, imm := .i32 0 }) = false ∧
    -- N with a destination, and nil without N
    wellFormed (.sadd { d := .s 1, a := .s 1, b := .s 1, t := 6, n := true }) = false ∧
    wellFormed (.sadd { d := .zero, a := .s 1, b := .s 1, t := 6 }) = false ∧
    -- N of a load
    wellFormed (.sld { d := .zero, a := .s 1, n := true }) = false ∧
    -- source fields that are not used
    wellFormed (.trap { a := .s 1 }) = false ∧ wellFormed (.trap { b := .s 1 }) = false ∧ wellFormed (.trap { c := .s 1 }) = false ∧
    -- the lane index as a floating-point operand
    wellFormed (.vfadd { d := .v 1, a := .lane, b := .v 1 }) = false ∧
    -- a wide immediate of a 32-bit operand
    wellFormed (.vadd { d := .v 1, a := .imm, b := .v 1, imm := .i64 (2 ^ 32) }) = false ∧
    -- a predicate where none governs
    wellFormed (.sadd { d := .s 1, a := .s 1, b := .s 1, t := 6, p := 1 }) = false ∧
    wellFormed (.sadd { d := .s 1, a := .s 1, b := .s 1, t := 6, pn := true }) = false ∧
    -- a hardware step
    wellFormed .powerLoss = false := by decide +kernel

/-- The same terms put right pass. -/
theorem test_well_formed :
    wellFormed (.nop {}) = true ∧ wellFormed (.br { imm := .i32 0 }) = true ∧
    wellFormed (.sadd { d := .s 1, a := .s 1, b := .s 1, t := 6 }) = true ∧
    wellFormed (.sadd { d := .zero, a := .s 1, b := .s 1, t := 6, n := true }) = true ∧
    wellFormed (.sld { d := .s 1, a := .s 1 }) = true ∧ wellFormed (.trap {}) = true ∧
    wellFormed (.vfadd { d := .v 1, a := .v 1, b := .v 1 }) = true ∧ wellFormed (.vadd { d := .v 1, a := .lane, b := .v 1 }) = true ∧
    wellFormed (.vadd { d := .v 1, a := .imm, b := .v 1, imm := .i64 5 }) = true := by decide +kernel

/-! ### Words that the spec writes out -/

/-- A 96-bit word. -/
abbrev w96 (base i32 : Nat) : Option Instr := decodeTableWord 96 (base + i32 * 2 ^ 64)

/-- 06 R95, R101, R103, 22 R357: NOP, SADD, BRC, BRM. -/
theorem test_words_base :
    decodeTableWord 64 0x0000000000000005 = some (.nop {}) ∧ w96 6 0 = some (.nop { imm := .i32 0 }) ∧
    decodeTableWord 128 7 = some (.nop { imm := .i64 0 }) ∧
    w96 0x00C0003C29294042 0x40 = some (.sadd { d := .s 5, a := .s 4, b := .imm, t := 6, imm := .i32 0x40 }) ∧
    w96 0x00C0002928C0080E 0xFFFFFFC0 = some (.brc { fn := 2, a := .s 3, b := .s 4, t := 6, imm := .i32 0xFFFFFFC0 }) ∧
    w96 0x0000000000C00022 0x40 = some (.brm { a := .v 3, imm := .i32 0x40 }) := by decide +kernel

/-- 03 R61, 17 R290, R298, 23 R376: vector and scalar floating point. -/
theorem test_words_float :
    decodeTableWord 64 0x0100C120804101CD = some (.vfma { d := .v 4, a := .v 1, b := .w 2, c := .v 4, p := 3, m := 1 }) ∧
    decodeTableWord 64 0x00180000807C41C9 = some (.vfmul { d := .zero, a := .v 1, b := .v 2, n := true, q := true }) ∧
    decodeTableWord 64 0x00000001F80141C1 = some (.vfadd { d := .v 5, a := .b 0, b := .v 7 }) ∧
    decodeTableWord 64 0x02202A29E9A94649 =
      some (.sffma { fn := 1, d := .s 5, a := .s 6, b := .s 7, c := .s 8, t := 1, m := 2 }) ∧
    decodeTableWord 64 0x0000402801010DD9 = some (.vfmnx { fn := 3, d := .v 4, a := .v 4, b := .s 0, p := 1 }) := by decide +kernel

/-- 17 R299: conversions and block scales. -/
theorem test_words_convert :
    w96 0x000000000080C266 0 = some (.vbsc { d := .v 3, a := .v 2, imm := .i32 0 }) ∧
    w96 0x01000000C0828E5E 0x100 = some (.vcvtFpslot { fn := 3, d := .v 10, a := .v 2, b := .v 3, m := 1, imm := .i32 0x100 }) ∧
    w96 0x01000000C282D25E 0x100 = some (.vcvtSlotfp { fn := 4, d := .v 11, a := .v 10, b := .v 3, m := 1, imm := .i32 0x100 }) := by
  decide +kernel

/-- 16 R268, 19 R328: Agate. -/
theorem test_words_agate :
    decodeTableWord 64 0x1820800181000289 = some (.gdot { a := .v 4, b := .v 6, p := 2, t := 1, x := 3 }) ∧
    decodeTableWord 64 0x0020400000800285 = some (.gadd { a := .v 2, p := 1, t := 1 }) ∧
    w96 0x0000000029C00292 0x400 = some (.gst { a := .s 7, imm := .i32 0x400 }) ∧
    w96 0x2000000029C0029A 0x400 = some (.gmrg { a := .s 7, x := 4, imm := .i32 0x400 }) ∧
    decodeTableWord 64 0x012080000001028D = some (.grnd { d := .v 4, p := 2, t := 1, m := 1 }) := by decide +kernel

/-- 18 R313 to R325: the matrix engine. -/
theorem test_words_matrix :
    decodeTableWord 64 0x28000000000002C1 = some (.mzero { x := 5 }) ∧
    decodeTableWord 64 0x100000002A8002C5 = some (.mma { a := .s 10, x := 2 }) ∧
    w96 0x08000000290002CA 3 = some (.mldt { a := .s 4, x := 1, imm := .i32 3 }) ∧
    w96 0x08400000294002D2 0x08000000 = some (.mdrnOwn { a := .s 5, t := 2, x := 1, imm := .i32 0x08000000 }) ∧
    decodeTableWord 64 0x0000000029C002D5 = some (.mrp { a := .s 7 }) ∧
    decodeTableWord 64 0x0000000028C002D9 = some (.mpri { a := .s 3 }) ∧
    decodeTableWord 64 0x08000000298002DD = some (.layx { a := .s 6, x := 1 }) ∧
    decodeTableWord 64 0x88000000298002DD = some (.layx { a := .s 6, x := 17 }) := by decide +kernel

/-- 10 R186, R190, R208, 13 R242, 19 R328, 23 R376, 04 R73: loads, stores, atomics, fences, timelines, copies. -/
theorem test_words_memory :
    w96 0x0020000029294302 0x40 = some (.sld { d := .s 5, a := .s 4, t := 1, imm := .i32 0x40 }) ∧
    w96 0x0020002AE9800306 0x30004 = some (.sst { a := .s 6, b := .s 11, t := 1, imm := .i32 0x30004 }) ∧
    decodeTableWord 64 0x00C0002829000305 = some (.sst { a := .s 4, b := .s 0, t := 6 }) ∧
    decodeTableWord 64 0x040040012800030D = some (.vst { a := .s 0, b := .v 4, p := 1, m := 4 }) ∧
    decodeTableWord 64 0x10E00028AA69C315 = some (.satom { d := .s 7, a := .s 9, b := .s 2, t := 7, x := 2 }) ∧
    w96 0x0120000028298326 0x18 = some (.ldfKeep { d := .s 6, a := .s 0, t := 1, m := 1, imm := .i32 0x18 }) ∧
    decodeTableWord 64 0x1000000000000B31 = some (.fenceFull { fn := 2, x := 2 }) ∧
    decodeTableWord 64 0x1800000000000731 = some (.fenceRel { fn := 1, x := 3 }) ∧
    decodeTableWord 64 0x1000000000001731 = none ∧
    w96 0x080000003C004336 1 = some (.tlwaitWait { d := .v 1, a := .imm, x := 1, imm := .i32 1 }) ∧
    decodeTableWord 64 0x10000000002B0339 = some (.tlrdDone { d := .s 12, x := 2 }) ∧
    decodeTableWord 64 0x080029E9A9400381 = some (.cpyCopy { a := .s 5, b := .s 6, c := .s 7, x := 1 }) ∧
    decodeTableWord 128 (0x1100002AEA800387 + 0x102 * 2 ^ 64) =
      some (.cpyt { a := .s 10, b := .s 11, m := 1, x := 2, imm := .i64 0x102 }) := by decide +kernel

/-- 11 R213, R222, 12 R234, 13 R242, 14 R243, 23 R376: row operations, reduces, collectives. -/
theorem test_words_units :
    w96 0x080000296900038A 0x40 = some (.rowCopy { a := .s 4, b := .s 5, x := 1, imm := .i32 0x40 }) ∧
    w96 0x080000002900078A 0x40 = some (.rowFill0 { fn := 1, a := .s 4, x := 1, imm := .i32 0x40 }) ∧
    w96 0x10003C2AAAC0038E 3 = some (.ired { a := .s 11, b := .s 10, c := .imm, x := 2, imm := .i32 3 }) ∧
    decodeTableWord 64 0x9800002969000391 = some (.collAllred { a := .s 4, b := .s 5, x := 19 }) ∧
    decodeTableWord 64 0x1000002BAB401791 = some (.collSpread { fn := 5, a := .s 13, b := .s 14, x := 2 }) := by decide +kernel

/-- 22 R368 to R374, 23 R376, 27 R424: barriers, signals, launches, members. -/
theorem test_words_groups :
    decodeTableWord 64 0x18000000002947A1 = some (.barArriveWait { fn := 1, d := .s 5, x := 3 }) ∧
    decodeTableWord 64 0x1800000029800BA1 = some (.barWait { fn := 2, a := .s 6, x := 3 }) ∧
    w96 0x2000002AEA8003AA 2 = some (.sig { a := .s 10, b := .s 11, x := 4, imm := .i32 2 }) ∧
    decodeTableWord 64 0x00000029E9A943AD = some (.lnch { d := .s 5, a := .s 6, b := .s 7 }) ∧
    decodeTableWord 64 0x00000000802A83B1 = some (.join { d := .s 10, b := .v 2 }) ∧
    w96 0x00002A6A008003B6 4 = some (.mrgRegroup { a := .v 2, b := .s 8, c := .s 9, imm := .i32 4 }) := by decide +kernel

/-- 26 R409 to R423, 27 R424: system instructions. -/
theorem test_words_system :
    w96 0x00000000000003C2 0x2A = some (.trap { imm := .i32 0x2A }) ∧
    decodeTableWord 64 0x00000029E9A943C5 = some (.gctlResume { d := .s 5, a := .s 6, b := .s 7 }) ∧
    decodeTableWord 64 0x000000002C2C47C5 = some (.gctlKill { fn := 1, d := .s 17, a := .s 16 }) ∧
    w96 0x18000000290003D2 0x20 = some (.segld { a := .s 4, x := 3, imm := .i32 0x20 }) ∧
    decodeTableWord 64 0x000029A9690003D5 = some (.tlbiRange { a := .s 4, b := .s 5, c := .s 6 }) ∧
    decodeTableWord 64 0x00000000002943E5 = some (.ctxs { d := .s 5 }) ∧
    decodeTableWord 64 0x0000000001C0C3E9 = some (.trmPredicate { d := .v 3, a := .v 7 }) ∧
    decodeTableWord 64 0x0000000029A943ED = some (.pwait { d := .s 5, a := .s 6 }) ∧
    decodeTableWord 64 0x0000000000000205 = none := by decide +kernel

/-! ### Single steps and single rules, worked by hand from the spec -/

/-- An outcome is a next state in which the group's scalar register has a value. -/
def sIs (x : Out) (r : Nat) (v : Word64) : Bool :=
  match x with | .next t => (t.group? K).any fun g => (g.regs.sget r).val == v | _ => false
/-- An outcome is a next state of whose group something holds. -/
def gIs (x : Out) (p : Group → Bool) : Bool := match x with | .next t => (t.group? K).any p | _ => false

/-- 06 R101, 03 R53: the immediate is sign-extended, the sum wraps. -/
theorem test_sadd_wraps :
    sIs (exec (.sadd { d := .s 3, a := .s 5, b := .imm, t := 6, imm := .i32 0xFFFFFF00 }) st) 3 0 = true := by decide +kernel

/-- 06 R101: both sources are read before the destination is written. -/
theorem test_ssub_self : sIs (exec (.ssub { d := .s 5, a := .s 5, b := .s 5, t := 6 }) st) 5 0 = true := by decide +kernel

/-- The group with v1 = 0x7FF0_0005 and v2 = 0x0020_FFFE in element 0. -/
def gSat : Group := { grp with regs := { grp.regs with v := (grp.regs.v.set 1 { val := 0x7FF00005 }).set 2 { val := 0x0020FFFE } } }

/-- 06 R112, the worked VADD.I16.SAT: 5 − 2 = 3, and 32,752 + 32 saturates to 32,767. -/
theorem test_vadd_saturates :
    gIs (exec (.vadd { d := .v 3, a := .v 1, b := .v 2, t := 2, m := 1 }) (at_ gSat)) (fun g => ((g.regs.vreg 3).at 0).v == 0x7FFF0003) =
      true := by decide +kernel

/-- 06 R98: BRC.LT goes back 64 bytes where 2 < 8, and falls through where not. -/
theorem test_brc :
    gIs (exec (.brc { fn := 2, a := .s 7, b := .s 6, t := 6, imm := .i32 0xFFFFFFC0 }) st) (fun g => g.regs.pc == 0xFFC0) = true ∧
    gIs (exec (.brc { fn := 2, a := .s 6, b := .s 7, t := 6, imm := .i32 0xFFFFFFC0 }) st) (fun g => g.regs.pc == 0x1000C) = true := by
  decide +kernel

/-- 26 R409, 28 R428: TRAP 0x2A suspends the group at the TRAP, with the code and its length of 12
bytes in xinfo. -/
theorem test_trap :
    gIs (exec (.trap { imm := .i32 0x2A }) st) (fun g => g.xinfo == 0xC0000002A && g.xpc == 0x10000 && g.regs.pc == 0x10000 && g.run != .ready) =
      true := by decide +kernel

/-- The group with F64 values 1.5, 2.0 and 1.0 in s6, s7 and s8. -/
def gFp : Group :=
  let v := ((grp.regs.s.set 6 { val := 0x3FF8000000000000 }).set 7 { val := 0x4000000000000000 }).set 8 { val := 0x3FF0000000000000 }
  { grp with regs := { grp.regs with s := v } }

/-- 17 R293: SFFMA.FMS.F64.RTZ gives 1.5 × 2 − 1 = 2. -/
theorem test_sffma :
    sIs (exec (.sffma { fn := 1, d := .s 5, a := .s 6, b := .s 7, c := .s 8, t := 1, m := 2 }) (at_ gFp)) 5 0x4000000000000000 = true := by
  decide +kernel

/-- 10 R186: a store to 0x100 and a load of it; the load is zero-extended. -/
theorem test_store_load :
    (match exec (.sst { a := .s 5, b := .one, t := 6 }) st with
      | .next t => t.byteAt 0x100 == 1 && t.byteAt 0x101 == 0 && sIs (exec (.sld { d := .s 9, a := .s 5 }) t) 9 1
      | _ => false) = true := by decide +kernel

/-- 02 R33: the pool charge of R34's example. -/
theorem test_charge : pwCharge 0x2A49 16 = 503808 ∧ pwGroups 0x2A49 = 2 := by decide +kernel

/-- 07 R125: the homes of R124's example addresses. -/
theorem test_homes : homeOf 0x15400 = 0 ∧ homeOf 0x2400 = 3 ∧ homeOf 0x100000007000 = 3 := by decide +kernel

/-- 02 R37, 07 R128's example: member 42 of a segM of stride 0x4000. -/
theorem test_member_space :
    (placeOf { l := {}, w := {}, k := {}, m := { base := 0x20000000, limit := 0x1000, stride := 0x4000 } } placedInst 0 spM 4 0x80 42
      matches .ok (0x200A8080, .va 0x200A8080)) = true := by decide +kernel

/-- 26 R408, 01 R12: the core number that core (21, 11) reads in cid. -/
theorem test_cid : ({ grp.id with key := ⟨21, 11, 0⟩ } : Ident).cid = 0x00063B15 := by decide +kernel

end Sys2Proof.Tests
end

/-!
PROOFS. The board (00 R6, 01 R13 to R17, 29 R441 to R444): accesses before READY, register writes, bring-up, the loss of power
and the clocks.
-/
namespace Sys2Proof.Machine
open Sys2Proof

/-! ### Accesses before READY (29 R444) -/

theorem exec_notReadyAccess (bar2 : Bool) (offset : Nat) (ask : Ask) (s : State) :
    exec (.notReadyAccess bar2 offset ask) s = execNotReadyAccess bar2 offset ask s := rfl

/-- Without power nothing answers (01 R13). -/
theorem exec_notReadyAccess_unpowered (bar2 : Bool) (offset : Nat) (ask : Ask) {s : State} (hp : s.powered = false) :
    exec (.notReadyAccess bar2 offset ask) s = .next s := by
  simp only [exec_notReadyAccess, execNotReadyAccess, hp, Bool.not_false, if_true]

theorem exec_notReadyAccess_write (bar2 : Bool) (offset : Nat) (d : List Byte) {s : State} (hp : s.powered = true)
    (hr : s.bstate ≠ 5) : exec (.notReadyAccess bar2 offset (.write d)) s = .next (s.answer .abort) := by
  have hr' : (s.bstate != 5) = true := bne_iff_ne.mpr hr
  simp only [exec_notReadyAccess, execNotReadyAccess, hp, hr', Bool.not_true, Bool.false_eq_true, if_false, if_true]

theorem exec_notReadyAccess_read_late {bar2 : Bool} {offset n : Nat} {s : State} (hp : s.powered = true) (hr : s.bstate ≠ 5)
    (hl : ¬(bar2 = false ∧ ∀ i < n, answersEarly (offset + i) = true)) :
    exec (.notReadyAccess bar2 offset (.read n)) s = .next (s.answer .abort (List.replicate n 0xFF)) := by
  have hr' : (s.bstate != 5) = true := bne_iff_ne.mpr hr
  have hb : (!bar2 && (List.range n).all fun i => answersEarly (offset + i)) = false :=
    Bool.eq_false_iff.mpr fun h => hl (by simpa only [Bool.and_eq_true, Bool.not_eq_true', List.all_eq_true, List.mem_range] using h)
  simp only [exec_notReadyAccess, execNotReadyAccess, askSize, hp, hr', hb, Bool.not_true, Bool.not_false, Bool.and_true,
    Bool.false_eq_true, if_false, if_true]

theorem exec_notReadyAccess_read_early {offset n : Nat} {s : State} (hp : s.powered = true)
    (he : ∀ i < n, answersEarly (offset + i) = true) :
    exec (.notReadyAccess false offset (.read n)) s =
      .next (s.sample.answer .ok ((List.range n).map fun i => s.sample.bar0 (offset + i))) := by
  have hb : ((List.range n).all fun i => answersEarly (offset + i)) = true := by simpa only [List.all_eq_true, List.mem_range] using he
  simp only [exec_notReadyAccess, execNotReadyAccess, askSize, hp, hb, Bool.not_true, Bool.not_false, Bool.and_self, Bool.and_false,
    Bool.false_eq_true, if_false]

/-! ### Register writes (00 R6, 29 R444, R445) -/

theorem exec_registerWrite (offset : Nat) (d : List Byte) (s : State) :
    exec (.registerWrite offset d) s =
      .next (if !s.powered then s else if s.bstate = 5 then s.writeRegs offset d else s.answer .abort) := rfl

/-- A byte written to BAR0 changes the mailbox at most. -/
theorem State.writeReg_mbox_only (s : State) (o : Nat) (b : Byte) : ∃ m, s.writeReg o b = { s with mbox := m } := by
  dsimp only [State.writeReg]
  repeat' split
  all_goals exact ⟨_, rfl⟩

/-- A byte written outside the mailbox's window changes nothing. -/
theorem State.writeReg_outside (s : State) {o : Nat} (b : Byte) (h : o < 0x200000 ∨ 0x202000 ≤ o) : s.writeReg o b = s := by
  obtain hlow | hhigh := h
  · simp only [State.writeReg, hlow, if_true]
  · simp only [State.writeReg, show ¬o < 0x200000 by omega, show ¬o < 0x200008 by omega, show o ≠ 0x200010 by omega,
      show ¬o < 0x202000 by omega, decide_false, Bool.and_false, Bool.false_eq_true, if_false]

theorem State.writeRegs_mbox_only (s : State) (o : Nat) (d : List Byte) : ∃ m, s.writeRegs o d = { s with mbox := m } := by
  induction d generalizing s o with
  | nil => exact ⟨s.mbox, rfl⟩
  | cons b r ih =>
    obtain ⟨m, hfirst⟩ := s.writeReg_mbox_only o b
    obtain ⟨m', hrest⟩ := ih { s with mbox := m } (o + 1)
    exact ⟨m', by rw [State.writeRegs, hfirst, hrest]⟩

theorem State.writeRegs_outside (s : State) {o : Nat} (d : List Byte) (h : o + d.length ≤ 0x200000 ∨ 0x202000 ≤ o) :
    s.writeRegs o d = s := by
  induction d generalizing o with
  | nil => rfl
  | cons b r ih =>
    rw [List.length_cons] at h
    rw [State.writeRegs, s.writeReg_outside b (by omega), ih (by omega)]

/-! ### Bring-up (29 R442, R443): one STATE at a step -/

theorem exec_powerOn (b : BringUp) (s : State) :
    exec (.powerOn b) s = .next (({ s with powered := true } : State).bringUp b) := rfl

theorem exec_powerOn_of_bringUp {b : BringUp} {s t : State} (h : ({ s with powered := true } : State).bringUp b = t) :
    exec (.powerOn b) s = .next t := by
  rw [exec_powerOn, h]

section
variable {s : State} {b : BringUp}

theorem State.bringUp_powered (h : s.bstate.toNat = 0) : s.bringUp b = { s with bstate := 1 } := by
  simp only [State.bringUp, h]

theorem State.bringUp_verify_fail (h : s.bstate.toNat = 1) (hs : b.signature = false) :
    s.bringUp b = { s with bstate := 15, berr := 1 } := by
  simp only [State.bringUp, h, hs, Bool.false_eq_true, if_false]

theorem State.bringUp_verify (h : s.bstate.toNat = 1) (hs : b.signature = true) :
    s.bringUp b = { s with bstate := 2, fwdig := b.fwdig, devnum := b.devnum } := by
  simp only [State.bringUp, h, hs, if_true]

theorem State.bringUp_hbm_fail (h : s.bstate.toNat = 2) (hh : b.hbm = false) :
    s.bringUp b = { s with bstate := 15, berr := 2 } := by
  simp only [State.bringUp, h, hh, Bool.false_eq_true, if_false]

theorem State.bringUp_hbm (h : s.bstate.toNat = 2) (hh : b.hbm = true) : s.bringUp b = { s with bstate := 3 } := by
  simp only [State.bringUp, h, hh, if_true]

theorem State.bringUp_ports_fail (h : s.bstate.toNat = 3) (hp : b.ports = false) :
    s.bringUp b = { s with bstate := 15, berr := 3 } := by
  simp only [State.bringUp, h, hp, Bool.false_eq_true, if_false]

/-- The ports train: the expanders are those that bring-up finds, and nothing else changes. -/
theorem State.bringUp_ports (h : s.bstate.toNat = 3) (hp : b.ports = true) :
    (s.bringUp b).bstate = 4 ∧ { s.bringUp b with bstate := s.bstate, expanders := s.expanders } = s ∧
      ∀ k, (hk : k < 4) → (s.bringUp b).expanders[k] = { frames := b.frames[k] } := by
  simp only [State.bringUp, h, hp, if_true]
  exact ⟨trivial, trivial, fun k hk => by
    simp only [vget, Fin.is_lt, getElem?_pos, Option.getD_some, Vector.getElem_ofFn]⟩

/-- The links come up or not, and the machine is READY. -/
theorem State.bringUp_links (h : s.bstate.toNat = 4) :
    (s.bringUp b).bstate = 5 ∧
      { s.bringUp b with bstate := s.bstate, lup := s.lup, links := s.links, domain := s.domain } = s ∧
      ∀ k, (hk : k < 36) → (s.bringUp b).links[k] = { up := b.links.getLsbD k } := by
  simp only [State.bringUp, h]
  exact ⟨trivial, trivial, fun k hk => by rw [Vector.getElem_ofFn]⟩

/-- Beyond LINKS no step of bring-up is left. -/
theorem State.bringUp_done (h : 5 ≤ s.bstate.toNat) : s.bringUp b = s := by
  unfold State.bringUp
  split
  case h_6 => rfl
  all_goals omega

end

/-! ### Loss of power (01 R13, R17) and clocks (01 R14) -/

theorem exec_powerLoss (s : State) : exec .powerLoss s = .next s.dark := rfl

theorem exec_thermalShutdown (sock : BitVec 5) (s : State) :
    exec (.thermalShutdown sock) s = .next (if sock.toNat < 18 then s.dark else s) := rfl

theorem exec_clockThrottle (level : BitVec 5) (s : State) :
    exec (.clockThrottle level) s =
      .next (if s.powered && s.bstate = 5 && 1 ≤ level.toNat && level.toNat ≤ 16 then { s with throttle := level.toNat } else s) :=
  rfl

/-- Every byte that survives a loss of power stands where a byte of firmware stood as written. -/
theorem State.firm_of_mem_dark {s : State} {x : Nat × Byte} (hx : x ∈ s.dark.mem) :
    ∃ b, (x.1, b) ∈ s.firm ∧ s.byteAt x.1 = b := by
  simp only [State.dark, List.mem_filterMap, List.mem_filter, decide_eq_true_eq] at hx
  obtain ⟨⟨pa, b⟩, ⟨hfirm, hstands⟩, hx⟩ := hx
  have haddr : pa = x.1 := by
    split at hx
    · exact congrArg Prod.fst (Option.some.inj hx)
    · split at hx
      · contradiction
      · exact congrArg Prod.fst (Option.some.inj hx)
  subst haddr
  exact ⟨b, hfirm, hstands⟩

/-- Without an enclave, what survives is what firmware wrote and still stands, byte for byte. -/
theorem State.mem_dark_iff {s : State} (hs : ∀ y ∈ s.parts, y.2.encl = false) (x : Nat × Byte) :
    x ∈ s.dark.mem ↔ x ∈ s.firm ∧ s.byteAt x.1 = x.2 := by
  have hopen (pa : Nat) : s.parts.any (fun p => p.2.encl && p.2.owns pa 1) = false :=
    List.any_eq_false.mpr fun y hy => by simp only [hs y hy, Bool.false_and, Bool.false_eq_true, not_false_eq_true]
  simp only [State.dark, hopen, Bool.not_false, if_true, List.filterMap_some, List.mem_filter, decide_eq_true_eq]

/-- Power is lost: what is left of the machine, and of its memory. -/
theorem State.dark_leaves (s : State) :
    s.dark.powered = false ∧ s.dark.slots = s.slots ∧ s.dark.groups = [] ∧ s.dark.parts = [] ∧
      s.dark.bstate = State.reset.bstate := ⟨rfl, rfl, rfl, rfl, rfl⟩

/-! ### The obligation -/

/-- Settles O45: accesses and writes by power and STATE, bring-up by its STATE, then power and clocks. -/
theorem boardSteps : Obligations.BoardSteps := by
  unfold Obligations.BoardSteps
  constructor
  · intro s bar2 offset n d
    refine ⟨exec_notReadyAccess_read_late, ?early, exec_notReadyAccess_write bar2 offset d, ?dropped, ?unpowered, ?ready⟩
    case early =>
      rintro hp - ⟨rfl, he⟩
      exact exec_notReadyAccess_read_early hp he
    case dropped =>
      intro hp hr
      simp only [exec_registerWrite, hp, hr, Bool.not_true, Bool.false_eq_true, if_false]
    case unpowered =>
      intro ask hp
      refine ⟨exec_notReadyAccess_unpowered bar2 offset ask hp, ?_⟩
      simp only [exec_registerWrite, hp, Bool.not_false, if_true]
    case ready =>
      intro hp hr
      obtain ⟨m, hm⟩ := s.writeRegs_mbox_only offset d
      refine ⟨s.writeRegs offset d, ?_, by rw [hm], s.writeRegs_outside d⟩
      simp only [exec_registerWrite, hp, hr, Bool.not_true, Bool.false_eq_true, if_false, if_true]
  · intro s b level sock
    refine ⟨fun h => exec_powerOn_of_bringUp (State.bringUp_powered h),
      fun h hs => exec_powerOn_of_bringUp (State.bringUp_verify_fail h hs),
      fun h hs => exec_powerOn_of_bringUp (State.bringUp_verify h hs),
      fun h hh => exec_powerOn_of_bringUp (State.bringUp_hbm_fail h hh),
      fun h hh => exec_powerOn_of_bringUp (State.bringUp_hbm h hh),
      fun h hp => exec_powerOn_of_bringUp (State.bringUp_ports_fail h hp),
      fun h hp => ⟨_, exec_powerOn b s, State.bringUp_ports h hp⟩,
      fun h => ⟨_, exec_powerOn b s, State.bringUp_links h⟩,
      fun h => exec_powerOn_of_bringUp (State.bringUp_done h),
      ?loss, ?hot, ?cool, ?unpowered, ?notReady, ?throttled⟩
    case loss =>
      obtain ⟨hpower, hslots, hgroups, hparts, hstate⟩ := s.dark_leaves
      exact ⟨s.dark, exec_powerLoss s, hpower, hslots, hgroups, hparts, hstate, fun _ hx => State.firm_of_mem_dark hx,
        State.mem_dark_iff⟩
    case hot =>
      intro hsock
      rw [exec_thermalShutdown, if_pos hsock, exec_powerLoss]
    case cool =>
      intro hsock
      rw [exec_thermalShutdown, if_neg (Nat.not_lt.mpr hsock)]
    case unpowered =>
      intro hp
      simp only [exec_clockThrottle, hp, Bool.false_and, Bool.false_eq_true, if_false]
    case notReady =>
      intro _ hr
      simp only [exec_clockThrottle, hr, decide_false, Bool.and_false, Bool.false_and, Bool.false_eq_true, if_false]
    case throttled =>
      intro hp hr hlo hhi
      simp only [exec_clockThrottle, hp, hr, hlo, hhi, decide_true, Bool.and_self, if_true]

end Sys2Proof.Machine

/-!
PROOFS. Requests of peers and of the host (25 R397 to R399, R451, 29 R439 to R444): one equation per case of `State.peerAsk` and
`State.hostAsk`, and what a FROZEN record leaves of the marks of masters from outside.
-/
namespace Sys2Proof.Machine
open Sys2Proof

/-! ### The marks of frozen masters from outside -/

/-- The marks of the host functions and of the peers that are frozen (25 R398). -/
def State.frozenMarks (s : State) : NSet × NSet := (s.vfFrozen, s.peerFrozen)

theorem NSet.has_add_self (m : NSet) (i : Nat) : NSet.has (NSet.add m i) i = true := by
  rw [NSet.has, NSet.add, Store.get?_put_self, Option.isSome_some]

theorem State.sendNear_frozenMarks (s : State) (r : Option DramReq) : (s.sendNear r).frozenMarks = s.frozenMarks := by
  unfold State.sendNear
  repeat' split
  all_goals rfl

theorem State.send_frozenMarks (s : State) (r : Option DramReq) (ln : Nat) : (s.send r ln).frozenMarks = s.frozenMarks := by
  unfold State.send
  split
  · rfl
  · split
    · rfl
    · exact s.sendNear_frozenMarks _

theorem State.mergeLine_ext_frozenMarks (s : State) (ln : Nat) : (s.mergeLine .ext ln).frozenMarks = s.frozenMarks := by
  obtain ⟨m, l, b, d, c, n, a, h⟩ := s.mergeLine_ext ln
  rw [h]; rfl

theorem State.reqWrite_ext_frozenMarks (s : State) (ln : Nat) (m : BitVec 128) (alloc : Bool) :
    (s.reqWrite .ext ln m alloc).frozenMarks = s.frozenMarks := by
  unfold State.reqWrite
  dsimp only
  split
  · contradiction
  · rfl

theorem State.stamp_ext_frozenMarks (s : State) (ln lt0 : Nat) : (s.stamp .ext ln lt0).frozenMarks = s.frozenMarks := by
  obtain ⟨l, b, d, h⟩ := s.stamp_ext ln lt0
  rw [h]; rfl

theorem State.meets_frozenMarks (s : State) (a : Agent) (pa : Nat) : (s.meets a pa).2.frozenMarks = s.frozenMarks := by
  unfold State.meets State.strayed
  repeat' split
  all_goals rfl

theorem State.putBytes_frozenMarks (s : State) (l : List (Nat × Byte)) : (s.putBytes l).frozenMarks = s.frozenMarks := rfl

/-- The detector sees the writes of groups and of their commands alone (09 R179). -/
theorem State.detect_ext (s : State) (ln : Nat) (m : BitVec 128) : s.detect .ext ln m = s := rfl

theorem State.performOp_ext_frozenMarks (s : State) (l : List (Nat × Byte)) (tracked alloc : Bool) (req : Option DramReq)
    (lt0 : Nat) : (s.performOp .ext l tracked alloc req lt0).frozenMarks = s.frozenMarks := by
  cases l with
  | nil => rfl
  | cons x l =>
    unfold State.performOp
    dsimp only
    rw [detect_ext, ite_self, putBytes_frozenMarks, stamp_ext_frozenMarks, reqWrite_ext_frozenMarks, mergeLine_ext_frozenMarks,
      send_frozenMarks]

theorem State.writeOp_ext_frozenMarks (s : State) (l : List (Nat × Byte)) (tracked alloc : Bool) (req : Option DramReq)
    (lt0 : Nat) : (s.writeOp .ext l tracked alloc req lt0).frozenMarks = s.frozenMarks := by
  cases l with
  | nil => rfl
  | cons x l =>
    have hmeets := s.meets_frozenMarks .ext x.1
    unfold State.writeOp
    dsimp only
    split
    · rfl
    · split <;> rename_i hm <;> rw [hm] at hmeets
      · exact hmeets
      · rw [performOp_ext_frozenMarks, hmeets]

theorem State.writeSectors_ext_frozenMarks (s : State) (l : List (Nat × Byte)) (tracked alloc : Bool) (req : Option DramReq)
    (lt0 : Nat) : (s.writeSectors .ext l tracked alloc req lt0).frozenMarks = s.frozenMarks := by
  unfold State.writeSectors
  induction bySector l generalizing s with
  | nil => rfl
  | cons x r ih => rw [List.foldl_cons, ih, writeOp_ext_frozenMarks]

theorem State.onGroup_frozenMarks (s : State) (k : GKey) (f : Group → Group) : (s.onGroup k f).frozenMarks = s.frozenMarks := by
  unfold State.onGroup
  split <;> rfl

theorem State.noteRec_frozenMarks (s : State) (h : HeldRec) (i : Nat) : (s.noteRec h i).frozenMarks = s.frozenMarks := by
  have hgroup (k : GKey) (f : Group → Group) := s.onGroup_frozenMarks k f
  unfold State.noteRec
  cases h.g <;> cases h.c
  · rfl
  · rfl
  · exact hgroup ..
  · exact hgroup ..

theorem State.hostEvent_frozenMarks (s : State) (part : Nat) : (s.hostEvent part).frozenMarks = s.frozenMarks := by
  unfold State.hostEvent
  split <;> rfl

theorem State.setPart_frozenMarks (s : State) (n : Nat) (p : Part) : (s.setPart n p).frozenMarks = s.frozenMarks := rfl

theorem State.flushRec_frozenMarks (s : State) (part : Nat) : (s.flushRec part).frozenMarks = s.frozenMarks := by
  unfold State.flushRec
  repeat' split
  iterate 3 rfl
  · rw [hostEvent_frozenMarks, noteRec_frozenMarks, setPart_frozenMarks, writeSectors_ext_frozenMarks]

/-- A record that goes to a trap queue leaves the marks of frozen masters (26 R414). -/
theorem State.pushRec_frozenMarks (s : State) (part : Nat) (h : HeldRec) : (s.pushRec part h).frozenMarks = s.frozenMarks := by
  unfold State.pushRec
  split
  · rfl
  · dsimp only
    split
    · rfl
    · rw [flushRec_frozenMarks, setPart_frozenMarks]

theorem State.freezePeer_marks (s : State) (dev part code addr : Nat) :
    NSet.has (s.freezePeer dev part code addr).peerFrozen (peerId dev part) = true := by
  have hmarks : (s.freezePeer dev part code addr).frozenMarks = (s.vfFrozen, NSet.add s.peerFrozen (peerId dev part)) :=
    pushRec_frozenMarks ..
  rw [show (s.freezePeer dev part code addr).peerFrozen = _ from congrArg Prod.snd hmarks, NSet.has_add_self]

theorem State.freezeHost_marks (s : State) (fn part code addr : Nat) :
    NSet.has (s.freezeHost fn part code addr).vfFrozen fn = true := by
  have hmarks : (s.freezeHost fn part code addr).frozenMarks = (NSet.add s.vfFrozen fn, s.peerFrozen) := pushRec_frozenMarks ..
  rw [show (s.freezeHost fn part code addr).vfFrozen = _ from congrArg Prod.fst hmarks, NSet.has_add_self]

/-! ### Outstanding requests (25 R397) and the way to the home (01 R11) -/

theorem State.asked_full {s : State} {m : Nat} (h : 256 ≤ Store.getD s.asking m 0) : s.asked m = none := if_pos h

theorem State.asked_room {s : State} {m : Nat} (h : Store.getD s.asking m 0 < 256) :
    s.asked m = some { s with asking := Store.put s.asking m (Store.getD s.asking m 0 + 1) } := if_neg (Nat.not_le.mpr h)

theorem State.perform_astray {s v : State} {pa : Nat} (ask : Ask) (h : s.meets .ext pa = (true, v)) :
    s.perform pa ask = v.answer .error := by
  rw [State.perform, h]

/-! ### Peers (25 R397, R398, R451) -/

/-- A peer of the domain asks under a partition that this device holds. -/
def State.KnowsPeer (s : State) (dev : BitVec 9) (part : BitVec 4) (p : Part) : Prop :=
  (s.powered = true ∧ dev ≠ s.devnum ∧ NSet.has s.domain dev.toNat = true) ∧ s.part? part.toNat = some p

/-- The machine is READY, and the peer is neither frozen nor refused under the partition. -/
def State.OpenToPeer (s : State) (dev : BitVec 9) (part : BitVec 4) : Prop :=
  s.bstate = 5 ∧ NSet.has s.peerFrozen (peerId dev.toNat part.toNat) = false ∧
    NSet.has s.peerRefused (peerId dev.toNat part.toNat) = false

/-- What is left to check of a request whose peer may ask: its room among the outstanding ones, then its reach (25 R397, R398). -/
def State.peerAdmit (s : State) (dev : BitVec 9) (part : BitVec 4) (pa : Nat) (p : Part) (ask : Ask) : State :=
  match s.asked (32 + peerId dev.toNat part.toNat) with
  | none => (s.freezePeer dev.toNat part.toNat 5 pa).answer .error
  | some s1 =>
    match ask with
    | .signal cid .. => if cidPart cid = part.toNat then s1.perform pa ask else s1.answer .error
    | _ =>
      match s.outViolation p pa (askSize ask) (askWrites ask) 0 with
      | some c => (s.freezePeer dev.toNat part.toNat c pa).answer .error
      | none => s1.perform pa ask

theorem exec_peerRequest (dev : BitVec 9) (part : BitVec 4) (pa : Nat) (ask : Ask) (s : State) :
    exec (.peerRequest dev part pa ask) s = .next (s.peerAsk dev part pa ask) := rfl

theorem exec_homeAtomic_peer {dev : BitVec 9} (part : BitVec 4) (pa : Nat) (a : AtomAsk) {s : State} (hd : dev ≠ s.devnum) :
    exec (.homeAtomic dev part pa a) s = .next (s.peerAsk dev part pa (.atom a)) := if_neg hd

theorem exec_peerUnknownPartition (dev : BitVec 9) (part : BitVec 4) (pa : Nat) (ask : Ask) (s : State) :
    exec (.peerUnknownPartition dev part pa ask) s =
      .next (if s.powered && dev != s.devnum && (s.bstate != 5 || (NSet.has s.domain dev.toNat && (s.part? part.toNat).isNone)) then
        s.answer .error else s) := rfl

section
variable {s s1 : State} {dev : BitVec 9} {part : BitVec 4} {pa : Nat} {ask : Ask} {p : Part} {code : Nat}

theorem exec_peerUnknownPartition_notReady (hp : s.powered = true) (hd : dev ≠ s.devnum) (hr : s.bstate ≠ 5) :
    exec (.peerUnknownPartition dev part pa ask) s = .next (s.answer .error) := by
  simp only [exec_peerUnknownPartition, hp, bne_iff_ne.mpr hd, bne_iff_ne.mpr hr, Bool.true_or, Bool.and_self, if_true]

theorem exec_peerUnknownPartition_unheld (hp : s.powered = true) (hd : dev ≠ s.devnum) (hdom : NSet.has s.domain dev.toNat = true)
    (hpart : s.part? part.toNat = none) : exec (.peerUnknownPartition dev part pa ask) s = .next (s.answer .error) := by
  simp only [exec_peerUnknownPartition, hp, bne_iff_ne.mpr hd, hdom, hpart, Option.isNone_none, Bool.and_self, Bool.or_true,
    if_true]

theorem State.peerAsk_notReady (hp : s.powered = true) (hd : dev ≠ s.devnum) (hr : s.bstate ≠ 5) :
    s.peerAsk dev part pa ask = s.answer .error := by
  simp only [State.peerAsk, hp, hd, bne_iff_ne.mpr hr, Bool.not_true, decide_false, Bool.or_self, Bool.false_eq_true, if_false,
    if_true]

theorem State.peerAsk_closed (hk : s.KnowsPeer dev part p) (ho : ¬s.OpenToPeer dev part) :
    s.peerAsk dev part pa ask = s.answer .error := by
  obtain ⟨⟨hp, hd, hdom⟩, hpart⟩ := hk
  by_cases hr : s.bstate = 5
  · have hstop :
        (NSet.has s.peerFrozen (peerId dev.toNat part.toNat) || NSet.has s.peerRefused (peerId dev.toNat part.toNat)) = true :=
      eq_true_of_ne_false fun h => ho ⟨hr, Bool.or_eq_false_iff.mp h⟩
    simp only [State.peerAsk, hp, hd, hr, hpart, hdom, hstop, bne_self_eq_false, Bool.not_true, decide_false, Bool.or_self,
      Bool.false_eq_true, if_false, if_true]
  · exact peerAsk_notReady hp hd hr

theorem State.peerAsk_open (hk : s.KnowsPeer dev part p) (ho : s.OpenToPeer dev part) :
    s.peerAsk dev part pa ask = s.peerAdmit dev part pa p ask := by
  obtain ⟨⟨hp, hd, hdom⟩, hpart⟩ := hk
  obtain ⟨hr, hfrozen, hrefused⟩ := ho
  simp only [State.peerAsk, hp, hd, hr, hpart, hdom, hfrozen, hrefused, bne_self_eq_false, Bool.not_true, decide_false,
    Bool.or_self, Bool.false_eq_true, if_false]
  rfl

theorem State.peerAdmit_full (h : 256 ≤ Store.getD s.asking (32 + peerId dev.toNat part.toNat) 0) :
    s.peerAdmit dev part pa p ask = (s.freezePeer dev.toNat part.toNat 5 pa).answer .error := by
  rw [State.peerAdmit, asked_full h]

theorem State.peerAdmit_signal {c : Word64} {g : Word32} {b : BitVec 4} {l : Word64}
    (hroom : s.asked (32 + peerId dev.toNat part.toNat) = some s1) (hc : cidPart c = part.toNat) :
    s.peerAdmit dev part pa p (.signal c g b l) = s1.perform pa (.signal c g b l) := by
  simp only [State.peerAdmit, hroom, hc, if_true]

theorem State.peerAdmit_within (hroom : s.asked (32 + peerId dev.toNat part.toNat) = some s1)
    (hask : ∀ c g b l, ask ≠ .signal c g b l) (hv : s.outViolation p pa (askSize ask) (askWrites ask) 0 = none) :
    s.peerAdmit dev part pa p ask = s1.perform pa ask := by
  simp only [State.peerAdmit, hroom, hv]

theorem State.peerAdmit_violation (hroom : s.asked (32 + peerId dev.toNat part.toNat) = some s1)
    (hask : ∀ c g b l, ask ≠ .signal c g b l) (hv : s.outViolation p pa (askSize ask) (askWrites ask) 0 = some code) :
    s.peerAdmit dev part pa p ask = (s.freezePeer dev.toNat part.toNat code pa).answer .error := by
  simp only [State.peerAdmit, hroom, hv]

end

/-! ### The host (29 R439, R440, 25 R398, R399) -/

/-- Where an offset of BAR2 lies in physical memory (29 R440). -/
abbrev State.bar2At (s : State) (offset : Nat) : Nat := s.devnum.toNat * 2 ^ 47 + offset % 2 ^ 47

/-- The data of a request of the host that is aborted: all ones for a read (29 R444). -/
abbrev abortData (ask : Ask) : List Byte := List.replicate (if askWrites ask then 0 else askSize ask) 0xFF

/-- The reads and writes, which BAR2 takes as accesses. -/
def isAccess (ask : Ask) : Prop := (∃ k, ask = .read k) ∨ ∃ d, ask = .write d

/-- A function that has partition `p` asks a machine that is READY. -/
def State.KnowsHost (s : State) (fn : BitVec 5) (part : BitVec 4) (p : Part) : Prop :=
  1 ≤ fn.toNat ∧ fn.toNat ≤ 16 ∧ s.bstate = 5 ∧ Store.get? s.vfs fn.toNat = some part ∧ s.part? part.toNat = some p

/-- The function is neither frozen nor refused. -/
def State.OpenToHost (s : State) (fn : BitVec 5) : Prop :=
  NSet.has s.vfFrozen fn.toNat = false ∧ NSet.has s.vfRefused fn.toNat = false

/-- What is left to check of a request whose function may ask: its room among the outstanding ones, then its reach (25 R397,
R398). -/
def State.hostAdmit (s : State) (fn : BitVec 5) (part : BitVec 4) (pa : Nat) (p : Part) (ask : Ask) : State :=
  match s.asked fn.toNat with
  | none => (s.freezeHost fn.toNat part.toNat 5 pa).answer .abort (abortData ask)
  | some s1 =>
    match s.outViolation p pa (askSize ask) (askWrites ask) 4 with
    | some c => (s.freezeHost fn.toNat part.toNat c pa).answer .abort (abortData ask)
    | none => s1.perform pa ask

section
variable {s s1 : State} {fn : BitVec 5} {offset pa : Nat} {ask : Ask} {part : BitVec 4} {p : Part} {code : Nat}

theorem exec_hostBar2Access (h : isAccess ask) : exec (.hostBar2Access fn offset ask) s = .next (s.hostAsk fn offset ask) := by
  obtain ⟨k, rfl⟩ | ⟨d, rfl⟩ := h <;> rfl

theorem exec_hostAtomic (fn : BitVec 5) (offset : Nat) (a : AtomAsk) (s : State) :
    exec (.hostAtomic fn offset a) s =
      .next (if pcieAtomic (if a.compare.isSome then { a with fn := 6 } else a) || !s.powered then
        s.hostAsk fn offset (.atom (if a.compare.isSome then { a with fn := 6 } else a)) else s.answer .unsupported) := rfl

theorem State.hostAsk_unpowered (hp : s.powered = false) : s.hostAsk fn offset ask = s := by
  simp only [State.hostAsk, hp, Bool.not_false, if_true]

theorem exec_hostBar2Access_unpowered (hp : s.powered = false) : exec (.hostBar2Access fn offset ask) s = .next s := by
  cases ask with
  | read k => rw [exec_hostBar2Access (.inl ⟨k, rfl⟩), State.hostAsk_unpowered hp]
  | write d => rw [exec_hostBar2Access (.inr ⟨d, rfl⟩), State.hostAsk_unpowered hp]
  | atom a => rfl
  | contribute fn t w => rfl
  | signal c g b l => rfl
  | merge image => rfl

theorem State.hostAsk_notReady (hp : s.powered = true) (hn : fn.toNat ≤ 16) (hr : s.bstate ≠ 5) :
    s.hostAsk fn offset ask = s.answer .abort (abortData ask) := by
  simp only [State.hostAsk, hp, Nat.not_lt.mpr hn, bne_iff_ne.mpr hr, Bool.not_true, Bool.false_eq_true, if_false, if_true,
    abortData]

theorem State.hostAsk_unassigned (hp : s.powered = true) (h1 : 1 ≤ fn.toNat) (hn : fn.toNat ≤ 16) (hr : s.bstate = 5)
    (hvf : Store.get? s.vfs fn.toNat = none) : s.hostAsk fn offset ask = s.answer .unsupported := by
  simp only [State.hostAsk, hp, Nat.not_lt.mpr hn, hr, Nat.one_le_iff_ne_zero.mp h1, hvf, bne_self_eq_false, Bool.not_true,
    Bool.false_eq_true, if_false]

theorem State.hostAsk_closed (hp : s.powered = true) (hk : s.KnowsHost fn part p) (ho : ¬s.OpenToHost fn) :
    s.hostAsk fn offset ask = s.answer .abort (abortData ask) := by
  obtain ⟨h1, hn, hr, hvf, -⟩ := hk
  have hstop : (NSet.has s.vfFrozen fn.toNat || NSet.has s.vfRefused fn.toNat) = true :=
    eq_true_of_ne_false fun h => ho (Bool.or_eq_false_iff.mp h)
  simp only [State.hostAsk, hp, Nat.not_lt.mpr hn, hr, Nat.one_le_iff_ne_zero.mp h1, hvf, hstop, bne_self_eq_false, Bool.not_true,
    Bool.false_eq_true, if_false, if_true, abortData]

theorem State.hostAsk_open (hp : s.powered = true) (hk : s.KnowsHost fn part p) (ho : s.OpenToHost fn) :
    s.hostAsk fn offset ask = s.hostAdmit fn part (s.bar2At offset) p ask := by
  obtain ⟨h1, hn, hr, hvf, hpart⟩ := hk
  obtain ⟨hfrozen, hrefused⟩ := ho
  simp only [State.hostAsk, hp, Nat.not_lt.mpr hn, hr, Nat.one_le_iff_ne_zero.mp h1, hvf, hfrozen, hrefused, hpart,
    bne_self_eq_false, Bool.not_true, Bool.or_self, Bool.false_eq_true, if_false]
  rfl

theorem State.hostAdmit_full (h : 256 ≤ Store.getD s.asking fn.toNat 0) :
    s.hostAdmit fn part pa p ask = (s.freezeHost fn.toNat part.toNat 5 pa).answer .abort (abortData ask) := by
  rw [State.hostAdmit, asked_full h]

theorem State.hostAdmit_within (hroom : s.asked fn.toNat = some s1)
    (hv : s.outViolation p pa (askSize ask) (askWrites ask) 4 = none) : s.hostAdmit fn part pa p ask = s1.perform pa ask := by
  simp only [State.hostAdmit, hroom, hv]

theorem State.hostAdmit_violation (hroom : s.asked fn.toNat = some s1)
    (hv : s.outViolation p pa (askSize ask) (askWrites ask) 4 = some code) :
    s.hostAdmit fn part pa p ask = (s.freezeHost fn.toNat part.toNat code pa).answer .abort (abortData ask) := by
  simp only [State.hostAdmit, hroom, hv]

end

/-! ### The obligation -/

/-- Settles O44: the requests of a peer by what the device holds and by the peer's marks, then those of a host function. -/
theorem outsideRequests : Obligations.OutsideRequests := by
  unfold Obligations.OutsideRequests
  constructor
  · intro s s1 dev part pa ask a p code
    refine ⟨?closed, ?within, ?violation, ?full, ?signal, ?room, ?notReady, ?astray, ?unheld, ?atomic⟩
    case closed =>
      intro hk hpart ho
      rw [exec_peerRequest, State.peerAsk_closed ⟨hk, hpart⟩ ho]
    case within =>
      intro hk hpart ho hroom hask hv
      rw [exec_peerRequest, State.peerAsk_open ⟨hk, hpart⟩ ho, State.peerAdmit_within hroom hask hv]
    case violation =>
      intro hk hpart ho hroom hask hv
      rw [exec_peerRequest, State.peerAsk_open ⟨hk, hpart⟩ ho, State.peerAdmit_violation hroom hask hv]
    case full =>
      intro hk hpart ho hfull
      refine ⟨?_, State.freezePeer_marks ..⟩
      rw [exec_peerRequest, State.peerAsk_open ⟨hk, hpart⟩ ho, State.peerAdmit_full hfull]
    case signal =>
      rintro c g b l hk hpart ho hroom rfl hc
      rw [exec_peerRequest, State.peerAsk_open ⟨hk, hpart⟩ ho, State.peerAdmit_signal hroom hc]
    case room => exact fun h => ⟨_, State.asked_room h, rfl, rfl⟩
    case notReady =>
      intro hp hd hr
      exact ⟨by rw [exec_peerRequest, State.peerAsk_notReady hp hd hr], exec_peerUnknownPartition_notReady hp hd hr⟩
    case astray => exact fun v h => State.perform_astray ask h
    case unheld =>
      rintro ⟨hp, hd, hdom⟩ hpart
      exact exec_peerUnknownPartition_unheld hp hd hdom hpart
    case atomic =>
      rintro ⟨hp, hd, hdom⟩ hpart ho hroom hv
      rw [exec_homeAtomic_peer part pa a hd, State.peerAsk_open ⟨⟨hp, hd, hdom⟩, hpart⟩ ho,
        State.peerAdmit_within hroom (fun _ _ _ _ h => Ask.noConfusion h) hv]
  · intro s s1 fn offset ask a part p code
    refine ⟨?within, ?violation, ?full, ?closed, ?notReady, ?unassigned, ?atomic, ?unpowered, ?notPcie⟩
    case within =>
      rintro ⟨hp, hask⟩ hk ho hroom hv
      rw [exec_hostBar2Access hask, State.hostAsk_open hp hk ho, State.hostAdmit_within hroom hv]
    case violation =>
      rintro ⟨hp, hask⟩ hk ho hroom hv
      rw [exec_hostBar2Access hask, State.hostAsk_open hp hk ho, State.hostAdmit_violation hroom hv]
    case full =>
      rintro ⟨hp, hask⟩ hk ho hfull
      refine ⟨?_, State.freezeHost_marks ..⟩
      rw [exec_hostBar2Access hask, State.hostAsk_open hp hk ho, State.hostAdmit_full hfull]
    case closed =>
      rintro ⟨hp, hask⟩ hk ho
      rw [exec_hostBar2Access hask, State.hostAsk_closed hp hk ho]
    case notReady =>
      rintro ⟨hp, hask⟩ hn hr
      rw [exec_hostBar2Access hask, State.hostAsk_notReady hp hn hr]
    case unassigned =>
      rintro ⟨hp, hask⟩ h1 hn hr hvf
      rw [exec_hostBar2Access hask, State.hostAsk_unassigned hp h1 hn hr hvf]
    case atomic =>
      rintro hp rfl hpcie hk ho hroom hv
      rw [exec_hostAtomic, hpcie, Bool.true_or, if_pos rfl, State.hostAsk_open hp hk ho, State.hostAdmit_within hroom hv]
    case unpowered =>
      intro hp
      refine ⟨exec_hostBar2Access_unpowered hp, ?_⟩
      rw [exec_hostAtomic, hp, Bool.not_false, Bool.or_true, if_pos rfl, State.hostAsk_unpowered hp]
    case notPcie =>
      intro hp hpcie
      rw [exec_hostAtomic, hpcie, hp, Bool.not_true, Bool.or_self, if_neg Bool.false_ne_true]

end Sys2Proof.Machine

/-!
PROOFS. The machine after reset (01 R13, 29 R442) and a group at its start (02 R43, 20 R331).
-/
namespace Sys2Proof.Machine
open Sys2Proof Sys2Proof.Safety

/-! ### Fixed files whose entries are all alike -/

theorem vget_replicate {α : Type} (n j : Nat) (x : α) : vget (Vector.replicate n x) j x = x := by
  unfold vget
  by_cases h : j < n
  · rw [Vector.getElem?_eq_getElem h, Vector.getElem_replicate, Option.getD_some]
  · rw [Vector.getElem?_eq_none (Nat.not_lt.mp h), Option.getD_none]

/-! ### Reset -/

theorem State.canonical_reset : Canonical State.reset := by
  refine ⟨State.reset_wf, rfl, fun i b hbody => ?_⟩
  have hslot : vget State.reset.slots i {} = {} := vget_replicate ..
  rw [hslot] at hbody
  contradiction

/-- Nothing is listed of memory and of poison after reset, so every byte reads 0 (log 2) and no sector is poisoned. -/
theorem State.reset_reads (a : Nat) : State.reset.byteAt a = 0 ∧ NSet.has State.reset.poison (sectorOf a) = false :=
  ⟨rfl, rfl⟩

/-! ### The registers of a group at its start -/

section
variable (entry args : Word64) (m gfirst : Nat) (lt : Word64)

theorem freshRegs_sget_one : (freshRegs entry args m gfirst lt).sget 1 = { val := args } := by
  unfold Regs.sget vget freshRegs
  rw [if_neg Nat.one_ne_zero, Vector.getElem?_setIfInBounds_self_of_lt (by decide), Option.getD_some]

theorem freshRegs_sget_ne {j : Nat} (h : j ≠ 1) : (freshRegs entry args m gfirst lt).sget j = {} := by
  unfold Regs.sget
  split
  · rfl
  · have hentry : vget (freshRegs entry args m gfirst lt).s j {} = vget (Vector.replicate 64 ({} : SReg)) j {} := by
      simp only [freshRegs, vget, Vector.getElem?_setIfInBounds_ne (Ne.symm h)]
    rw [hentry, vget_replicate]

theorem freshRegs_vreg (j : Nat) : (freshRegs entry args m gfirst lt).vreg j = {} := vget_replicate ..

theorem freshRegs_wreg (j : Nat) : (freshRegs entry args m gfirst lt).wreg j = {} := vget_replicate ..

theorem freshRegs_pget {j : Nat} (h : j ≠ 0) : (freshRegs entry args m gfirst lt).pget j = {} :=
  (if_neg h).trans (vget_replicate ..)

theorem freshRegs_latchAt (j : Nat) : (freshRegs entry args m gfirst lt).latchAt j = .empty := vget_replicate ..

/-- mk holds the members of the group, and no others (02 R43). -/
theorem freshRegs_mask {i : Nat} (h : i < 16) : (freshRegs entry args m gfirst lt).mask.getLsbD i = decide (i < m) := by
  simp only [freshRegs, BitVec.getLsbD_ofNat, h, decide_true, Bool.true_and, Nat.testBit_two_pow_sub_one]

end

/-- With no flag raised at any element, every element reads no flag (15 R259). -/
theorem flagsAt_zero (e : Nat) : flagsAt (Vector.replicate 6 0) e = 0 := by
  have hflag (k : Nat) : ((Vector.replicate 6 (0 : PredBits))[k]?.getD 0).getLsbD e = false :=
    (congrArg (BitVec.getLsbD · e) (vget_replicate 6 k (0 : PredBits))).trans BitVec.getLsbD_zero
  simp only [flagsAt, hflag]
  rfl

/-! ### The obligation -/

/-- Settles O60: the fields of the machine after reset, then those of a group at its start. -/
theorem resetAndGroupStart : Obligations.ResetAndGroupStart := by
  unfold Obligations.ResetAndGroupStart
  refine ⟨⟨rfl, rfl, rfl, rfl, rfl, rfl, rfl, rfl, rfl, rfl, rfl, rfl, rfl, rfl, State.canonical_reset,
    State.reset_reads, rfl, rfl⟩, ?_⟩
  intro id sg prio dl lt ord
  refine ⟨rfl, rfl, rfl, rfl, rfl, freshRegs_sget_one .., fun j hj => freshRegs_sget_ne _ _ _ _ _ hj, ?files,
    fun j hj => freshRegs_pget _ _ _ _ _ hj, fun m hm => freshRegs_mask _ _ _ _ _ hm, rfl, fun j => vget_replicate ..,
    flagsAt_zero, fun j => vget_replicate .., freshRegs_latchAt _ _ _ _ _, rfl, fun m _ => vget_replicate .., rfl, rfl, rfl,
    rfl, rfl, rfl, rfl, rfl, rfl⟩
  case files => exact fun j => ⟨freshRegs_vreg .., freshRegs_wreg .., vget_replicate ..⟩

end Sys2Proof.Machine

/-!
PROOFS. The bytes of an instruction (03 R45, R50, R52, 04 R67): what the decoder reads from the bytes that the encoder writes.
-/
namespace Sys2Proof
open Sys2Proof.Machine

/-! ### Byte order (00 R2) -/

@[simp] theorem length_leBytes (n w : Nat) : (leBytes n w).length = n := by
  induction n generalizing w with
  | zero => rfl
  | succ n ih => simp only [leBytes, List.length_cons, ih]

theorem ofLeBytes_leBytes (n w : Nat) : ofLeBytes (leBytes n w) = w % 256 ^ n := by
  induction n generalizing w with
  | zero => exact (Nat.mod_one w).symm
  | succ n ih =>
    calc ofLeBytes (leBytes (n + 1) w) = w % 256 + 256 * ofLeBytes (leBytes n (w / 256)) := rfl
      _ = w % 256 ^ (n + 1) := by rw [ih, Nat.pow_succ', Nat.mod_mul]

/-- A number that fits its bytes is read back from where they stand. -/
theorem recNat_leBytes {pre : List Byte} {i n w : Nat} (hi : pre.length = i) (hw : w < 256 ^ n) (post : List Byte) :
    recNat (pre ++ (leBytes n w ++ post)) i n = w := by
  have htake : (leBytes n w ++ post).take n = leBytes n w := List.take_left' (length_leBytes n w)
  rw [recNat, List.drop_left' hi, htake, ofLeBytes_leBytes, Nat.mod_eq_of_lt hw]

/-! ### The base of a word (03 R50) -/

section
variable (op : BitVec 8) (f : Fields)

theorem baseWord_extractLsb' (start len : Nat) : (baseWord op f).extractLsb' start len =
    (f.x ++ f.m ++ f.t ++ BitVec.ofBool f.q ++ BitVec.ofBool f.n ++ BitVec.ofBool f.pn ++ f.p ++
      selCode f.c ++ selCode f.b ++ selCode f.a ++ selCode f.d ++ f.fn ++ op ++ lenCode f.imm).extractLsb' start len := rfl

theorem baseWord_op : (baseWord op f).extractLsb' 2 8 = op := by
  simp (disch := decide) only [baseWord_extractLsb', BitVec.extractLsb'_append_eq_of_le,
    BitVec.extractLsb'_append_eq_of_add_le, BitVec.extractLsb'_eq_self, Nat.sub_self]

theorem baseWord_lenCode : (baseWord op f).extractLsb' 0 2 = lenCode f.imm := by
  rw [baseWord_extractLsb', BitVec.extractLsb'_append_eq_right]

theorem ofBool_beq_one (b : Bool) : (BitVec.ofBool b == 1#1) = b := by cases b <;> rfl

/-- Each field is read from the bits of the base where it stands. -/
theorem fieldsOf_baseWord (hd : selNamed f.d) (ha : selNamed f.a) (hb : selNamed f.b) (hc : selNamed f.c) :
    fieldsOf (baseWord op f) f.imm = f := by
  simp only [selNamed, beq_iff_eq] at hd ha hb hc
  simp (disch := decide) only [fieldsOf, BitVec.getLsbD_eq_extractLsb', baseWord_extractLsb',
    BitVec.extractLsb'_append_eq_of_le, BitVec.extractLsb'_append_eq_of_add_le, BitVec.extractLsb'_eq_self, Nat.reduceSub,
    ofBool_beq_one, hd, ha, hb, hc]

end

/-! ### The bytes of a word (03 R45, R50) -/

theorem Fields.len_eq (f : Fields) : f.len = 8 + (immBytes f.imm).length := by
  unfold Fields.len
  cases f.imm with
  | none => rfl
  | i32 w => simp only [immBytes, length_leBytes]
  | i64 w => simp only [immBytes, length_leBytes]

theorem immOf_immBytes (f : Fields) {base : List Byte} (h : base.length = 8) (rest : List Byte) :
    immOf f.len (base ++ (immBytes f.imm ++ rest)) = f.imm := by
  unfold Fields.len
  cases f.imm with
  | none => rfl
  | i32 w => simp [immOf, immBytes, recNat_leBytes h (n := 4) w.isLt]
  | i64 w => simp [immOf, immBytes, recNat_leBytes h (n := 8) w.isLt]

theorem lengthOf_of_lenCode {b : Byte} {f : Fields} (h : b.extractLsb' 0 2 = lenCode f.imm) : lengthOf b = some f.len := by
  have hand : ∀ c : Byte, c &&& 3 = (c.extractLsb' 0 2).setWidth 8 := by decide
  unfold lengthOf Fields.len
  rw [hand, h]
  cases f.imm <;> rfl

/-! ### The decoder -/

/-- Bytes decode where they pass steps 1 to 4 of the decode order (03 R65). -/
theorem decode_eq_ok {bs : List Byte} {b0 : Byte} {n : Nat} {w : Word64} {k : Fields → Instr} (hb : bs.head? = some b0)
    (hn : lengthOf b0 = some n) (hfit : n ≤ bs.length) (hw : BitVec.ofNat 64 (recNat bs 0 8) = w)
    (hk : opcodes.lookup (w.extractLsb' 2 8) = some k) (hwf : wellFormed (k (fieldsOf w (immOf n bs))) = true) :
    decode bs = .ok (k (fieldsOf w (immOf n bs))) := by
  cases bs with
  | nil => contradiction
  | cons b bs =>
    cases hb
    simp only [decode, hn, hw, hk, hwf, Nat.not_lt.mpr hfit, if_false, if_true]

/-- The bytes of a word decode by its opcode and its fields, whatever stands behind them. -/
theorem decode_word {op : BitVec 8} {f : Fields} {k : Fields → Instr} (hk : opcodes.lookup op = some k)
    (hf : fieldsOf (baseWord op f) f.imm = f) (hwf : wellFormed (k f) = true) (rest : List Byte) :
    decode (leBytes 8 (baseWord op f).toNat ++ (immBytes f.imm ++ rest)) = .ok (k f) := by
  generalize hbs : leBytes 8 (baseWord op f).toNat ++ (immBytes f.imm ++ rest) = bs
  have hhead : bs.head? = some (BitVec.ofNat 8 (baseWord op f).toNat) := by rw [← hbs]; rfl
  have hlen : lengthOf (BitVec.ofNat 8 (baseWord op f).toNat) = some f.len := by
    refine lengthOf_of_lenCode ?_
    rw [BitVec.ofNat_toNat, BitVec.extractLsb'_setWidth_of_le (by decide), baseWord_lenCode]
  have hfit : f.len ≤ bs.length := by
    simp only [← hbs, Fields.len_eq, List.length_append, length_leBytes]
    omega
  have hbase : BitVec.ofNat 64 (recNat bs 0 8) = baseWord op f := by
    have hread : recNat bs 0 8 = (baseWord op f).toNat := hbs ▸ recNat_leBytes (pre := []) rfl (baseWord op f).isLt _
    rw [hread, BitVec.ofNat_toNat, BitVec.setWidth_eq]
  have hop : opcodes.lookup ((baseWord op f).extractLsb' 2 8) = some k := by rw [baseWord_op, hk]
  have hfields : fieldsOf (baseWord op f) (immOf f.len bs) = f := by
    rw [← hbs, immOf_immBytes f (length_leBytes ..), hf]
  rw [decode_eq_ok hhead hlen hfit hbase hop (by rwa [hfields]), hfields]

/-! ### The constructor of an opcode (04 R67, R73) -/

theorem Row.enc_of_step4 {r : Row} {f : Fields} (h : r.step4 f = true) : r.enc = true := by
  simp only [Row.step4, Bool.and_eq_true] at h
  obtain ⟨⟨⟨⟨⟨⟨-, henc⟩, -⟩, -⟩, -⟩, -⟩, -⟩ := h
  exact henc

theorem Row.fn_of_step4 {r : Row} {f : Fields} {k : BitVec 4} (hr : r.fns = [k]) (h : r.step4 f = true) : f.fn = k := by
  simp only [Row.step4, Bool.and_eq_true, hr] at h
  obtain ⟨⟨⟨⟨⟨⟨hfn, -⟩, -⟩, -⟩, -⟩, -⟩, -⟩ := h
  exact List.mem_singleton.mp (List.contains_iff_mem.mp hfn)

/-- The opcode of a well-formed instruction, with its function, mode or destination where several share it, names its
constructor again. -/
theorem lookup_op_of_step4 {i : Instr} {r : Row} {f : Fields} (hr : row i = some r) (hf : fields i = some f)
    (h : r.step4 f = true) : ∃ k, opcodes.lookup r.op = some k ∧ k f = i := by
  have henc := Row.enc_of_step4 h
  cases i
  all_goals cases hf
  all_goals cases hr
  -- Opcodes shared by function.
  case mmskSet | mmskAnd | mmskOr | mmskPush | mmskPop | vcompCompress | vcompExpand | vcvtFpfp | vcvtFpint | vcvtIntfp
      | vcvtFpslot | vcvtSlotfp | mdrnOwn | mdrnPeer | ldfKeep | ldfTake | fesetEmpty | fesetFull | fenceAcq | fenceRel
      | fenceFull | fencePromote | tlwaitWait | tlwaitTest | tlrdDone | tlrdIssued | tlrdErr | tlrdClrerr | cmoClean
      | cmoInval | cmoFlush | cmoPin | cmoUnpin | lifeMark | lifeStep | chkwWait | chkwTest | cpyCopy | cpyFill | rowCopy
      | rowFill0 | rowFill1 | rowAnd | rowOr | rowXor | rowNot | collAllred | collReduce | collBcast | collAllgath
      | collXsum | collSpread | collQuant | collRankh | barArrive | barArriveWait | barWait | barWaitLocal | mrgRegroup
      | mrgReturn | gctlResume | gctlKill | gctlStep | tlbiRange | tlbiAsid | tlbiAll | frzThaw | frzKill =>
    have hfn := Row.fn_of_step4 rfl h
    exact ⟨_, rfl, by simp [hfn]⟩
  -- BARQ by its mode M, GMRG by X[4], TRM by the class of D.
  case barqStatus | barqCid | barqGen =>
    simp only [rowBarq, Bool.and_eq_true, beq_iff_eq] at henc
    exact ⟨_, rfl, by simp [henc]⟩
  case gmrg =>
    simp only [rowGm, Bool.and_eq_true, decide_eq_true_eq] at henc
    obtain ⟨-, hx⟩ := henc
    exact ⟨_, rfl, if_pos hx⟩
  case gmrgMem =>
    simp only [Bool.and_eq_true, decide_eq_true_eq] at henc
    obtain ⟨-, hx⟩ := henc
    exact ⟨_, rfl, if_neg (BitVec.not_lt.mpr hx)⟩
  case trmPredicate | trmScalar =>
    refine ⟨_, rfl, ?_⟩
    cases hd : f.d <;> simp [hd, Fields.dScalar] at henc ⊢
  -- Every other opcode has one constructor.
  all_goals exact ⟨_, rfl, rfl⟩

theorem encodable_iff {i : Instr} : encodable i = true ↔ ∃ r f, row i = some r ∧ fields i = some f ∧ r.step4 f = true ∧
    selNamed f.d = true ∧ selNamed f.a = true ∧ selNamed f.b = true ∧ selNamed f.c = true := by
  unfold encodable wellFormed
  cases row i <;> cases fields i <;> simp [and_assoc]

theorem encode_eq {i : Instr} {r : Row} {f : Fields} (hr : row i = some r) (hf : fields i = some f) :
    encode i = leBytes 8 (baseWord r.op f).toNat ++ immBytes f.imm := by
  rw [encode, hr, hf]

theorem wellFormed_eq {i : Instr} {r : Row} {f : Fields} (hr : row i = some r) (hf : fields i = some f) :
    wellFormed i = r.step4 f := by
  rw [wellFormed, hr, hf]

end Sys2Proof

namespace Sys2Proof.Machine
open Sys2Proof

/-- Settles O49: the opcode and the fields are read back from the base, the immediate from behind it, and the opcode names the
constructor. -/
theorem decodeOfEncode : Obligations.DecodeOfEncode := by
  unfold Obligations.DecodeOfEncode
  intro i rest h
  obtain ⟨r, f, hr, hf, hstep, hd, ha, hb, hc⟩ := encodable_iff.mp h
  obtain ⟨k, hk, hi⟩ := lookup_op_of_step4 hr hf hstep
  have hwf : wellFormed (k f) = true := by rw [hi, wellFormed_eq hr hf, hstep]
  rw [encode_eq hr hf, List.append_assoc, decode_word hk (fieldsOf_baseWord r.op f hd ha hb hc) hwf, hi]

end Sys2Proof.Machine

/-!
PROOFS. One step (03 R46 to R49, R63, R65, 20 R343): what stands first, and what a fetch reads and changes.
-/
namespace Sys2Proof.Machine
open Sys2Proof

/-! ### The fetch (03 R48, R49) -/

/-- A line lies on one device. -/
theorem State.isLocal_line (s : State) (pa : Nat) : s.isLocal (128 * lineOf pa) = s.isLocal pa := by
  have hdev : devOf (128 * lineOf pa) = devOf pa := by unfold devOf lineOf; omega
  unfold State.isLocal
  rw [hdev]

theorem State.remoteNews_local {s : State} {pa : Nat} (h : s.isLocal pa = true) : s.remoteNews (lineOf pa) = s :=
  if_pos ((s.isLocal_line pa).trans h)

theorem State.meets_local {s : State} {a : Agent} {pa : Nat} (hs : s.strays a = false) (h : s.isLocal pa = true) :
    s.meets a pa = (false, s) := by
  rw [State.meets, hs, h, if_neg Bool.false_ne_true, if_pos rfl]

section
variable {s : State} {k : GKey} {g : Group} {pa : Nat} (ht : s.translate g.ctx .fetch g.regs.pc.toNat = .ok pa)
include ht

theorem State.toFetch_local (h : s.isLocal pa = true) (hs : s.strays (.group k) = false) : s.toFetch k g = (false, s) := by
  simp only [State.toFetch, ht, State.meets_local hs h, State.remoteNews_local h]

theorem State.fetch_instr {i : Instr} (hp : s.poisonAt pa = false) (hd : decode (s.blockBytes pa) = .ok i) :
    s.fetch g = .instr i := by
  simp only [State.fetch, ht, xlatTrap, hp, hd, Bool.false_eq_true, if_false]

theorem State.fetched_eq_or_merged : s.fetched g = s ∨ s.fetched g = s.mergeLine .ext (lineOf pa) := by
  unfold State.fetched
  rw [ht]
  split
  · exact .inl rfl
  · exact .inr rfl

end

/-- With no line in P a fetch changes nothing (08 R153). -/
theorem State.fetched_of_no_pot {s : State} (g : Group) (h : ∀ x ∈ s.lines, x.2.pot = none) : s.fetched g = s :=
  if_pos (List.all_eq_true.mpr fun x hx => Option.isNone_iff_eq_none.mpr (h x hx))

/-- A fetch trap other than ILLEGAL_ENCODING stands in no chain (log 66), and a group that does not run ahead of a renewal
takes it at once. -/
theorem State.fetchTrap_eq_trapGroup {s : State} {k : GKey} {g : Group} {t : Trap} (hspec : g.spec = none)
    (ht : t.cause ≠ cEncoding) : s.fetchTrap k g t = s.trapGroup k t false := by
  simp [State.fetchTrap, State.trapOrWait, hspec, ht]

/-! ### An issue slot (03 R63) -/

section
variable {s v : State} {k : GKey} {g : Group} (hg : s.group? k = some g) (hm : g.mayIssue = true)
include hg hm

theorem State.issueNext_switch (hp : g.pending = true) (hh : s.mayHalt g = true) : s.issueNext k = .next (s.switchEvent k) := by
  simp only [State.issueNext, hg, hm, hp, hh, Bool.not_true, Bool.false_eq_true, Bool.and_self, if_false, if_true]

variable (ho : g.pending = false ∨ s.mayHalt g = false)
include ho

theorem State.issueNext_run {i : Instr} (hf : s.toFetch k g = (false, v)) (hi : v.fetch g = .instr i) :
    s.issueNext k = .run i { v.fetched g with cur := some k } := by
  have hon : (g.pending && s.mayHalt g) = false := Bool.and_eq_false_iff.mpr ho
  simp only [State.issueNext, hg, hm, hon, hf, hi, Bool.not_true, Bool.false_eq_true, if_false]

theorem State.issueNext_lost (hf : s.toFetch k g = (true, v)) :
    s.issueNext k = .next (v.fetchTrap k g (s.lostFetch g)) := by
  have hon : (g.pending && s.mayHalt g) = false := Bool.and_eq_false_iff.mpr ho
  simp only [State.issueNext, hg, hm, hon, hf, Bool.not_true, Bool.false_eq_true, if_false]

end

/-! ### What a step runs (20 R343, log 1) -/

theorem step_agenda {s : State} {i : Instr} {later : List Instr} (h : s.agenda = i :: later) :
    step s = exec i { s with agenda := later } := by
  rw [step, h]

section
variable {s t : State} {k : GKey} {rest : List GKey} (ha : s.agenda = []) (hg : s.grant = k :: rest)
include ha hg

theorem step_next (h : ({ s with grant := rest } : State).issueNext k = .next t) : step s = .next t := by
  rw [ha] at h
  rw [step, ha, hg]
  simp only [h]

theorem step_run {i : Instr} (h : ({ s with grant := rest } : State).issueNext k = .run i t) : step s = exec i t := by
  rw [ha] at h
  rw [step, ha, hg]
  simp only [h]

end

/-! ### The obligation -/

/-- Settles O51: the agenda, the instruction fetched, what waits for a switch point, a fetch from this device, and a fetch that
ends with error. -/
theorem stepRunsDecoded : Obligations.StepRunsDecoded := by
  unfold Obligations.StepRunsDecoded
  intro s v k rest later g i pa u turn onward
  refine ⟨step_agenda, ?fetched, ?switch, State.toFetch_local, ?lost⟩
  case fetched =>
    rintro ⟨ha, hgrant, hg, hm⟩ ho hf ht hp hd
    exact ⟨step_run ha hgrant (State.issueNext_run hg hm ho hf (State.fetch_instr ht hp hd)),
      State.fetched_of_no_pot g, State.fetched_eq_or_merged ht⟩
  case switch =>
    rintro ⟨ha, hgrant, hg, hm⟩ hp hh
    exact step_next ha hgrant (State.issueNext_switch hg hm hp hh)
  case lost =>
    rintro ⟨ha, hgrant, hg, hm⟩ ho hspec hf
    have hcause : (u.lostFetch g).cause ≠ cEncoding := (by decide : cPoison ≠ cEncoding)
    rw [step_next ha hgrant (State.issueNext_lost hg hm ho hf), State.fetchTrap_eq_trapGroup hspec hcause]
    rfl

end Sys2Proof.Machine

/-!
PROOFS. Words written out in the spec (04 R73, 26 R416, 18 R318, 19 R328): each is the encoding of its instruction.
-/
namespace Sys2Proof.Machine
open Sys2Proof

/-- A table word whose first bytes are the encoding of an instruction decodes to it, by O49. -/
theorem decodeTableWord_of_encode {i : Instr} {nbits w : Nat} (hi : encodable i = true)
    (hw : encode i <+: leBytes 16 (w % 2 ^ nbits)) : decodeTableWord nbits w = some i := by
  obtain ⟨rest, hrest⟩ := hw
  rw [decodeTableWord, ← hrest, decodeOfEncode i rest hi]

/-- Step 1 rejects a word whose first byte holds no length code (03 R45, R65). -/
theorem decodeTableWord_of_lengthOf_none {nbits w : Nat} (h : lengthOf (BitVec.ofNat 8 (w % 2 ^ nbits)) = none) :
    decodeTableWord nbits w = none := by
  have hd : decode (leBytes 16 (w % 2 ^ nbits)) = .error .encoding := by
    rw [leBytes, decode, h]
  rw [decodeTableWord, hd]

/-- Settles O48: the nine words that decode are the encodings of their instructions, and the last has no length. -/
theorem wordsDecode : Obligations.WordsDecode := by
  unfold Obligations.WordsDecode
  refine ⟨?mfs, ?mts, ?trap, ?tlbsync, ?sadd, ?brc, ?sffma, ?rowCopy, ?mzero, ?noLength⟩
  case noLength => exact decodeTableWord_of_lengthOf_none rfl
  all_goals exact decodeTableWord_of_encode (by decide) (by decide)

end Sys2Proof.Machine

/-!
PROOFS. CMO, PREF, LIFE and SVC (10 R201 to R204, 07 R131, R133): what each body answers from the state in which its instruction
has entered.
-/
namespace Sys2Proof.Machine
open Sys2Proof Sys2Proof.Safety

section
variable {s : State} {k : GKey} {g : Group} {i : Instr} {r : Row} {f : Fields}

/-- A machine instruction without checks of its own has the effect that its body has on the state in which it has entered. -/
theorem runM_eq_effect {body : Fields → GKey → M Unit} {op : State → State} (h : Ready s k g i) (hr : row i = some r)
    (hf : fields i = some f) (hb : body f k (entered s k g i) = .ok ((), op (entered s k g i))) :
    runM i body s = effect s k g i op :=
  runM_of h hr hf rfl (fun hpriv => Bool.noConfusion hpriv) hb

variable (hr : row i = some r) (hf : fields i = some f)
include hr hf

theorem entered_eq : entered s k g i = s.setGroup k (g.enter r f) := by
  simp only [entered, hr, hf]

/-- One that changes its group alone leaves the rest of the machine. -/
theorem runM_onGroup {c : Chk} {body : Fields → GKey → M Unit} {op : Group → Group} (h : Ready s k g i)
    (hc : c.ok5 g f = true) (hp : c.priv f = true → g.id.sup = true)
    (hb : body f k (entered s k g i) = .ok ((), (entered s k g i).onGroup k op)) (honce : (op (g.enter r f)).stepOnce = false) :
    runM i body s c = .next (s.setGroup k (did g i op)) := by
  rw [runM_of h hr hf hc hp hb, entered_eq hr hf, State.onGroup_setGroup]
  simp only [finished, did, hr, hf]
  rw [State.complete_of r (State.group?_setGroup ..) honce, State.setGroup_setGroup]

/-- Translation and poison are read past the group that has entered. -/
theorem entered_translate (x : Ctx) (acc : Access) (va : Nat) :
    (entered s k g i).translate x acc va = s.translate x acc va := by
  rw [entered_eq hr hf, State.translate_setGroup]

theorem entered_poisonAt (pa : Nat) : (entered s k g i).poisonAt pa = s.poisonAt pa := by
  rw [entered_eq hr hf]; rfl

/-- The range of a CMO or LIFE instruction whose operands are clean. -/
theorem M.range_entered (ha : (g.ssrc f true f.a).tag = none) (hb : (g.ssrc f true f.b).tag = none) :
    M.range k f (entered s k g i) =
      .ok ((((g.ssrc f true f.a).val + offsetOf false f).toNat,
        ((g.ssrc f true f.a).val + offsetOf false f).toNat + (g.ssrc f true f.b).val.toNat), entered s k g i) := by
  simp only [M.range, M.run_bind, M.group_entered hr hf, Group.enter_ssrc, M.clean_of ha, M.clean_of hb, M.run_pure]

/-- CMO on the lines of a range answers the state in which each has been operated on. -/
theorem runCmo_entered (h : Free s k g i) (op : State → Nat → State) {ls : List Leaf} {lo hi : Nat}
    (hrange : M.range k f (entered s k g i) = .ok ((lo, hi), entered s k g i))
    (hls : M.leaves k (lo, hi) (entered s k g i) = .ok (ls, entered s k g i)) :
    runCmo f k op (entered s k g i) = .ok ((), ((entered s k g i).linesOf ls lo hi).foldl op (entered s k g i)) := by
  simp only [runCmo, M.run_bind, M.noSpec_entered h.toReady hr hf, M.noFence_entered h hr hf, hrange, hls, M.run_modify]

end

theorem M.inst_of {v : State} {g : Group} {x : Inst} (h : v.inst? g.id.inst = some x) : M.inst g v = .ok (x, v) := by
  simp only [M.inst, h]

/-- The next-use step of a LIFE hint stands in bits 63 to 8 of its operand (10 R203). -/
theorem bitsNat_word_hi (w : Word64) : bitsNat w.toNat 63 8 = w.toNat / 2 ^ 8 :=
  Nat.mod_eq_of_lt (Nat.div_lt_of_lt_mul w.isLt)

theorem bitsNat_two_zero (n : Nat) : bitsNat n 2 0 = n % 8 := congrArg (· % 8) (Nat.div_one n)

/-! ### CMO (10 R201) -/

section
variable {s : State} {k : GKey} {g : Group} {f : Fields} {ls : List Leaf} {lo hi : Nat}

theorem execCmoPin_eq_effect (h : Free s k g (.cmoPin f))
    (hrange : M.range k f (entered s k g (.cmoPin f)) = .ok ((lo, hi), entered s k g (.cmoPin f)))
    (hls : M.leaves k (lo, hi) (entered s k g (.cmoPin f)) = .ok (ls, entered s k g (.cmoPin f)))
    (hstill : (entered s k g (.cmoPin f)).anyMoving g ls = false)
    (hall : hi ≤ ((entered s k g (.cmoPin f)).pinFrom ls lo hi).1) :
    execCmoPin f s = effect s k g (.cmoPin f) fun v => (v.pinFrom ls lo hi).2 := by
  refine runM_eq_effect h.toReady rfl rfl ?_
  have hgroup := M.group_entered (s := s) (k := k) (g := g) (i := .cmoPin f) rfl rfl
  have hmoving (r : Row) : (entered s k g (.cmoPin f)).anyMoving (g.enter r f) ls = false := hstill
  simp only [M.run_bind, M.noSpec_entered h.toReady rfl rfl, M.noFence_entered h rfl rfl, hrange, hgroup, hls, hmoving,
    Bool.false_eq_true, if_false, M.run_run', hall, if_true, M.run_pure]

theorem execCmoUnpin_eq_effect (h : Free s k g (.cmoUnpin f))
    (hrange : M.range k f (entered s k g (.cmoUnpin f)) = .ok ((lo, hi), entered s k g (.cmoUnpin f)))
    (hls : M.leaves k (lo, hi) (entered s k g (.cmoUnpin f)) = .ok (ls, entered s k g (.cmoUnpin f))) :
    execCmoUnpin f s = effect s k g (.cmoUnpin f) fun v => ls.foldl (fun v l => v.setPin l false) v := by
  refine runM_eq_effect h.toReady rfl rfl ?_
  simp only [M.run_bind, M.noSpec_entered h.toReady rfl rfl, M.noFence_entered h rfl rfl, hrange, hls, M.run_modify]

/-! ### PREF (10 R202) -/

/-- What PREF does where its address is clean and lies in memory. -/
theorem execPref_fetches {x : Inst} {va pa : Nat} (h : Free s k g (.pref f)) (hinst : s.inst? g.id.inst = some x)
    (ha : (g.ssrc f true f.a).tag = none) (hm : f.m ≠ spS)
    (hplace : placesOf g.segs x (g.pos x) f.m 1 [g.scalarEl ((g.ssrc f true f.a).val + offsetOf false f)] = .ok [(0, .va va)])
    (hpa : s.translate g.ctx .read va = .ok pa) (hp : s.poisonAt pa = false) :
    execPref f s = effect s k g (.pref f) fun v =>
      (v.ask (.group k) (lineOf pa)).fillLine (lineOf pa) (keyCore k) (f.x &&& 1 == 0) := by
  refine runM_eq_effect h.toReady rfl rfl ?_
  have hgroup := M.group_entered (s := s) (k := k) (g := g) (i := .pref f) rfl rfl
  have hplaced := M.inst_of ((entered_inst? s k g (.pref f) g.id.inst).trans hinst)
  have hxlat := (entered_translate (s := s) (k := k) (g := g) (i := .pref f) rfl rfl g.ctx .read va).trans hpa
  have hclean := (entered_poisonAt (s := s) (k := k) (g := g) (i := .pref f) rfl rfl pa).trans hp
  have hspec (r : Row) : (g.enter r f).spec.isSome = false := by simp only [Group.enter, h.spec, Option.isSome_none]
  simp only [M.run_bind, M.noFence_entered h rfl rfl, hgroup, Group.enter_inst, hplaced, Group.enter_ssrc, Group.enter_segs,
    Group.enter_pos, Group.enter_scalarEl, Group.enter_ctx, ha, hplace, M.run_modify, hxlat, hclean, hspec, hm, decide_false,
    Bool.false_and, Bool.or_self, Bool.false_eq_true, if_false]

/-- PREF of a poisoned address, or in space S, does nothing. -/
theorem execPref_nothing {x : Inst} (h : Free s k g (.pref f)) (hinst : s.inst? g.id.inst = some x)
    (hno : (g.ssrc f true f.a).tag ≠ none ∨ f.m = spS) : execPref f s = effect s k g (.pref f) id := by
  refine runM_eq_effect h.toReady rfl rfl ?_
  have hgroup := M.group_entered (s := s) (k := k) (g := g) (i := .pref f) rfl rfl
  have hplaced := M.inst_of ((entered_inst? s k g (.pref f) g.id.inst).trans hinst)
  simp only [M.run_bind, M.noFence_entered h rfl rfl, hgroup, Group.enter_inst, hplaced, Group.enter_ssrc, M.run_modify]
  congr 2
  split
  next htag _ =>
    have hm : f.m = spS := hno.resolve_left (not_not_intro htag)
    split
    · rw [decide_eq_true hm, Bool.or_true, Bool.true_or, if_pos rfl]; rfl
    · rfl
  next => rfl

/-! ### LIFE (10 R203) and SVC (10 R204) -/

theorem execLifeMark_eq_effect (h : Free s k g (.lifeMark f))
    (hrange : M.range k f (entered s k g (.lifeMark f)) = .ok ((lo, hi), entered s k g (.lifeMark f)))
    (hls : M.leaves k (lo, hi) (entered s k g (.lifeMark f)) = .ok (ls, entered s k g (.lifeMark f)))
    (hc : (g.ssrc f true f.c).tag = none) :
    execLifeMark f s = effect s k g (.lifeMark f) fun v => v.onPart g.id.part.toNat fun p =>
      { p with hints := (ls.filter Leaf.tiered).foldl (fun m l =>
          Store.put m (hintKey g.id.asid.toNat l.va)
            { prio := (g.ssrc f true f.c).val.toNat % 8, next := (g.ssrc f true f.c).val.toNat / 2 ^ 8 }) p.hints } := by
  refine runM_eq_effect h.toReady rfl rfl ?_
  have hgroup := M.group_entered (s := s) (k := k) (g := g) (i := .lifeMark f) rfl rfl
  simp only [M.run_bind, M.noSpec_entered h.toReady rfl rfl, M.noFence_entered h rfl rfl, hrange, hgroup, hls, Group.enter_ssrc,
    Group.enter_id, M.clean_of hc, M.run_pure, M.run_modify, bitsNat_two_zero, bitsNat_word_hi]

theorem execLifeStep_eq_effect (h : Free s k g (.lifeStep f)) (ha : (g.ssrc f true f.a).tag = none) :
    execLifeStep f s = effect s k g (.lifeStep f) fun v => v.onPart g.id.part.toNat fun p =>
      let step := max (Store.getD p.steps g.id.asid.toNat 0) (g.ssrc f true f.a).val.toNat
      { p with steps := Store.put p.steps g.id.asid.toNat step } := by
  refine runM_eq_effect h.toReady rfl rfl ?_
  have hgroup := M.group_entered (s := s) (k := k) (g := g) (i := .lifeStep f) rfl rfl
  simp only [M.run_bind, M.noSpec_entered h.toReady rfl rfl, M.noFence_entered h rfl rfl, hgroup, Group.enter_ssrc,
    Group.enter_id, M.clean_of ha, M.run_pure, M.run_modify]

theorem execSvc_sets (h : Ready s k g (.svc f)) (ha : (g.ssrc f true f.a).tag = none) (hb : (g.ssrc f true f.b).tag = none)
    (himm : (f.a == .imm && f.b == .imm) = false) :
    execSvc f s = .next (s.setGroup k (did g (.svc f) fun x =>
      { x with svc := BitVec.ofNat 64 (min (g.ssrc f true f.a).val.toNat g.id.svcMax.toNat +
                 4 * min (g.ssrc f true f.b).val.toNat (2 ^ 32 - 1)) })) := by
  have hchk : svcChk.ok5 g f = true := congrArg (!·) himm
  have hgroup := M.group_entered (s := s) (k := k) (g := g) (i := .svc f) rfl rfl
  refine runM_onGroup rfl rfl h hchk (fun hpriv => Bool.noConfusion hpriv) ?_ h.once
  simp only [M.run_bind, M.noSpec_entered h rfl rfl, hgroup, Group.enter_ssrc, M.clean_of ha, M.clean_of hb, M.run_pure,
    M.run_onGroup]
  rw [entered_eq (i := .svc f) rfl rfl, State.onGroup_setGroup, State.onGroup_setGroup]
  rfl

end

/-! ### The obligation -/

/-- Settles O18: CMO on lines and on leaves, PREF, LIFE and SVC. -/
theorem cacheControlResults : Obligations.CacheControlResults := by
  unfold Obligations.CacheControlResults
  intro s k g f ls a b c u lo hi range lines asid
  have hcmo {i : Instr} {r : Row} (hr : row i = some r) (hf : fields i = some f) {op : GKey → State → Nat → State}
      (h : range i) : runM i (fun f k => runCmo f k (op k)) s = effect s k g i fun v => (v.linesOf ls lo hi).foldl (op k) v := by
    obtain ⟨hfree, ha, hb, hls⟩ := h
    exact runM_eq_effect hfree.toReady hr hf (runCmo_entered hr hf hfree (op k) (M.range_entered hr hf ha hb) hls)
  refine ⟨hcmo (op := fun k v n => v.cleanLine (.group k) n) rfl rfl, hcmo (op := fun k v n => v.invalLine k n) rfl rfl,
    hcmo (op := fun k v n => v.flushLine (.group k) n) rfl rfl, ?pin, ?unpin, ?fetch, ?idle, ?mark, ?step, ?svc⟩
  case pin =>
    rintro ⟨hfree, ha, hb, hls⟩ hstill hall
    exact execCmoPin_eq_effect hfree (M.range_entered rfl rfl ha hb) hls hstill hall
  case unpin =>
    rintro ⟨hfree, ha, hb, hls⟩
    exact execCmoUnpin_eq_effect hfree (M.range_entered rfl rfl ha hb) hls
  case fetch => exact fun i va pa hfree hinst ha hm hplace hpa hp => execPref_fetches hfree hinst ha hm hplace hpa hp
  case idle => exact fun i hfree hinst hno => execPref_nothing hfree hinst hno
  case mark =>
    rintro ⟨hfree, ha, hb, hls⟩ hc
    exact execLifeMark_eq_effect hfree (M.range_entered rfl rfl ha hb) hls hc
  case step => exact execLifeStep_eq_effect
  case svc => exact execSvc_sets

end Sys2Proof.Machine

/-!
PROOFS. Tiering and migration (07 R133 to R135), page walks and shootdowns (24 R381 to R388): one equation per case of each step.
-/
namespace Sys2Proof.Machine
open Sys2Proof

/-! ### Migration (07 R135) and tiering (07 R134) -/

/-- The leaf of a page that migrates is as it was: valid, a leaf, not pinned, in the old frame (07 R133). -/
def liveLeaf (e old : Nat) : Prop := bitNat e 0 = 1 ∧ bitNat e 1 = 1 ∧ bitNat e 58 = 0 ∧ ptePfn e = old

theorem liveLeaf_iff {e old : Nat} :
    (bitNat e 0 = 1 && bitNat e 1 = 1 && bitNat e 58 = 0 && ptePfn e = old) = true ↔ liveLeaf e old := by
  simp only [liveLeaf, Bool.and_eq_true, decide_eq_true_eq, and_assoc]

section
variable {s : State} {i : Nat} {m : Migration} (hm : s.migrations[i]? = some m)
include hm

theorem exec_pageMigration_begin (hp : m.phase = 0) : exec (.pageMigration i) s =
    .next { s.migrationShoot m with migrations := (s.migrationShoot m).migrations.set i { m with phase := 1 } } := by
  show execPageMigration i s = _
  simp only [execPageMigration, hm, hp, if_true]

theorem exec_pageMigration_waits (hp : m.phase ≠ 0) (hs : s.shot m = false) : exec (.pageMigration i) s = .next s := by
  show execPageMigration i s = _
  simp only [execPageMigration, hm, hp, hs, Bool.not_false, if_false, if_true]

theorem exec_pageMigration_copy (hp : m.phase = 1) (hs : s.shot m = true) (hlive : liveLeaf (s.walkWord m.pteAt) m.old) :
    exec (.pageMigration i) s =
      let leaf := numBytes m.pteAt 8 (withFrame (s.walkWord m.pteAt) m.new)
      let t := (((s.dropShoot m).movePage m).writeOp .ext leaf false).migrationShoot m
      .next { t with migrations := t.migrations.set i { m with phase := 2 } } := by
  show execPageMigration i s = _
  simp only [execPageMigration, hm, hp, hs, liveLeaf_iff.mpr hlive, Bool.not_true, Bool.false_eq_true, Nat.one_ne_zero, if_false,
    if_true]

theorem exec_pageMigration_abandon (hp : m.phase = 1) (hs : s.shot m = true) (hlive : ¬liveLeaf (s.walkWord m.pteAt) m.old) :
    exec (.pageMigration i) s =
      .next { s.dropShoot m with migrations := (s.dropShoot m).migrations.eraseIdx i } := by
  show execPageMigration i s = _
  simp only [execPageMigration, hm, hp, hs, mt liveLeaf_iff.mp hlive, Bool.not_true, Bool.false_eq_true, Nat.one_ne_zero, if_false,
    if_true]

theorem exec_pageMigration_end (hp : 2 ≤ m.phase) (hs : s.shot m = true) : exec (.pageMigration i) s =
    .next { s.dropShoot m with migrations := (s.dropShoot m).migrations.eraseIdx i } := by
  show execPageMigration i s = _
  simp only [execPageMigration, hm, hs, show m.phase ≠ 0 by omega, show m.phase ≠ 1 by omega, Bool.not_true, Bool.false_eq_true,
    if_false]

end

/-- A page of the capacity tier that is wanted within a step begins to migrate to HBM, where the quota has room for it. -/
theorem exec_tierPromotion_wanted {s : State} {part : BitVec 4} {asid : BitVec 16} {va : Nat} {p : Part} {t : TierPage}
    (hpart : s.part? part.toNat = some p)
    (hpage : (s.tierPages p).find? (fun x => x.asid = asid.toNat && x.leaf.va ≤ va && va < x.leaf.va + x.leaf.size) = some t)
    (htier : s.inTier false t = true) (hpin : t.pinned = false) (hnext : t.hint.next ≠ never) (hdist : t.dist ≤ 1)
    (hstill : s.migrating part.toNat t.asid t.leaf.va = false)
    (hroom : s.hbmUsed part (s.tierPages p) + framesOf [t] ≤ p.tquota) :
    exec (.tierPromotion part asid va) s =
      let s1 : State := { s with nonce := s.nonce + 1 }
      .next (if s.frameFree p true (Config.tierFrame s.nonce) t.leaf.size = true then
        s1.startMigration part t (Config.tierFrame s.nonce) else s1) := by
  show execTierPromotion part asid va s = _
  simp only [execTierPromotion, hpart, hpage, htier, hpin, hnext, hstill, hroom, Nat.not_lt.mpr hdist, Bool.not_true, decide_false,
    Bool.or_self, Bool.false_eq_true, if_false, if_true]

/-! ### Walks (24 R381 to R383, R387) -/

section
variable {s : State} {target : BitVec 4} {core : Option CoreId} {part : BitVec 4} {who : WalkFor} {va ins : Nat} {x : Ctx}
  {p : Part} {w : Walk} (hctx : s.walkCtx who = some (x, ins)) (hat : x.walksAt target core part = true)
  (hpart : s.part? x.part = some p)
include hctx hat hpart

theorem exec_pageWalk_asks (hmine : s.walks.find? (fun w => w.who == who && w.va = va) = none) (hok : s.walkOk va who = true) :
    exec (.pageWalk target core part who va) s =
      let new : Walk :=
        { who := who, ins := ins, at_ := x.tlb, part := BitVec.ofNat 4 x.part, asid := BitVec.ofNat 16 x.asid, va := va,
          asked := s.cyc.toNat }
      .next { s with walks := s.walks ++ [new] } := by
  show execPageWalk target core part who va s = _
  simp only [execPageWalk, hctx, hat, hpart, hmine, hok, Bool.not_true, Bool.false_eq_true, if_false, if_true]

theorem exec_pageWalk_refuses (hmine : s.walks.find? (fun w => w.who == who && w.va = va) = none) (hok : s.walkOk va who = false) :
    exec (.pageWalk target core part who va) s = .next s := by
  show execPageWalk target core part who va s = _
  simp only [execPageWalk, hctx, hat, hpart, hmine, hok, Bool.not_false, if_true]

theorem exec_pageWalk_starts (hmine : s.walks.find? (fun w => w.who == who && w.va = va) = some w) (hw : w.started = false) :
    exec (.pageWalk target core part who va) s = .next (s.startWalks w.at_) := by
  show execPageWalk target core part who va s = _
  simp only [execPageWalk, hctx, hat, hpart, hmine, hw, Bool.false_eq_true, if_false, if_true]

theorem exec_pageWalk_ends (hmine : s.walks.find? (fun w => w.who == who && w.va = va) = some w) (hw : w.started = true) :
    exec (.pageWalk target core part who va) s = .next (s.endWalk p x w) := by
  show execPageWalk target core part who va s = _
  simp only [execPageWalk, hctx, hat, hpart, hmine, hw, if_true]

end

/-- A walk that an invalidation has overtaken starts again. -/
theorem State.endWalk_restarts {s : State} {p : Part} {x : Ctx} {w : Walk} (h : w.gen ≠ s.genAt w.part.toNat w.at_.target) :
    s.endWalk p x w =
      { s.walked x w.va with walks := (s.walked x w.va).walks.map fun y =>
          if y == w then { y with gen := s.genAt w.part.toNat w.at_.target } else y } := by
  rw [State.endWalk, if_pos (bne_iff_ne.mpr h)]

/-- Walks read tables and never the TLB. -/
theorem State.walkCached_tlb (s : State) (p : Part) (w : Walk) : (s.walkCached p w).2.tlb = s.tlb := by
  unfold State.walkCached
  extract_lets hit
  split
  case h_1 hflip => exact (congrArg (fun v : Bool × State => v.2.tlb) hflip).symm
  case h_2 hflip _ => exact (congrArg (fun v : Bool × State => v.2.tlb) hflip).symm

/-- A walk that ends at a leaf puts its entry into the TLB, in place of those that it overlaps (24 R381). -/
theorem State.endWalk_fills {s : State} {p : Part} {x : Ctx} {w : Walk} {e l : Nat} {entry : TlbEntry}
    (hgen : w.gen = s.genAt w.part.toNat w.at_.target) (hleaf : ((s.walked x w.va).walkCached p w).1 = .leaf e l)
    (hentry : entry = { at_ := w.at_, part := w.part, asid := w.asid, va := w.va / 2 ^ spanLog l * 2 ^ spanLog l,
                        size := 2 ^ spanLog l, pte := BitVec.ofNat 64 e }) :
    entry ∈ (s.endWalk p x w).tlb ∧ ∀ y ∈ (s.endWalk p x w).tlb, y = entry ∨ y ∈ (s.walked x w.va).tlb := by
  have htlb : ∃ old : TlbEntry → Bool, (s.endWalk p x w).tlb = (s.walked x w.va).tlb.filter old ++ [entry] := by
    rw [← State.walkCached_tlb (s.walked x w.va) p w, State.endWalk, if_neg (by simp [hgen])]
    simp only [hleaf, hentry]
    exact ⟨_, rfl⟩
  obtain ⟨old, htlb⟩ := htlb
  rw [htlb]
  refine ⟨by simp, fun y hy => ?_⟩
  simp only [List.mem_append, List.mem_filter, List.mem_singleton] at hy
  exact hy.symm.imp_right And.left

/-! ### The walks that a walker starts (24 R383) -/

theorem leastWalk_eq_none {f : Walk → Nat} {l : List Walk} : leastWalk f l = none ↔ l = [] := by
  cases l with
  | nil => simp [leastWalk]
  | cons x r =>
    simp only [leastWalk]
    split <;> simp

theorem mem_of_leastWalk {f : Walk → Nat} {l : List Walk} {w : Walk} (h : leastWalk f l = some w) : w ∈ l := by
  induction l generalizing w with
  | nil => contradiction
  | cons x r ih =>
    simp only [leastWalk] at h
    split at h
    next y hy =>
      have hw := (Option.some.inj h).symm
      split at hw
      · exact hw ▸ List.mem_cons_self
      · exact List.mem_cons_of_mem _ (hw ▸ ih hy)
    next => exact Option.some.inj h ▸ List.mem_cons_self

/-- The walk that a walker starts next is one of its own that has not started. -/
theorem mem_of_nextWalk {now : Nat} {l : List Walk} {w : Walk} (h : nextWalk now l = some w) : w ∈ l ∧ w.started = false := by
  have hwaiting : w ∈ l.filter fun x => !x.started := by
    simp only [nextWalk] at h
    split at h
    next y hy => exact (List.mem_filter.mp (Option.some.inj h ▸ mem_of_leastWalk hy)).1
    next => exact mem_of_leastWalk h
  simpa using hwaiting

theorem nextWalk_isSome {now : Nat} {l : List Walk} {y : Walk} (hy : y ∈ l) (hs : y.started = false) :
    ∃ w, nextWalk now l = some w := by
  have hne : l.filter (fun x => !x.started) ≠ [] := List.ne_nil_of_mem (List.mem_filter.mpr ⟨hy, by simp [hs]⟩)
  refine Option.isSome_iff_exists.mp (Option.isSome_iff_ne_none.mpr fun h => ?_)
  simp only [nextWalk] at h
  split at h
  · contradiction
  · exact hne (leastWalk_eq_none.mp h)

/-- A walk as it starts, under the generation of its target. -/
def State.begun (s : State) (y : Walk) : Walk := { y with started := true, gen := s.genAt y.part.toNat y.at_.target }

/-- The walks that a walker starts at once are its own that have not started: none where it has no room left, and some where it has
room and one is there. -/
theorem State.startWalks_walks (s : State) (i : TlbId) :
    ∃ joint : List Walk, (s.startWalks i).walks = s.walks.map (fun y => if y ∈ joint then s.begun y else y) ∧
      (∀ y ∈ joint, y ∈ s.walks ∧ y.started = false ∧ sameWalker i y.at_ = true) ∧
      (16 ≤ (s.walks.filter fun y => sameWalker i y.at_ && y.started).length → joint = []) ∧
      ((s.walks.filter fun y => sameWalker i y.at_ && y.started).length < 16 →
        (∃ y ∈ s.walks, sameWalker i y.at_ = true ∧ y.started = false) → joint ≠ []) := by
  have hcount : ((s.walks.filter fun y => sameWalker i y.at_).filter (·.started)).length =
      (s.walks.filter fun y => sameWalker i y.at_ && y.started).length := by
    rw [List.filter_filter]
    simp only [Bool.and_comm]
  unfold State.startWalks
  dsimp only
  rw [hcount]
  generalize (s.walks.filter fun y => sameWalker i y.at_ && y.started).length = running
  split
  next hnone =>
    refine ⟨[], by simp, by simp, fun _ => rfl, ?_⟩
    rintro - ⟨y, hy, hat, hs⟩
    have hhere : y ∈ s.walks.filter fun x => sameWalker i x.at_ := List.mem_filter.mpr ⟨hy, hat⟩
    obtain ⟨w, hw⟩ := nextWalk_isSome (now := s.cyc.toNat) hhere hs
    rw [hw] at hnone
    contradiction
  next w hw =>
    obtain ⟨hmem, hws⟩ := mem_of_nextWalk hw
    obtain ⟨hmem, hwat⟩ := List.mem_filter.mp hmem
    generalize hrest : List.filter _ (List.filter _ s.walks) = rest
    refine ⟨(w :: rest).take (walkerRoom - running), by simp [State.begun], fun y hy => ?own, fun hfull => ?full,
      fun hroom _ => ?some⟩
    case own =>
      obtain rfl | hy := List.mem_cons.mp (List.mem_of_mem_take hy)
      · exact ⟨hmem, hws, hwat⟩
      · simp only [← hrest, List.mem_filter, Bool.and_eq_true, Bool.not_eq_true'] at hy
        obtain ⟨⟨hwalks, hat⟩, ⟨hs, -⟩, -⟩ := hy
        exact ⟨hwalks, hs, hat⟩
    case full => rw [show walkerRoom - running = 0 from Nat.sub_eq_zero_of_le hfull, List.take_zero]
    case some =>
      obtain ⟨n, hn⟩ := Nat.exists_eq_succ_of_ne_zero (Nat.sub_ne_zero_of_lt hroom)
      rw [show walkerRoom - running = n + 1 from hn, List.take_succ_cons]
      exact List.cons_ne_nil _ _

/-- Every walk after a start stands as before, or is one of the walker's that has begun. -/
theorem State.mem_startWalks {s : State} {i : TlbId} {y : Walk} (hy : y ∈ (s.startWalks i).walks) :
    y ∈ s.walks ∨ ∃ z ∈ s.walks, z.started = false ∧ sameWalker i z.at_ = true ∧ y = s.begun z := by
  obtain ⟨joint, hwalks, hown, -, -⟩ := s.startWalks_walks i
  rw [hwalks] at hy
  obtain ⟨z, hz, rfl⟩ := List.mem_map.mp hy
  split
  next hj =>
    obtain ⟨-, hs, hat⟩ := hown z hj
    exact .inr ⟨z, hz, hs, hat, rfl⟩
  next => exact .inl hz

theorem State.startWalks_full {s : State} {i : TlbId}
    (h : 16 ≤ (s.walks.filter fun y => sameWalker i y.at_ && y.started).length) : (s.startWalks i).walks = s.walks := by
  obtain ⟨joint, hwalks, -, hfull, -⟩ := s.startWalks_walks i
  rw [hwalks, hfull h]
  simp

theorem State.startWalks_begins {s : State} {i : TlbId}
    (h : (s.walks.filter fun y => sameWalker i y.at_ && y.started).length < 16)
    (hw : ∃ y ∈ s.walks, sameWalker i y.at_ = true ∧ y.started = false) :
    ∃ y ∈ s.walks, y.started = false ∧ sameWalker i y.at_ = true ∧ s.begun y ∈ (s.startWalks i).walks := by
  obtain ⟨joint, hwalks, hown, -, hsome⟩ := s.startWalks_walks i
  obtain ⟨y, hy⟩ := List.exists_mem_of_ne_nil joint (hsome h hw)
  obtain ⟨hmem, hs, hat⟩ := hown y hy
  refine ⟨y, hmem, hs, hat, ?_⟩
  rw [hwalks]
  exact List.mem_map.mpr ⟨y, hmem, if_pos hy⟩

/-! ### Shootdowns (24 R385 to R388) -/

section
variable {s : State} {target : BitVec 4} {i : Nat} {t : Tlbi}

theorem State.onTlbi_of (h : s.tlbis[i]? = some t) (f : Tlbi → Tlbi) :
    s.onTlbi i f = { s with tlbis := s.tlbis.set i (f t) } := by
  simp only [State.onTlbi, h]

/-- The invalidation reaches a target: the entries that it covers there go, and the generation advances (24 R385, R387). -/
theorem exec_tlbiTarget_reaches (h : s.tlbis[i]? = some t) (htarget : NSet.has t.targets target.toNat = true)
    (hreached : NSet.has t.reached target.toNat = false) (hlost : NSet.has t.lost target.toNat = false) :
    exec (.tlbiTarget i target) s = .next
      { s with
        tlb := s.tlb.filter fun y => !(y.at_.target = target.toNat && t.covers y)
        walkCache := s.walkCache.filter fun y => !(y.at_.target = target.toNat && t.coversPtr y)
        gens := Store.put s.gens (genKey t.part.toNat target.toNat) (s.genAt t.part.toNat target.toNat + 1)
        tlbis := s.tlbis.set i { t with reached := NSet.add t.reached target.toNat } } := by
  show execTlbiTarget i target s = _
  simp only [execTlbiTarget, h, htarget, hreached, hlost, Bool.not_true, Bool.or_self, Bool.false_eq_true, if_false, State.onTlbi]

theorem exec_tlbiAck_drains (h : s.tlbis[i]? = some t) (hreached : NSet.has t.reached target.toNat = true)
    (hacked : NSet.has t.acked target.toNat = false) (hlost : NSet.has t.lost target.toNat = false)
    (hmute : s.mute target.toNat = false) :
    exec (.tlbiAck i target) s = .next
      (((s.drainOld t target.toNat).onTlbi i fun t => { t with acked := NSet.add t.acked target.toNat }).wakeSync.pruneTlbis) := by
  show execTlbiAck i target s = _
  simp only [execTlbiAck, h, hreached, hacked, hlost, hmute, Bool.not_true, Bool.or_self, Bool.false_eq_true, if_false]

theorem exec_tlbiAck_mute (hmute : s.mute target.toNat = true) : exec (.tlbiAck i target) s = .next s := by
  show execTlbiAck i target s = _
  cases h : s.tlbis[i]? with
  | none => simp only [execTlbiAck, h]
  | some t => simp only [execTlbiAck, h, hmute, Bool.or_true, if_true]

end

/-- The invalidation waits for a target that has not acknowledged it. -/
def Tlbi.awaits (t : Tlbi) (n : Nat) : Bool := NSet.has t.targets n && !NSet.has t.acked n && !NSet.has t.lost n

/-- The partitions of which an invalidation waits for a target. -/
def State.awaiting (s : State) (n : Nat) : List (BitVec 4) := ((s.tlbis.filter (·.awaits n)).map (·.part)).eraseDups

/-- A target is lost: the groups of some partitions behind it end their requests and freeze, and the commands there freeze
(24 R388). -/
def State.loseTarget (s : State) (n : Nat) (parts : List (BitVec 4)) : State :=
  let lost : State :=
    { s with tlbis := s.tlbis.map fun t => if t.awaits n then { t with lost := NSet.add t.lost n } else t }
  let groups := lost.allGroups.foldl (fun v g =>
    if parts.contains g.2.id.part && g.2.behind n then (v.endRequests g.1).freezeSoon g.1 else v) lost
  (groups.cmds.filter fun c => parts.contains c.part && c.behind n && c.state != .frozen).foldl
    (fun v c => v.freezeCmd c 0 0) groups

section
variable {s : State} {target : BitVec 4}

theorem exec_shootdownTargetLost_idle (h : s.awaiting target.toNat = [] ∨ target.toNat = 14 ∧ s.lostPeers = []) :
    exec (.shootdownTargetLost target) s = .next s := by
  refine if_pos ?_
  obtain hnone | ⟨hpeers, hreach⟩ := h
  · exact Bool.or_eq_true_iff.mpr (.inl (List.isEmpty_iff.mpr hnone))
  · exact Bool.or_eq_true_iff.mpr (.inr (Bool.and_eq_true_iff.mpr ⟨decide_eq_true hpeers, List.isEmpty_iff.mpr hreach⟩))

section
variable (h : s.awaiting target.toNat ≠ [])
include h

/-- A target that is awaited is lost: the host functions freeze where it is I/O die 0, and the peers where it is the domain's. -/
theorem exec_shootdownTargetLost_freezes (hpeers : target.toNat = 14 → s.lostPeers ≠ []) :
    exec (.shootdownTargetLost target) s =
      .next (((if target.toNat = 12 then
          (s.loseTarget target.toNat (s.awaiting target.toNat)).freezeHosts (s.awaiting target.toNat)
        else if target.toNat = 14 then
          (s.loseTarget target.toNat (s.awaiting target.toNat)).freezePeers (s.awaiting target.toNat)
        else s.loseTarget target.toNat (s.awaiting target.toNat)).wakeSync).pruneTlbis) := by
  refine if_neg fun hidle => ?_
  obtain hnone | hboth := Bool.or_eq_true_iff.mp hidle
  · exact h (List.isEmpty_iff.mp hnone)
  · obtain ⟨hn, hreach⟩ := Bool.and_eq_true_iff.mp hboth
    exact hpeers (of_decide_eq_true hn) (List.isEmpty_iff.mp hreach)

theorem exec_shootdownTargetLost_die (hhost : target.toNat ≠ 12) (hdomain : target.toNat ≠ 14) :
    exec (.shootdownTargetLost target) s = .next ((s.loseTarget target.toNat (s.awaiting target.toNat)).wakeSync.pruneTlbis) := by
  rw [exec_shootdownTargetLost_freezes h fun hn => absurd hn hdomain, if_neg hhost, if_neg hdomain]

theorem exec_shootdownTargetLost_hosts (hhost : target.toNat = 12) : exec (.shootdownTargetLost target) s =
    .next (((s.loseTarget target.toNat (s.awaiting target.toNat)).freezeHosts (s.awaiting target.toNat)).wakeSync.pruneTlbis) := by
  rw [exec_shootdownTargetLost_freezes h fun hn => absurd (hhost.symm.trans hn) (by decide), if_pos hhost]

theorem exec_shootdownTargetLost_peers (hdomain : target.toNat = 14) (hreach : s.lostPeers ≠ []) :
    exec (.shootdownTargetLost target) s =
    .next (((s.loseTarget target.toNat (s.awaiting target.toNat)).freezePeers (s.awaiting target.toNat)).wakeSync.pruneTlbis) := by
  have hhost : target.toNat ≠ 12 := fun hn => absurd (hn.symm.trans hdomain) (by decide)
  rw [exec_shootdownTargetLost_freezes h fun _ => hreach, if_neg hhost, if_pos hdomain]

end

end

/-! ### The obligation -/

/-- Settles O39: migrations and tiering, then walks, then shootdowns. -/
theorem translationSteps : Obligations.TranslationSteps := by
  unfold Obligations.TranslationSteps
  refine ⟨?tiers, ?walks, ?shootdowns⟩
  case tiers =>
    intro s i m part asid va p t e live phase drop pages used f s1
    refine ⟨fun hm => ⟨?_, ?_, ?_, ?_, ?_⟩, ?_⟩
    · exact exec_pageMigration_begin hm
    · exact exec_pageMigration_waits hm
    · exact exec_pageMigration_copy hm
    · exact exec_pageMigration_abandon hm
    · exact exec_pageMigration_end hm
    · exact exec_tierPromotion_wanted
  case walks =>
    intro s target core part who va ins e l x p w walk can new mine gen seen size entry
    refine ⟨?asks, ?refuses, ?starts, ?restarts, ?fills, ?walker⟩
    case asks =>
      rintro ⟨hctx, hat, hpart⟩ hmine hok
      exact exec_pageWalk_asks hctx hat hpart hmine hok
    case refuses =>
      rintro ⟨hctx, hat, hpart⟩ hmine hok
      exact exec_pageWalk_refuses hctx hat hpart hmine hok
    case starts =>
      rintro ⟨hctx, hat, hpart⟩ hmine hw
      exact exec_pageWalk_starts hctx hat hpart hmine hw
    case restarts =>
      rintro ⟨hctx, hat, hpart⟩ hmine hw hgen
      rw [exec_pageWalk_ends hctx hat hpart hmine hw, State.endWalk_restarts hgen]
    case fills =>
      rintro ⟨hctx, hat, hpart⟩ hmine hw hgen hleaf
      exact ⟨_, exec_pageWalk_ends hctx hat hpart hmine hw, State.endWalk_fills hgen hleaf rfl⟩
    case walker => exact fun i => ⟨fun y hy => State.mem_startWalks hy, State.startWalks_full, State.startWalks_begins⟩
  case shootdowns =>
    intro s target i t n hit parts lost groups frozen
    refine ⟨?target, exec_tlbiAck_drains, exec_tlbiAck_mute, fun hnone => exec_shootdownTargetLost_idle (.inl hnone),
      fun hn hreach => exec_shootdownTargetLost_idle (.inr ⟨hn, hreach⟩), exec_shootdownTargetLost_die,
      exec_shootdownTargetLost_hosts, exec_shootdownTargetLost_peers⟩
    case target =>
      intro h htarget hreached hlost
      refine ⟨_, exec_tlbiTarget_reaches h htarget hreached hlost, rfl, rfl, ?_, rfl, rfl, rfl⟩
      exact congrArg (Option.getD · 0) (Store.get?_put_self ..)

end Sys2Proof.Machine

/-!
PROOFS. A plain write (07 R122, 08 R147): the bytes of one sector, what the request of a write moves in caches and carries of
poison, and what its timestamp, its bytes and the detector leave.
-/
namespace Sys2Proof.Machine
open Sys2Proof

/-! ### Sets of sectors -/

theorem NSet.has_add_ne (m : NSet) {i j : Nat} (h : j ≠ i) : NSet.has (NSet.add m i) j = NSet.has m j := by
  rw [NSet.has, NSet.add, Store.get?_put_ne m () h, NSet.has]

theorem NSet.has_rem {m : NSet} (hm : Store.wf m = true) (i j : Nat) :
    NSet.has (NSet.rem m i) j = (decide (j ≠ i) && NSet.has m j) := by
  rw [NSet.has, NSet.rem, Store.get?_del m i j hm, NSet.has]
  by_cases h : j = i <;> simp [h]

theorem NSet.wf_rem {m : NSet} (hm : Store.wf m = true) (i : Nat) : Store.wf (NSet.rem m i) = true := Store.wf_del m i hm

theorem NSet.has_rem_ne {m : NSet} (hm : Store.wf m = true) {i j : Nat} (h : j ≠ i) :
    NSet.has (NSet.rem m i) j = NSet.has m j := by
  rw [NSet.has_rem hm, decide_eq_true h, Bool.true_and]

theorem NSet.wf_foldl_rem (l : List Nat) {m : NSet} (hm : Store.wf m = true) : Store.wf (l.foldl NSet.rem m) = true := by
  induction l generalizing m with
  | nil => exact hm
  | cons x r ih => exact ih (NSet.wf_rem hm x)

theorem NSet.has_foldl_rem (l : List Nat) {m : NSet} (hm : Store.wf m = true) (j : Nat) :
    NSet.has (l.foldl NSet.rem m) j = (decide (j ∉ l) && NSet.has m j) := by
  induction l generalizing m with
  | nil => simp
  | cons x r ih =>
    rw [List.foldl_cons, ih (NSet.wf_rem hm x), NSet.has_rem hm]
    by_cases hx : j = x <;> simp [hx]

/-! ### Bytes written at an address -/

theorem bytesAt_cons (pa : Nat) (b : Byte) (d : List Byte) : bytesAt pa (b :: d) = (pa, b) :: bytesAt (pa + 1) d := by
  simp only [bytesAt, List.zipIdx_cons', List.map_cons, List.map_map, Nat.add_zero]
  congr 1
  refine List.map_congr_left fun x _ => ?_
  simp only [Function.comp, Prod.map, id, Nat.add_comm 1, Nat.add_assoc]

theorem exists_bytesAt_eq_cons {d : List Byte} (hd : d ≠ []) (pa : Nat) : ∃ b r, bytesAt pa d = (pa, b) :: r := by
  cases d with
  | nil => contradiction
  | cons b r => exact ⟨b, _, bytesAt_cons pa b r⟩

/-- The addresses of bytes written at an address. -/
theorem exists_mem_bytesAt {pa q : Nat} {d : List Byte} : (∃ x ∈ bytesAt pa d, x.1 = q) ↔ pa ≤ q ∧ q < pa + d.length := by
  induction d generalizing pa with
  | nil => simp [bytesAt]
  | cons b r ih =>
    rw [bytesAt_cons, List.length_cons]
    simp only [List.mem_cons, exists_eq_or_imp, ih]
    omega

theorem mem_bytesAt_bounds {pa : Nat} {d : List Byte} {x : Nat × Byte} (hx : x ∈ bytesAt pa d) :
    pa ≤ x.1 ∧ x.1 < pa + d.length := exists_mem_bytesAt.mp ⟨x, hx, rfl⟩

/-- The bytes written at an address are read back. -/
theorem Memory.getD_putAll_bytesAt {m : Store Byte} (hm : Memory.wf m = true) (pa : Nat) {d : List Byte} {i : Nat}
    (h : i < d.length) : Store.getD (putAll m (bytesAt pa d)) (pa + i) 0 = d[i] := by
  induction d generalizing m pa i with
  | nil => contradiction
  | cons b r ih =>
    rw [bytesAt_cons, putAll]
    cases i with
    | zero =>
      rw [Memory.getD_putAll_ne _ _ _ (Memory.wf_put m pa b hm), Memory.getD_put m pa _ b hm, if_pos (Nat.add_zero pa),
        List.getElem_cons_zero]
      intro x hx
      have := mem_bytesAt_bounds hx
      omega
    | succ i =>
      rw [show pa + (i + 1) = pa + 1 + i by omega, ih (Memory.wf_put m pa b hm) (pa + 1) (Nat.lt_of_succ_lt_succ h),
        List.getElem_cons_succ]

section
variable {pa : Nat} {d : List Byte} (hsec : pa % 32 + d.length ≤ 32)
include hsec

/-- Bytes of one sector cover it whole where they are 32, and no other. -/
theorem mem_wholeSectors_bytesAt {k : Nat} : k ∈ wholeSectors (bytesAt pa d) ↔ k = sectorOf pa ∧ d.length = 32 := by
  simp only [wholeSectors, List.mem_filter, List.mem_eraseDups, List.mem_map, List.all_eq_true, List.mem_range, List.any_eq_true,
    decide_eq_true_eq, exists_mem_bytesAt]
  constructor
  · rintro ⟨⟨x, hx, rfl⟩, hall⟩
    have hin := mem_bytesAt_bounds hx
    have hfirst := hall 0 (by decide)
    have hlast := hall 31 (by decide)
    unfold sectorOf at *
    omega
  · rintro ⟨rfl, hlen⟩
    obtain ⟨x, hx, hpa⟩ := (exists_mem_bytesAt (pa := pa) (d := d) (q := pa)).mpr (by omega)
    refine ⟨⟨x, hx, hpa ▸ rfl⟩, fun i hi => ?_⟩
    unfold sectorOf
    omega

end

/-! ### The bytes and the sectors of a mask -/

theorem maskOf_foldl_getLsbD {l : List (Nat × Byte)} {m : BitVec 128} {j : Nat}
    (h : (l.foldl (fun m x => m ||| (1#128 <<< (x.1 % 128))) m).getLsbD j = true) :
    m.getLsbD j = true ∨ ∃ x ∈ l, x.1 % 128 = j := by
  induction l generalizing m with
  | nil => exact .inl h
  | cons x r ih =>
    obtain hm | ⟨y, hy, hj⟩ := ih h
    · simp only [BitVec.getLsbD_or, BitVec.getLsbD_shiftLeft, BitVec.getLsbD_one, Bool.or_eq_true, Bool.and_eq_true,
        Bool.not_eq_true', decide_eq_true_eq, decide_eq_false_iff_not] at hm
      obtain hm | ⟨⟨-, hle⟩, -, hsub⟩ := hm
      · exact .inl hm
      · exact .inr ⟨x, List.mem_cons_self, by omega⟩
    · exact .inr ⟨y, List.mem_cons_of_mem _ hy, hj⟩

/-- A byte of a write's mask is one that it names. -/
theorem exists_of_maskOf {l : List (Nat × Byte)} {j : Nat} (h : (maskOf l).getLsbD j = true) : ∃ x ∈ l, x.1 % 128 = j :=
  (maskOf_foldl_getLsbD h).resolve_left (by simp)

/-- The bits of a number put together from four. -/
theorem ofNat_sum_four_bits (b : Nat → Bool) (i : Fin 4) :
    (BitVec.ofNat 4 (((List.range 4).map fun k => if b k = true then 0 else 2 ^ k).sum)).getLsbD i = !b i := by
  have hbits : ∀ b0 b1 b2 b3 : Bool,
      let w := BitVec.ofNat 4 [if b0 = true then 0 else 2 ^ 0, if b1 = true then 0 else 2 ^ 1, if b2 = true then 0 else 2 ^ 2,
        if b3 = true then 0 else 2 ^ 3].sum
      w.getLsbD 0 = !b0 ∧ w.getLsbD 1 = !b1 ∧ w.getLsbD 2 = !b2 ∧ w.getLsbD 3 = !b3 := by decide
  obtain ⟨h0, h1, h2, h3⟩ := hbits (b 0) (b 1) (b 2) (b 3)
  match i with
  | 0 => exact h0
  | 1 => exact h1
  | 2 => exact h2
  | 3 => exact h3

theorem secMask_getLsbD (m : BitVec 128) {i : Nat} (hi : i < 4) :
    (secMask m).getLsbD i = !decide (m.extractLsb' (32 * i) 32 = 0) := by
  have h := ofNat_sum_four_bits (fun k => decide (m.extractLsb' (32 * k) 32 = 0)) ⟨i, hi⟩
  simp only [decide_eq_true_eq] at h
  exact h

/-- A sector that a mask touches holds a byte of it. -/
theorem exists_of_secMask {m : BitVec 128} {i : Nat} (h : (secMask m).getLsbD i = true) :
    ∃ j, j < 32 ∧ m.getLsbD (32 * i + j) = true := by
  rw [secMask_getLsbD m (BitVec.lt_of_getLsbD h), Bool.not_eq_true', decide_eq_false_iff_not] at h
  refine Classical.byContradiction fun hnone => h (BitVec.eq_of_getLsbD_eq fun j hj => ?_)
  rw [BitVec.getLsbD_extractLsb', Bool.eq_false_iff.mpr fun hbit => hnone ⟨j, hj, hbit⟩, Bool.and_false, BitVec.ofNat_eq_ofNat,
    BitVec.getLsbD_zero]

/-- The bytes of one sector touch that sector of their line alone. -/
theorem sector_of_secMask {pa : Nat} {d : List Byte} (hsec : pa % 32 + d.length ≤ 32) {i : Nat}
    (h : (secMask (maskOf (bytesAt pa d))).getLsbD i = true) : 4 * lineOf pa + i = sectorOf pa := by
  obtain ⟨j, hj, hbit⟩ := exists_of_secMask h
  obtain ⟨x, hx, hx128⟩ := exists_of_maskOf hbit
  have hin := mem_bytesAt_bounds hx
  unfold lineOf sectorOf
  omega

/-! ### What a request leaves of a line's lease (08 R139) -/

section
variable (l : Line) (h : Home) (t : Nat)

@[simp] theorem Line.delDir_rts : (l.delDir t).rts = l.rts := rfl

@[simp] theorem Line.setDir_rts (e : DirEntry) : (l.setDir t e).rts = l.rts := by
  unfold Line.setDir
  split <;> rfl

@[simp] theorem Line.takeDirty_rts (d : BitVec 4) : (l.takeDirty h d).rts = l.rts := by
  unfold Line.takeDirty
  split <;> rfl

@[simp] theorem Line.arrive_rts (n : Notice) : (l.arrive h n).rts = l.rts := by
  unfold Line.arrive
  repeat' split
  all_goals simp

@[simp] theorem Line.settle_rts : (l.settle h).rts = l.rts := by
  have hfold (ns : List Notice) (l : Line) : (ns.foldl (fun l n => l.arrive h n) l).rts = l.rts := by
    induction ns generalizing l with
    | nil => rfl
    | cons n r ih => rw [List.foldl_cons, ih, Line.arrive_rts]
  exact hfold l.notices _

@[simp] theorem Line.others_rts (t : Option Nat) (writes : Bool) : (l.others h t writes).rts = l.rts := by
  unfold Line.others
  induction l.dirs generalizing l with
  | nil => rfl
  | cons x r ih =>
    rw [List.foldl_cons, ih]
    dsimp only
    split
    · rfl
    · split <;> simp

/-- A request for write ownership leaves the lease of a line, and so does a write that allocates nowhere. -/
theorem Line.own_rts (core : Nat) (m : BitVec 128) (now : Nat) : (l.own h t core m now).rts = l.rts := by
  unfold Line.own
  split
  · split <;> simp
  · simp

theorem Line.wrote_rts (t : Option Nat) : (l.wrote h t).rts = l.rts := by
  unfold Line.wrote
  cases t <;> simp

end

/-! ### What a request moves in the caches (07 R120) -/

theorem State.lineAt_setLine (s : State) (n m : Nat) (l : Line) :
    (s.setLine n l).lineAt m = if m = n then l else s.lineAt m := by
  unfold State.lineAt State.setLine Store.getD
  rw [Store.get?_put]
  split <;> rfl

@[simp] theorem State.lineAt_setLine_self (s : State) (n : Nat) (l : Line) : (s.setLine n l).lineAt n = l := by
  rw [State.lineAt_setLine, if_pos rfl]

/-- One state comes from another by moves of copies alone: what caches hold of lines, the counter of free values, and the steps that
come next; every lease stands. -/
def State.MovesTo (s v : State) : Prop :=
  (∃ l n a, v = { s with lines := l, nonce := n, agenda := a }) ∧ ∀ ln, (v.lineAt ln).rts = (s.lineAt ln).rts

theorem State.MovesTo.refl (s : State) : s.MovesTo s := ⟨⟨_, _, _, rfl⟩, fun _ => rfl⟩

theorem State.MovesTo.trans {s v w : State} (hv : s.MovesTo v) (hw : v.MovesTo w) : s.MovesTo w := by
  obtain ⟨⟨_, _, _, rfl⟩, hrts⟩ := hv
  obtain ⟨⟨_, _, _, rfl⟩, hrts'⟩ := hw
  exact ⟨⟨_, _, _, rfl⟩, fun ln => (hrts' ln).trans (hrts ln)⟩

theorem State.movesTo_setLine {s : State} {ln : Nat} {l : Line} (h : l.rts = (s.lineAt ln).rts) : s.MovesTo (s.setLine ln l) := by
  refine ⟨⟨_, _, _, rfl⟩, fun m => ?_⟩
  rw [State.lineAt_setLine]
  split
  next hm => rw [hm, h]
  next => rfl

theorem State.movesTo_spill (s : State) (t core : Nat) (l2 : Bool) : s.MovesTo (s.spill t core l2) := by
  unfold State.spill
  extract_lets here n ln at_
  generalize (if l2 = true then s.l2Lines t else l1Lines) = room
  split
  · exact .refl s
  · exact ⟨⟨_, _, _, rfl⟩, fun _ => rfl⟩

theorem State.movesTo_spillMsc (s : State) (t : Nat) : s.MovesTo (s.spillMsc t) := by
  unfold State.spillMsc
  extract_lets here n ln
  split
  · exact .refl s
  · have hgone : s.MovesTo (s.setLine ln { s.lineAt ln with msc := none }) := State.movesTo_setLine rfl
    exact hgone.trans ⟨⟨_, _, _, rfl⟩, fun _ => rfl⟩

theorem State.movesTo_spillHome (s : State) (ln : Nat) : s.MovesTo (s.spillHome ln) := by
  unfold State.spillHome
  split
  · exact (s.movesTo_spill _ _ true).trans (State.movesTo_spillMsc _ _)
  · exact .refl s

theorem State.movesTo_spillAll (s : State) (core ln : Nat) : s.MovesTo (s.spillAll core ln) :=
  ((s.movesTo_spill _ core false).trans (State.movesTo_spill _ _ core true)).trans (State.movesTo_spillHome _ ln)

/-! ### The poison that a write's request carries (28 R431, log 44) -/

/-- A sector of a line as a number of its own. -/
theorem sectorOf_line (ln i : Nat) : sectorOf (128 * ln + 32 * i) = 4 * ln + i := by
  unfold sectorOf
  omega

/-- What a request does to the poison of sector `i` of a line, where `x` are the sectors in which its copy has met an error and `y`
those in which it is sound. -/
def State.carrySector (x y : BitVec 4) (ln : Nat) (s : State) (i : Nat) : State :=
  if x.getLsbD i then s.markPoison (128 * ln + 32 * i)
  else if y.getLsbD i then { s with poison := NSet.rem s.poison (4 * ln + i) }
  else s

theorem State.carryPoison_eq (s : State) (a : Agent) (ln : Nat) (m : BitVec 128) :
    s.carryPoison a ln m =
      let x := (s.lineAt ln).struck a.tower? a.l1? &&& secMask m
      let y := (s.lineAt ln).soundIn a.tower? a.l1? &&& secMask m
      if x = 0 && y = 0 then s else (List.range 4).foldl (State.carrySector x y ln) s := rfl

/-- One state comes from another by changes of poison at the sectors of a line that a mask touches. -/
def State.CarriesTo (s : State) (ln : Nat) (m : BitVec 128) (v : State) : Prop :=
  ∃ p, v = { s with poison := p } ∧ (Store.wf s.poison = true → Store.wf p = true ∧
    ∀ n, (∀ i, (secMask m).getLsbD i = true → 4 * ln + i ≠ n) → NSet.has p n = NSet.has s.poison n)

theorem State.CarriesTo.refl (s : State) (ln : Nat) (m : BitVec 128) : s.CarriesTo ln m s :=
  ⟨_, rfl, fun hs => ⟨hs, fun _ _ => rfl⟩⟩

theorem State.CarriesTo.trans {s v w : State} {ln : Nat} {m : BitVec 128} (hv : s.CarriesTo ln m v) (hw : v.CarriesTo ln m w) :
    s.CarriesTo ln m w := by
  obtain ⟨_, rfl, hp⟩ := hv
  obtain ⟨_, rfl, hq⟩ := hw
  refine ⟨_, rfl, fun hs => ?_⟩
  obtain ⟨hwf, hkeep⟩ := hp hs
  obtain ⟨hwf', hkeep'⟩ := hq hwf
  exact ⟨hwf', fun n hn => (hkeep' n hn).trans (hkeep n hn)⟩

theorem State.carriesTo_carrySector (s : State) {m : BitVec 128} (x y : BitVec 4) (ln i : Nat) :
    s.CarriesTo ln m (s.carrySector (x &&& secMask m) (y &&& secMask m) ln i) := by
  have htouched {z : BitVec 4} (hz : (z &&& secMask m).getLsbD i = true) : (secMask m).getLsbD i = true := by
    rw [BitVec.getLsbD_and, Bool.and_eq_true] at hz
    exact hz.2
  unfold State.carrySector
  split
  next hx =>
    refine ⟨_, rfl, fun hs => ⟨Store.wf_put _ _ _ hs, fun n hn => NSet.has_add_ne _ ?_⟩⟩
    rw [sectorOf_line]
    exact (hn i (htouched hx)).symm
  next =>
    split
    next hy => exact ⟨_, rfl, fun hs => ⟨NSet.wf_rem hs _, fun n hn => NSet.has_rem_ne hs (hn i (htouched hy)).symm⟩⟩
    next => exact .refl s ln m

/-- The request marks or clears poison of the sectors that the write touches alone. -/
theorem State.carriesTo_carryPoison (s : State) (a : Agent) (ln : Nat) (m : BitVec 128) :
    s.CarriesTo ln m (s.carryPoison a ln m) := by
  rw [State.carryPoison_eq]
  dsimp only
  split
  next => exact .refl s ln m
  next hxy =>
    clear hxy
    generalize (s.lineAt ln).struck a.tower? a.l1? = x, (s.lineAt ln).soundIn a.tower? a.l1? = y
    induction List.range 4 generalizing s with
    | nil => exact .refl s ln m
    | cons i r ih => exact (s.carriesTo_carrySector x y ln i).trans (ih _)

/-- It leaves poison where the copy has met no error of its own and is not sound where the backing location is not. -/
theorem State.carryPoison_clean {s : State} {a : Agent} {ln : Nat} (m : BitVec 128)
    (hstruck : (s.lineAt ln).struck a.tower? a.l1? = 0) (hsound : (s.lineAt ln).soundIn a.tower? a.l1? = 0) :
    s.carryPoison a ln m = s := by
  rw [State.carryPoison_eq, hstruck, hsound]
  exact if_pos (by simp)

/-- The request of a write: some poison is carried, then copies move. -/
theorem State.reqWrite_moves (s : State) (a : Agent) (ln : Nat) (m : BitVec 128) (alloc : Bool) :
    ∃ v, s.CarriesTo ln m v ∧ v.MovesTo (s.reqWrite a ln m alloc) ∧
      ((s.lineAt ln).struck a.tower? a.l1? = 0 → (s.lineAt ln).soundIn a.tower? a.l1? = 0 → v = s) := by
  unfold State.reqWrite
  dsimp only
  split
  next k _ =>
    refine ⟨s.carryPoison (.group k) ln m, s.carriesTo_carryPoison _ ln m, ?_, State.carryPoison_clean m⟩
    obtain ⟨p, hp, -⟩ := s.carriesTo_carryPoison (.group k) ln m
    refine (State.movesTo_setLine ?_).trans (State.movesTo_spillAll _ _ _)
    rw [Line.own_rts, hp]
    rfl
  next => exact ⟨s, .refl s ln m, State.movesTo_setLine (Line.wrote_rts ..), fun _ _ => rfl⟩

/-! ### The timestamp, the bytes, and what the detector keeps -/

theorem State.raiseLt_mem (s : State) (a : Agent) (n : Nat) : (s.raiseLt a n).mem = s.mem := by
  cases a with
  | group k => exact s.onGroup_mem k _
  | cmd c => rfl
  | ext => rfl

theorem State.raiseLt_poison (s : State) (a : Agent) (n : Nat) : (s.raiseLt a n).poison = s.poison := by
  cases a with
  | group k => exact s.onGroup_poison k _
  | cmd c => rfl
  | ext => rfl

theorem State.raiseLt_lineAt (s : State) (a : Agent) (n ln : Nat) : (s.raiseLt a n).lineAt ln = s.lineAt ln := by
  cases a with
  | group k => exact congrArg (Store.getD · ln {}) (s.onGroup_lines k _)
  | cmd c => rfl
  | ext => rfl

/-- A sweep only raises the timestamps of a line (08 R146). -/
theorem State.le_wts_sweepLine (s : State) (ln : Nat) : (s.lineAt ln).wts ≤ ((s.sweepLine ln).lineAt ln).wts := by
  unfold State.sweepLine
  extract_lets b l
  split
  · rw [State.lineAt_setLine_self]
    exact Nat.le_max_left ..
  · exact Nat.le_refl _

/-- What marks the frame and may raise the base leaves memory, poison and the line. -/
theorem State.rebase_markDirty_frame (s : State) (ln ts : Nat) :
    ∃ b d, (s.markDirty ln).rebase ln ts = { s with bases := b, dirty := d } := by
  obtain ⟨d, hd⟩ := s.markDirty_dirty ln
  obtain ⟨b, hb⟩ := (s.markDirty ln).rebase_bases ln ts
  exact ⟨b, d, by rw [hb, hd]⟩

section
variable (s : State) (a : Agent) (ln lt0 : Nat)

theorem State.stamp_mem : (s.stamp a ln lt0).mem = s.mem := by
  unfold State.stamp
  extract_lets lt l ts lease s1
  obtain ⟨b, d, h⟩ := s1.rebase_markDirty_frame ln ts
  obtain ⟨x, hx⟩ := ((s1.markDirty ln).rebase ln ts).sweepLine_lines ln
  rw [State.raiseLt_mem, hx, h]
  rfl

theorem State.stamp_poison : (s.stamp a ln lt0).poison = s.poison := by
  unfold State.stamp
  extract_lets lt l ts lease s1
  obtain ⟨b, d, h⟩ := s1.rebase_markDirty_frame ln ts
  obtain ⟨x, hx⟩ := ((s1.markDirty ln).rebase ln ts).sweepLine_lines ln
  rw [State.raiseLt_poison, hx, h]
  rfl

/-- The line takes a write timestamp at or above the writer's time and above its lease end (08 R147). -/
theorem State.le_wts_stamp :
    max (max lt0 (s.ltOf a)) ((s.lineAt ln).rts + 1) ≤ ((s.stamp a ln lt0).lineAt ln).wts := by
  unfold State.stamp
  extract_lets lt l ts lease s1
  obtain ⟨b, d, h⟩ := s1.rebase_markDirty_frame ln ts
  have hswept := State.le_wts_sweepLine ((s1.markDirty ln).rebase ln ts) ln
  have hset : (((s1.markDirty ln).rebase ln ts).lineAt ln).wts = ts := by
    rw [h]
    exact congrArg Line.wts (s.lineAt_setLine_self ln _)
  rw [State.raiseLt_lineAt]
  exact Nat.le_trans (Nat.le_of_eq hset.symm) hswept

end

/-- The detector changes what it tracks of a line, and the core that takes its report (09 R179). -/
def State.DetectsTo (s v : State) : Prop :=
  (∃ l c, v = { s with lines := l, cores := c }) ∧ ∀ ln, (v.lineAt ln).wts = (s.lineAt ln).wts

theorem State.DetectsTo.refl (s : State) : s.DetectsTo s := ⟨⟨_, _, rfl⟩, fun _ => rfl⟩

theorem State.detectsTo_setTracks (s : State) (ln : Nat) (tracks : Store Track) :
    s.DetectsTo (s.setLine ln { s.lineAt ln with tracks := tracks }) := by
  refine ⟨⟨_, _, rfl⟩, fun m => ?_⟩
  rw [State.lineAt_setLine]
  split
  next hm => rw [hm]
  next => rfl

theorem State.detectsTo_report {s v : State} (h : s.DetectsTo v) (core ln w1 w2 : Nat) (m : BitVec 128) (ovf : Bool) :
    s.DetectsTo (v.report core ln w1 w2 m ovf) := by
  have htrail {v : State} (h : s.DetectsTo v) (c rs typ aux pay : Nat) : s.DetectsTo (v.trail c rs typ aux pay) := by
    obtain ⟨x, hx⟩ := v.trail_cores c rs typ aux pay
    obtain ⟨⟨l, y, rfl⟩, hwts⟩ := h
    rw [hx]
    exact ⟨⟨l, x, rfl⟩, hwts⟩
  unfold State.report
  extract_lets o
  exact htrail (htrail (htrail (htrail (htrail h ..) ..) ..) ..) ..

theorem State.detectsTo_detect (s : State) (a : Agent) (ln : Nat) (m : BitVec 128) : s.DetectsTo (s.detect a ln m) := by
  unfold State.detect
  split
  next la lin core _ _ =>
    extract_lets l k known ws ovf cleared
    have hcleared : s.DetectsTo cleared := s.detectsTo_setTracks ln _
    split
    · exact State.detectsTo_report hcleared ..
    · split
      · exact State.detectsTo_report hcleared ..
      · exact s.detectsTo_setTracks ln _
  next => exact .refl s

/-! ### One write, performed -/

/-- A request to DRAM waits in a queue or is answered; nothing else changes (07 R130). -/
theorem State.send_frame (s : State) (r : Option DramReq) (ln : Nat) :
    ∃ q v, s.send r ln = { s with dram := q, served := v } := by
  have hnear (r : Option DramReq) : ∃ q v, s.sendNear r = { s with dram := q, served := v } := by
    unfold State.sendNear
    repeat' split
    all_goals exact ⟨_, _, rfl⟩
  unfold State.send
  split
  · exact ⟨_, _, rfl⟩
  · split
    · exact ⟨_, _, rfl⟩
    · exact hnear _

theorem State.ltOf_congr {s v : State} (a : Agent) (hg : v.groups = s.groups) (hc : v.cmds = s.cmds) : v.ltOf a = s.ltOf a := by
  cases a with
  | group k => simp only [State.ltOf, State.group?, hg]
  | cmd c => simp only [State.ltOf, State.cmd?, hc]
  | ext => rfl

theorem State.mergeLine_of_no_pot {s : State} (a : Agent) {ln : Nat} (h : (s.lineAt ln).pot = none) : s.mergeLine a ln = s := by
  unfold State.mergeLine
  dsimp only
  rw [h]

/-- What the request of a write leaves of the machine: its bytes, the writer's time, the line's lease, and all poison but that of
the sectors which the write touches; that too where the copy has met no error of its own and is not sound where the backing
location is not. -/
structure State.RequestsTo (s : State) (a : Agent) (ln : Nat) (m : BitVec 128) (w : State) : Prop where
  mem : w.mem = s.mem
  ltOf : w.ltOf a = s.ltOf a
  rts : (w.lineAt ln).rts = (s.lineAt ln).rts
  wf : Store.wf s.poison = true → Store.wf w.poison = true
  keeps : Store.wf s.poison = true → ∀ n, (∀ i, (secMask m).getLsbD i = true → 4 * ln + i ≠ n) →
    NSet.has w.poison n = NSet.has s.poison n
  clean : (s.lineAt ln).struck a.tower? a.l1? = 0 → (s.lineAt ln).soundIn a.tower? a.l1? = 0 → w.poison = s.poison

theorem State.requestsTo_send_reqWrite (s : State) (a : Agent) (r : Option DramReq) (ln : Nat) (m : BitVec 128) (alloc : Bool) :
    s.RequestsTo a ln m ((s.send r ln).reqWrite a ln m alloc) := by
  obtain ⟨q, served, hsend⟩ := s.send_frame r ln
  rw [hsend]
  obtain ⟨v, ⟨p, hv, hcarry⟩, ⟨⟨l, n, g, hw⟩, hrts⟩, hclean⟩ :=
    ({ s with dram := q, served := served } : State).reqWrite_moves a ln m alloc
  subst hv
  exact
    { mem := by rw [hw]
      ltOf := State.ltOf_congr a (by rw [hw]) (by rw [hw])
      rts := hrts ln
      wf := fun hs => by rw [hw]; exact (hcarry hs).1
      keeps := fun hs => by rw [hw]; exact (hcarry hs).2
      clean := fun hstruck hsound => by rw [hw]; exact congrArg (·.poison) (hclean hstruck hsound) }

/-- A write to a line without a P state is a request, a timestamp and the bytes, and what the detector makes of it. -/
theorem State.performOp_of_no_pot {s : State} {a : Agent} {pa : Nat} {b : Byte} {r l : List (Nat × Byte)} (hl : l = (pa, b) :: r)
    (hpot : (s.lineAt (lineOf pa)).pot = none) (tracked alloc : Bool) (req : Option DramReq) (lt0 : Nat) :
    ∃ q, State.DetectsTo
      ((((s.send q (lineOf pa)).reqWrite a (lineOf pa) (maskOf l) alloc).stamp a (lineOf pa) lt0).putBytes l)
      (s.performOp a l tracked alloc req lt0) := by
  subst hl
  obtain ⟨q, hop⟩ : ∃ q, s.performOp a ((pa, b) :: r) tracked alloc req lt0 =
      let m := maskOf ((pa, b) :: r)
      let v := (((((s.send q (lineOf pa)).mergeLine a (lineOf pa)).reqWrite a (lineOf pa) m alloc).stamp a (lineOf pa) lt0).putBytes
        ((pa, b) :: r))
      if tracked = true then v.detect a (lineOf pa) m else v := ⟨_, rfl⟩
  obtain ⟨dram, served, hsend⟩ := s.send_frame q (lineOf pa)
  have hpot' : ((s.send q (lineOf pa)).lineAt (lineOf pa)).pot = none := by rw [hsend]; exact hpot
  rw [State.mergeLine_of_no_pot a hpot'] at hop
  refine ⟨q, ?_⟩
  rw [hop]
  dsimp only
  split
  · exact State.detectsTo_detect ..
  · exact .refl _

/-- What a write to a line without a P state leaves, once its request is answered: the bytes stand, the sectors that they cover
whole are sound, and the line has its timestamp. -/
theorem State.performOp_leaves {s : State} {a : Agent} {pa : Nat} {b : Byte} {r l : List (Nat × Byte)} (hl : l = (pa, b) :: r)
    (hpot : (s.lineAt (lineOf pa)).pot = none) (tracked alloc : Bool) (req : Option DramReq) (lt0 : Nat) :
    ∃ w, s.RequestsTo a (lineOf pa) (maskOf l) w ∧ (s.performOp a l tracked alloc req lt0).mem = putAll w.mem l ∧
      (s.performOp a l tracked alloc req lt0).poison = (wholeSectors l).foldl NSet.rem w.poison ∧
      max (max lt0 (w.ltOf a)) ((w.lineAt (lineOf pa)).rts + 1) ≤
        ((s.performOp a l tracked alloc req lt0).lineAt (lineOf pa)).wts := by
  obtain ⟨q, ⟨x, c, hop⟩, hwts⟩ := State.performOp_of_no_pot hl hpot tracked alloc req lt0
  refine ⟨_, s.requestsTo_send_reqWrite a q (lineOf pa) (maskOf l) alloc, ?mem, ?poison, ?wts⟩
  case mem => rw [hop]; exact congrArg (putAll · l) (State.stamp_mem ..)
  case poison => rw [hop]; exact congrArg (List.foldl NSet.rem · (wholeSectors l)) (State.stamp_poison ..)
  case wts => rw [hwts]; exact State.le_wts_stamp ..

/-! ### One write, asked for (01 R11, 29 R448) -/

theorem State.meets_false {s : State} {a : Agent} {pa : Nat} (h : (s.meets a pa).1 = false) :
    ∃ n, s.meets a pa = (false, { s with nonce := n }) := by
  unfold State.meets State.flip at h ⊢
  split at h
  · contradiction
  next hstray =>
    rw [if_neg hstray]
    split at h
    next hlocal => exact ⟨_, if_pos hlocal⟩
    next hlocal =>
      rw [if_neg hlocal]
      split at h
      · contradiction
      next hflit => exact ⟨s.nonce + 1, by rw [if_neg hflit]; exact congrArg (Prod.mk · _) h⟩

section
variable {s : State} {a : Agent} {pa : Nat} {b : Byte} {r l : List (Nat × Byte)} (hl : l = (pa, b) :: r) (tracked alloc : Bool)
  (req : Option DramReq) (lt0 : Nat)
include hl

theorem State.writeOp_lost (h : s.lostAt pa = true) : s.writeOp a l tracked alloc req lt0 = s := by
  subst hl
  exact if_pos h

variable (h : s.lostAt pa = false)
include h

theorem State.writeOp_astray (hm : (s.meets a pa).1 = true) : s.writeOp a l tracked alloc req lt0 = (s.meets a pa).2 := by
  subst hl
  have hpair : s.meets a pa = (true, (s.meets a pa).2) := Prod.ext hm rfl
  rw [State.writeOp, h, if_neg Bool.false_ne_true, hpair]

theorem State.writeOp_performs (hm : (s.meets a pa).1 = false) :
    ∃ n, s.writeOp a l tracked alloc req lt0 = ({ s with nonce := n } : State).performOp a l tracked alloc req lt0 := by
  subst hl
  obtain ⟨n, hpair⟩ := State.meets_false hm
  exact ⟨n, by rw [State.writeOp, h, if_neg Bool.false_ne_true, hpair]⟩

end

/-! ### The obligation -/

/-- Settles O59: a write that is lost or astray, then one that is performed: its bytes, the other bytes, poison, the canonical form
and the timestamp. -/
theorem writeReadsBack : Obligations.WriteReadsBack := by
  unfold Obligations.WriteReadsBack
  intro s a pa d tracked t ln l
  refine ⟨fun hd hlost => ?lost, fun hd hlost hm => ?astray, fun hmem hpoison hd hsec hlost hm hpot => ?done⟩
  case lost =>
    obtain ⟨b, r, hl⟩ := exists_bytesAt_eq_cons hd pa
    exact State.writeOp_lost hl tracked true none 0 hlost
  case astray =>
    obtain ⟨b, r, hl⟩ := exists_bytesAt_eq_cons hd pa
    exact State.writeOp_astray hl tracked true none 0 hlost hm
  case done =>
    obtain ⟨b, r, hl⟩ := exists_bytesAt_eq_cons hd pa
    obtain ⟨n, ht⟩ := State.writeOp_performs hl tracked true none 0 hlost hm
    obtain ⟨w, hw, htmem, htpoison, htwts⟩ :=
      State.performOp_leaves (s := { s with nonce := n }) (a := a) hl hpot tracked true none 0
    rw [← ht] at htmem htpoison htwts
    have hwf : Store.wf w.poison = true := hw.wf hpoison
    have hwhole {k : Nat} := mem_wholeSectors_bytesAt hsec (k := k)
    refine ⟨fun i hi => ?bytes, fun q hq => ?others, fun h32 => ?sound, fun k hk => ?sectors, fun hstruck hsound hpart => ?part,
      ?wf, ?canonical, ?lease, ?time⟩
    case bytes =>
      show Store.getD t.mem (pa + i) 0 = _
      rw [htmem, hw.mem, Memory.getD_putAll_bytesAt hmem pa hi]
    case others =>
      show Store.getD t.mem q 0 = _
      rw [htmem, hw.mem, Memory.getD_putAll_ne _ _ _ hmem]
      · rfl
      · intro x hx
        have := mem_bytesAt_bounds hx
        omega
    case sound =>
      rw [htpoison, NSet.has_foldl_rem _ hwf, decide_eq_false (not_not_intro (hwhole.mpr ⟨rfl, h32⟩)), Bool.false_and]
    case sectors =>
      have hout : k ∉ wholeSectors (bytesAt pa d) := fun hin => hk (hwhole.mp hin).1
      rw [htpoison, NSet.has_foldl_rem _ hwf, decide_eq_true hout, Bool.true_and]
      exact hw.keeps hpoison k fun i hi hik => hk (hik.symm.trans (sector_of_secMask hsec hi))
    case part =>
      have hout : sectorOf pa ∉ wholeSectors (bytesAt pa d) := fun hin => hpart (hwhole.mp hin).2
      rw [htpoison, NSet.has_foldl_rem _ hwf, decide_eq_true hout, Bool.true_and, hw.clean hstruck hsound]
    case wf => rw [htpoison]; exact NSet.wf_foldl_rem _ hwf
    case canonical => rw [htmem, hw.mem]; exact Memory.wf_putAll _ _ hmem
    case lease =>
      have hrts : (w.lineAt ln).rts = (s.lineAt ln).rts := hw.rts
      exact hrts ▸ Nat.lt_of_succ_le (Nat.le_trans (Nat.le_max_right ..) htwts)
    case time =>
      have hlt : w.ltOf a = s.ltOf a := hw.ltOf.trans (State.ltOf_congr a rfl rfl)
      exact hlt ▸ Nat.le_trans (Nat.le_trans (Nat.le_max_right ..) (Nat.le_max_left ..)) htwts

end Sys2Proof.Machine

/-!
PROOFS. The steps of engine commands (09 R172, R173, 10 R206, 11 R218, R225 to R227) and of collectives (12 R229, R234, R235).
-/
namespace Sys2Proof.Machine
open Sys2Proof

/-! ### The command of a step -/

theorem State.key_of_cmd? {s : State} {c : CKey} {d : Cmd} (h : s.cmd? c = some d) : d.key = c := by
  simpa only [beq_iff_eq] using List.find?_some h

theorem State.cmd?_congr {s t : State} (h : t.cmds = s.cmds) (c : CKey) : t.cmd? c = s.cmd? c := by
  simp only [State.cmd?, h]

@[simp] theorem State.unitOr_ok (s t : State) (d : Cmd) : s.unitOr d (.ok t) = .next t := rfl

@[simp] theorem State.unitOr_violation (s : State) (d : Cmd) (code a : Nat) :
    s.unitOr d (.error (.violation code a)) = .next (s.freezeCmd d code a) := rfl

/-- What a unit meets when ENGINE_FAULT tries it, with the unit at which it would stop the command: of a carrier its own or its
follow-on's (18 R323). -/
def State.tried (s : State) (d : Cmd) (u : Nat) : Except EngStop State × Nat :=
  if d.carries then s.followTry d u else s.unitTry d u

/-- What ENGINE_FAULT does of a unit that it tries: a fault stops the command, which may resume; outside the memory that it must
lie in it stops for good (10 R206). -/
def State.faultOr (s : State) (d : Cmd) (n : Nat) : Except EngStop State → Out
  | .error (.fault a cause) => .next ((s.rpNote d).stopCmd d n a cause true)
  | .error (.dead a) => .next (s.stopCmd d n a cProt false)
  | _ => .next s

section
variable {s t : State} {c : CKey} {d : Cmd} {u n : Nat} (hc : s.cmd? c = some d)
include hc

theorem exec_engineUnit : exec (.engineUnit c u) s = s.unitOr d (s.cmdUnit d u) := by
  show execEngineUnit c u s = _
  simp only [execEngineUnit, hc]

theorem exec_rowBlockWrite : exec (.rowBlockWrite c u) s = s.unitOr d (s.rowStep d u) := by
  show execRowBlockWrite c u s = _
  simp only [execRowBlockWrite, hc]

theorem exec_iredRun : exec (.iredRun c u) s = s.unitOr d (s.iredStep d u) := by
  show execIredRun c u s = _
  simp only [execIredRun, hc]

theorem exec_engineFault {r : Except EngStop State} (h : s.tried d u = (r, n)) : exec (.engineFault c u) s = s.faultOr d n r := by
  show execEngineFault c u s = _
  unfold State.tried Cmd.carries at h
  simp only [execEngineFault, hc]
  cases hk : d.kind with
  | tile y | layout y =>
    simp only [hk] at h
    simp only [h]
    rfl
  | _ =>
    simp only [hk, Bool.false_eq_true, if_false] at h
    simp only [h]
    rfl

end

section
variable {s : State} {k : GKey} {tl : BitVec 4} {n : Word64} {d : Cmd} (hc : s.cmd? (.group k tl n) = some d)
include hc

theorem exec_engineCommandFinish_failed (h : s.mayFinish d = some true) :
    exec (.engineCommandFinish (.group k tl n)) s = .next (if s.failWaits d then s else s.failCmd d) := by
  show execEngineCommandFinish _ s = _
  simp only [execEngineCommandFinish, hc, h]

theorem exec_engineCommandFinish_done (h : s.mayFinish d = some false) :
    exec (.engineCommandFinish (.group k tl n)) s = .next (s.finishCmd (.group k tl n) false) := by
  show execEngineCommandFinish _ s = _
  simp only [execEngineCommandFinish, hc, h]

theorem exec_engineCommandFinish_open (h : s.mayFinish d = none) :
    exec (.engineCommandFinish (.group k tl n)) s = .next s := by
  show execEngineCommandFinish _ s = _
  simp only [execEngineCommandFinish, hc, h]

/-- A carrier that has written its last sector releases its follow-on (18 R323). -/
theorem exec_followOnSubmit_releases (hf : d.carries = true) (hdone : d.total ≤ d.units.length) (hs : d.state = .running) :
    exec (.followOnSubmit (.group k tl n)) s = .next (s.onGroup k fun g => g.release tl n) := by
  have hall : d.allDone = true := decide_eq_true hdone
  show execFollowOnSubmit _ s = _
  simp only [execFollowOnSubmit, hc, hf, hall, hs, beq_self_eq_true, Bool.and_self, if_true]

end

/-! ### The units of a copy (10 R206, R207) -/

theorem State.cmdUnit_copy {s : State} {d : Cmd} {x : Copy} {u : Nat} (hk : d.kind = .copy x) (hw : d.works = true)
    (hu : u < d.total) (hopen : NSet.has d.units u = false) :
    s.cmdUnit d u = (s.copyUnit d x u).map (·.unitDone d.key u) := by
  have hle : ¬d.total ≤ u := Nat.not_le.mpr hu
  simp only [State.cmdUnit, State.openUnit, hk, hw, hle, hopen, Bool.not_true, Bool.false_eq_true, decide_false, Bool.or_self,
    if_false]
  cases s.copyUnit d x u <;> rfl

/-- The chunk's bit is set where the copy has a bitmap (10 R207). -/
def State.chunkNoted (s : State) (d : Cmd) (x : Copy) (u : Nat) : State :=
  match x.bitmap with
  | some bm => s.setChunkBit d bm u
  | none => s

section
variable {s : State} {d : Cmd} {x : Copy} {u : Nat} {ds ss : List (Nat × Spot)}

theorem State.copyUnit_fill {w : Word32} (hd : s.engSpots d .write x.dsp x.dst (chunkWords x.len u) = .ok ds)
    (hf : x.fill = some w) :
    s.copyUnit d x u = .ok (((s.engWalks d x.dsp x.dst (chunkWords x.len u)).engWrites d engCopy
      (ds.flatMap fun z => spotAt z.2 ((leBytes 4 w.toNat).take (x.len - z.1))) fun _ => false).chunkNoted d x u) := by
  have hclean : (ds.any fun _ => false) = false := List.any_eq_false.mpr fun _ _ => Bool.false_ne_true
  simp only [State.copyUnit, hd, hf, Bool.and_false, hclean]
  rfl

theorem State.copyUnit_copies (hd : s.engSpots d .write x.dsp x.dst (chunkWords x.len u) = .ok ds) (hf : x.fill = none)
    (hs : s.engSpots d .read x.ssp x.src (chunkWords x.len u) = .ok ss) : ∃ t, s.copyUnit d x u = .ok t := by
  simp only [State.copyUnit, hd, hf, hs]
  exact ⟨_, rfl⟩

theorem State.copyUnit_error {e : EngStop} (hd : s.engSpots d .write x.dsp x.dst (chunkWords x.len u) = .error e) :
    s.copyUnit d x u = .error e := by
  simp only [State.copyUnit, hd]

variable {t : State} {c : CKey} {a cause : Nat} (hc : s.cmd? c = some d) (hk : d.kind = .copy x) (hw : d.works = true)
  (hu : u < d.total) (hopen : NSet.has d.units u = false)
include hc hk hw hu hopen

theorem exec_engineUnit_copy (h : s.copyUnit d x u = .ok t) : exec (.engineUnit c u) s = .next (t.unitDone c u) := by
  rw [exec_engineUnit hc, State.cmdUnit_copy hk hw hu hopen, h, State.key_of_cmd? hc]
  rfl

theorem exec_engineFault_copy (h : s.copyUnit d x u = .error (.fault a cause)) :
    exec (.engineFault c u) s = .next ((s.rpNote d).stopCmd d d.nextUnit a cause true) := by
  have hunit : s.cmdUnit d u = .error (.fault a cause) := by rw [State.cmdUnit_copy hk hw hu hopen, h]; rfl
  refine exec_engineFault hc (n := d.nextUnit) (r := .error (.fault a cause)) ?_
  simp only [State.tried, Cmd.carries, State.unitTry, hk, hunit, Bool.false_eq_true, if_false]

end

/-! ### Row blocks (11 R213 to R218) -/

theorem State.rowStep_row {s : State} {d : Cmd} {x : RowCmd} {u : Nat} (hk : d.kind = .row x) (hw : d.works = true)
    (hu : u < d.total) (hopen : NSet.has d.units u = false) :
    s.rowStep d u = (s.rowUnit d x u).map (·.unitDone d.key u) := by
  have hle : ¬d.total ≤ u := Nat.not_le.mpr hu
  simp only [State.rowStep, hk, hw, hle, hopen, Bool.not_true, decide_false, Bool.or_self, Bool.false_eq_true, if_false]
  cases s.rowUnit d x u <;> rfl

section
variable {s : State} {d : Cmd} {x : RowCmd} {u pd pb pc : Nat}

theorem State.rowUnit_error {e : EngStop} (hd : s.hbmAt d .write (x.d + BitVec.ofNat 64 (rowBlock * u)).toNat = .error e) :
    s.rowUnit d x u = .error e := by
  unfold State.rowUnit
  simp only [hd]
  rfl

/-- A function without sources fills its block with one byte. -/
theorem State.rowUnit_fill {b : Byte} (hd : s.hbmAt d .write (x.d + BitVec.ofNat 64 (rowBlock * u)).toNat = .ok pd)
    (hn : rowSources x.fn = 0) (hb : ∀ y z, rowByte x.fn y z = b) :
    s.rowUnit d x u = .ok ((List.range 32).foldl (fun v j =>
      v.homeWrite d ((List.range 32).map fun o => (pd + 32 * j + o, b)) false)
      (s.hbmWalked d (x.d + BitVec.ofNat 64 (rowBlock * u)).toNat)) := by
  unfold State.rowUnit
  simp only [hd, hn, hb]
  rfl

/-- A block is written once its destination and as many sources as its function has are found. -/
theorem State.rowUnit_ok (hd : s.hbmAt d .write (x.d + BitVec.ofNat 64 (rowBlock * u)).toNat = .ok pd)
    (hb : 1 ≤ rowSources x.fn → s.hbmAt d .read (x.b + BitVec.ofNat 64 (rowBlock * u)).toNat = .ok pb)
    (he : 2 ≤ rowSources x.fn → s.hbmAt d .read (x.c + BitVec.ofNat 64 (rowBlock * u)).toNat = .ok pc) :
    ∃ t, s.rowUnit d x u = .ok t := by
  unfold State.rowUnit
  by_cases h1 : 1 ≤ rowSources x.fn <;> by_cases h2 : 2 ≤ rowSources x.fn
  · simp only [hd, hb h1, he h2, h1, h2, if_true]; exact ⟨_, rfl⟩
  · simp only [hd, hb h1, h1, h2, if_true, if_false]; exact ⟨_, rfl⟩
  · exact absurd (Nat.le_of_succ_le h2) h1
  · simp only [hd, h1, h2, if_false]; exact ⟨_, rfl⟩

variable {t : State} {c : CKey} {a cause : Nat} (hc : s.cmd? c = some d) (hk : d.kind = .row x) (hw : d.works = true)
  (hu : u < d.total) (hopen : NSet.has d.units u = false)
include hc hk hw hu hopen

theorem exec_rowBlockWrite_row (h : s.rowUnit d x u = .ok t) : exec (.rowBlockWrite c u) s = .next (t.unitDone c u) := by
  rw [exec_rowBlockWrite hc, State.rowStep_row hk hw hu hopen, h, State.key_of_cmd? hc]
  rfl

theorem exec_engineFault_row (h : s.rowUnit d x u = .error (.fault a cause)) :
    exec (.engineFault c u) s = .next ((s.rpNote d).stopCmd d d.nextUnit a cause true) := by
  have hunit : s.rowStep d u = .error (.fault a cause) := by rw [State.rowStep_row hk hw hu hopen, h]; rfl
  refine exec_engineFault hc (n := d.nextUnit) (r := .error (.fault a cause)) ?_
  simp only [State.tried, Cmd.carries, State.unitTry, hk, hunit, Bool.false_eq_true, if_false]

end

/-! ### Runs of an indexed reduce (11 R225 to R227) -/

section
variable {s s1 s2 : State} {d : Cmd} {x : IredCmd} {u : Nat} {es : List (Nat × Rec × Bool)}

theorem exec_iredRun_ired {t : State} {c : CKey} (hc : s.cmd? c = some d) (hk : d.kind = .ired x) (hs : d.state = .running)
    (hst : s.iredStarts d x u = true) (h : s.iredUnit d x u = .ok t) : exec (.iredRun c u) s = .next t := by
  simp only [exec_iredRun hc, State.iredStep, hk, hs, hst, h, bne_self_eq_false, Bool.not_true, Bool.or_self, Bool.false_eq_true,
    if_false, State.unitOr_ok]

/-- An entry of a run is malformed or names no row (11 R224, R226). -/
def iredBad (x : IredCmd) (es : List (Nat × Rec × Bool)) : Bool := es.any fun z => Ired.bad x.desc z.2.1

/-- The terms that a run accumulates: none where an entry of it is bad. -/
def iredRunTerms (x : IredCmd) (es : List (Nat × Rec × Bool)) : List (Rec × Nat) :=
  if iredBad x es then [] else es.flatMap fun z => (List.range (Ired.count z.2.1)).map fun j => (z.2.1, j)

/-- Under ACC a run without terms, of which no entry is bad or poisoned, writes nothing (11 R225). -/
def iredQuiet (x : IredCmd) (es : List (Nat × Rec × Bool)) : Prop :=
  Ired.acc x.desc = true ∧ iredBad x es = false ∧ iredRunTerms x es = [] ∧ ∀ z ∈ es, z.2.2 = false

/-- A command whose run is done. -/
def Cmd.ranEntries (k : Cmd) (x : IredCmd) (es : List (Nat × Rec × Bool)) : Cmd :=
  { k with units := es.foldl (fun v z => NSet.add v z.1) k.units, failed := k.failed || iredBad x es }

theorem iredQuiet_iff : (Ired.acc x.desc && !iredBad x es && (iredRunTerms x es).isEmpty && es.all fun z => !z.2.2) = true ↔
    iredQuiet x es := by
  simp only [iredQuiet, Bool.and_eq_true, Bool.not_eq_true', List.isEmpty_iff, List.all_eq_true, and_assoc]

theorem State.iredUnit_quiet (he : s.iredEntries d x none x.n u = .ok (es, s1)) (hne : es ≠ []) (hq : iredQuiet x es) :
    s.iredUnit d x u = .ok (s1.onCmd d.key (·.ranEntries x es)) := by
  obtain ⟨z, r, rfl⟩ := List.exists_cons_of_ne_nil hne
  unfold State.iredUnit
  simp only [he]
  exact if_pos (iredQuiet_iff.mpr hq)

/-- Poison reaches a run through a bad entry, a term, the old value of its destination, or an entry's own bytes (11 R226). -/
def iredPoison (x : IredCmd) (es : List (Nat × Rec × Bool)) (drew : Bool) : Bool :=
  iredBad x es || drew || es.any fun z => z.2.2

/-- The columns of a bag written sector by sector, their bits free values under poison (11 R226, R227). -/
def State.iredWrite (s : State) (d : Cmd) (x : IredCmd) (cols : List (Nat × Nat)) (poison : Bool) : State :=
  (bySector (cols.zipIdx.flatMap fun z =>
    numBytes z.1.1 (Ired.size x.desc) (if poison then (Config.poisonWord s.nonce z.2).toNat else z.1.2))).foldl
    (fun v l => v.homeWrite d l poison) (if poison then { s with nonce := s.nonce + 1 } else s)

theorem State.iredUnit_writes {z : Nat × Rec × Bool} {r : List (Nat × Rec × Bool)} {cols : List (Nat × Nat)} {drew : Bool}
    (he : s.iredEntries d x none x.n u = .ok (z :: r, s1)) (hq : ¬iredQuiet x (z :: r))
    (hcols : s1.iredCols d x.desc (Ired.bag z.2.1) (iredRunTerms x (z :: r)) (List.range (Ired.rlen x.desc)) =
      .ok ((cols, drew), s2)) :
    s.iredUnit d x u =
      .ok ((s2.iredWrite d x cols (iredPoison x (z :: r) drew)).onCmd d.key (·.ranEntries x (z :: r))) := by
  unfold iredRunTerms iredBad at hcols
  unfold State.iredUnit
  simp only [he]
  refine (if_neg (mt iredQuiet_iff.mp hq)).trans ?_
  rw [hcols]
  rfl

end

/-! ### The end of a command (09 R172, 18 R313) -/

/-- A group that stands as another does in its registers and timelines, and has ended only if that has. -/
structure Group.Alike (g h : Group) : Prop where
  regs : g.regs = h.regs
  tl : g.tl = h.tl
  run : g.run = .ended → h.run = .ended

theorem Group.Alike.refl (g : Group) : g.Alike g := ⟨rfl, rfl, fun h => h⟩

theorem Group.Alike.trans {a b c : Group} (h : a.Alike b) (k : b.Alike c) : a.Alike c :=
  ⟨h.regs.trans k.regs, h.tl.trans k.tl, k.run ∘ h.run⟩

theorem Group.alike_miss (g : Group) : g.miss.Alike g := ⟨rfl, rfl, fun h => h⟩

/-- The end of a SLEEP notes the event alone (22 R363). -/
theorem Group.alike_nudged (g : Group) : g.nudged.Alike g := by
  unfold Group.nudged
  split
  case h_1 =>
    split
    case h_1 => exact ⟨rfl, rfl, nofun⟩
    case h_2 => exact .refl g
  case h_2 => exact .refl g

/-- An MMA that stops or fails moves rp alone (18 R304). -/
theorem Group.rpAt_eq (g : Group) (e : MqEntry) : ∃ w, g.rpAt e = { g with rp := w } := by
  unfold Group.rpAt
  cases e.op with
  | mma m => exact ⟨rpWord false true _ _, rfl⟩
  | follow m =>
    cases e.ready with
    | true => exact ⟨rpWord false true _ _, rfl⟩
    | false => exact ⟨g.rp, rfl⟩
  | _ => exact ⟨g.rp, rfl⟩

theorem Group.alike_rpAt (g : Group) (e : MqEntry) : (g.rpAt e).Alike g := by
  obtain ⟨w, hw⟩ := g.rpAt_eq e
  rw [hw]
  exact ⟨rfl, rfl, fun h => h⟩

theorem Store.get?_map {α β : Type} (m : Store α) (f : α → β) (i : Nat) :
    Store.get? (m.map fun x => (x.1, f x.2)) i = (Store.get? m i).map f := by
  induction m with
  | nil => rfl
  | cons x m ih =>
    simp only [List.map_cons, Store.get?, ih]
    split <;> rfl

/-- A state has the commands and the memory of another, and in a group's slot a group alike to a given one. -/
structure State.Keeps (s t : State) (k : GKey) (h : Group) : Prop where
  cmds : t.cmds = s.cmds
  mem : t.mem = s.mem
  group : ∃ g, t.group? k = some g ∧ g.Alike h

section
variable {s t v : State} {k : GKey} {h : Group}

theorem State.keeps_setGroup (s : State) (k : GKey) (h : Group) : s.Keeps (s.setGroup k h) k h :=
  ⟨rfl, rfl, h, State.group?_setGroup .., .refl h⟩

theorem State.Keeps.congr (ht : s.Keeps t k h) (hcmds : v.cmds = t.cmds) (hmem : v.mem = t.mem) (hgroups : v.groups = t.groups) :
    s.Keeps v k h :=
  ⟨hcmds.trans ht.cmds, hmem.trans ht.mem, by simpa only [State.group?, hgroups] using ht.group⟩

theorem State.Keeps.onGroup (ht : s.Keeps t k h) {f : Group → Group} (hf : ∀ g, (f g).Alike g) :
    s.Keeps (t.onGroup k f) k h := by
  obtain ⟨g, hg, ha⟩ := ht.group
  rw [State.onGroup_of hg]
  exact ⟨ht.cmds, ht.mem, f g, State.group?_setGroup .., (hf g).trans ha⟩

/-- A command that finishes late counts one miss, or none (07 R131). -/
theorem State.Keeps.late (ht : s.Keeps t k h) (p : Prop) [Decidable p] :
    s.Keeps (if p then t.onGroup k Group.miss else t) k h := by
  split
  · exact ht.onGroup Group.alike_miss
  · exact ht

theorem State.Keeps.nudge (ht : s.Keeps t k h) (p : Group → Bool) : s.Keeps (t.nudge p) k h := by
  obtain ⟨g, hg, ha⟩ := ht.group
  refine ⟨ht.cmds, ht.mem, if p g then g.nudged else g, ?_, ?_⟩
  · have hmap := Store.get?_map t.groups (fun y => if p y then y.nudged else y) (keyCode k)
    rwa [show Store.get? t.groups (keyCode k) = some g from hg] at hmap
  · split
    · exact g.alike_nudged.trans ha
    · exact ha

/-- A group that has not ended keeps its slot (22 R361). -/
theorem State.Keeps.reap (ht : s.Keeps t k h) (hrun : h.run ≠ .ended) : s.Keeps (t.reap k) k h := by
  obtain ⟨g, hg, ha⟩ := ht.group
  have hlive : (g.run == .ended) = false := beq_eq_false_iff_ne.mpr (mt ha.run hrun)
  simpa only [State.reap, hg, hlive, Bool.false_and, Bool.false_eq_true, if_false] using ht

end

/-- A group whose timeline has one number more that has finished. -/
def Group.finished (g : Group) (tl n lt : Nat) (failed : Bool) : Group :=
  { g with tl := g.tl.setIfInBounds tl ((vget g.tl tl {}).finish n lt failed) }

theorem Group.Alike.finished {a b : Group} (h : a.Alike b) (tl n lt : Nat) (failed : Bool) :
    (a.finished tl n lt failed).Alike (b.finished tl n lt failed) :=
  ⟨h.regs, by simp only [Group.finished, h.tl], h.run⟩

theorem State.keeps_advance {s : State} {k : GKey} {g : Group} (hg : s.group? k = some g) (tl n lt : Nat) (failed : Bool) :
    s.Keeps (s.advance k tl n lt failed) k (g.finished tl n lt failed) := by
  have hset := s.keeps_setGroup k (g.finished tl n lt failed)
  simp only [State.advance, hg]
  split
  case isTrue => exact hset
  case isFalse => exact (hset.nudge _).congr (State.trail_cmds ..) (State.trail_mem ..) (State.trail_groups ..)

/-- A command that finishes leaves the list of commands, and its number finishes on its timeline (09 R172); the group goes on. -/
theorem State.keeps_finishCmd {s : State} {k : GKey} {tl : BitVec 4} {n : Word64} {d : Cmd} {g : Group}
    (hc : s.cmd? (.group k tl n) = some d) (hg : s.group? k = some g) (hrun : g.run ≠ .ended) (failed : Bool) :
    ({ s with cmds := s.cmds.filter fun z => z.key != .group k tl n } : State).Keeps (s.finishCmd (.group k tl n) failed) k
      (g.finished tl.toNat n.toNat d.lt.toNat failed) := by
  have hadv := State.keeps_advance (s := { s with cmds := s.cmds.filter fun z => z.key != .group k tl n }) hg tl.toNat n.toNat
    d.lt.toNat failed
  simp only [State.finishCmd, hc]
  refine State.Keeps.reap ?_ hrun
  split
  case h_1 => exact (hadv.late _).congr (State.onLaunch_cmds ..) (State.onLaunch_mem ..) (State.onLaunch_groups ..)
  case h_2 => exact hadv.late _

/-- A failed command's entry leaves the matrix queue (18 R313, R323). -/
theorem State.keeps_dropEntry {s : State} {k : GKey} {g : Group} (hg : s.group? k = some g) (tl : BitVec 4) (n : Word64) :
    s.Keeps (s.dropEntry (.group k tl n)) k g := by
  refine State.Keeps.onGroup ⟨rfl, rfl, g, hg, .refl g⟩ fun g => ?_
  have hrp : ∀ o : Option MqEntry, (match o with | some e => g.rpAt e | none => g).Alike g := by
    rintro (_ | e)
    · exact .refl g
    · exact g.alike_rpAt e
  obtain ⟨hregs, htl, hrun⟩ := hrp (g.mq.find? fun e => e.cmd = some (tl, n))
  exact ⟨hregs, htl, hrun⟩

section
variable {s : State} {d : Cmd} {x : Copy} {r : RowCmd} {y : IredCmd}
  (hk : d.kind = .copy x ∨ d.kind = .row r ∨ d.kind = .ired y)
include hk

theorem State.mayFinish_of_units (hs : d.state = .running) (hdone : d.total ≤ d.units.length) :
    s.mayFinish d = some d.failed := by
  have hall : d.allDone = true := decide_eq_true hdone
  obtain hk | hk | hk := hk <;>
    simp only [State.mayFinish, Cmd.carries, hs, hk, hall, Bool.not_false, Bool.and_self, if_true]

theorem State.failWaits_of_kind : s.failWaits d = false := by
  obtain hk | hk | hk := hk <;> simp only [State.failWaits, hk]

theorem State.failCmd_of_kind : s.failCmd d = (s.dropEntry d.key).finishCmd d.key true := by
  obtain hk | hk | hk := hk <;> simp only [State.failCmd, hk]

/-- A copy, a row command or an indexed reduce finishes once its units are done, as failed or not. -/
theorem exec_engineCommandFinish_of_units {k : GKey} {tl : BitVec 4} {n : Word64} {g : Group}
    (hc : s.cmd? (.group k tl n) = some d) (hg : s.group? k = some g) (hrun : g.run ≠ .ended) (hs : d.state = .running)
    (hdone : d.total ≤ d.units.length) :
    ∃ t, exec (.engineCommandFinish (.group k tl n)) s = .next t ∧
      ({ s with cmds := s.cmds.filter fun z => z.key != .group k tl n } : State).Keeps t k
        (g.finished tl.toNat n.toNat d.lt.toNat d.failed) := by
  have hmay := State.mayFinish_of_units (s := s) hk hs hdone
  cases hf : d.failed with
  | false => exact ⟨_, exec_engineCommandFinish_done hc (hf ▸ hmay), State.keeps_finishCmd hc hg hrun false⟩
  | true =>
    have hdrop := State.keeps_dropEntry hg tl n
    obtain ⟨g1, hg1, ha⟩ := hdrop.group
    refine ⟨_, exec_engineCommandFinish_failed hc (hf ▸ hmay), ?_⟩
    have hfin := State.keeps_finishCmd ((State.cmd?_congr hdrop.cmds _).trans hc) hg1 (mt ha.run hrun) true
    rw [State.failWaits_of_kind hk, State.failCmd_of_kind hk, State.key_of_cmd? hc]
    obtain ⟨g2, hg2, ha2⟩ := hfin.group
    exact ⟨hfin.cmds.trans (congrArg (List.filter _) hdrop.cmds), hfin.mem.trans hdrop.mem, g2, hg2,
      ha2.trans (ha.finished ..)⟩

end

/-! ### Collectives (12 R229, R234, R235) -/

section
variable {s : State} {c : CKey} {d : Cmd} {x : CollCmd} {peers : List PeerPart}

/-- The indices of the participants that stand: of this device, then remote. -/
def State.collSelfs (s : State) (d : Cmd) (x : CollCmd) (peers : List PeerPart) : List Nat :=
  ((s.collPeers d x).map fun p => Comm.self p.2.comm) ++ peers.map (·.self)

/-- The members of the ensemble (12 R240). -/
def State.collMembers (s : State) (d : Cmd) (x : CollCmd) (peers : List PeerPart) : Nat :=
  ensemble (((s.collPeers d x).map fun p => .here p.1 p.2) ++ peers.map .away)

/-- The participants agree (12 R229). -/
def State.collAgree (s : State) (d : Cmd) (x : CollCmd) (peers : List PeerPart) : Bool :=
  (s.collPeers d x).all (fun p => p.2.shared = x.shared && Comm.npart p.2.comm = Comm.npart x.comm) &&
    peers.all (·.agree) && ensembleOk x.fn (s.collMembers d x peers)

/-- A match that fails waits for the pages of the records that will show it (07 R135). -/
def State.collWaits (s : State) (d : Cmd) (x : CollCmd) (peers : List PeerPart) : Prop :=
  s.collAgree d x peers = false ∧ ∃ p ∈ s.collPeers d x, s.tilesMove p.1 p.2 = true

/-- A participant of this device is matched, in agreement or not. -/
def State.collMatched (ok : Bool) (total lt : Nat) (peers : List PeerPart) (v : State) (p : Cmd × CollCmd) : State :=
  let y := { p.2 with matched := true, agree := ok, remote := peers }
  let v1 := v.onCmd p.1.key fun z =>
    { z with
      kind := .coll y
      failed := z.failed || !ok
      total := if ok then (Coll.dstCount y.fn y.desc y.comm total + 1023) / 1024 else 0
      lt := maxLt z.lt lt }
  if ok then v1 else v1.failTiles p.1 y true

variable (hc : s.cmd? c = some d) (hk : d.kind = .coll x)
include hc hk

theorem exec_collMatch_matches (hm : x.matched = false) (hlen : (s.collSelfs d x peers).length = Comm.npart x.comm)
    (hall : ∀ i < Comm.npart x.comm, i ∈ s.collSelfs d x peers) (hw : ¬s.collWaits d x peers) :
    exec (.collMatch c peers) s = .next ((s.collPeers d x).foldl
      (State.collMatched (s.collAgree d x peers) (s.collMembers d x peers)
        ((s.collPeers d x).foldl (fun m p => max m p.1.lt0.toNat) 0) peers) s) := by
  have hstand : ((List.range (Comm.npart x.comm)).all fun i => (s.collSelfs d x peers).contains i) = true := by
    simpa only [List.all_eq_true, List.mem_range, List.contains_iff_mem] using hall
  have hlen' : ((s.collSelfs d x peers).length != Comm.npart x.comm) = false := by rw [hlen, bne_self_eq_false]
  have hwait : (!s.collAgree d x peers && (s.collPeers d x).any fun p => s.tilesMove p.1 p.2) = false := by
    simpa only [State.collWaits, ← List.any_eq_true, ← Bool.not_eq_true', ← Bool.and_eq_true, Bool.not_eq_true] using hw
  unfold State.collSelfs at hstand hlen'
  unfold State.collAgree State.collMembers at hwait
  show execCollMatch c peers s = _
  simp only [execCollMatch, hc, hk, hm, hstand, hlen', Bool.not_true, Bool.or_self, Bool.false_eq_true, if_false]
  exact if_neg (Bool.eq_false_iff.mp hwait)

theorem exec_collMatch_waits (hw : s.collWaits d x peers) : exec (.collMatch c peers) s = .next s := by
  have hwait : (!s.collAgree d x peers && (s.collPeers d x).any fun p => s.tilesMove p.1 p.2) = true := by
    simpa only [State.collWaits, ← List.any_eq_true, ← Bool.not_eq_true', ← Bool.and_eq_true] using hw
  show execCollMatch c peers s = _
  simp only [execCollMatch, hc, hk]
  split
  case isTrue => rfl
  case isFalse => exact if_pos hwait

theorem exec_collMatch_matched (hm : x.matched = true) : exec (.collMatch c peers) s = .next s := by
  show execCollMatch c peers s = _
  simp only [execCollMatch, hc, hk, hm, Bool.true_or, if_true]

end

section
variable {s t s1 s2 : State} {c : CKey} {d : Cmd} {x : CollCmd} {tile who : Nat} {codes : List (List Nat × Bool)}
  {l : List SpotByte} {bad : List (Option Nat × Nat)} {sp : Spot}

/-- v_j of an element of a tile with these codes (12 R232). -/
def CollCmd.planeVal (x : CollCmd) (codes : List (List Nat × Bool)) (j : Nat) (y : List Nat × Bool) : Nat :=
  planeValue (Coll.fmt x.desc) (tileExp (Coll.fmt x.desc) (codes.flatMap (·.1))) (Coll.kmax x.desc) j y.1

/-- The plane that a tile takes next. -/
def CollCmd.planeOf (x : CollCmd) (tile : Nat) : Nat := Store.getD x.planes tile 0

/-- The elements that the next plane changes, every one for the header (12 R234). -/
def CollCmd.planeEls (x : CollCmd) (tile : Nat) (codes : List (List Nat × Bool)) : List Nat :=
  (codes.zipIdx.filter fun y => x.planeOf tile = 0 ||
    x.planeVal codes (x.planeOf tile - 1) y.1 != x.planeVal codes (x.planeOf tile) y.1).map fun y => 1024 * tile + y.2

/-- The bytes of an element under the next plane, with whether poison feeds it. -/
def CollCmd.planeBytes (x : CollCmd) (tile : Nat) (codes : List (List Nat × Bool)) (v : State) (i : Nat) :
    Except EngStop ((List Byte × Bool) × State) :=
  match codes[i - 1024 * tile]? with
  | some y => .ok ((leBytes (Coll.size x.desc) (x.planeVal codes (x.planeOf tile) y), y.2), v)
  | none => .error .wait

/-- A plane is written: its bytes, then bytes 0 to 7 of the tile's status record; the command notes it (12 R233, R234). -/
def State.planeWritten (s : State) (d : Cmd) (x : CollCmd) (tile : Nat) (codes : List (List Nat × Bool)) (l : List SpotByte)
    (bad : List (Option Nat × Nat)) : State :=
  let last : Bool := decide (x.planeOf tile = Coll.kmax x.desc)
  ((s.engWrites d engPlain l fun k => bad.contains k).statusWrite d x tile 0 (leBytes 8
    (statusLow (x.planeOf tile) (if last then stComplete else stRefining) (Coll.kmax x.desc)
      (wrap 16 ((tileExp (Coll.fmt x.desc) (codes.flatMap (·.1))).getD (-32768)))))).onCmd d.key fun y =>
        match y.kind with
        | .coll z =>
          { y with
            kind := .coll { z with planes := Store.put z.planes tile (x.planeOf tile + 1) }
            units := if last then NSet.add y.units tile else y.units }
        | _ => y

theorem State.planeUnit_writes (ho : tile < x.opened) (hheld : s.heldPeer d x = false)
    (hcodes : s.tileCodes d x (x.feeds (s.participants d x) tile).1 (x.feeds (s.participants d x) tile).2 (List.range 1024) =
      .ok (codes, s1))
    (hels : s1.collEls d x (x.planeBytes tile codes) (Coll.size x.desc) (x.planeEls tile codes) = .ok ((l, bad), s2))
    (hsp : s2.homedSpot d .write (x.statusVa tile) = .ok sp) :
    s.planeUnit d x tile = .ok (s2.planeWritten d x tile codes l bad) := by
  have hgo : (decide (x.opened ≤ tile) || s.heldPeer d x) = false := by
    rw [hheld, Bool.or_false]; exact decide_eq_false (Nat.not_le.mpr ho)
  unfold State.planeUnit
  refine (if_neg (Bool.eq_false_iff.mp hgo)).trans ?_
  show (s.tileCodes d x (x.feeds (s.participants d x) tile).1 (x.feeds (s.participants d x) tile).2 (List.range 1024) >>= _) = _
  rw [hcodes]
  show (s1.collEls d x (x.planeBytes tile codes) (Coll.size x.desc) (x.planeEls tile codes) >>= _) = _
  rw [hels]
  show (s2.homedSpot d .write (x.statusVa tile) >>= _) = _
  rw [hsp]
  unfold State.planeWritten
  simp only [decide_eq_true_eq]
  rfl

variable (hc : s.cmd? c = some d) (hk : d.kind = .coll x)
include hc hk

theorem exec_collPlaneArrival_ok (hp : x.prog = true) (hw : d.works = true) (ht : tile < d.total)
    (hopen : NSet.has d.units tile = false) (h : s.planeUnit d x tile = .ok t) :
    exec (.collPlaneArrival c tile) s = .next t := by
  have hle : ¬d.total ≤ tile := Nat.not_le.mpr ht
  show execCollPlaneArrival c tile s = _
  simp only [execCollPlaneArrival, hc, hk, hp, hw, hle, hopen, h, Bool.not_true, decide_false, Bool.or_self, Bool.false_eq_true,
    if_false]

/-- A participant has cancelled a tile: another device's may have, one of this device has (12 R235). -/
def State.cancelledBy (s : State) (d : Cmd) (x : CollCmd) (tile who : Nat) : Prop :=
  x.awayHas s.devnum.toNat who = true ∨
    (s.collPeers d x).any (fun p => Comm.self p.2.comm = who && Store.get? p.2.cancelled tile = some who) = true

theorem exec_cancelPropagation_reaches (hp : x.prog = true) (ht : tile < x.tiles) (ho : tile < x.opened) (hf : d.failed = false)
    (hby : s.cancelledBy d x tile who) : exec (.cancelPropagation c tile who) s = .next (s.cancelTile d x tile who) := by
  have hle : ¬min x.opened x.tiles ≤ tile := Nat.not_le.mpr (Nat.lt_min.mpr ⟨ho, ht⟩)
  have hor := Bool.or_eq_true_iff.mpr hby.symm
  show execCancelPropagation c tile who s = _
  simp only [execCancelPropagation, hc, hk, hp, hle, hf, hor, Bool.not_true, decide_false, Bool.or_self, Bool.false_eq_true,
    if_false]

end

/-! ### The obligation -/

/-- Settles O36: the steps as they answer, then what the units of a copy, a row command and an indexed reduce do and how their
commands finish, then collectives. -/
theorem engineSteps : Obligations.EngineSteps := by
  unfold Obligations.EngineSteps
  refine ⟨?steps, ?units, ?collectives⟩
  case steps =>
    intro s t c d u at_ a cause k tl n tried hc
    refine ⟨fun h => ?unit, fun h => ?violation, fun h => ?block, fun h => ?run, fun h => exec_engineFault hc h,
      fun h => exec_engineFault hc h, ?failed, ?waits, ?done, ?unmet, ?releases⟩
    case unit => rw [exec_engineUnit hc, h, State.unitOr_ok]
    case violation => rw [exec_engineUnit hc, h, State.unitOr_violation]
    case block => rw [exec_rowBlockWrite hc, h, State.unitOr_ok]
    case run => rw [exec_iredRun hc, h, State.unitOr_ok]
    case failed =>
      rintro rfl hm hw
      rw [exec_engineCommandFinish_failed hc hm, hw, if_neg Bool.false_ne_true]
    case waits =>
      rintro rfl hm hw
      rw [exec_engineCommandFinish_failed hc hm, hw, if_pos rfl]
    case done => rintro rfl; exact exec_engineCommandFinish_done hc
    case unmet => rintro rfl; exact exec_engineCommandFinish_open hc
    case releases => rintro rfl; exact exec_followOnSubmit_releases hc
  case units =>
    intro s s1 s2 c d u a cause pd pb pc x r y ds ss es cols drew k tl n g open_ words copied at_ filled wr rd moves bad terms quiet
      bag poison word bytes done hc
    refine ⟨?copy, ?copyFault, ?row, ?rowFault, ?run, ?finish⟩
    case copy =>
      rintro hk ⟨hw, hu, hopen⟩ hd
      refine ⟨fun w hf => exec_engineUnit_copy hc hk hw hu hopen (State.copyUnit_fill hd hf), fun hf hs => ?_⟩
      obtain ⟨t, ht⟩ := State.copyUnit_copies hd hf hs
      exact ⟨t, ht, exec_engineUnit_copy hc hk hw hu hopen ht⟩
    case copyFault =>
      rintro hk ⟨hw, hu, hopen⟩ hd
      exact exec_engineFault_copy hc hk hw hu hopen (State.copyUnit_error hd)
    case row =>
      rintro hk ⟨hw, hu, hopen⟩ hd
      have hwrites {t : State} := exec_rowBlockWrite_row (t := t) hc hk hw hu hopen
      have hmoves : (∃ t, s.rowUnit d r u = .ok t) → moves := fun ⟨t, ht⟩ => ⟨t, ht, hwrites ht⟩
      refine ⟨fun hn => hwrites (State.rowUnit_fill hd ?_ ?_), fun hn => hwrites (State.rowUnit_fill hd ?_ ?_),
        fun hn hb => hmoves (State.rowUnit_ok (pc := 0) hd (fun _ => hb) ?_),
        fun _ hb he => hmoves (State.rowUnit_ok hd (fun _ => hb) fun _ => he)⟩
      · rw [hn]; rfl
      · rw [hn]; exact fun _ _ => rfl
      · rw [hn]; rfl
      · rw [hn]; exact fun _ _ => rfl
      · have hone : rowSources r.fn = 1 := by obtain hn | hn := hn <;> rw [hn] <;> rfl
        exact fun htwo => absurd (hone ▸ htwo) (by decide)
    case rowFault =>
      rintro hk ⟨hw, hu, hopen⟩ hd
      exact exec_engineFault_row hc hk hw hu hopen (State.rowUnit_error hd)
    case run =>
      intro hk hs hst he hne
      obtain rfl := State.key_of_cmd? hc
      refine ⟨fun hq => exec_iredRun_ired hc hk hs hst (State.iredUnit_quiet he hne hq), fun hq hcols => ?_⟩
      obtain ⟨z, l, rfl⟩ := List.exists_cons_of_ne_nil hne
      exact exec_iredRun_ired hc hk hs hst (State.iredUnit_writes he hq hcols)
    case finish =>
      rintro rfl hg hrun hs hdone hk
      obtain ⟨t, ht, hcmds, hmem, g1, hg1, hregs, htl, -⟩ := exec_engineCommandFinish_of_units hk hc hg hrun hs hdone
      exact ⟨t, g1, ht, hcmds, hmem, hg1, hregs, htl⟩
  case collectives =>
    intro s t s1 s2 c d x tile who peers codes l bad sp F size kmax feeds top plane val changed get last here total all ok lt match_
      waits hc hk
    obtain rfl := State.key_of_cmd? hc
    exact ⟨exec_collMatch_matches hc hk, fun _ => exec_collMatch_waits hc hk, exec_collMatch_matched hc hk,
      exec_collPlaneArrival_ok hc hk, fun hp hw ht hopen ho hheld hcodes hels hsp =>
        exec_collPlaneArrival_ok hc hk hp hw ht hopen (State.planeUnit_writes ho hheld hcodes hels hsp),
      exec_cancelPropagation_reaches hc hk⟩

end Sys2Proof.Machine

/-!
PROOFS. Collectives as a group issues them (12 R229), and CPREC, CWAITP and CCAN on their status records (12 R233, R235, R241).
-/
namespace Sys2Proof.Machine
open Sys2Proof Sys2Proof.Safety

/-! ### Checks, timeouts and waits of a body -/

theorem M.check_of {b : Bool} (h : b = true) (e : Trap) : M.check b e = pure () := by rw [h, M.check_true]

theorem M.legal_of {b : Bool} (h : b = true) (w : BitVec 64) : M.legal w b = pure () := M.check_of h _

/-- A timeout operand that can be read is one's own count, or none (10 R193). -/
theorem M.timeout_of {g : Group} {f : Fields} {sel : Sel} {limit : Option Nat} (h : timeoutIs g f sel limit) :
    M.timeout g f sel = pure limit := by
  cases sel with
  | v n =>
    have hlimit : limit = none := h
    rw [hlimit]; rfl
  | _ =>
    obtain ⟨hclean, hlimit⟩ := h
    simp only [M.timeout, M.clean_of hclean, pure_bind, hlimit]

/-- A wait whose condition holds at its issue goes on in the state that the condition leaves (10 R193). -/
theorem M.wait_met {k : GKey} {op : WaitOp} {f : Fields} {limit : Option Nat} {dest : Bool} {try_ : M Bool} {late : M Unit}
    {s t : State} (h : try_ s = .ok (true, t)) : M.wait k op f limit dest try_ late s = .ok ((), t) := by
  simp only [M.wait, M.run_bind, h, if_true, M.run_pure]

/-! ### COLL (12 R229) -/

/-- The instructions of COLL, one for each function. -/
def collForms (f : Fields) : List Instr :=
  [.collAllred f, .collReduce f, .collBcast f, .collAllgath f, .collXsum f, .collSpread f, .collQuant f, .collRankh f]

/-- COLL runs one body under every function. -/
theorem exec_coll {i : Instr} {f : Fields} (hi : i ∈ collForms f) (s : State) :
    exec i s = runM i (runColl i) s ∧ fields i = some f ∧ ∃ r, row i = some r := by
  simp only [collForms, List.mem_cons, List.not_mem_nil, or_false] at hi
  obtain rfl | rfl | rfl | rfl | rfl | rfl | rfl | rfl := hi <;> exact ⟨rfl, rfl, _, rfl⟩

/-- The sequence number is taken in the context of the group, which entering an instruction leaves as it is. -/
@[simp] theorem M.nextSeq_enter (k : GKey) (g : Group) (r : Row) (f : Fields) (a : Word64) :
    M.nextSeq k (g.enter r f) a = M.nextSeq k g a := rfl

section
variable {s t u1 u2 u3 u4 u5 : State} {k : GKey} {g : Group} {f : Fields} {i : Instr} {x : Inst} {num : Word64}
  {desc comm table aux : Rec} {seq : Nat}

/-- The command that COLL issues from the records that it has read. -/
def collCommand (f : Fields) (desc comm table aux : Rec) (seq : Nat) : CollCmd :=
  { fn := f.fn, prog := f.x.getLsbD 4, desc := desc, comm := comm, table := table, aux := aux, seq := seq }

/-- The operands of COLL are clean and aligned, and it reads its descriptor, communicator, table and auxiliary array, at which
the machine stands in u4. -/
structure CollReads (s : State) (k : GKey) (g : Group) (f : Fields) (i : Instr) (desc comm table aux : Rec)
    (u1 u2 u3 u4 : State) : Prop where
  cleanA : (g.ssrc f true f.a).tag = none
  cleanB : (g.ssrc f true f.b).tag = none
  alignedA : (g.ssrc f true f.a).val.toNat % 64 = 0
  alignedB : (g.ssrc f true f.b).val.toNat % 64 = 0
  readDesc : M.readRec k (g.ssrc f true f.a).val.toNat 64 (entered s k g i) = .ok (desc, u1)
  readComm : M.readRec k (g.ssrc f true f.b).val.toNat 64 u1 = .ok (comm, u2)
  readTable : M.readRec k (Comm.list comm) (8 * Comm.npart comm) u2 = .ok (table, u3)
  readAux : M.readRec k (Coll.auxAt desc) (Coll.auxLen f.fn desc) u3 = .ok (aux, u4)

/-- The records of COLL are legal for its function and for where its group stands (12 R229). -/
structure CollLegal (f : Fields) (desc comm table aux : Rec) (devnum : Nat) (x : Inst) : Prop where
  legalComm : (Comm.legal comm && Comm.tableOk comm table devnum x) = true
  legalDesc : Coll.legal f.fn (f.x.getLsbD 4) (Comm.npart comm) desc = true
  probs : (f.fn != 6 || (List.range (Coll.nq desc)).all fun j => Coll.probOk (recNat aux (8 * j) 8)) = true

/-- COLL issues its command under the sequence number that it takes; a progressive one then writes its status records. -/
theorem runM_coll_issues {r : Row} (hr : row i = some r) (hf : fields i = some f) (h : Free s k g i)
    (hreads : CollReads s k g f i desc comm table aux u1 u2 u3 u4) (hinst : u4.inst? g.id.inst = some x)
    (hlegal : CollLegal f desc comm table aux u4.devnum.toNat x)
    (hseq : M.nextSeq k g (g.ssrc f true f.b).val u4 = .ok (seq, u5))
    (hissue : M.issue k (tlOf f) 0xE4 (.coll (collCommand f desc comm table aux seq)) 0 u5 = .ok (num, t)) :
    runM i (runColl i) s = .next (finished (if f.x.getLsbD 4 then
      t.openTiles (.group k (BitVec.ofNat 4 (tlOf f)) num) (collCommand f desc comm table aux 0).tiles else t) k i) := by
  refine runM_of h.toReady hr hf rfl (fun hpriv => Bool.noConfusion hpriv) ?_
  have hplaced : M.inst g u4 = .ok (x, u4) := M.inst_of hinst
  unfold collCommand at hissue
  simp only [runColl, M.run_bind, M.gate_entered h hr hf, M.group_entered hr hf, Group.enter_ssrc, M.clean_of hreads.cleanA,
    M.clean_of hreads.cleanB, M.check_of (decide_eq_true hreads.alignedA), M.check_of (decide_eq_true hreads.alignedB),
    M.run_pure, hreads.readDesc, hreads.readComm, hreads.readTable, hreads.readAux, Group.enter_inst, hplaced, M.run_run',
    M.legal_of hlegal.legalComm, M.legal_of hlegal.legalDesc, M.legal_of hlegal.probs, M.nextSeq_enter, hseq, hissue]
  cases f.x.getLsbD 4 <;> rfl

end

/-! ### The status record that an instruction names (12 R233, R241) -/

section
variable {s u v : State} {k : GKey} {g : Group} {f : Fields} {i : Instr} {r : Row} {va : Word64} {pa w : Nat}

theorem M.recordBase_entered (hr : row i = some r) (hf : fields i = some f) (ha : (g.ssrc f true f.a).tag = none) :
    M.recordBase k f (entered s k g i) =
      .ok ((g.enter r f, (g.ssrc f true f.a).val + offsetOf false f), entered s k g i) := by
  simp only [M.recordBase, M.run_bind, M.group_entered hr hf, Group.enter_ssrc, M.clean_of ha, M.run_pure]

theorem M.recordOk_of (h : va.toNat % 64 = 0) : M.recordOk va = pure () := M.check_of (decide_eq_true h) _

/-- Bytes 0 to 7 of a record without poison, read at its home. -/
theorem M.readStatus_of (hx : M.xlatPage g.ctx .read [(0, .va va.toNat)] u = .ok ([(0, .pa pa)], v))
    (hold : (v.atomicHome (.group k) pa 8 (fun _ => none) false).1 = some w) :
    M.readStatus k g va u = .ok (w, (v.atomicHome (.group k) pa 8 (fun _ => none) false).2) := by
  simp only [M.readStatus, M.run_bind, hx, M.run_run', hold, M.run_pure]

end

section
variable {s v : State} {k : GKey} {g : Group} {f : Fields} {i : Instr} {pa w : Nat}

/-- An instruction names a status record: its address is clean and aligned, and its page answers (10 R184, 12 R241). -/
structure NamesRecord (s v : State) (k : GKey) (g : Group) (f : Fields) (i : Instr) (acc : Access) (pa : Nat) : Prop where
  free : Free s k g i
  clean : (g.ssrc f true f.a).tag = none
  aligned : ((g.ssrc f true f.a).val + offsetOf false f).toNat % 64 = 0
  xlat : M.xlatPage g.ctx acc [(0, .va ((g.ssrc f true f.a).val + offsetOf false f).toNat)] (entered s k g i) =
    .ok ([(0, .pa pa)], v)

/-- CPREC gives bytes 0 to 7 of the record. -/
theorem exec_cprec_reads (h : NamesRecord s v k g f (.cprec f) .read pa)
    (hold : (v.atomicHome (.group k) pa 8 (fun _ => none) false).1 = some w) :
    exec (.cprec f) s = thenRegs (v.atomicHome (.group k) pa 8 (fun _ => none) false).2 k (.cprec f) fun y =>
      y.sdst f.d { val := BitVec.ofNat 64 w } := by
  refine runM_of h.free.toReady rfl rfl rfl (fun hpriv => Bool.noConfusion hpriv) ?_
  have hbase := M.recordBase_entered (s := s) (k := k) (i := .cprec f) rfl rfl h.clean
  have hread (r : Row) := M.readStatus_of (g := g.enter r f) h.xlat hold
  simp only [M.run_bind, M.noSpec_entered h.free.toReady rfl rfl, M.noFence_entered h.free rfl rfl, hbase,
    M.recordOk_of h.aligned, M.run_pure, hread, M.run_onGroup]

/-- CWAITP has met its count: no more planes than the record's K, of those that KMAX allows. -/
def planesMet (planes : Word64) (w : Nat) : Bool := decide (min planes.toNat (bitsNat w 31 24) ≤ w % 2 ^ 16)

/-- The condition of CWAITP on a record that shows its count, or CANCELLED or FAILED. -/
theorem tryCwaitp_ends (h : NamesRecord s v k g f (.cwaitp f) .read pa) (hb : (g.ssrc f true f.b).tag = none)
    (hold : (v.atomicHome (.group k) pa 8 (fun _ => none) false).1 = some w)
    (hends : planesMet (g.ssrc f true f.b).val w = true ∨ bitsNat w 23 16 = stCancelled ∨ bitsNat w 23 16 = stFailed) :
    tryCwaitp f k (entered s k g (.cwaitp f)) =
      .ok (true, (v.atomicHome (.group k) pa 8 (fun _ => none) false).2.onGroup k fun x =>
        { x with regs := (x.regs.pall f.d (planesMet (g.ssrc f true f.b).val w)).pfill (ptOf f) false }) := by
  have hbase := M.recordBase_entered (s := s) (k := k) (i := .cwaitp f) rfl rfl h.clean
  have hread (r : Row) := M.readStatus_of (g := g.enter r f) h.xlat hold
  unfold planesMet at hends ⊢
  rw [← or_assoc] at hends
  simp only [tryCwaitp, M.run_bind, hbase, Group.enter_ssrc, M.clean_of hb, M.recordOk_of h.aligned, M.run_pure, hread]
  rw [if_pos (by simpa only [Bool.or_eq_true, decide_eq_true_eq] using hends)]
  simp only [M.run_bind, M.run_onGroup, M.run_pure]

/-- CWAITP ends at its issue where its condition holds, its timeout predicate zeros. -/
theorem exec_cwaitp_ends {limit : Option Nat} (h : NamesRecord s v k g f (.cwaitp f) .read pa)
    (hb : (g.ssrc f true f.b).tag = none) (hc : timeoutIs g f f.c limit)
    (hold : (v.atomicHome (.group k) pa 8 (fun _ => none) false).1 = some w)
    (hends : planesMet (g.ssrc f true f.b).val w = true ∨ bitsNat w 23 16 = stCancelled ∨ bitsNat w 23 16 = stFailed) :
    exec (.cwaitp f) s = thenRegs (v.atomicHome (.group k) pa 8 (fun _ => none) false).2 k (.cwaitp f) fun y =>
      (y.pall f.d (planesMet (g.ssrc f true f.b).val w)).pfill (ptOf f) false := by
  refine runM_of h.free.toReady rfl rfl rfl (fun hpriv => Bool.noConfusion hpriv) ?_
  have hbase := M.recordBase_entered (s := s) (k := k) (i := .cwaitp f) rfl rfl h.clean
  have htimeout (r : Row) : M.timeout (g.enter r f) f f.c = pure limit := M.timeout_of hc
  simp only [M.run_bind, M.gate_entered h.free rfl rfl, hbase, Group.enter_ssrc, M.clean_of hb, htimeout,
    M.recordOk_of h.aligned, M.run_pure]
  exact M.wait_met (tryCwaitp_ends h hb hold hends)

/-! ### CCAN (12 R235) -/

/-- A tile may still be cancelled: its record's STATE is WAITING or REFINING. -/
def mayCancel (w : Nat) : Bool := decide (bitsNat w 23 16 ≤ stRefining)

/-- The atomic of CCAN on a command's record: it shows CANCELLED and its canceller where the tile may still be cancelled. -/
def State.cancelStatus (v : State) (k : GKey) (pa who : Nat) : Option Nat × State :=
  v.atomicHome (.group k) pa 12 (fun x => if mayCancel x then some (statusCancelled x who) else none) false

/-- CCAN on the record of a command cancels the tile where it may still be cancelled. -/
theorem exec_ccan_owned {c : Cmd} {y : CollCmd} {n : Nat} (h : NamesRecord s v k g f (.ccan f) .rmw pa)
    (howner : v.ownerOf pa = some (c, y, n)) (hold : (v.cancelStatus k pa (Comm.self y.comm)).1 = some w) :
    exec (.ccan f) s = thenRegs
      (if mayCancel w then (v.cancelStatus k pa (Comm.self y.comm)).2.noteCancel c.key n (Comm.self y.comm)
        else (v.cancelStatus k pa (Comm.self y.comm)).2) k (.ccan f) fun z => z.pall f.d (mayCancel w) := by
  refine runM_of h.free.toReady rfl rfl rfl (fun hpriv => Bool.noConfusion hpriv) ?_
  have hbase := M.recordBase_entered (s := s) (k := k) (i := .ccan f) rfl rfl h.clean
  unfold State.cancelStatus mayCancel at hold ⊢
  simp only [M.run_bind, M.gate_entered h.free rfl rfl, hbase, M.recordOk_of h.aligned, M.run_pure, Group.enter_ctx, h.xlat,
    M.run_run', howner, Option.isSome_some, Bool.true_and, hold, M.run_modify, M.run_onGroup]

/-- CCAN on a record that no running command owns changes none and gives false. -/
theorem exec_ccan_unowned (h : NamesRecord s v k g f (.ccan f) .rmw pa) (howner : v.ownerOf pa = none)
    (hold : (v.atomicHome (.group k) pa 12 (fun _ => none) false).1 = some w) :
    exec (.ccan f) s = thenRegs (v.atomicHome (.group k) pa 12 (fun _ => none) false).2 k (.ccan f) fun z =>
      z.pall f.d false := by
  refine runM_of h.free.toReady rfl rfl rfl (fun hpriv => Bool.noConfusion hpriv) ?_
  have hbase := M.recordBase_entered (s := s) (k := k) (i := .ccan f) rfl rfl h.clean
  simp only [M.run_bind, M.gate_entered h.free rfl rfl, hbase, M.recordOk_of h.aligned, M.run_pure, Group.enter_ctx, h.xlat,
    M.run_run', howner, Option.isSome_none, Bool.false_and, Bool.false_eq_true, if_false, hold, M.run_modify, M.run_onGroup]

end

/-! ### What a cancelled record shows (12 R233, R235) -/

/-- K, in bits 15 to 0, stands. -/
theorem statusCancelled_planes (x who : Nat) : statusCancelled x who % 2 ^ 16 = x % 2 ^ 16 := by
  unfold statusCancelled; omega

theorem statusCancelled_state (x who : Nat) : bitsNat (statusCancelled x who) 23 16 = stCancelled := by
  unfold statusCancelled bitsNat stCancelled; omega

/-- CANCELLER stands in bytes 8 to 11. -/
theorem statusCancelled_canceller (x who : Nat) : statusCancelled x who / 2 ^ 64 = who % 2 ^ 32 := by
  unfold statusCancelled bitsNat stCancelled; omega

/-! ### The obligation -/

/-- Settles O22: COLL, then CPREC, CWAITP and CCAN on the record that each names, then what a cancelled record shows. -/
theorem collectiveIssue : Obligations.CollectiveIssue := by
  unfold Obligations.CollectiveIssue
  intro s t v u1 u2 u3 u4 u5 k g f i x num desc comm table aux seq w pa limit a b u tl prog cmd key va at_ old met stop
  have hnames {i : Instr} {acc : Access} : at_ i acc → NamesRecord s v k g f i acc pa :=
    fun ⟨hfree, hclean, haligned, hxlat⟩ => ⟨hfree, hclean, haligned, hxlat⟩
  refine ⟨?coll, fun h => exec_cprec_reads (hnames h), fun h => exec_cwaitp_ends (hnames h),
    fun c y n h howner => exec_ccan_owned (hnames h) howner, fun h howner => exec_ccan_unowned (hnames h) howner,
    fun x who => ⟨statusCancelled_state x who, statusCancelled_planes x who, statusCancelled_canceller x who⟩⟩
  case coll =>
    intro hi hfree ha hb haligned hbligned hdesc hcomm htable haux hinst hparts hlegal hprob hseq hissue
    obtain ⟨hexec, hf, r, hr⟩ := exec_coll hi s
    rw [hexec]
    exact runM_coll_issues hr hf hfree ⟨ha, hb, haligned, hbligned, hdesc, hcomm, htable, haux⟩ hinst
      ⟨hparts, hlegal, hprob⟩ hseq hissue

end Sys2Proof.Machine
